-- ==== Sys2Proof/Word.lean ====
section
/-! DEFINITION. The words of the GL260: the bit vectors the manual treats as bits (generations, tags, clock values,
names) and the bounded indexes of its fixed arrays. Numbers that the manual only counts or compares (blocks, tokens,
lengths in milliseconds) are `Nat`. -/

namespace Sys2Proof

/-- One byte of a frame or of a Maintenance Port item (R185). -/
abbrev Byte := BitVec 8

/-- A request's tag, or a notice's sequence number: 16 bits (R164, R185). -/
abbrev Tag := BitVec 16

/-- A value of the 32-bit lease clock; a deadline is one (R102, R103). -/
abbrev Time := BitVec 32

/-- The generation of a slot, counted modulo 256 (R2, R5). -/
abbrev Gen := BitVec 8

/-- A requester name: 64 bits (R77). -/
abbrev Name := BitVec 64

/-- Requester Ports RP0 to RP5 (R145). -/
abbrev PortId := Fin 6

/-- Session indexes 0 to 11 (R76). -/
abbrev SessionId := Fin 12

/-- Volume numbers 0 to 31 (R116). -/
abbrev VolumeId := Fin 32

/-- Positions 0 to 9 of the claim arbiter's ring (R20). -/
abbrev RingPos := Fin 10

end Sys2Proof
end

