-- ==== Sys2Proof/Config.lean ====
section
/-! DEFINITION. The fixed quantities of the part (chapter 0.7) and the power-on defaults of its configuration
(R177, Table 10-2), and the one value of a result that the manual leaves open. -/

namespace Sys2Proof.Config

/-- Lease slots (R1). -/
abbrev slots : Nat := 4096
/-- Slots in one section (R1). -/
abbrev sectionSlots : Nat := 256
/-- Entries of the wait pool (R40). -/
abbrev poolEntries : Nat := 512
/-- Answers kept in one session's answer cache (R27). -/
abbrev cacheEntries : Nat := 16
/-- Notices kept in one session's notice queue (R164). -/
abbrev noticePlaces : Nat := 16
/-- Places of a port's answer queue (R159). -/
abbrev answerPlaces : Nat := 40
/-- Places of the gate's query queue, and of its refusal store (R133, R134). -/
abbrev gatePlaces : Nat := 8
/-- Entries in a QUERY or LIST answer (R72, R73). -/
abbrev reportEntries : Nat := 8
/-- Where the 16-bit counters stop (R105, R132, R142, R145). -/
abbrev countMax : Nat := 65535
/-- Where an alert's repeat count stops (R179). -/
abbrev repeatMax : Nat := 255
/-- The fence counter's last value, at which the volume is exhausted (R116, R127). -/
abbrev lastToken : Nat := 4294967295
/-- The last session number; a counter above it is exhausted (R80). -/
abbrev lastSessionNumber : Nat := 4294967295
/-- Largest volume size, in blocks (R119). -/
abbrev maxSize : Nat := 1099511627776
/-- Bounds of a hold length in ms (R28). -/
abbrev minHold : Nat := 10
/-- Bounds of a hold length in ms (R28). -/
abbrev maxHold : Nat := 3600000
/-- Largest wait limit in ms (R28). -/
abbrev maxWait : Nat := 60000
/-- Bad frames in a row that take a link DOWN (R131, R147). -/
abbrev errorRunMax : Nat := 8
/-- Silence in ms that takes a link DOWN (R131, R147). -/
abbrev silenceMax : Nat := 2
/-- The Maintenance Port's target address with all straps 0 (R172). -/
abbrev baseAddress : Nat := 0x2C

/-- Default window maximum of a port (R177). -/
abbrev defaultWindow : Nat := 8
/-- Default quota of a port (R177). -/
abbrev defaultQuota : Nat := 1024
/-- Default session term of a port in ms (R177). -/
abbrev defaultTerm : Nat := 1000
/-- Default orphan grace of a port in ms (R177). -/
abbrev defaultGrace : Nat := 5000
/-- Default recall limit in ms, 0 being off (R177). -/
abbrev defaultRecall : Nat := 0
/-- Default occupancy alert threshold (R177). -/
abbrev defaultThreshold : Nat := 3584

/-- What the `n`-th read of the write-only item 5Bh returns: the manual states no value, so nothing constrains this one
(R172, R188; notes/assumptions/28.md). -/
opaque writeOnlyRead : Nat → Byte

end Sys2Proof.Config
end

