-- ==== Sys2Proof/Syntax.lean ====
section
/-! DEFINITION. The commands of the GL260, one constructor for each row of spec/opcode_table.json, with the operands the
model gives them (the table gives none). A command that the Lease Engine runs when it takes a claim has no operand: the
claim itself is state, and the arbiter says which one is presented (R20, R21; notes/assumptions/2.md). -/

namespace Sys2Proof

/-- A link that sends HELLO frames: one of the Requester Ports, or the Gate Port (R131, R146). -/
inductive LinkRef where
  | rp (p : PortId)
  | gate
deriving DecidableEq, Repr

/-- The kinds of good frame that a Requester Port discards (R146, R148). A REQUEST is discarded in TRAINING only. -/
inductive RpDiscard where
  | request
  | answer
  | notice
deriving DecidableEq, Repr

/-- The kinds of good frame that the Gate Port discards (R131, R185). A QUERY is discarded in TRAINING only. -/
inductive GateDiscard where
  | answer
  | query
deriving DecidableEq, Repr

/-- A read transfer on the Maintenance Port: it gives `bytes` bytes. With `goesOn` the transfer in progress goes on;
otherwise a new one begins (R172; notes/assumptions/17.md, 25.md). -/
structure ReadTransfer where
  goesOn : Bool
  bytes : Nat
deriving DecidableEq, Repr

/-- One command: a row of spec/opcode_table.json with its operands. -/
inductive Instr where
  /-- RESET_N is taken low (R189). -/
  | powerOnReset
  /-- RESET_N is released while the strap pins ADDR2..ADDR0 read `straps` (R172, R173, R189). -/
  | resetRelease (straps : BitVec 3)
  /-- The engine has cleared every slot (R24, R173). -/
  | startupComplete
  /-- A REQUEST frame with this tag and body, good but for its body length, arrives on port `p` (R148, R152 to R157). -/
  | requestIntake (p : PortId) (tag : Tag) (body : List Byte)
  /-- A KEEPALIVE request frame arrives on port `p` (R157). -/
  | keepalive (p : PortId) (tag : Tag)
  /-- A NOTICE_ACK request frame for sequence number `seq` arrives on port `p` (R157, R168). -/
  | noticeAck (p : PortId) (tag : Tag) (seq : BitVec 16)
  /-- The engine takes a JOIN (R81). -/
  | join
  /-- The engine takes an ACQUIRE (R29). -/
  | acquire
  /-- The engine takes a CONVERT (R34). -/
  | convert
  /-- The engine takes a RENEW (R62). -/
  | renew
  /-- The engine takes a RELEASE (R58). -/
  | release
  /-- The engine takes a CANCEL (R51). -/
  | cancel
  /-- The engine takes a QUERY (R71). -/
  | query
  /-- The engine takes a LIST (R73). -/
  | list
  /-- The engine takes a DEPART (R95). -/
  | depart
  /-- The lease clock advances and the sweep timer expires (R102, R105). -/
  | sweepTimerExpiry
  /-- The engine takes a visit claim (R107). -/
  | sweepVisit
  /-- The term timer of session `i` is judged (R86, R114). -/
  | termTimerExpiry (i : SessionId)
  /-- The grace timer of session `i` is judged (R92, R114). -/
  | graceTimerExpiry (i : SessionId)
  /-- The engine takes a loss claim (R88). -/
  | lossClaim
  /-- The engine takes a link-lost claim (R89). -/
  | linkLostClaim
  /-- The engine takes a grace claim (R92). -/
  | graceClaim
  /-- The engine takes a purge claim (R98). -/
  | purgeSection
  /-- The engine takes a DEFINE command (R119). -/
  | define
  /-- The engine takes an ONLINE command (R120). -/
  | online
  /-- The engine takes a FREEZE command (R121). -/
  | freeze
  /-- The engine takes a THAW command (R123). -/
  | thaw
  /-- The engine takes an OFFLINE command (R124). -/
  | offline
  /-- The engine takes an OFFLINE-FORCE command (R125). -/
  | offlineForce
  /-- The engine takes a REVOKE command (R69). -/
  | revoke
  /-- The engine takes a CLOSE-SESSION command (R94). -/
  | closeSession
  /-- The engine takes a PORT-RESET command (R151). -/
  | portReset
  /-- The engine takes a TABLE-CLEAR command (R178). -/
  | tableClear
  /-- The engine takes a SET-CONFIG command (R177). -/
  | setConfig
  /-- A write transfer of item `item` with these data bytes (R172, R174). -/
  | registerWrite (item : Byte) (data : List Byte)
  /-- A read transfer from the item under the pointer, the alert item among them (R172, R181, R182). -/
  | alertRead (transfer : ReadTransfer)
  /-- A write of the record-window selector (R183). -/
  | recordWindowSelect (kind : Byte) (index : BitVec 16)
  /-- A valid HELLO frame arrives on port `p` (R146). -/
  | helloReceive (p : PortId)
  /-- A frame that fails its check arrives on port `p` (R148). -/
  | badFrame (p : PortId)
  /-- A good frame that is discarded arrives on port `p` (R146, R148). -/
  | discardedFrame (p : PortId) (kind : RpDiscard)
  /-- 2 ms pass on port `p` without a valid symbol (R147). -/
  | linkSilenceTimeout (p : PortId)
  /-- The moment of this millisecond at which the link sends a HELLO if it has sent no other frame (R131, R146, R147). -/
  | helloTransmit (l : LinkRef)
  /-- The transmitter of port `p` finishes its frame (R160). -/
  | frameTransmitComplete (p : PortId)
  /-- A valid HELLO frame arrives on the Gate Port (R131). -/
  | gateHelloReceive
  /-- A QUERY frame with this tag field and body, good but for its body length, arrives on the Gate Port (R133). -/
  | gateQuery (tag : BitVec 16) (body : List Byte)
  /-- The gate makes the lookup of the oldest query (R136). -/
  | gateLookup
  /-- The Gate Port's transmitter finishes an answer frame (R135). -/
  | gateAnswerSent
  /-- A frame that fails its check arrives on the Gate Port (R132). -/
  | gateBadFrame
  /-- 2 ms pass on the Gate Port without a valid symbol (R131). -/
  | gateLinkSilenceTimeout
  /-- A good frame that is discarded arrives on the Gate Port (R131, R185). -/
  | gateDiscardedFrame (kind : GateDiscard)
  /-- The engine takes a command whose code names no command (R175). -/
  | badCommand
deriving DecidableEq, Repr

end Sys2Proof
end

