-- ==== Sys2Proof/Machine/Types.lean ====
section
/-! DEFINITION. The records of the GL260: slots, wait entries, requests and answers, notices, sessions, volumes, ports,
gate, command slot and alerts. Plain data; the names are the manual's. -/

namespace Sys2Proof.Machine

/-- Link states of a Requester Port (R145) and of the Gate Port (R131). -/
inductive LinkState where
  | down | training | up
deriving DecidableEq, Repr

/-- Device states (R173). -/
inductive DeviceState where
  | starting | ready | clearing
deriving DecidableEq, Repr

/-- States of the Lease Engine (R18). -/
inductive EngineState where
  | idle | busy
deriving DecidableEq, Repr

/-- Lease modes (R12). -/
inductive Mode where
  | shared | exclusive
deriving DecidableEq, Repr

/-- Why a wait ended (Table 2-3, R163). -/
inductive WaitReason where
  | cancelled | timedOut | sessionEnded | volumeOffline | leaseGone
deriving DecidableEq, Repr

/-- Why a lease was revoked (Table 3-1, R163). -/
inductive RevokeReason where
  | recallLimit | maintenance | volumeOffline
deriving DecidableEq, Repr

/-- A handle: slot number and generation (chapter 1.1.3). -/
structure Handle where
  slot : Nat
  gen : Gen
deriving DecidableEq, Repr

/-! ### The Lease Table -/

/-- The record of a parked upgrade (R2, R9). -/
structure PendingUpgrade where
  tag : Tag
  waitDeadline : Option Time
deriving DecidableEq, Repr

/-- The recall mark, with its deadline when the recall limit was configured at the marking (R10). -/
structure RecallMark where
  deadline : Option Time
deriving DecidableEq, Repr

/-- The fields that a PENDING and a HELD slot both have (R2). `holdLength` is present when the slot is timed. -/
structure Lease where
  owner : SessionId
  volume : VolumeId
  start : Nat
  count : Nat
  mode : Mode
  holdLength : Option Nat
  originTag : Tag
deriving DecidableEq, Repr

/-- The fields that a HELD slot has besides (R2). -/
structure Tenure where
  token : Option Nat
  holdDeadline : Option Time
  upgrade : Option PendingUpgrade
  recallMark : Option RecallMark
  gateUse : Nat
deriving DecidableEq, Repr

/-- A slot's state with the fields present in it (R1, R2): a PENDING slot has a wait deadline when its ACQUIRE gave a
wait limit. -/
inductive SlotBody where
  | free
  | pending (lease : Lease) (waitDeadline : Option Time)
  | held (lease : Lease) (tenure : Tenure)
deriving DecidableEq, Repr

/-- One slot: the generation is always present (R2). Its number is its place in the table. -/
structure Slot where
  gen : Gen
  body : SlotBody
deriving DecidableEq, Repr

/-- The Lease Table, sparse (notes/assumptions/18.md): the listed slots in rising slot number, and `freeGen`, the
generation of every slot that is not listed, all of which are FREE. -/
structure SlotTable where
  freeGen : Gen
  entries : List (Nat × Slot)
deriving DecidableEq, Repr

/-! ### Wait entries and volumes -/

/-- Kinds of wait entry (R40). -/
inductive WaitKind where
  | acquire | upgrade
deriving DecidableEq, Repr

/-- A wait entry in use (R40). -/
structure WaitEntry where
  kind : WaitKind
  slot : Nat
  volume : VolumeId
  arrival : BitVec 32
deriving DecidableEq, Repr

/-- Volume states (R117). -/
inductive VolumeState where
  | offline | online | frozen
deriving DecidableEq, Repr

/-- A volume record (R116). -/
structure Volume where
  state : VolumeState
  size : Nat
  fence : Nat
deriving DecidableEq, Repr

/-- The lease structures of the engine (R18), which its steps change and readers see whole (R23). -/
structure Tables where
  slots : SlotTable
  index : Vector (List Nat) 32
  occupancy : Nat
  slotCounts : Vector Nat 12
  pool : List (Nat × WaitEntry)
  waitLists : Vector (List Nat) 32
  arrival : BitVec 32
  volumes : Vector Volume 32
deriving DecidableEq, Repr

/-! ### Requests and answers -/

/-- Request kinds (R153). -/
inductive ReqKind where
  | join | keepalive | acquire | convert | renew | release | cancel | query | list | noticeAck | depart
deriving DecidableEq, Repr

/-- The fields of an ACQUIRE (chapter 2.2). -/
structure AcquireReq where
  volume : Nat
  start : Nat
  count : Nat
  mode : Mode
  noWait : Bool
  hold : Option Nat
  waitLimit : Option Nat
deriving DecidableEq, Repr

/-- The fields of a CONVERT (chapter 2.3). -/
structure ConvertReq where
  handle : Handle
  mode : Mode
  noWait : Bool
  waitLimit : Option Nat
deriving DecidableEq, Repr

/-- A request body as R186 reads it: a kind the part does not know, a known kind that is not well formed, or a
well-formed request with its fields. -/
inductive ReqBody where
  | unknown (code : Byte)
  | malformed (kind : ReqKind)
  | join (name : Name) (window : Nat) (reclaim : Option Nat)
  | keepalive
  | acquire (a : AcquireReq)
  | convert (c : ConvertReq)
  | renew (h : Handle) (hold : Option Nat)
  | release (h : Handle)
  | cancel (tag : Tag)
  | query (volume start count : Nat)
  | list (cursor : Nat)
  | noticeAck (seq : BitVec 16)
  | depart
deriving DecidableEq, Repr

/-- A request in a port's inbox (R158). -/
structure Request where
  tag : Tag
  body : ReqBody
deriving DecidableEq, Repr

/-- Answer statuses (R186, Table 11-4). -/
inductive Status where
  | ok | parked | noCredit | noSession | alreadyJoined | nameInUse | noSessionSlot | reclaimFailed | busy
  | badVolume | badRange | selfOverlap | quota | tableFull | waitFull | conflict | staleHandle | notOwner
  | sameMode | upgradeConflict | notTimed | tooLate | notParked | cancelled | badRequest
deriving DecidableEq, Repr

/-- One entry of a QUERY answer (R72). -/
structure QueryEntry where
  holder : Name
  mode : Mode
  start : Nat
  count : Nat
deriving DecidableEq, Repr

/-- The result fields of an answer (R186, Table 11-5). -/
inductive Result where
  | empty
  | joined (number window quota : Nat)
  | lease (h : Handle) (mode : Mode) (token : Option Nat)
  | renewed (h : Handle) (hold : Nat) (deadline : Time)
  | handle (h : Handle)
  | waitEnd (reason : WaitReason)
  | leases (entries : List QueryEntry) (more : Bool)
  | slots (entries : List (Nat × Slot)) (next : Option Nat)
deriving DecidableEq, Repr

/-- An entry of the answer cache: tag, request kind and final answer (R27). -/
structure CacheEntry where
  tag : Tag
  kind : ReqKind
  status : Status
  result : Result
deriving DecidableEq, Repr

/-- An answer waiting for the transmitter (R161); `code` is the kind code it echoes (R186). -/
structure Answer where
  tag : Tag
  code : Byte
  status : Status
  replay : Bool
  result : Result
deriving DecidableEq, Repr

/-! ### Notices and sessions -/

/-- Notices (R163, Table 9-1). -/
inductive Notice where
  | granted (tag : Tag) (h : Handle) (mode : Mode) (volume : VolumeId) (start count : Nat) (token : Option Nat)
  | waitEnded (tag : Tag) (reason : WaitReason)
  | recall (h : Handle)
  | revoked (h : Handle) (reason : RevokeReason)
  | expired (h : Handle)
  | resync
deriving DecidableEq, Repr

/-- A queued notice with its sequence number and its mark: sent, or waiting (R164). -/
structure QueuedNotice where
  seq : BitVec 16
  notice : Notice
  sent : Bool
deriving DecidableEq, Repr

/-- Session states (R76). -/
inductive SessionState where
  | free | active | orphaned | closing
deriving DecidableEq, Repr

/-- Close kinds (R77, R93). -/
inductive CloseKind where
  | depart | purge
deriving DecidableEq, Repr

/-- How a tag of the outstanding set is marked (Table 2-1). -/
inductive TagMark where
  | queued | parked
deriving DecidableEq, Repr

/-- A session timer with its deadline, absent in STOPPED (R86, R92). -/
inductive SessionTimer where
  | stopped
  | running (deadline : Time)
  | expired (deadline : Time)
deriving DecidableEq, Repr

/-- A session record (R77). Its index is its place in the Session Table and its slot count stands in
`Tables.slotCounts`. `round` is the model's own: how often the send position has returned to the oldest notice (R167;
notes/assumptions/9.md). A FREE record holds 0, empty or none in the fields it does not have (notes/assumptions/21.md). -/
structure Session where
  state : SessionState
  name : Name
  number : Nat
  port : Option PortId
  window : Nat
  outstanding : List (Tag × TagMark)
  cache : List CacheEntry
  quota : Nat
  term : SessionTimer
  grace : SessionTimer
  queue : List QueuedNotice
  nextSeq : BitVec 16
  overflow : Bool
  closeKind : Option CloseKind
  round : Nat
deriving DecidableEq, Repr

/-- A FREE session record (R77, R99). -/
def Session.freed : Session :=
  { state := .free, name := 0, number := 0, port := none, window := 0, outstanding := [], cache := [], quota := 0,
    term := .stopped, grace := .stopped, queue := [], nextSeq := 0, overflow := false, closeKind := none,
    round := 0 }

/-- Kinds of Timers claim (R21). -/
inductive TimerKind where
  | loss | linkLost | grace
deriving DecidableEq, Repr

/-- A claim in the Timers queue (R87). A link-lost claim keeps the ports whose loss raised it (R89;
notes/assumptions/12.md). -/
structure TimerClaim where
  kind : TimerKind
  session : SessionId
  number : Nat
  ports : List PortId
deriving DecidableEq, Repr

/-! ### Ports and the gate -/

/-- A frame that a Requester Port's transmitter is sending (R160). A notice frame keeps the session it belongs to and the
round of sending it was begun in (R166, R167). -/
inductive TxFrame where
  | hello
  | answer (a : Answer)
  | notice (session : SessionId) (number round : Nat) (seq : BitVec 16) (n : Notice)
deriving DecidableEq, Repr

/-- A Requester Port (R145), with its transmitter (R160). -/
structure Port where
  link : LinkState
  helloCount : Nat
  silence : Nat
  errorRun : Nat
  badFrames : Nat
  inbox : List Request
  answers : List Answer
  tx : Option TxFrame
  sentThisMs : Bool
deriving DecidableEq, Repr

/-- What a media command does to the blocks (R133, R187). -/
inductive Access where
  | read | write | other
deriving DecidableEq, Repr

/-- A gate query (R133). -/
structure GateQuery where
  number : Byte
  path : Nat
  volume : Nat
  start : Nat
  count : Nat
  access : Access
  token : Nat
deriving DecidableEq, Repr

/-- Gate answer codes (R187). -/
inductive GateCode where
  | allow | denyFormat | denySession | denyVolume | denyUncovered | denyMode | denyToken | refusedFull
deriving DecidableEq, Repr

/-- A gate answer with its query number. `fromQueue` says that it answers the oldest query of the queue and not a query
refused for want of a place (R134). -/
structure GateReply where
  number : Byte
  code : GateCode
  fromQueue : Bool
deriving DecidableEq, Repr

/-- The Gate Port with its query queue and the answers that wait for its transmitter (R131 to R135). -/
structure Gate where
  link : LinkState
  helloCount : Nat
  silence : Nat
  errorRun : Nat
  badFrames : Nat
  queue : List GateQuery
  replies : List GateReply
  tx : Option GateReply
  sentThisMs : Bool
deriving DecidableEq, Repr

/-! ### The Maintenance Port -/

/-- The per-port configuration (R177, Table 10-2). -/
structure PortConfig where
  enable : Bool
  windowMax : Nat
  quota : Nat
  sessionTerm : Nat
  orphanGrace : Nat
deriving DecidableEq, Repr

/-- Refusal reasons of a command (R175). -/
inductive Reason where
  | notReady | badCommand | badArgument | badState | slotsPresent | noSize | exhausted | notHeld
deriving DecidableEq, Repr

/-- The command status with its reason (R174). -/
inductive CmdStatus where
  | idle | busy | done
  | refused (r : Reason)
deriving DecidableEq, Repr

/-- The waiting command: the code and the argument items as captured at acceptance (R174, R188). -/
structure Command where
  code : Byte
  arg1 : BitVec 16
  arg2 : Byte
  arg3 : BitVec 48
deriving DecidableEq, Repr

/-- Alert kinds (R179). -/
inductive AlertKind where
  | sessionOrphaned | sessionClosed | leaseRevoked | leaseExpired | tableHigh | fenceExhausted | noticeOverflow
  | linkDown
deriving DecidableEq, Repr

/-- Alert sources (R179). -/
inductive AlertSource where
  | port (p : PortId)
  | session (i : SessionId)
  | volume (v : VolumeId)
  | device
deriving DecidableEq, Repr

/-- An alert record (R179). -/
structure AlertRecord where
  kind : AlertKind
  source : AlertSource
  repeats : Nat
deriving DecidableEq, Repr

/-- The copy that the record window shows (R183). A SESSION copy keeps the record's slot count, its place in the purge
queue and, for the job's subject, the next section. -/
inductive RecordCopy where
  | slot (n : Nat) (s : Slot)
  | waitEntry (e : Option WaitEntry)
  | session (s : Session) (slotCount : Nat) (place : Option Nat) (nextSection : Option Nat)
  | volume (v : Volume)
deriving DecidableEq, Repr

end Sys2Proof.Machine
end

