-- ==== Sys2Proof/Machine/State.lean ====
section
/-! DEFINITION. The state of the GL260, the reasons a step could stop, and the state of power-on reset. INVENTORY.md
lists every field with the rule that names it. -/

namespace Sys2Proof.Machine

/-- The whole state of the part, and the queue of commands that wait for it. -/
structure State where
  /-- The RESET_N pin: `true` is high, released (R189). -/
  resetN : Bool
  /-- The ALERT_N output: `true` is high, released (R181). -/
  alertN : Bool
  /-- The I2C target address sampled from the straps (R172). -/
  address : BitVec 7
  /-- The lease clock (R102). -/
  clock : Time
  /-- The device state (R173). -/
  device : DeviceState
  /-- The Lease Table, Extent Index, wait lists, wait pool, counts and Volume Table (R18). -/
  tab : Tables
  /-- The engine's state between commands; each step is one command, so it is IDLE (R18; notes/assumptions/2.md). -/
  engine : EngineState
  /-- The arbiter's last served position (R20). -/
  lastServed : RingPos
  /-- The Session Table with the session timers (R76, R77, R86, R92). -/
  sessions : Vector Session 12
  /-- The session-number counter; above `Config.lastSessionNumber` it is exhausted (R80). -/
  nextNumber : Nat
  /-- The Timers claimant's queue, oldest first (R21, R87). -/
  timersQueue : List TimerClaim
  /-- A visit claim is pending (R105). -/
  visitPending : Bool
  /-- The sweep pointer (R106). -/
  sweepPtr : Fin 16
  /-- The sweep slip count (R105). -/
  slips : Nat
  /-- The CLOSING sessions in the order they became so (R97). -/
  purgeQueue : List SessionId
  /-- The purge job's next section (R97). -/
  purgeSection : Nat
  /-- Requester Ports RP0 to RP5 (R145). -/
  ports : Vector Port 6
  /-- The Gate Port and the query queue (R131, R133). -/
  gate : Gate
  /-- The per-port configuration (R177). -/
  config : Vector PortConfig 6
  /-- The recall limit in ms, 0 being off (R177). -/
  recallLimit : Nat
  /-- The occupancy alert threshold (R177). -/
  occThreshold : Nat
  /-- The item pointer (R172). -/
  itemPtr : Byte
  /-- The bytes of the item being read that have been latched and not read yet; empty between items (R181, R182). -/
  readLatch : List Byte
  /-- The bytes that the last read command returned on the bus (R172; notes/assumptions/25.md). -/
  readOut : List Byte
  /-- How often the write-only item 5Bh has been read, which selects the free value it returns
  (notes/assumptions/28.md). -/
  openReads : Nat
  /-- Argument item 58h (R188). -/
  arg1 : BitVec 16
  /-- Argument item 59h (R188). -/
  arg2 : Byte
  /-- Argument item 5Ah (R188). -/
  arg3 : BitVec 48
  /-- The command status with its reason (R174). -/
  cmdStatus : CmdStatus
  /-- The last command code (R174). -/
  lastCode : Byte
  /-- The OVERRUN indicator (R174). -/
  overrun : Bool
  /-- The command in hand was accepted after OVERRUN was set, so its completion clears it (R174; notes/assumptions/16.md). -/
  overrunClears : Bool
  /-- The waiting command (R174). -/
  waiting : Option Command
  /-- The alert set, oldest first (R179). -/
  alerts : List AlertRecord
  /-- The record-window selector's kind byte (R183). -/
  selKind : Byte
  /-- The record-window selector's index (R183). -/
  selIndex : BitVec 16
  /-- The captured copy; `none` while the selector is invalid (R183). -/
  window : Option RecordCopy
  /-- The commands that wait, oldest first. -/
  pending : List Instr
deriving DecidableEq, Repr

/-- Reasons for the machine to stop. There are none: no rule of the manual stops the part, and every malformed frame,
refused request and refused command has the answer or the discard that its rule gives (R132, R148, R161, R175). -/
inductive Fault where
deriving DecidableEq, Repr

/-- Reasons to reject a command. -/
inductive Refusal where
  /-- Raised by an arm of `exec` for a command that has no meaning yet. No arm raises it now. Safe: the model stops where
  the part goes on. -/
  | notModelled (mnemonic : String)
deriving DecidableEq, Repr

/-- The Lease Table with every slot FREE and generation 0 (R24). -/
def SlotTable.cleared : SlotTable := { freeGen := 0, entries := [] }

/-- The lease structures at power-on reset (R24, R56, R130). -/
def Tables.reset : Tables :=
  { slots := SlotTable.cleared, index := Vector.replicate 32 [], occupancy := 0, slotCounts := Vector.replicate 12 0,
    pool := [], waitLists := Vector.replicate 32 [], arrival := 0,
    volumes := Vector.replicate 32 { state := .offline, size := 0, fence := 0 } }

/-- A Requester Port at power-on reset (R162). -/
def Port.reset : Port :=
  { link := .down, helloCount := 0, silence := 0, errorRun := 0, badFrames := 0, inbox := [], answers := [], tx := none,
    sentThisMs := false }

/-- The Gate Port at power-on reset (R144). -/
def Gate.reset : Gate :=
  { link := .down, helloCount := 0, silence := 0, errorRun := 0, badFrames := 0, queue := [], replies := [], tx := none,
    sentThisMs := false }

/-- The defaults of the per-port configuration (R177, Table 10-2). -/
def PortConfig.default : PortConfig :=
  { enable := true, windowMax := Config.defaultWindow, quota := Config.defaultQuota,
    sessionTerm := Config.defaultTerm, orphanGrace := Config.defaultGrace }

/-- Power-on reset, with RESET_N still low (R24, R56, R100, R115, R130, R144, R162, R184, R189; notes/assumptions/3.md and
4.md). -/
def State.reset : State :=
  { resetN := false, alertN := true, address := BitVec.ofNat 7 Config.baseAddress, clock := 0, device := .starting,
    tab := Tables.reset, engine := .idle, lastServed := 9, sessions := Vector.replicate 12 Session.freed,
    nextNumber := 1, timersQueue := [], visitPending := false, sweepPtr := 0, slips := 0, purgeQueue := [],
    purgeSection := 0, ports := Vector.replicate 6 Port.reset, gate := Gate.reset,
    config := Vector.replicate 6 PortConfig.default, recallLimit := Config.defaultRecall,
    occThreshold := Config.defaultThreshold, itemPtr := 0, readLatch := [], readOut := [], openReads := 0, arg1 := 0, arg2 := 0, arg3 := 0,
    cmdStatus := .idle, lastCode := 0, overrun := false, overrunClears := false, waiting := none, alerts := [],
    selKind := 0, selIndex := 0, window := none, pending := [] }

end Sys2Proof.Machine
end

