-- ==== Sys2Proof/Machine/Operands.lean ====
section
/-! DEFINITION. The operand forms: numbers in bytes (R185), request bodies (R186, Table 11-3) and gate QUERY bodies
(R187). `parseRequest` is total: a body of a known kind that is not well formed is `.malformed`, any other kind code is
`.unknown`. -/

namespace Sys2Proof.Machine

/-- The number in a multi-byte field, most significant byte first (R185). -/
def beNat (bytes : List Byte) : Nat := bytes.foldl (fun acc b => acc * 256 + b.toNat) 0

/-- A number as `k` bytes, most significant byte first (R185). -/
def beBytes : Nat → Nat → List Byte
  | 0, _ => []
  | k + 1, n => BitVec.ofNat 8 (n / 256 ^ k) :: beBytes k n

/-- The `len` bytes of a body from offset `off`. -/
def field (body : List Byte) (off len : Nat) : List Byte := (body.drop off).take len

/-- The number in the field of `len` bytes at offset `off`. -/
def fieldNat (body : List Byte) (off len : Nat) : Nat := beNat (field body off len)

/-- A number as an index below `k`, if it is one. -/
def finOf (k n : Nat) : Option (Fin k) := if h : n < k then some ⟨n, h⟩ else none

/-- The kind codes of requests (R186, Table 11-3). -/
def ReqKind.code : ReqKind → Byte
  | .join => 0x01 | .keepalive => 0x02 | .acquire => 0x03 | .convert => 0x04 | .renew => 0x05 | .release => 0x06
  | .cancel => 0x07 | .query => 0x08 | .list => 0x09 | .noticeAck => 0x0A | .depart => 0x0B

/-- The request kind that a code names (R153, R186). -/
def ReqKind.ofCode (c : Byte) : Option ReqKind :=
  [ReqKind.join, .keepalive, .acquire, .convert, .renew, .release, .cancel, .query, .list, .noticeAck, .depart].find?
    (fun k => k.code = c)

/-- The kind of a parsed request; none for a kind the part does not know (R153). -/
def ReqBody.kind? : ReqBody → Option ReqKind
  | .unknown _ => none
  | .malformed k => some k
  | .join _ _ _ => some .join
  | .keepalive => some .keepalive
  | .acquire _ => some .acquire
  | .convert _ => some .convert
  | .renew _ _ => some .renew
  | .release _ => some .release
  | .cancel _ => some .cancel
  | .query _ _ _ => some .query
  | .list _ => some .list
  | .noticeAck _ => some .noticeAck
  | .depart => some .depart

/-- The kind code that the answer to a request echoes (R186). -/
def ReqBody.code : ReqBody → Byte
  | .unknown c => c
  | b => match b.kind? with
    | some k => k.code
    | none => 0

/-- The mode that a mode byte names: 0 SHARED, 1 EXCLUSIVE (R186). -/
def modeOfByte (b : Nat) : Option Mode :=
  if b = 0 then some .shared else if b = 1 then some .exclusive else none

/-- The 3-byte handle at offset `off` (R186). -/
def fieldHandle (body : List Byte) (off : Nat) : Handle :=
  { slot := fieldNat body off 2, gen := BitVec.ofNat 8 (fieldNat body (off + 2) 1) }

/-- The optional field of `len` bytes at `off`, present when `flag` is set. -/
def optField (flag : Bool) (body : List Byte) (off len : Nat) : Option Nat :=
  if flag then some (fieldNat body off len) else none

/-- How many bytes an optional field of `len` bytes takes. -/
def optLen (flag : Bool) (len : Nat) : Nat := if flag then len else 0

/-- A JOIN after its kind code: name 8, window 1, flags 1, reclaim number 4 when flag bit 0 (R186). -/
def parseJoin (b : List Byte) : ReqBody :=
  let flags := fieldNat b 9 1
  let reclaim := flags = 1
  if b.length = 10 + optLen reclaim 4 ∧ flags ≤ 1 then
    .join (BitVec.ofNat 64 (fieldNat b 0 8)) (fieldNat b 8 1) (optField reclaim b 10 4)
  else .malformed .join

/-- An ACQUIRE after its kind code: volume 1, start 5, count 4, mode 1, flags 1 (bit 0 no-wait, bit 1 hold present, bit 2
wait present), hold length 4, wait limit 2 (R186). -/
def parseAcquire (b : List Byte) : ReqBody :=
  let flags := BitVec.ofNat 8 (fieldNat b 11 1)
  let hold := flags.getLsbD 1
  let wait := flags.getLsbD 2
  match modeOfByte (fieldNat b 10 1) with
  | some mode =>
    if b.length = 12 + optLen hold 4 + optLen wait 2 ∧ flags.toNat < 8 then
      .acquire { volume := fieldNat b 0 1, start := fieldNat b 1 5, count := fieldNat b 6 4, mode := mode,
                 noWait := flags.getLsbD 0, hold := optField hold b 12 4,
                 waitLimit := optField wait b (12 + optLen hold 4) 2 }
    else .malformed .acquire
  | none => .malformed .acquire

/-- A CONVERT after its kind code: handle 3, mode 1, flags 1 (bit 0 no-wait, bit 2 wait present), wait limit 2 (R186). -/
def parseConvert (b : List Byte) : ReqBody :=
  let flags := BitVec.ofNat 8 (fieldNat b 4 1)
  let wait := flags.getLsbD 2
  match modeOfByte (fieldNat b 3 1) with
  | some mode =>
    if b.length = 5 + optLen wait 2 ∧ flags.toNat < 8 ∧ flags.getLsbD 1 = false then
      .convert { handle := fieldHandle b 0, mode := mode, noWait := flags.getLsbD 0, waitLimit := optField wait b 5 2 }
    else .malformed .convert
  | none => .malformed .convert

/-- A RENEW after its kind code: handle 3, flags 1 (bit 1 hold present), hold length 4 (R186). -/
def parseRenew (b : List Byte) : ReqBody :=
  let flags := fieldNat b 3 1
  let hold := flags = 2
  if b.length = 4 + optLen hold 4 ∧ (flags = 0 ∨ flags = 2) then .renew (fieldHandle b 0) (optField hold b 4 4)
  else .malformed .renew

/-- A QUERY after its kind code: volume 1, start 5, count 4 (R186). -/
def parseQuery (b : List Byte) : ReqBody :=
  if b.length = 10 then .query (fieldNat b 0 1) (fieldNat b 1 5) (fieldNat b 6 4) else .malformed .query

/-- The fields of a request of kind `k`, after its kind code (R186, Table 11-3). -/
def parseFields (k : ReqKind) (b : List Byte) : ReqBody :=
  match k with
  | .join => parseJoin b
  | .keepalive => if b.length = 0 then .keepalive else .malformed .keepalive
  | .acquire => parseAcquire b
  | .convert => parseConvert b
  | .renew => parseRenew b
  | .release => if b.length = 3 then .release (fieldHandle b 0) else .malformed .release
  | .cancel => if b.length = 2 then .cancel (BitVec.ofNat 16 (fieldNat b 0 2)) else .malformed .cancel
  | .query => parseQuery b
  | .list => if b.length = 2 then .list (fieldNat b 0 2) else .malformed .list
  | .noticeAck => if b.length = 2 then .noticeAck (BitVec.ofNat 16 (fieldNat b 0 2)) else .malformed .noticeAck
  | .depart => if b.length = 0 then .depart else .malformed .depart

/-- A REQUEST body (R186). A body of no bytes has no kind and is a bad frame before it comes here (R185). -/
def parseRequest : List Byte → ReqBody
  | [] => .unknown 0
  | c :: rest => match ReqKind.ofCode c with
    | some k => parseFields k rest
    | none => .unknown c

/-- The access that bits 5..4 of a gate query's control byte code: 01 READ, 10 WRITE (R187). -/
def accessOfBits (n : Nat) : Access := if n = 1 then .read else if n = 2 then .write else .other

/-- A gate query from the low byte of its frame's tag field and its 13-byte body: control, volume, start 5, count 2,
token 4 (R185, R187). -/
def parseGateQuery (tag : BitVec 16) (b : List Byte) : GateQuery :=
  let control := BitVec.ofNat 8 (fieldNat b 0 1)
  { number := tag.extractLsb' 0 8, path := (control.extractLsb' 0 3).toNat, volume := fieldNat b 1 1,
    start := fieldNat b 2 5, count := fieldNat b 7 2, access := accessOfBits (control.extractLsb' 4 2).toNat,
    token := fieldNat b 9 4 }

end Sys2Proof.Machine
end

