-- ==== Sys2Proof/Machine/Formats.lean ====
section
/-! DEFINITION. The layouts of chapter 11: the CRC and the link frame (R185), answer and notice bodies (R186), gate
answers (R187), and the alert and record items (R188). -/

namespace Sys2Proof.Machine

/-! ### The link frame (R185) -/

/-- The CRC register takes one bit (R185). -/
def crcBit (reg : BitVec 32) (bit : Bool) : BitVec 32 :=
  if reg.msb != bit then (reg <<< 1) ^^^ 0x04C11DB7#32 else reg <<< 1

/-- The CRC register takes one byte, least significant bit first (R185). -/
def crcByte (reg : BitVec 32) (b : Byte) : BitVec 32 :=
  (List.range 8).foldl (fun r k => crcBit r (b.getLsbD k)) reg

/-- The CRC of a list of bytes: started at all ones, bit-reflected and complemented (R185). -/
def crc32 (bytes : List Byte) : BitVec 32 := ~~~((bytes.foldl crcByte 0xFFFFFFFF#32).reverse)

/-- Frame kinds (R185, Table 11-2). -/
inductive FrameKind where
  | hello | request | answer | notice | query
deriving DecidableEq, Repr

/-- Frame kind codes (Table 11-2). -/
def FrameKind.code : FrameKind → Byte
  | .hello => 0x01 | .request => 0x02 | .answer => 0x03 | .notice => 0x04 | .query => 0x05

/-- A whole frame: kind, length, tag, body and CRC (R185, Table 11-1). -/
def frameBytes (k : FrameKind) (tag : Tag) (body : List Byte) : List Byte :=
  let covered := [k.code] ++ beBytes 2 body.length ++ beBytes 2 tag.toNat ++ body
  covered ++ beBytes 4 (crc32 covered).toNat

/-! ### Fields -/

/-- One byte. -/
def byteOf (n : Nat) : Byte := BitVec.ofNat 8 n

/-- A mode byte (R186). -/
def Mode.byte : Mode → Byte
  | .shared => 0
  | .exclusive => 1

/-- A handle: slot number 2, generation 1 (R186). -/
def Handle.bytes (h : Handle) : List Byte := beBytes 2 h.slot ++ [h.gen]

/-- A number in `k` bytes, 0 when it is absent. -/
def optBytes (k : Nat) (n : Option Nat) : List Byte := beBytes k (n.getD 0)

/-- A deadline in 4 bytes, 0 when it is absent. -/
def timeBytes (t : Option Time) : List Byte := beBytes 4 ((t.getD 0).toNat)

/-- Presence bits, bit 0 first. -/
def bitsNat : List Bool → Nat
  | [] => 0
  | b :: rest => b.toNat + 2 * bitsNat rest

/-- Wait-end reason codes (R186). -/
def WaitReason.byte : WaitReason → Byte
  | .cancelled => 1 | .timedOut => 2 | .sessionEnded => 3 | .volumeOffline => 4 | .leaseGone => 5

/-- Revocation reason codes (R186). -/
def RevokeReason.byte : RevokeReason → Byte
  | .recallLimit => 1 | .maintenance => 2 | .volumeOffline => 3

/-- Answer status codes (Table 11-4). -/
def Status.byte : Status → Byte
  | .ok => 0x00 | .parked => 0x01 | .noCredit => 0x02 | .noSession => 0x03 | .alreadyJoined => 0x04
  | .nameInUse => 0x05 | .noSessionSlot => 0x06 | .reclaimFailed => 0x07 | .busy => 0x08 | .badVolume => 0x09
  | .badRange => 0x0A | .selfOverlap => 0x0B | .quota => 0x0C | .tableFull => 0x0D | .waitFull => 0x0E
  | .conflict => 0x0F | .staleHandle => 0x10 | .notOwner => 0x11 | .sameMode => 0x12 | .upgradeConflict => 0x13
  | .notTimed => 0x14 | .tooLate => 0x15 | .notParked => 0x16 | .cancelled => 0x17 | .badRequest => 0x18

/-- Gate answer codes (R187). -/
def GateCode.byte : GateCode → Byte
  | .allow => 0x00 | .denyFormat => 0x01 | .denySession => 0x02 | .denyVolume => 0x03 | .denyUncovered => 0x04
  | .denyMode => 0x05 | .denyToken => 0x06 | .refusedFull => 0x07

/-! ### Slot entries (Table 11-6) -/

/-- Volume, start, count, mode and origin tag of a slot. -/
def Lease.bytes (l : Lease) : List Byte :=
  [byteOf l.volume.val] ++ beBytes 5 l.start ++ beBytes 4 l.count ++ [l.mode.byte] ++ beBytes 2 l.originTag.toNat

/-- The fields of a PENDING slot after its state; `own` is the owner's presence bit. -/
def pendingBytes (own : Bool) (l : Lease) (d : Option Time) : List Byte :=
  l.bytes ++ beBytes 2 (bitsNat [false, l.holdLength.isSome, false, d.isSome, false, false, false, false, false, own])
    ++ beBytes 4 0 ++ optBytes 4 l.holdLength ++ beBytes 4 0 ++ timeBytes d ++ beBytes 12 0

/-- The fields of a HELD slot after its state; `own` is the owner's presence bit. -/
def heldBytes (own : Bool) (l : Lease) (t : Tenure) : List Byte :=
  let upDeadline := t.upgrade.bind (fun u => u.waitDeadline)
  let recallDeadline := t.recallMark.bind (fun m => m.deadline)
  l.bytes
    ++ beBytes 2 (bitsNat [t.token.isSome, l.holdLength.isSome, t.holdDeadline.isSome, false, t.upgrade.isSome,
        upDeadline.isSome, t.recallMark.isSome, recallDeadline.isSome, true, own])
    ++ optBytes 4 t.token ++ optBytes 4 l.holdLength ++ timeBytes t.holdDeadline ++ beBytes 4 0
    ++ optBytes 2 (t.upgrade.map (fun u => u.tag.toNat)) ++ timeBytes upDeadline ++ timeBytes recallDeadline
    ++ beBytes 2 t.gateUse

/-- The 47-byte slot entry (Table 11-6). -/
def slotEntry (own : Bool) (n : Nat) (s : Slot) : List Byte :=
  beBytes 2 n ++ [s.gen] ++
    match s.body with
    | .free => byteOf 0 :: beBytes 43 0
    | .pending l d => byteOf 1 :: pendingBytes own l d
    | .held l t => byteOf 2 :: heldBytes own l t

/-! ### Answers and notices (R186, R187) -/

/-- One entry of a QUERY answer (Table 11-5). -/
def QueryEntry.bytes (e : QueryEntry) : List Byte :=
  beBytes 8 e.holder.toNat ++ [e.mode.byte] ++ beBytes 5 e.start ++ beBytes 4 e.count

/-- The result fields of an answer (Table 11-5). -/
def Result.bytes : Result → List Byte
  | .empty => []
  | .joined number window quota => beBytes 4 number ++ beBytes 1 window ++ beBytes 2 quota
  | .lease h mode token => h.bytes ++ [mode.byte] ++ optBytes 4 token
  | .renewed h hold deadline => h.bytes ++ beBytes 4 hold ++ beBytes 4 deadline.toNat
  | .handle h => h.bytes
  | .waitEnd reason => [reason.byte]
  | .leases entries more => [byteOf entries.length, byteOf more.toNat] ++ entries.flatMap QueryEntry.bytes
  | .slots entries next =>
    [byteOf entries.length] ++ beBytes 2 (next.getD 0xFFFF) ++ entries.flatMap (fun e => slotEntry false e.1 e.2)

/-- The body of an ANSWER frame (R186). -/
def Answer.body (a : Answer) : List Byte := [a.status.byte, byteOf a.replay.toNat, a.code] ++ a.result.bytes

/-- The body of a NOTICE frame (R186). -/
def Notice.body : Notice → List Byte
  | .granted tag h mode volume start count token =>
    [0x01] ++ beBytes 2 tag.toNat ++ h.bytes ++ [mode.byte, byteOf volume.val] ++ beBytes 5 start ++ beBytes 4 count
      ++ optBytes 4 token
  | .waitEnded tag reason => [0x02] ++ beBytes 2 tag.toNat ++ [reason.byte]
  | .recall h => [0x03] ++ h.bytes
  | .revoked h reason => [0x04] ++ h.bytes ++ [reason.byte]
  | .expired h => [0x05] ++ h.bytes
  | .resync => [0x06]

/-- The bytes of the frame that a Requester Port is sending (R160, R185). -/
def TxFrame.bytes : TxFrame → List Byte
  | .hello => frameBytes .hello 0 []
  | .answer a => frameBytes .answer a.tag a.body
  | .notice _ _ _ seq n => frameBytes .notice seq n.body

/-- The bytes of a gate answer frame: the query number in the low byte of the tag field (R185, R187). -/
def GateReply.bytes (r : GateReply) : List Byte := frameBytes .answer (r.number.setWidth 16) [r.code.byte]

/-! ### Alert and record items (R188) -/

/-- Alert kind codes (R188). -/
def AlertKind.byte : AlertKind → Byte
  | .sessionOrphaned => 1 | .sessionClosed => 2 | .leaseRevoked => 3 | .leaseExpired => 4 | .tableHigh => 5
  | .fenceExhausted => 6 | .noticeOverflow => 7 | .linkDown => 8

/-- The source byte: class in bits 7..6, number in bits 5..0 (R188). -/
def AlertSource.byte : AlertSource → Byte
  | .port p => byteOf p.val
  | .session i => byteOf (0x40 + i.val)
  | .volume v => byteOf (0x80 + v.val)
  | .device => 0xC0

/-- The alert item: kind, source, repeat count (R188). -/
def AlertRecord.bytes (a : AlertRecord) : List Byte := [a.kind.byte, a.source.byte, byteOf a.repeats]

/-- The alert item's three bytes: the oldest record, or NONE (R181, R188). -/
def alertItem : List AlertRecord → List Byte
  | [] => [0, 0, 0]
  | a :: _ => a.bytes

/-- Session state codes (R188). -/
def SessionState.byte : SessionState → Byte
  | .free => 0 | .active => 1 | .orphaned => 2 | .closing => 3

/-- Term timer state codes (R188). -/
def SessionTimer.byte : SessionTimer → Byte
  | .stopped => 0 | .running _ => 1 | .expired _ => 2

/-- A session timer's deadline, absent in STOPPED. -/
def SessionTimer.shown : SessionTimer → Option Time
  | .stopped => none
  | .running d => some d
  | .expired d => some d

/-- Close kind codes (R188). -/
def closeByte : Option CloseKind → Byte
  | none => 0
  | some .depart => 1
  | some .purge => 2

/-- A one-byte field that reads FFh when it is absent (R188). -/
def orFF (n : Option Nat) : Byte := byteOf (n.getD 0xFF)

/-- How many tags of the outstanding set carry a mark. -/
def Session.countTags (x : Session) (m : TagMark) : Nat := (x.outstanding.filter (fun t => decide (t.2 = m))).length

/-- The 39-byte SESSION record (R188). -/
def sessionBytes (x : Session) (slotCount : Nat) (place next : Option Nat) : List Byte :=
  [x.state.byte] ++ beBytes 8 x.name.toNat ++ beBytes 4 x.number ++ [orFF (x.port.map Fin.val), byteOf x.window]
    ++ beBytes 2 x.quota ++ beBytes 2 slotCount
    ++ [byteOf (x.countTags .queued), byteOf (x.countTags .parked), byteOf x.cache.length, x.term.byte]
    ++ timeBytes x.term.shown ++ timeBytes x.grace.shown ++ [closeByte x.closeKind, byteOf x.queue.length]
    ++ beBytes 2 x.nextSeq.toNat
    ++ [byteOf x.overflow.toNat, orFF place, orFF next, byteOf (bitsNat [x.term.shown.isSome, x.grace.shown.isSome])]

/-- Volume state codes (R188). -/
def VolumeState.byte : VolumeState → Byte
  | .offline => 0 | .online => 1 | .frozen => 2

/-- The 11-byte VOLUME record (R188). -/
def Volume.bytes (v : Volume) : List Byte := [v.state.byte] ++ beBytes 6 v.size ++ beBytes 4 v.fence

/-- The 9-byte WAIT_ENTRY record (R188). -/
def waitEntryBytes : Option WaitEntry → List Byte
  | none => beBytes 9 0
  | some e =>
    [1, if e.kind = .upgrade then 1 else 0] ++ beBytes 2 e.slot ++ [byteOf e.volume.val] ++ beBytes 4 e.arrival.toNat

/-- The owner byte of a SLOT record: 0 in a FREE slot (R188). -/
def SlotBody.ownerByte : SlotBody → Byte
  | .free => 0
  | .pending l _ => byteOf l.owner.val
  | .held l _ => byteOf l.owner.val

/-- The captured record in the layout for its kind (R188). -/
def RecordCopy.bytes : RecordCopy → List Byte
  | .slot n s => slotEntry true n s ++ [s.body.ownerByte]
  | .waitEntry e => waitEntryBytes e
  | .session x slotCount place next => sessionBytes x slotCount place next
  | .volume v => v.bytes

/-- Refusal reason codes; 0 when no reason is present (R188). -/
def Reason.byte : Reason → Byte
  | .notReady => 1 | .badCommand => 2 | .badArgument => 3 | .badState => 4 | .slotsPresent => 5 | .noSize => 6
  | .exhausted => 7 | .notHeld => 8

/-- The status and reason bytes of item 5Ch (R188). -/
def CmdStatus.bytes : CmdStatus → List Byte
  | .idle => [0, 0]
  | .busy => [1, 0]
  | .done => [2, 0]
  | .refused r => [3, r.byte]

/-- Link state codes (R188). -/
def LinkState.byte : LinkState → Byte
  | .down => 0 | .training => 1 | .up => 2

/-- Device state codes (R188). -/
def DeviceState.byte : DeviceState → Byte
  | .starting => 0 | .ready => 1 | .clearing => 2

end Sys2Proof.Machine
end

