-- ==== Sys2Proof/Decode.lean ====
section
/-! DEFINITION. What arrives as bytes. The table gives no row bits, so `decodeTableWord` answers none for every word.
`rpArrival` and `gateArrival` are the frame check of R148 and R185: the command that the bytes received on a port are. -/

namespace Sys2Proof

/-- No row of the table gives its command as bits. -/
def decodeTableWord (_nbits _w : Nat) : Option Instr := none

namespace Machine

/-- A received frame taken apart: kind code, length, tag, body, CRC (R185, Table 11-1). -/
structure RawFrame where
  kind : Byte
  length : Nat
  tag : Tag
  body : List Byte
  covered : List Byte
  crc : Nat
deriving DecidableEq, Repr

/-- Take the received bytes apart; the last four are the CRC (R185). -/
def rawFrame (bytes : List Byte) : RawFrame :=
  let covered := bytes.take (bytes.length - 4)
  { kind := BitVec.ofNat 8 (fieldNat bytes 0 1), length := fieldNat bytes 1 2, tag := BitVec.ofNat 16 (fieldNat bytes 3 2),
    body := covered.drop 5, covered := covered, crc := beNat (bytes.drop (bytes.length - 4)) }

/-- The CRC matches and the byte count is the length plus 9 (R148, R185). -/
def frameIntact (bytes : List Byte) : Bool :=
  let f := rawFrame bytes
  decide (bytes.length = f.length + 9) && decide ((crc32 f.covered).toNat = f.crc)

/-- The kind that a code names (R185, Table 11-2). -/
def FrameKind.ofCode (c : Byte) : Option FrameKind :=
  [FrameKind.hello, .request, .answer, .notice, .query].find? (fun k => k.code = c)

/-- The body length lies in a kind's bounds on a Requester Port; a QUERY is not listed there (R185, Table 11-2). -/
def FrameKind.rpBounds (k : FrameKind) (n : Nat) : Bool :=
  match k with
  | .hello => n == 0
  | .request => 1 ≤ n && n ≤ 19
  | .answer => 3 ≤ n && n ≤ 382
  | .notice => 1 ≤ n && n ≤ 21
  | .query => false

/-- The same on the Gate Port, where REQUEST and NOTICE are not listed (R185, Table 11-2). -/
def FrameKind.gateBounds (k : FrameKind) (n : Nat) : Bool :=
  match k with
  | .hello => n == 0
  | .answer => n == 1
  | .query => n == 13
  | .request => false
  | .notice => false

/-- The kind of a frame that passes its check with the bounds given; none for a bad frame (R148, R185). -/
def goodKind (bounds : FrameKind → Nat → Bool) (bytes : List Byte) : Option FrameKind :=
  if frameIntact bytes then
    match FrameKind.ofCode (rawFrame bytes).kind with
    | some k => if bounds k (rawFrame bytes).length then some k else none
    | none => none
  else none

/-- The command that bytes received on port `p` are (R146, R148). -/
def rpArrival (p : PortId) (bytes : List Byte) : Instr :=
  match goodKind FrameKind.rpBounds bytes with
  | some .hello => .helloReceive p
  | some .request => .requestIntake p (rawFrame bytes).tag (rawFrame bytes).body
  | some .answer => .discardedFrame p .answer
  | some .notice => .discardedFrame p .notice
  | some .query => .badFrame p
  | none => .badFrame p

/-- The command that bytes received on the Gate Port are (R131, R132, R185). -/
def gateArrival (bytes : List Byte) : Instr :=
  match goodKind FrameKind.gateBounds bytes with
  | some .hello => .gateHelloReceive
  | some .query => .gateQuery (rawFrame bytes).tag (rawFrame bytes).body
  | some .answer => .gateDiscardedFrame .answer
  | some .request => .gateBadFrame
  | some .notice => .gateBadFrame
  | none => .gateBadFrame

end Machine

end Sys2Proof
end

