-- ==== Sys2Proof/Machine/Flags.lean ====
section
/-! DEFINITION. The status flags of the part: the alert set with the ALERT_N output (R179 to R181), the counters that stop
at their last value, and the command status with OVERRUN (R174). -/

namespace Sys2Proof.Machine

/-- One more, but never above 65535 (R105, R132, R142, R145). -/
def satCount (n : Nat) : Nat := if n < Config.countMax then n + 1 else Config.countMax

/-- One more, but never above 255 (R179). -/
def satRepeat (n : Nat) : Nat := if n < Config.repeatMax then n + 1 else Config.repeatMax

/-- An alert as a step or a port raises it. -/
abbrev Alert := AlertKind × AlertSource

/-- Put one alert into the set: a record of the same kind and source counts the repeat and keeps its place, otherwise a
new record with repeat count 0 goes to the tail (R179). -/
def mergeAlert (set : List AlertRecord) (a : Alert) : List AlertRecord :=
  if set.any (fun r => r.kind = a.1 && r.source = a.2) then
    set.map (fun r => if r.kind = a.1 && r.source = a.2 then { r with repeats := satRepeat r.repeats } else r)
  else set ++ [{ kind := a.1, source := a.2, repeats := 0 }]

/-- Put alerts into the set in the order raised (R180). -/
def mergeAlerts (set : List AlertRecord) (as : List Alert) : List AlertRecord := as.foldl mergeAlert set

/-- Raise alerts. ALERT_N goes low at the event that makes the set non-empty (R181). -/
def State.raise (s : State) (as : List Alert) : State :=
  { s with alerts := mergeAlerts s.alerts as, alertN := s.alertN && as.isEmpty }

/-- The status at the completion of a command's step, DONE or REFUSED with its reason; the Maintenance claim ends, and
OVERRUN clears if it was set before this command was accepted (R174). -/
def State.finishStatus (s : State) (refusal : Option Reason) : State :=
  { s with
    cmdStatus := match refusal with
      | some r => .refused r
      | none => .done
    waiting := none
    overrun := s.overrun && !s.overrunClears
    overrunClears := false }

/-- A command code is written (R174). In CLEARING with a status other than BUSY, which no run reaches, the table gives no
action and nothing happens. -/
def State.writeCode (s : State) (code : Byte) : State :=
  if s.device = .starting then
    { s with cmdStatus := .refused .notReady, lastCode := code }
  else if s.cmdStatus = .busy then
    { s with overrun := true, overrunClears := false }
  else if s.device = .ready then
    { s with cmdStatus := .busy, lastCode := code, overrunClears := s.overrun,
             waiting := some { code := code, arg1 := s.arg1, arg2 := s.arg2, arg3 := s.arg3 } }
  else s

end Sys2Proof.Machine
end

