-- ==== Sys2Proof/Machine/Ops.lean ====
section
/-! DEFINITION. The named operations on the lease structures: the sparse tables, deadlines, extents, the Extent Index and
its searches, tokens, slots made and freed, waits parked, granted and ended, retirement, recall and the wake pass. A step's
work is a `Run`: the tables as the step has changed them so far, and the results it will hand over (R18, R19). -/

namespace Sys2Proof.Machine

/-! ### Sparse lists and fixed arrays -/

/-- The value listed under a key. -/
def lookupKey {α : Type} (k : Nat) : List (Nat × α) → Option α
  | [] => none
  | (j, v) :: rest => if j = k then some v else lookupKey k rest

/-- List a value under a key, keeping the keys in rising order. -/
def insertKey {α : Type} (k : Nat) (v : α) : List (Nat × α) → List (Nat × α)
  | [] => [(k, v)]
  | (j, w) :: rest =>
    if k < j then (k, v) :: (j, w) :: rest
    else if k = j then (k, v) :: rest
    else (j, w) :: insertKey k v rest

/-- List nothing under a key. -/
def eraseKey {α : Type} (k : Nat) (l : List (Nat × α)) : List (Nat × α) := l.filter (fun p => !(p.1 == k))

/-- The keys rise strictly: the canonical order of a sparse list. -/
def keysRise {α : Type} (l : List (Nat × α)) : Prop := l.Pairwise (fun a b => a.1 < b.1)

/-- How many listed values pass a test. -/
def countKeys {α : Type} (q : α → Bool) (l : List (Nat × α)) : Nat := (l.filter (fun p => q p.2)).length

/-- The lowest number that passes a test, of the `fuel` numbers from `n` on. -/
def findFrom (p : Nat → Bool) : Nat → Nat → Option Nat
  | 0, _ => none
  | fuel + 1, n => if p n then some n else findFrom p fuel (n + 1)

/-- A fixed array with one element replaced. -/
def upd {α : Type} {n : Nat} (v : Vector α n) (i : Fin n) (x : α) : Vector α n := v.set i.val x i.isLt

/-- The record of volume `v` (R116). -/
def Tables.volume (t : Tables) (v : VolumeId) : Volume := t.volumes[v]

/-- The Extent Index list of volume `v` (R14). -/
def Tables.indexOf (t : Tables) (v : VolumeId) : List Nat := t.index[v]

/-- The wait list of volume `v` (R41). -/
def Tables.waitList (t : Tables) (v : VolumeId) : List Nat := t.waitLists[v]

/-- The slot count of session `i` (R16). -/
def Tables.slotCount (t : Tables) (i : SessionId) : Nat := t.slotCounts[i]

/-! ### Deadlines (R103) -/

/-- The deadline an interval of `ms` from now: the sum modulo 2^32. -/
def deadlineAt (now : Time) (ms : Nat) : Time := now + BitVec.ofNat 32 ms

/-- A deadline has passed when clock minus deadline, modulo 2^32, is below 2^31. -/
def passed (now deadline : Time) : Bool := (now - deadline).toNat < 2147483648

/-- An optional deadline is present and has passed. -/
def passedOpt (now : Time) : Option Time → Bool
  | some d => passed now d
  | none => false

/-! ### Slots -/

/-- The slot with number `n`: a slot that is not listed is FREE (R1, R2). -/
def SlotTable.get (t : SlotTable) (n : Nat) : Slot :=
  match lookupKey n t.entries with
  | some s => s
  | none => { gen := t.freeGen, body := .free }

/-- Change the slot with number `n`, keeping the canonical form. -/
def SlotTable.set (t : SlotTable) (n : Nat) (s : Slot) : SlotTable :=
  if s = { gen := t.freeGen, body := .free } then { t with entries := eraseKey n t.entries }
  else { t with entries := insertKey n s t.entries }

/-- Every slot becomes FREE with its generation advanced by 1, whatever it was (R25). -/
def SlotTable.clearAll (t : SlotTable) : SlotTable :=
  { freeGen := t.freeGen + 1,
    entries := (t.entries.map (fun p => (p.1, { gen := p.2.gen + 1, body := SlotBody.free }))).filter
      (fun p => !(p.2.gen == t.freeGen + 1)) }

/-- The section of a slot: its number divided by 256 (R1). -/
def sectionOf (n : Nat) : Nat := n / Config.sectionSlots

/-- The lease of a PENDING or HELD slot. -/
def SlotBody.lease? : SlotBody → Option Lease
  | .free => none
  | .pending l _ => some l
  | .held l _ => some l

/-- The slot carries no lease (R1). -/
def SlotBody.isFree : SlotBody → Bool
  | .free => true
  | .pending _ _ => false
  | .held _ _ => false

/-- The body of the slot with number `n`. -/
def Tables.body (t : Tables) (n : Nat) : SlotBody := (t.slots.get n).body

/-- The handle that names the lease now in slot `n`. -/
def Tables.handle (t : Tables) (n : Nat) : Handle := { slot := n, gen := (t.slots.get n).gen }

/-- Give slot `n` a new body; it keeps its generation. -/
def Tables.setBody (t : Tables) (n : Nat) (b : SlotBody) : Tables :=
  { t with slots := t.slots.set n { gen := (t.slots.get n).gen, body := b } }

/-- The lowest-numbered FREE slot (R4). -/
def Tables.lowestFreeSlot (t : Tables) : Option Nat := findFrom (fun n => (t.body n).isFree) Config.slots 0

/-- The numbers of the non-FREE slots whose lease passes a test, in rising order. -/
def Tables.slotsWhere (t : Tables) (p : Nat → Lease → Bool) : List Nat :=
  (t.slots.entries.filter (fun e => match e.2.body.lease? with
    | some l => p e.1 l
    | none => false)).map Prod.fst

/-! ### Extents and modes (R12) -/

/-- Two runs of blocks on one volume share a block. -/
def overlaps (start₁ count₁ start₂ count₂ : Nat) : Bool :=
  decide (start₁ < start₂ + count₂) && decide (start₂ < start₁ + count₁)

/-- The extents of two leases overlap. -/
def Lease.overlaps (a b : Lease) : Bool :=
  decide (a.volume = b.volume) && Machine.overlaps a.start a.count b.start b.count

/-- Two modes conflict when either is EXCLUSIVE. -/
def conflicting (a b : Mode) : Bool := decide (a = .exclusive) || decide (b = .exclusive)

/-- A HELD lease `l` blocks a claimed extent and mode, written as the lease `c` that the claim would make (R12). -/
def Lease.blocks (l c : Lease) : Bool :=
  decide (l.owner ≠ c.owner) && l.overlaps c && conflicting l.mode c.mode

/-! ### The Extent Index (R14, R15) -/

/-- The start block of a slot's lease. -/
def Tables.startOf (t : Tables) (n : Nat) : Nat :=
  match (t.body n).lease? with
  | some l => l.start
  | none => 0

/-- Insert a slot number in ascending order of start, then of slot number (R14). -/
def indexInsert (startOf : Nat → Nat) (n : Nat) : List Nat → List Nat
  | [] => [n]
  | m :: rest =>
    if startOf n < startOf m ∨ (startOf n = startOf m ∧ n < m) then n :: m :: rest
    else m :: indexInsert startOf n rest

/-- Slot `n` enters its volume's list (R14). -/
def Tables.indexAdd (t : Tables) (v : VolumeId) (n : Nat) : Tables :=
  { t with index := upd t.index v (indexInsert t.startOf n (t.indexOf v)) }

/-- Slot `n` leaves its volume's list (R14). -/
def Tables.indexRemove (t : Tables) (v : VolumeId) (n : Nat) : Tables :=
  { t with index := upd t.index v ((t.indexOf v).filter (fun m => !(m == n))) }

/-- The HELD leases of a volume that pass a test, in index order (R15). -/
def Tables.searchHeld (t : Tables) (v : VolumeId) (p : Lease → Tenure → Bool) : List Nat :=
  (t.indexOf v).filter (fun n => match t.body n with
    | .held l ten => p l ten
    | .free => false
    | .pending _ _ => false)

/-- Conflict search: every HELD lease that blocks the claim `c` (R15). -/
def Tables.conflictSearch (t : Tables) (c : Lease) : List Nat := t.searchHeld c.volume (fun l _ => l.blocks c)

/-- Overlap search: every HELD lease over an extent (R15). -/
def Tables.overlapSearch (t : Tables) (v : VolumeId) (start count : Nat) : List Nat :=
  t.searchHeld v (fun l _ => Machine.overlaps l.start l.count start count)

/-- Covering search: the lease of session `i` that contains every block of an extent (R15). -/
def Tables.coveringSearch (t : Tables) (i : SessionId) (v : VolumeId) (start count : Nat) : Option Nat :=
  (t.searchHeld v (fun l _ =>
    decide (l.owner = i) && decide (l.start ≤ start) && decide (start + count ≤ l.start + l.count))).head?

/-! ### Fence counters (R127) -/

/-- A grant in mode `m` needs a token that the volume's counter cannot give (R39, R129). -/
def Tables.exhaustedFor (t : Tables) (m : Mode) (v : VolumeId) : Bool :=
  decide (m = .exclusive) && decide (Config.lastToken ≤ (t.volume v).fence)

/-- The token of a grant in mode `m`: the counter's next value for EXCLUSIVE, none for SHARED (R7). -/
def Tables.tokenFor (t : Tables) (m : Mode) (v : VolumeId) : Option Nat :=
  match m with
  | .exclusive => some ((t.volume v).fence + 1)
  | .shared => none

/-- Advance the counter for a grant in mode `m` (R127). -/
def Tables.drawFor (t : Tables) (m : Mode) (v : VolumeId) : Tables :=
  match m with
  | .exclusive => { t with volumes := upd t.volumes v { t.volume v with fence := (t.volume v).fence + 1 } }
  | .shared => t

/-- Give a volume a new state (R117). -/
def Tables.setVolumeState (t : Tables) (v : VolumeId) (st : VolumeState) : Tables :=
  { t with volumes := upd t.volumes v { t.volume v with state := st } }

/-! ### A step's work -/

/-- The work of one engine step: the lease clock and configuration it reads, the tables as changed so far, and what it
will hand over at its completion, each in the order produced (R19): cache entries of parked requests it completes, notices,
alerts; and the volumes on which a wake pass is due (R45). -/
structure Run where
  now : Time
  recallLimit : Nat
  threshold : Nat
  tab : Tables
  cache : List (SessionId × CacheEntry)
  notices : List (SessionId × Notice)
  alerts : List Alert
  due : List VolumeId
deriving DecidableEq, Repr

/-- The work of a step that has not done anything yet. -/
def Run.start (s : State) : Run :=
  { now := s.clock, recallLimit := s.recallLimit, threshold := s.occThreshold, tab := s.tab, cache := [], notices := [],
    alerts := [], due := [] }

/-- Replace the tables. -/
def Run.withTab (r : Run) (t : Tables) : Run := { r with tab := t }

/-- Produce a notice for session `i`. -/
def Run.notify (r : Run) (i : SessionId) (n : Notice) : Run := { r with notices := r.notices ++ [(i, n)] }

/-- Produce the final answer of a parked request of session `i` (R27). -/
def Run.conclude (r : Run) (i : SessionId) (e : CacheEntry) : Run := { r with cache := r.cache ++ [(i, e)] }

/-- Raise an alert. -/
def Run.alarm (r : Run) (a : Alert) : Run := { r with alerts := r.alerts ++ [a] }

/-- A wake pass becomes due on a volume, once per step (R45). -/
def Run.passDue (r : Run) (v : VolumeId) : Run := if r.due.contains v then r else { r with due := r.due ++ [v] }

/-- Slot `n` becomes non-FREE: occupancy and the owner's slot count rise by one (R4, R16). -/
def Tables.makeSlot (t : Tables) (n : Nat) (owner : SessionId) (b : SlotBody) : Tables :=
  { t.setBody n b with occupancy := t.occupancy + 1, slotCounts := upd t.slotCounts owner (t.slotCount owner + 1) }

/-- Make slot `n` non-FREE; TABLE_HIGH is raised when occupancy reaches the threshold (R17). -/
def Run.makeSlot (r : Run) (n : Nat) (owner : SessionId) (b : SlotBody) : Run :=
  let r1 := r.withTab (r.tab.makeSlot n owner b)
  if r.tab.occupancy + 1 = r.threshold then r1.alarm (.tableHigh, .device) else r1

/-- Make slot `n` FREE: its generation advances by 1 modulo 256, occupancy and the owner's slot count fall by one
(R5, R16). -/
def Tables.freeSlot (t : Tables) (n : Nat) (owner : SessionId) : Tables :=
  { t with slots := t.slots.set n { gen := (t.slots.get n).gen + 1, body := .free },
           occupancy := t.occupancy - 1, slotCounts := upd t.slotCounts owner (t.slotCount owner - 1) }

/-- The fields that a grant sets: the token, the hold deadline of a timed lease, no mark, gate-use count 0 (R7, R8,
R10). -/
def Tenure.granted (now : Time) (l : Lease) (token : Option Nat) : Tenure :=
  { token := token, holdDeadline := l.holdLength.map (deadlineAt now), upgrade := none, recallMark := none, gateUse := 0 }

/-- Fence exhaustion: the volume becomes FROZEN and FENCE_EXHAUSTED is raised (R39, R129). -/
def Run.exhaust (r : Run) (v : VolumeId) : Run :=
  (r.withTab (r.tab.setVolumeState v .frozen)).alarm (.fenceExhausted, .volume v)

/-- Grant an ACQUIRE at once in FREE slot `n` (R31). -/
def Run.grantNow (r : Run) (n : Nat) (l : Lease) : Run :=
  let token := r.tab.tokenFor l.mode l.volume
  let r1 := r.makeSlot n l.owner (.held l (Tenure.granted r.now l token))
  r1.withTab ((r1.tab.drawFor l.mode l.volume).indexAdd l.volume n)

/-! ### Wait entries -/

/-- The lowest-numbered free entry of the wait pool (R40). -/
def Tables.lowestFreeEntry (t : Tables) : Option Nat :=
  findFrom (fun e => (lookupKey e t.pool).isNone) Config.poolEntries 0

/-- What a wait entry claims, as the lease it would make: an UPGRADE counts as EXCLUSIVE (R43, R44). -/
def Tables.entryClaim (t : Tables) (we : WaitEntry) : Option Lease :=
  match we.kind, t.body we.slot with
  | .acquire, .pending l _ => some l
  | .upgrade, .held l _ => some { l with mode := .exclusive }
  | _, _ => none

/-- The claim of the entry with number `e`. -/
def Tables.claimOf (t : Tables) (e : Nat) : Option Lease := (lookupKey e t.pool).bind t.entryClaim

/-- The session that waits by entry `e`. -/
def Tables.entryOwner (t : Tables) (e : Nat) : Option SessionId := (t.claimOf e).map (fun l => l.owner)

/-- The entry with number `e` is of kind `k`. -/
def Tables.entryIs (t : Tables) (k : WaitKind) (e : Nat) : Bool :=
  match lookupKey e t.pool with
  | some we => decide (we.kind = k)
  | none => false

/-- Some entry of a list overlaps the claim `c` with a conflicting mode (R30, R43). -/
def Tables.waitersConflict (t : Tables) (es : List Nat) (c : Lease) : Bool :=
  es.any (fun e => match t.claimOf e with
    | some w => w.overlaps c && conflicting w.mode c.mode
    | none => false)

/-- The leases that block entry `e`, in conflict-search order (R64). -/
def Tables.blockersOf (t : Tables) (e : Nat) : List Nat :=
  match t.claimOf e with
  | some c => t.conflictSearch c
  | none => []

/-- A recall mark made now: with a deadline when the recall limit is not 0 (R10, R64). -/
def Run.newMark (r : Run) : RecallMark :=
  { deadline := if r.recallLimit = 0 then none else some (deadlineAt r.now r.recallLimit) }

/-- Mark the HELD lease in slot `n` recalled, unless it is marked already, with a RECALL notice to its owner (R64). A
pending upgrade of the lease goes on waiting: R38 has recall end it as R55 gives, which is at the retirement that the recall
leads to, and R33, R111 and R123 leave the mark no end of its own (DEDUCED, notes/assumptions/27.md). -/
def Run.markRecalled (r : Run) (n : Nat) : Run :=
  match r.tab.body n with
  | .held l ten =>
    match ten.recallMark with
    | some _ => r
    | none =>
      (r.withTab (r.tab.setBody n (.held l { ten with recallMark := some r.newMark }))).notify l.owner
        (.recall (r.tab.handle n))
  | .free => r
  | .pending _ _ => r

/-- Apply recall to the entry `e` (R64). -/
def Run.applyRecall (r : Run) (e : Nat) : Run := (r.tab.blockersOf e).foldl Run.markRecalled r

/-- Put the free pool entry `e` in use, with the next arrival number, at the tail of the volume's list (R40, R41). -/
def Tables.addEntry (t : Tables) (e : Nat) (k : WaitKind) (n : Nat) (v : VolumeId) : Tables :=
  { t with arrival := t.arrival + 1,
           pool := insertKey e { kind := k, slot := n, volume := v, arrival := t.arrival + 1 } t.pool,
           waitLists := upd t.waitLists v (t.waitList v ++ [e]) }

/-- The entry `e` leaves its list and returns to the pool (R40, R41). -/
def Tables.removeEntry (t : Tables) (e : Nat) (v : VolumeId) : Tables :=
  { t with pool := eraseKey e t.pool, waitLists := upd t.waitLists v ((t.waitList v).filter (fun d => !(d == e))) }

/-- Park an ACQUIRE: slot `n` becomes PENDING, entry `e` joins the list, and recall is applied to it (R33). -/
def Run.parkAcquire (r : Run) (n e : Nat) (l : Lease) (waitDeadline : Option Time) : Run :=
  let r1 := r.makeSlot n l.owner (.pending l waitDeadline)
  (r1.withTab (r1.tab.addEntry e .acquire n l.volume)).applyRecall e

/-- Park an upgrade of the lease in slot `n`: it gets a pending upgrade, entry `e` joins the list, and recall is applied
to it (R38). -/
def Run.parkUpgrade (r : Run) (n e : Nat) (l : Lease) (ten : Tenure) (u : PendingUpgrade) : Run :=
  (r.withTab ((r.tab.setBody n (.held l { ten with upgrade := some u })).addEntry e .upgrade n l.volume)).applyRecall e

/-- End the wait of entry `e` (R50): the entry returns to the pool, a PENDING slot becomes FREE or the pending upgrade is
removed, WAIT_ENDED goes to the session, the final answer CANCELLED is made, and a pass becomes due. -/
def Run.endWait (r : Run) (reason : WaitReason) (e : Nat) : Run :=
  match lookupKey e r.tab.pool with
  | none => r
  | some we =>
    let t := r.tab.removeEntry e we.volume
    match we.kind, r.tab.body we.slot with
    | .acquire, .pending l _ =>
      ((((r.withTab (t.freeSlot we.slot l.owner)).notify l.owner (.waitEnded l.originTag reason)).conclude l.owner
        { tag := l.originTag, kind := .acquire, status := .cancelled, result := .waitEnd reason })).passDue we.volume
    | .upgrade, .held l ten =>
      match ten.upgrade with
      | some u =>
        ((((r.withTab (t.setBody we.slot (.held l { ten with upgrade := none }))).notify l.owner
          (.waitEnded u.tag reason)).conclude l.owner
          { tag := u.tag, kind := .convert, status := .cancelled, result := .waitEnd reason })).passDue we.volume
      | none => (r.withTab t).passDue we.volume
    | _, _ => (r.withTab t).passDue we.volume

/-- End every wait of session `i`, in ascending volume number and list order (R53). -/
def Run.endWaitsOf (r : Run) (i : SessionId) (reason : WaitReason) : Run :=
  (List.finRange 32).foldl
    (fun r v => ((r.tab.waitList v).filter (fun e => decide (r.tab.entryOwner e = some i))).foldl
      (fun r e => r.endWait reason e) r) r

/-! ### Retirement (R59, R60) -/

/-- The cause of a retirement (Table 3-1). -/
inductive Cause where
  | release
  | expiry
  | revocation (reason : RevokeReason)
  | purge
deriving DecidableEq, Repr

/-- The notice and the alert that report a retirement of lease `h` of session `i` (R60). -/
def Run.report (r : Run) (c : Cause) (i : SessionId) (h : Handle) : Run :=
  match c with
  | .release => r
  | .purge => r
  | .expiry => (r.notify i (.expired h)).alarm (.leaseExpired, .session i)
  | .revocation reason => (r.notify i (.revoked h reason)).alarm (.leaseRevoked, .session i)

/-- The entry of kind `k` that refers to slot `n` (R42). -/
def Tables.entryFor (t : Tables) (k : WaitKind) (v : VolumeId) (n : Nat) : Option Nat :=
  (t.waitList v).find? (fun e => match lookupKey e t.pool with
    | some we => decide (we.kind = k) && decide (we.slot = n)
    | none => false)

/-- End the pending upgrade of the lease in slot `n`, if it carries one, with LEASE_GONE (R55, R59). -/
def Run.endUpgrade (r : Run) (n : Nat) (l : Lease) (ten : Tenure) : Run :=
  match ten.upgrade with
  | none => r
  | some _ =>
    match r.tab.entryFor .upgrade l.volume n with
    | some e => r.endWait .leaseGone e
    | none => r

/-- Retire the HELD lease in slot `n` (R59). A slot that is not HELD is passed over. -/
def Run.retire (r : Run) (c : Cause) (n : Nat) : Run :=
  match r.tab.body n with
  | .held l ten =>
    let r1 := r.endUpgrade n l ten
    let r2 := r1.withTab (r1.tab.indexRemove l.volume n)
    let r3 := r2.report c l.owner (r2.tab.handle n)
    (r3.withTab (r3.tab.freeSlot n l.owner)).passDue l.volume
  | .free => r
  | .pending _ _ => r

/-! ### The wake pass (R43 to R49) -/

/-- Entry `e` with claim `c` is grantable: no HELD lease of another session blocks it, and, for an ACQUIRE entry, no
earlier entry of the list overlaps it with a conflicting mode (R43, R44). -/
def Tables.grantable (t : Tables) (e : Nat) (we : WaitEntry) (c : Lease) : Bool :=
  (t.conflictSearch c).isEmpty &&
    match we.kind with
    | .upgrade => true
    | .acquire => !t.waitersConflict ((t.waitList we.volume).takeWhile (fun d => !(d == e))) c

/-- Grant the entry `e`: a PENDING slot becomes HELD (R48), or a parked upgrade takes effect (R49). -/
def Run.grantEntry (r : Run) (e : Nat) (we : WaitEntry) : Run :=
  let t := r.tab.removeEntry e we.volume
  let h := r.tab.handle we.slot
  match r.tab.body we.slot with
  | .pending l _ =>
    let token := t.tokenFor l.mode l.volume
    let t1 := ((t.drawFor l.mode l.volume).setBody we.slot (.held l (Tenure.granted r.now l token))).indexAdd
      l.volume we.slot
    ((r.withTab t1).notify l.owner (.granted l.originTag h l.mode l.volume l.start l.count token)).conclude l.owner
      { tag := l.originTag, kind := .acquire, status := .ok, result := .lease h l.mode token }
  | .held l ten =>
    match ten.upgrade with
    | some u =>
      let token := t.tokenFor .exclusive l.volume
      let t1 := (t.drawFor .exclusive l.volume).setBody we.slot
        (.held { l with mode := .exclusive } { ten with token := token, upgrade := none })
      ((r.withTab t1).notify l.owner (.granted u.tag h .exclusive l.volume l.start l.count token)).conclude l.owner
        { tag := u.tag, kind := .convert, status := .ok, result := .lease h .exclusive token }
    | none => r
  | .free => r

/-- Examine one entry of a pass: grant it, leave it, or end the pass there on fence exhaustion (R39, R46). The flag says
that the pass has ended. -/
def passExamine (acc : Run × Bool) (e : Nat) : Run × Bool :=
  if acc.2 then acc
  else
    match lookupKey e acc.1.tab.pool with
    | none => acc
    | some we =>
      match acc.1.tab.entryClaim we with
      | none => acc
      | some c =>
        if acc.1.tab.grantable e we c then
          if acc.1.tab.exhaustedFor c.mode we.volume then (acc.1.exhaust we.volume, true)
          else (acc.1.grantEntry e we, false)
        else acc

/-- The order in which a pass examines a volume's entries: UPGRADE entries in list order, then ACQUIRE entries in list
order (R46, R47). -/
def Tables.passOrder (t : Tables) (v : VolumeId) : List Nat :=
  (t.waitList v).filter (t.entryIs .upgrade) ++ (t.waitList v).filter (t.entryIs .acquire)

/-- The wake pass on a volume, and the recall that follows it unless it ended on fence exhaustion (R46, R47). -/
def Run.wakePass (r : Run) (v : VolumeId) : Run :=
  let acc := (r.tab.passOrder v).foldl passExamine (r, false)
  if acc.2 then acc.1 else (acc.1.tab.passOrder v).foldl Run.applyRecall acc.1

/-- The due passes, in ascending volume number, each on a volume that is ONLINE at that point (R45). -/
def Run.runPasses (r : Run) : Run :=
  (List.finRange 32).foldl
    (fun acc v => if r.due.contains v && decide ((acc.tab.volume v).state = .online) then acc.wakePass v else acc) r

end Sys2Proof.Machine
end

