-- ==== Sys2Proof/Machine/PortOps.lean ====
section
/-! DEFINITION. The named operations on sessions and ports: binding, notice queues, answer caches and answer queues, the
transmitter, a port's going DOWN, the handing over of a step's results (R19), the claim arbiter (R20, R21), and the taking
of a claim. -/

namespace Sys2Proof.Machine

/-! ### Reading and writing one record -/

/-- The record of session `i`. -/
def State.session (s : State) (i : SessionId) : Session := s.sessions[i]

/-- Change the record of session `i`. -/
def State.setSession (s : State) (i : SessionId) (x : Session) : State := { s with sessions := upd s.sessions i x }

/-- The record of port `p`. -/
def State.port (s : State) (p : PortId) : Port := s.ports[p]

/-- Change the record of port `p`. -/
def State.setPort (s : State) (p : PortId) (x : Port) : State := { s with ports := upd s.ports p x }

/-- The configuration of port `p`. -/
def State.cfg (s : State) (p : PortId) : PortConfig := s.config[p]

/-- The session that names port `p` (R79). -/
def boundTo (ss : Vector Session 12) (p : PortId) : Option SessionId :=
  (List.finRange 12).find? (fun i => decide (ss[i].port = some p))

/-- The session bound to port `p` (R79, R145). -/
def State.boundSession (s : State) (p : PortId) : Option SessionId := boundTo s.sessions p

/-- The lowest-numbered session record that passes a test. -/
def State.findSession (s : State) (test : Session → Bool) : Option SessionId :=
  (List.finRange 12).find? (fun i => test (s.session i))

/-! ### Outstanding set and answer cache (R27) -/

/-- A tag leaves the outstanding set. -/
def Session.dropTag (x : Session) (tag : Tag) : Session :=
  { x with outstanding := x.outstanding.filter (fun t => !(t.1 == tag)) }

/-- A tag of the outstanding set is marked parked. -/
def Session.parkTag (x : Session) (tag : Tag) : Session :=
  { x with outstanding := x.outstanding.map (fun t => if t.1 = tag then (t.1, .parked) else t) }

/-- How a tag stands in the outstanding set. -/
def Session.tagMark (x : Session) (tag : Tag) : Option TagMark :=
  (x.outstanding.find? (fun t => t.1 == tag)).map Prod.snd

/-- An entry enters the answer cache; a seventeenth removes the oldest (R27). -/
def pushCache (c : List CacheEntry) (e : CacheEntry) : List CacheEntry :=
  (c ++ [e]).drop ((c ++ [e]).length - Config.cacheEntries)

/-- The newest cache entry with a tag (R27). -/
def Session.cached (x : Session) (tag : Tag) : Option CacheEntry := x.cache.reverse.find? (fun e => e.tag == tag)

/-- A final answer is made: the tag leaves the outstanding set and the entry enters the cache (R27). -/
def Session.conclude (x : Session) (e : CacheEntry) : Session :=
  { x.dropTag e.tag with cache := pushCache x.cache e }

/-- The same, in the Session Table. -/
def concludeIn (ss : Vector Session 12) (c : SessionId × CacheEntry) : Vector Session 12 :=
  upd ss c.1 (ss[c.1].conclude c.2)

/-! ### Notice queue (R164 to R170) -/

/-- A notice enters the queue, waiting, with the next sequence number (R164). -/
def Session.enqueue (x : Session) (n : Notice) : Session :=
  { x with queue := x.queue ++ [{ seq := x.nextSeq, notice := n, sent := false }], nextSeq := x.nextSeq + 1 }

/-- A notice is handed to the queue. The flag says that the queue overflows with it (R169). -/
def Session.offer (x : Session) (n : Notice) : Session × Bool :=
  if x.overflow then (x, false)
  else if Config.noticePlaces ≤ x.queue.length then ({ x with overflow := true }, true)
  else (x.enqueue n, false)

/-- One notice of a step is handed over; an overflow raises NOTICE_OVERFLOW (R165, R169). -/
def offerIn (acc : Vector Session 12 × List Alert) (n : SessionId × Notice) : Vector Session 12 × List Alert :=
  let o := acc.1[n.1].offer n.2
  (upd acc.1 n.1 o.1, if o.2 then acc.2 ++ [(.noticeOverflow, .session n.1)] else acc.2)

/-- Every queued notice is marked waiting again, and a new round of sending begins: a notice frame still being sent belongs
to the old one (R167; notes/assumptions/9.md). -/
def Session.resetSend (x : Session) : Session :=
  { x with queue := x.queue.map (fun q => { q with sent := false }), round := x.round + 1 }

/-- The notice numbered `seq` is marked sent (R166). -/
def Session.markSent (x : Session) (seq : BitVec 16) : Session :=
  { x with queue := x.queue.map (fun q => if q.seq = seq then { q with sent := true } else q) }

/-- A cumulative acknowledgement: with `d` = n minus the oldest number modulo 65536, the `d + 1` oldest notices leave
when `d` is below the queue's length, and none otherwise (R168). -/
def ackQueue (q : List QueuedNotice) (n : BitVec 16) : List QueuedNotice :=
  match q with
  | [] => []
  | oldest :: _ => if (n - oldest.seq).toNat < q.length then q.drop ((n - oldest.seq).toNat + 1) else q

/-- NOTICE_ACK at a session, with the RESYNC that a drained overflowed queue brings (R168, R170). -/
def Session.acknowledge (x : Session) (n : BitVec 16) : Session :=
  let q := ackQueue x.queue n
  if q.isEmpty && !x.queue.isEmpty && x.overflow then
    Session.enqueue { x with queue := [], overflow := false } .resync
  else { x with queue := q }

/-- The notice that is due: the oldest one marked waiting (R166). -/
def Session.dueNotice (x : Session) : Option QueuedNotice := x.queue.find? (fun q => !q.sent)

/-! ### Term timer (R86) -/

/-- Intake restarts the term timer of an ACTIVE session, whatever its state but STOPPED (R86, R156). -/
def Session.restartTerm (x : Session) (deadline : Time) : Session :=
  if x.state = .active then
    { x with term := match x.term with
        | .stopped => .stopped
        | .running _ => .running deadline
        | .expired _ => .running deadline }
  else x

/-- The deadline of a session timer, absent in STOPPED (R86). -/
def SessionTimer.deadline? : SessionTimer → Option Time
  | .stopped => none
  | .running d => some d
  | .expired d => some d

/-! ### Answer queue and transmitter (R159 to R161, R166) -/

/-- The port deals with an answer handed to it: it joins the answer queue when the port is UP and is discarded
otherwise (R149). -/
def Port.handAnswer (x : Port) (a : Answer) : Port :=
  if x.link = .up then { x with answers := x.answers ++ [a] } else x

/-- The places reserved for the engine's answers: the requests in the inbox, and one for a DEPART answer (R159). -/
def State.reserved (s : State) (p : PortId) : Nat :=
  (s.port p).inbox.length +
    match s.boundSession p with
    | some i => if (s.session i).state = .closing ∧ (s.session i).closeKind = some .depart then 1 else 0
    | none => 0

/-- The answer queue has a place for an answer of intake or for an acceptance (R159). -/
def State.hasRoom (s : State) (p : PortId) : Bool :=
  (s.port p).answers.length + s.reserved p < Config.answerPlaces

/-- What the transmitter of port `p` sends next, HELLO apart: the oldest answer, otherwise the due notice of the bound
session (R160, R166). -/
def nextFrame (ss : Vector Session 12) (p : PortId) (x : Port) : Option TxFrame :=
  match x.answers with
  | a :: _ => some (.answer a)
  | [] =>
    match boundTo ss p with
    | some i => (ss[i].dueNotice).map (fun q => .notice i ss[i].number ss[i].round q.seq q.notice)
    | none => none

/-- A transmitter of an UP port with no frame in progress begins its next frame (R160). -/
def pumpPort (ss : Vector Session 12) (p : PortId) (x : Port) : Port :=
  if x.link = .up ∧ x.tx = none then
    match nextFrame ss p x with
    | some f => { x with tx := some f, sentThisMs := true }
    | none => x
  else x

/-- Apply a function to each port. -/
def mapPorts (f : PortId → Port → Port) (ps : Vector Port 6) : Vector Port 6 :=
  #v[f 0 ps[0], f 1 ps[1], f 2 ps[2], f 3 ps[3], f 4 ps[4], f 5 ps[5]]

/-- Every transmitter that can begin a frame begins it (R160; notes/assumptions/8.md). -/
def State.settle (s : State) : State := { s with ports := mapPorts (pumpPort s.sessions) s.ports }

/-! ### Claims of the Timers claimant (R21, R87) -/

/-- Two claims are of the same kind and session index (R21, R87). -/
def TimerClaim.meets (d c : TimerClaim) : Bool := decide (d.kind = c.kind) && decide (d.session = c.session)

/-- The queued claim `d` when a claim `c` of its kind and session is raised: with another number it takes the new claim, with
the same number it stands for both, the loss of a second port included (R87, R89; notes/assumptions/12.md). -/
def TimerClaim.merge (d c : TimerClaim) : TimerClaim :=
  if d.number = c.number then { d with ports := d.ports ++ c.ports.filter (fun p => !d.ports.contains p) } else c

/-- A claim is raised: one of the same kind and session keeps its place, otherwise the claim joins the tail (R21, R87). -/
def raiseClaim (q : List TimerClaim) (c : TimerClaim) : List TimerClaim :=
  if q.any (fun d => d.meets c) then q.map (fun d => if d.meets c then d.merge c else d) else q ++ [c]

/-- A claim is raised in the Timers queue (R87). -/
def State.claim (s : State) (c : TimerClaim) : State := { s with timersQueue := raiseClaim s.timersQueue c }

/-! ### Link states (R146 to R151) -/

/-- A good frame on an UP port: the silence time and the error run count return to 0 (R147). -/
def Port.goodFrame (x : Port) : Port := { x with silence := 0, errorRun := 0 }

/-- A port enters TRAINING (R146). -/
def Port.train (x : Port) : Port := { x with link := .training, helloCount := 0, sentThisMs := false }

/-- A port in DOWN that is enabled moves to TRAINING while the device is READY (R146). -/
def State.retrain (s : State) (p : PortId) : State :=
  if (s.port p).link = .down ∧ (s.cfg p).enable = true ∧ s.device = .ready then s.setPort p (s.port p).train else s

/-- The requests in the inbox of port `p` are discarded unanswered; their tags leave the outstanding set of the session
bound to it (R89, R90, R149). -/
def State.discardInbox (s : State) (p : PortId) : State :=
  let tags := (s.port p).inbox.map (fun r => r.tag)
  let s1 := match s.boundSession p with
    | some i => s.setSession i { s.session i with
        outstanding := (s.session i).outstanding.filter (fun t => !(tags.contains t.1)) }
    | none => s
  s1.setPort p { s1.port p with inbox := [] }

/-- A port goes DOWN from TRAINING or UP, for any cause but Table Clear (R149): answer queue emptied, frame abandoned,
inbox discarded, a link-lost claim if it is bound, and LINK_DOWN. -/
def State.portDown (s : State) (p : PortId) : State :=
  if (s.port p).link = .down then s
  else
    let s1 := s.discardInbox p
    let s2 := s1.setPort p { s1.port p with link := .down, tx := none, answers := [] }
    let s3 := match s.boundSession p with
      | some i => s2.claim { kind := .linkLost, session := i, number := (s.session i).number, ports := [p] }
      | none => s2
    s3.raise [(.linkDown, .port p)]

/-- A frame that fails its check arrives on port `p` (R146, R147, R148). In DOWN no frame is taken. -/
def State.rpBadFrame (s : State) (p : PortId) : State :=
  let x := s.port p
  match x.link with
  | .down => s
  | .training => s.setPort p { x with helloCount := 0, badFrames := satCount x.badFrames }
  | .up =>
    let s1 := s.setPort p { x with badFrames := satCount x.badFrames, errorRun := x.errorRun + 1, silence := 0 }
    if Config.errorRunMax ≤ x.errorRun + 1 then (s1.portDown p).retrain p else s1

/-! ### A step's completion (R19) -/

/-- A step hands over, in order, the cache entries of the parked requests it completed, its notices and its alerts, those
of an overflow last (R19, R27, R165, R169). -/
def Run.handOver (r : Run) (s : State) : State :=
  let o := r.notices.foldl offerIn (r.cache.foldl concludeIn s.sessions, [])
  ({ s with tab := r.tab, sessions := o.1 }).raise (r.alerts ++ o.2)

/-- The completion of a step: the due passes run last, the results are handed over, and the transmitters go on. -/
def Run.complete (r : Run) (s : State) : State := (r.runPasses.handOver s).settle

/-! ### The claim arbiter (R20, R21) -/

/-- The ring in search order: from the position after the one last served, going round (R20). -/
def ringFrom (last : RingPos) : List RingPos := (List.finRange 10).map (fun k => last + 1 + k)

/-- The claimant at a ring position has a claim (R21). -/
def State.hasClaim (s : State) (pos : RingPos) : Bool :=
  if h : pos.val < 6 then !(s.port ⟨pos.val, h⟩).inbox.isEmpty
  else if pos.val = 6 then s.visitPending
  else if pos.val = 7 then !s.timersQueue.isEmpty
  else if pos.val = 8 then !s.purgeQueue.isEmpty
  else s.waiting.isSome

/-- The position whose claim the arbiter presents: none while the device is not READY or the engine is not IDLE
(R18, R20, R24). -/
def State.presented (s : State) : Option RingPos :=
  if s.device = .ready ∧ s.engine = .idle then (ringFrom s.lastServed).find? s.hasClaim else none

/-- The ring position of a Requester Port (R20). -/
def portPos (p : PortId) : RingPos := ⟨p.val, by omega⟩

/-- The port at a ring position. -/
def posPort (pos : RingPos) : Option PortId := if h : pos.val < 6 then some ⟨pos.val, h⟩ else none

/-- The port whose oldest request the arbiter presents, with that request and the requests behind it. -/
def State.presentedRequest (s : State) : Option (PortId × Request × List Request) :=
  match s.presented.bind posPort with
  | some p =>
    match (s.port p).inbox with
    | rq :: rest => some (p, rq, rest)
    | [] => none
  | none => none

/-- The engine takes the oldest request of port `p` from its inbox (R158). -/
def State.takeInbox (s : State) (p : PortId) (rest : List Request) : State :=
  ({ s with lastServed := portPos p }).setPort p { s.port p with inbox := rest }

/-- The engine takes a request of kind `k`, if the arbiter presents one; otherwise no such step happens
(notes/assumptions/1.md). -/
def State.takeRequest (s : State) (k : ReqKind) (step : PortId → Request → State → State) : State :=
  match s.presentedRequest with
  | some (p, rq, rest) => if rq.body.kind? = some k then step p rq (s.takeInbox p rest) else s
  | none => s

/-- The engine takes the visit claim, if the arbiter presents it (R105). -/
def State.takeVisit (s : State) (step : State → State) : State :=
  if s.presented = some 6 then step { s with lastServed := 6, visitPending := false } else s

/-- The engine takes the oldest claim of the Timers queue, if the arbiter presents it and it is of kind `k` (R21). -/
def State.takeTimer (s : State) (k : TimerKind) (step : TimerClaim → State → State) : State :=
  if s.presented = some 7 then
    match s.timersQueue with
    | c :: rest => if c.kind = k then step c { s with lastServed := 7, timersQueue := rest } else s
    | [] => s
  else s

/-- The engine takes the next purge claim, if the arbiter presents it (R97). -/
def State.takePurge (s : State) (step : SessionId → State → State) : State :=
  if s.presented = some 8 then
    match s.purgeQueue with
    | i :: _ => step i { s with lastServed := 8 }
    | [] => s
  else s

/-- The waiting command that the arbiter presents. -/
def State.presentedCommand (s : State) : Option Command := if s.presented = some 9 then s.waiting else none

/-- The engine takes the waiting command, if the arbiter presents it and its code passes the test (R21, R174). -/
def State.takeCommand (s : State) (isCode : Byte → Bool) (step : Command → State → State) : State :=
  match s.presentedCommand with
  | some c => if isCode c.code then step c { s with lastServed := 9 } else s
  | none => s

/-- The engine takes the waiting command when its code is `code` (R188). -/
def State.takeCode (s : State) (code : Byte) (step : Command → State → State) : State :=
  s.takeCommand (fun c => decide (c = code)) step

/-! ### Answers of a request's step -/

/-- What a step does about the answer to its request (R27): a final answer, PARKED, or nothing yet (a DEPART, R95). -/
inductive Reply where
  | final (status : Status) (result : Result)
  | parked
  | silent
deriving DecidableEq, Repr

/-- The step's own answer and cache entry, handed over first (R19, R27). `i` is the session whose cache takes the final
answer; an answer to a request from an unbound port has none (R81). -/
def State.giveReply (s : State) (p : PortId) (tag : Tag) (k : ReqKind) (i : Option SessionId) : Reply → State
  | .final st res =>
    let s1 := match i with
      | some i => { s with sessions := concludeIn s.sessions (i, { tag := tag, kind := k, status := st, result := res }) }
      | none => s
    s1.setPort p ((s1.port p).handAnswer { tag := tag, code := k.code, status := st, replay := false, result := res })
  | .parked =>
    let s1 := match i with
      | some i => s.setSession i ((s.session i).parkTag tag)
      | none => s
    s1.setPort p ((s1.port p).handAnswer { tag := tag, code := k.code, status := .parked, replay := false, result := .empty })
  | .silent =>
    match i with
    | some i => s.setSession i ((s.session i).parkTag tag)
    | none => s

/-- The completion of a request's step. -/
def State.answerRequest (s : State) (p : PortId) (tag : Tag) (k : ReqKind) (i : Option SessionId) (reply : Reply)
    (r : Run) : State :=
  r.complete (s.giveReply p tag k i reply)

/-- A request of a session: NO_SESSION when its port is not bound (R79), BUSY when the session is not ACTIVE (R26, R57),
and otherwise the request's own checks, which may change the lease tables. -/
def State.sessionRequest (s : State) (k : ReqKind) (work : SessionId → Request → State → Run × Reply) : State :=
  s.takeRequest k fun p rq s =>
    match s.boundSession p with
    | none => s.answerRequest p rq.tag k none (.final .noSession .empty) (Run.start s)
    | some i =>
      if (s.session i).state = .active then
        let w := work i rq s
        s.answerRequest p rq.tag k (some i) w.2 w.1
      else s.answerRequest p rq.tag k (some i) (.final .busy .empty) (Run.start s)

/-! ### Completion of a command's step -/

/-- A command is carried out or refused: its results are handed over and its status is set (R174, R175). -/
def State.finishCommand (s : State) (refusal : Option Reason) (r : Run) : State :=
  (r.complete s).finishStatus refusal

/-- A command is refused and changes nothing but its status (R175). -/
def State.refuseCommand (s : State) (reason : Reason) : State := s.finishStatus (some reason)

/-! ### Closing a session (R93, R97) -/

/-- Session `i` joins the tail of the purge queue; a queue that was empty starts the job at section 0 (R97). -/
def State.enqueuePurge (s : State) (i : SessionId) : State :=
  { s with purgeQueue := s.purgeQueue ++ [i], purgeSection := if s.purgeQueue.isEmpty then 0 else s.purgeSection }

/-- Session `i` becomes CLOSING: close kind set, timers stopped, appended to the purge queue (R93). -/
def State.closeAs (s : State) (i : SessionId) (k : CloseKind) : State :=
  (s.setSession i { s.session i with state := .closing, closeKind := some k, term := .stopped,
                                     grace := .stopped }).enqueuePurge i

/-- Steps 1 and 2 of the orphaning: the port is unbound, its inbox discarded and the term timer stopped (R90, R94). -/
def State.unbind (s : State) (i : SessionId) : State :=
  match (s.session i).port with
  | some p =>
    let s1 := s.discardInbox p
    s1.setSession i { s1.session i with port := none, term := .stopped }
  | none => s.setSession i { s.session i with term := .stopped }

/-! ### Every command -/

/-- An event of the part: nothing happens while RESET_N is low (R189). -/
def event (f : State → State) (s : State) : Host.Outcome State Fault Refusal :=
  .next (if s.resetN then f s else s)

end Sys2Proof.Machine
end

