-- ==== Sys2Proof/Machine/Reset.lean ====
section
/-! DEFINITION. POWER_ON_RESET, RESET_RELEASE and STARTUP_COMPLETE (R24, R172, R173, R189). -/

namespace Sys2Proof.Machine

/-- RESET_N is low: every block is at its power-on value, whatever was in progress (R189). The command queue is not part
of the machine and stays. -/
def State.powerOn (s : State) : State := { State.reset with pending := s.pending }

/-- RESET_N is released: the straps are sampled, the device state becomes STARTING and the clock starts from 0 (R172,
R173, R189). -/
def State.releaseReset (s : State) (straps : BitVec 3) : State :=
  { s with resetN := true, address := BitVec.ofNat 7 Config.baseAddress + straps.setWidth 7, device := .starting,
           clock := 0 }

/-- The Gate Port enters TRAINING (R131). -/
def Gate.train (g : Gate) : Gate := { g with link := .training, helloCount := 0, silence := 0, sentThisMs := false }

/-- The Gate Port in DOWN moves to TRAINING while the device is READY (R131). -/
def State.gateRetrain (s : State) : State :=
  if s.gate.link = .down ∧ s.device = .ready then { s with gate := s.gate.train } else s

/-- Each enabled Requester Port in DOWN, and the Gate Port, move to TRAINING (R146, R131, R173). -/
def State.retrainAll (s : State) : State := ((List.finRange 6).foldl State.retrain s).gateRetrain

/-- The engine's structures as STARTING leaves them: every slot FREE with generation 0 and the rest at its power-on value
(R24, R173). A visit claim raised meanwhile stays pending (R105). -/
def State.clearEngine (s : State) : State :=
  { s with tab := Tables.reset, lastServed := 9, sessions := Vector.replicate 12 Session.freed, nextNumber := 1,
           timersQueue := [], purgeQueue := [], purgeSection := 0 }

/-- The device state changes (R173). -/
def State.setDevice (s : State) (d : DeviceState) : State := { s with device := d }

/-- The engine has cleared the slots: the device becomes READY and the links train (R24, R173). -/
def State.startUp (s : State) : State := (s.clearEngine.setDevice .ready).retrainAll

/-- POWER_ON_RESET (R189). -/
def execPowerOnReset (s : State) : Host.Outcome State Fault Refusal := .next s.powerOn

/-- RESET_RELEASE (R173). With RESET_N already high there is no release and nothing happens. -/
def execResetRelease (straps : BitVec 3) (s : State) : Host.Outcome State Fault Refusal :=
  .next (if s.resetN then s else s.releaseReset straps)

/-- STARTUP_COMPLETE (R24). In any device state but STARTING there is no such event. -/
def execStartupComplete (s : State) : Host.Outcome State Fault Refusal :=
  event (fun s => if s.device = .starting then s.startUp else s) s

end Sys2Proof.Machine
end

