-- ==== Sys2Proof/WellFormed.lean ====
section
/-! DEFINITION. Which commands are well formed. The types of the operands bound every index; what is left are the body
lengths of Table 11-2 (R185). A frame whose body length lies outside them is a bad frame, and `exec` treats it as one. -/

namespace Sys2Proof

/-- A REQUEST body has 1 to 19 bytes (R185, Table 11-2). -/
def requestLengthOk (body : List Byte) : Bool := 1 ≤ body.length && body.length ≤ 19

/-- A gate QUERY body has 13 bytes (R185, R187). -/
def queryLengthOk (body : List Byte) : Bool := body.length == 13

/-- The command could arrive as the event it names. -/
def Instr.wellFormed : Instr → Bool
  | .requestIntake _ _ body => requestLengthOk body
  | .gateQuery _ body => queryLengthOk body
  | .powerOnReset | .resetRelease _ | .startupComplete | .keepalive _ _ | .noticeAck _ _ _
  | .join | .acquire | .convert | .renew | .release | .cancel | .query | .list | .depart
  | .sweepTimerExpiry | .sweepVisit | .termTimerExpiry _ | .graceTimerExpiry _
  | .lossClaim | .linkLostClaim | .graceClaim | .purgeSection
  | .define | .online | .freeze | .thaw | .offline | .offlineForce | .revoke | .closeSession | .portReset
  | .tableClear | .setConfig | .registerWrite _ _ | .alertRead _ | .recordWindowSelect _ _
  | .helloReceive _ | .badFrame _ | .discardedFrame _ _ | .linkSilenceTimeout _ | .helloTransmit _
  | .frameTransmitComplete _ | .gateHelloReceive | .gateLookup | .gateAnswerSent | .gateBadFrame
  | .gateLinkSilenceTimeout | .gateDiscardedFrame _ | .badCommand => true

end Sys2Proof
end

