-- ==== Sys2Proof/Machine/GatePort.lean ====
section
/-! DEFINITION. The Write Gate (chapter 7): its link, its query queue and refusal store, and the lookup. -/

namespace Sys2Proof.Machine

/-- Replace the gate. -/
def State.setGate (s : State) (g : Gate) : State := { s with gate := g }

/-! ### The transmitter (R133, R134, R135) -/

/-- A gate transmitter that is free is handed the oldest answer; the answer of a lookup gives up its query's place
(R133). -/
def Gate.pump (g : Gate) : Gate :=
  if g.link = .up ∧ g.tx = none then
    match g.replies with
    | r :: rest =>
      { g with tx := some r, replies := rest, queue := if r.fromQueue then g.queue.tail else g.queue, sentThisMs := true }
    | [] => g
  else g

/-- The answer frame has been sent (R135). -/
def Gate.answerSent (g : Gate) : Gate :=
  match g.tx with
  | some _ => Gate.pump { g with tx := none }
  | none => g

/-! ### The link (R131, R132) -/

/-- A good frame: the silence time and the error run count are 0 (R131, R132). -/
def Gate.goodFrame (g : Gate) : Gate := { g with silence := 0, errorRun := 0 }

/-- A valid HELLO (R131). -/
def Gate.helloFrame (g : Gate) : Gate :=
  match g.link with
  | .down => g
  | .training =>
    if 2 ≤ g.helloCount + 1 then Gate.pump { g.goodFrame with link := .up, helloCount := 2 }
    else { g.goodFrame with helloCount := g.helloCount + 1 }
  | .up => g.goodFrame

/-- A good frame that is discarded: an ANSWER in TRAINING or UP, a QUERY in TRAINING (R131, R185). -/
def Gate.discardFrame (g : Gate) (kind : GateDiscard) : Gate :=
  match g.link, kind with
  | .down, _ => g
  | .training, _ => g.goodFrame
  | .up, .answer => g.goodFrame
  | .up, .query => g

/-- The gate's link goes DOWN: queries, refusals and answers not yet sent are dropped (R135). -/
def Gate.drop (g : Gate) : Gate := { g with link := .down, queue := [], replies := [], tx := none }

/-- The link goes DOWN for silence or bad frames, with LINK_DOWN, and trains again at once (R131, R132). -/
def State.gateDown (s : State) : State := ((s.setGate s.gate.drop).raise [(.linkDown, .device)]).gateRetrain

/-- A bad frame as the counters see it (R131, R132): a HELLO run in TRAINING starts again. -/
def Gate.countBad (g : Gate) : Gate :=
  { g with badFrames := satCount g.badFrames, errorRun := g.errorRun + 1, silence := 0,
           helloCount := if g.link = .training then 0 else g.helloCount }

/-- A frame that fails its check arrives on the Gate Port (R132). -/
def State.gateBad (s : State) : State :=
  if s.gate.link = .down then s
  else
    let g := s.gate.countBad
    if Config.errorRunMax ≤ g.errorRun then (s.setGate { g with errorRun := 0 }).gateDown else s.setGate g

/-- The silence time reaches 2 ms in TRAINING or UP (R131). -/
def State.gateSilence (s : State) : State :=
  if s.gate.link = .down then s else (s.setGate { s.gate with silence := Config.silenceMax }).gateDown

/-! ### Queries (R133, R134) -/

/-- The REFUSED_FULL answers that wait for the transmitter: the refusal store (R134). -/
def Gate.refusals (g : Gate) : Nat := (g.replies.filter (fun r => !r.fromQueue)).length

/-- A gate query arrives on an UP link (R133, R134). -/
def Gate.enter (g : Gate) (q : GateQuery) : Gate :=
  if g.queue.length < Config.gatePlaces then { g with queue := g.queue ++ [q] }
  else if g.refusals < Config.gatePlaces then
    { g with replies := g.replies ++ [{ number := q.number, code := .refusedFull, fromQueue := false }] }
  else g

/-- A QUERY frame: not taken in DOWN, discarded in TRAINING, a gate query in UP; a body that is not 13 bytes long makes
it a bad frame (R131 to R134, R185). -/
def State.queryFrame (s : State) (tag : BitVec 16) (body : List Byte) : State :=
  if queryLengthOk body then
    match s.gate.link with
    | .down => s
    | .training => s.setGate s.gate.goodFrame
    | .up => s.setGate (s.gate.goodFrame.enter (parseGateQuery tag body)).pump
  else s.gateBad

/-! ### The lookup (R136 to R142) -/

/-- Check 1 passes (R137). -/
def GateQuery.formOk (q : GateQuery) : Bool :=
  decide (q.path < 6) && decide (q.access ≠ .other) && decide (q.count ≠ 0) &&
    !(decide (q.access = .write) && decide (q.token = 0))

/-- Check 2: the ACTIVE session bound to the path's port (R138). -/
def State.gateSession (s : State) (q : GateQuery) : Option SessionId :=
  match finOf 6 q.path with
  | some p =>
    match s.boundSession p with
    | some i => if (s.session i).state = .active then some i else none
    | none => none
  | none => none

/-- Check 3: the volume, ONLINE, or FROZEN for a READ (R139). -/
def Tables.gateVolume (t : Tables) (q : GateQuery) : Option VolumeId :=
  match finOf 32 q.volume with
  | some v =>
    match (t.volume v).state with
    | .online => some v
    | .frozen => if q.access = .read then some v else none
    | .offline => none
  | none => none

/-- Checks 5 and 6 against the covering lease (R141). -/
def leaseVerdict (q : GateQuery) (l : Lease) (ten : Tenure) : GateCode :=
  if q.access = .write then
    if l.mode = .shared then .denyMode
    else if ten.token = some q.token then .allow
    else .denyToken
  else .allow

/-- Checks 4 to 6 for session `i` on volume `v`, with the covering lease's slot (R140, R141). -/
def Tables.gateLease (t : Tables) (i : SessionId) (v : VolumeId) (q : GateQuery) : GateCode × Option Nat :=
  match t.coveringSearch i v q.start q.count with
  | none => (.denyUncovered, none)
  | some n =>
    match t.body n with
    | .held l ten => (leaseVerdict q l ten, some n)
    | .free => (.denyUncovered, none)
    | .pending _ _ => (.denyUncovered, none)

/-- The checks of Table 7-1, in order: the answer, and the covering lease's slot where check 4 finds one (R136). -/
def State.lookup (s : State) (q : GateQuery) : GateCode × Option Nat :=
  if q.formOk then
    match s.gateSession q with
    | none => (.denySession, none)
    | some i =>
      match s.tab.gateVolume q with
      | none => (.denyVolume, none)
      | some v => s.tab.gateLease i v q
  else (.denyFormat, none)

/-- An ALLOW advances the gate-use count of its covering lease (R142). -/
def Tables.countUse (t : Tables) (found : GateCode × Option Nat) : Tables :=
  match found with
  | (.allow, some n) =>
    match t.body n with
    | .held l ten => t.setBody n (.held l { ten with gateUse := satCount ten.gateUse })
    | .free => t
    | .pending _ _ => t
  | _ => t

/-- The lookup of query `q`: its answer waits for the transmitter (R135, R136). -/
def State.answerQuery (s : State) (q : GateQuery) : State :=
  let found := s.lookup q
  let s1 := { s with tab := s.tab.countUse found }
  s1.setGate (Gate.pump { s.gate with
    replies := s.gate.replies ++ [{ number := q.number, code := found.1, fromQueue := true }] })

/-- The oldest query is looked up, unless its answer still waits for the transmitter (R133). -/
def State.lookupOldest (s : State) : State :=
  match s.gate.queue with
  | q :: _ => if s.gate.replies.any (fun r => r.fromQueue) then s else s.answerQuery q
  | [] => s

/-! ### The meanings -/

/-- GATE_HELLO_RECEIVE (R131). -/
def execGateHelloReceive (s : State) : Host.Outcome State Fault Refusal :=
  event (fun s => s.setGate s.gate.helloFrame) s

/-- GATE_QUERY (R133). -/
def execGateQuery (tag : BitVec 16) (body : List Byte) (s : State) : Host.Outcome State Fault Refusal :=
  event (fun s => s.queryFrame tag body) s

/-- GATE_LOOKUP (R136). -/
def execGateLookup (s : State) : Host.Outcome State Fault Refusal := event (fun s => s.lookupOldest) s

/-- GATE_ANSWER_SENT (R135). -/
def execGateAnswerSent (s : State) : Host.Outcome State Fault Refusal :=
  event (fun s => s.setGate s.gate.answerSent) s

/-- GATE_BAD_FRAME (R132). -/
def execGateBadFrame (s : State) : Host.Outcome State Fault Refusal := event (fun s => s.gateBad) s

/-- GATE_LINK_SILENCE_TIMEOUT (R131). -/
def execGateLinkSilenceTimeout (s : State) : Host.Outcome State Fault Refusal := event (fun s => s.gateSilence) s

/-- GATE_DISCARDED_FRAME (R185). -/
def execGateDiscardedFrame (kind : GateDiscard) (s : State) : Host.Outcome State Fault Refusal :=
  event (fun s => s.setGate (s.gate.discardFrame kind)) s

end Sys2Proof.Machine
end

