-- ==== Sys2Proof/Machine/Intake.lean ====
section
/-! DEFINITION. Intake (chapter 8.5): REQUEST_INTAKE, KEEPALIVE and NOTICE_ACK. -/

namespace Sys2Proof.Machine

/-- An answer that intake makes on its own account, with REPLAY clear (R161). -/
def intakeAnswer (tag : Tag) (body : ReqBody) (st : Status) : Answer :=
  { tag := tag, code := body.code, status := st, replay := false, result := .empty }

/-- The cached answer, sent with REPLAY set and all its fields (R154, R161). -/
def replayed (e : CacheEntry) : Answer :=
  { tag := e.tag, code := e.kind.code, status := e.status, replay := true, result := e.result }

/-- Intake makes an answer if the answer queue has a place for it; otherwise the frame has no effect (R159). `s'` is the
state with the frame's other effects. -/
def State.intakeReply (s s' : State) (p : PortId) (a : Answer) : State :=
  if s.hasRoom p then s'.setPort p ((s'.port p).handAnswer a) else s

/-- The term timer of the session bound to `p` is restarted (R86, R156). -/
def State.restartTermOf (s : State) (p : PortId) (i : SessionId) : State :=
  s.setSession i ((s.session i).restartTerm (deadlineAt s.clock (s.cfg p).sessionTerm))

/-- A request joins the tail of the inbox (R156). -/
def State.toInbox (s : State) (p : PortId) (rq : Request) : State :=
  s.setPort p { s.port p with inbox := (s.port p).inbox ++ [rq] }

/-- Intake on an unbound port: JOIN against a window of 1, NO_SESSION for any other request (R152). -/
def State.judgeUnbound (s : State) (p : PortId) (rq : Request) : State :=
  if rq.body.kind? = some .join then
    if (s.port p).inbox.any (fun r => r.tag = rq.tag && r.body.kind? = some .join) then s
    else if (s.port p).inbox.isEmpty then
      if s.hasRoom p then s.toInbox p rq else s
    else s.intakeReply s p (intakeAnswer rq.tag rq.body .noCredit)
  else s.intakeReply s p (intakeAnswer rq.tag rq.body .noSession)

/-- Acceptance for session `i`: inbox, outstanding set, term timer (R156). -/
def State.accept (s : State) (p : PortId) (i : SessionId) (rq : Request) : State :=
  let x := (s.session i).restartTerm (deadlineAt s.clock (s.cfg p).sessionTerm)
  (s.setSession i { x with outstanding := x.outstanding ++ [(rq.tag, .queued)] }).toInbox p rq

/-- Checks 7 to 9 for session `i`: KEEPALIVE and NOTICE_ACK at the port, the window, acceptance (R156, R157). -/
def State.judgeNew (s : State) (p : PortId) (i : SessionId) (rq : Request) : State :=
  match rq.body with
  | .keepalive => s.intakeReply (s.restartTermOf p i) p (intakeAnswer rq.tag rq.body .ok)
  | .noticeAck n =>
    let s1 := s.restartTermOf p i
    s.intakeReply (s1.setSession i ((s1.session i).acknowledge n)) p (intakeAnswer rq.tag rq.body .ok)
  | .malformed .keepalive => s.intakeReply s p (intakeAnswer rq.tag rq.body .badRequest)
  | .malformed .noticeAck => s.intakeReply s p (intakeAnswer rq.tag rq.body .badRequest)
  | _ =>
    if (s.session i).window ≤ (s.session i).outstanding.length then
      s.intakeReply s p (intakeAnswer rq.tag rq.body .noCredit)
    else if s.hasRoom p then s.accept p i rq else s

/-- Checks 2 to 9 on a port bound to session `i` (Table 8-2, R153 to R157). -/
def State.judgeBound (s : State) (p : PortId) (i : SessionId) (rq : Request) : State :=
  let x := s.session i
  if x.state ≠ .active ∧ rq.body.kind? ≠ some .depart then s.intakeReply s p (intakeAnswer rq.tag rq.body .busy)
  else if rq.body.kind? = none then s.intakeReply s p (intakeAnswer rq.tag rq.body .badRequest)
  else
    match x.cached rq.tag with
    | some e => s.intakeReply s p (replayed e)
    | none =>
      match x.tagMark rq.tag with
      | some .parked => s.intakeReply s p { intakeAnswer rq.tag rq.body .parked with replay := true }
      | some .queued => s
      | none => s.judgeNew p i rq

/-- Intake of a request (Table 8-2). -/
def State.intake (s : State) (p : PortId) (rq : Request) : State :=
  match s.boundSession p with
  | none => s.judgeUnbound p rq
  | some i => s.judgeBound p i rq

/-- A REQUEST frame arrives on port `p`: not taken in DOWN, discarded in TRAINING (R146), judged by intake in UP; a frame
whose body length lies outside its bounds is a bad frame (R148, R185). -/
def State.requestFrame (s : State) (p : PortId) (tag : Tag) (body : List Byte) : State :=
  if requestLengthOk body then
    match (s.port p).link with
    | .down => s
    | .training => s
    | .up => ((s.setPort p (s.port p).goodFrame).intake p { tag := tag, body := parseRequest body }).settle
  else s.rpBadFrame p

/-- REQUEST_INTAKE (R156). -/
def execRequestIntake (p : PortId) (tag : Tag) (body : List Byte) (s : State) : Host.Outcome State Fault Refusal :=
  event (fun s => s.requestFrame p tag body) s

/-- KEEPALIVE: a REQUEST frame whose body is the kind code alone (R157, R186). -/
def execKeepalive (p : PortId) (tag : Tag) (s : State) : Host.Outcome State Fault Refusal :=
  event (fun s => s.requestFrame p tag [ReqKind.keepalive.code]) s

/-- NOTICE_ACK: a REQUEST frame whose body is the kind code and the sequence number (R157, R168, R186). -/
def execNoticeAck (p : PortId) (tag : Tag) (seq : BitVec 16) (s : State) : Host.Outcome State Fault Refusal :=
  event (fun s => s.requestFrame p tag (ReqKind.noticeAck.code :: beBytes 2 seq.toNat)) s

end Sys2Proof.Machine
end

