-- ==== Sys2Proof/Machine/Items.lean ====
section
/-! DEFINITION. The items of the Maintenance Port (R172, R182, R183, R188): what each reads as, the read transfer, the
record window's capture, and the commands REGISTER_WRITE, ALERT_READ and RECORD_WINDOW_SELECT. -/

namespace Sys2Proof.Machine

/-! ### The record window (R183) -/

/-- The place of session `i` in the purge queue, counted from 0 (notes/assumptions/15.md). -/
def State.purgePlace (s : State) (i : SessionId) : Option Nat := s.purgeQueue.findIdx? (fun j => j == i)

/-- The job's next section, shown when session `i` is its subject (R183). -/
def State.subjectSection (s : State) (i : SessionId) : Option Nat :=
  if s.purgeQueue.head? = some i then some s.purgeSection else none

/-- The copy that a selector captures; none for an unknown kind or an index out of range (R183, R188). -/
def State.capture (s : State) (kind : Byte) (index : Nat) : Option RecordCopy :=
  if kind = 0 then
    if index < Config.slots then some (.slot index (s.tab.slots.get index)) else none
  else if kind = 1 then
    if index < Config.poolEntries then some (.waitEntry (lookupKey index s.tab.pool)) else none
  else if kind = 2 then
    (finOf 12 index).map (fun i => .session (s.session i) (s.tab.slotCount i) (s.purgePlace i) (s.subjectSection i))
  else if kind = 3 then (finOf 32 index).map (fun v => .volume (s.tab.volume v))
  else none

/-- The selector is written, whole, and a fresh copy captured (R183). -/
def State.select (s : State) (kind : Byte) (index : BitVec 16) : State :=
  { s with selKind := kind, selIndex := index, window := s.capture kind index.toNat }

/-! ### What the items read as (R182, R188) -/

/-- A configuration item of a port (R188). -/
def PortConfig.itemBytes (c : PortConfig) (i : Nat) : List Byte :=
  match i with
  | 0 => [byteOf c.enable.toNat]
  | 1 => [byteOf c.windowMax]
  | 2 => beBytes 2 c.quota
  | 3 => beBytes 2 c.sessionTerm
  | 4 => beBytes 2 c.orphanGrace
  | _ => []

/-- The bytes of an item of a port's block, `k` counted from the block's first item. -/
def State.portItem (s : State) (k : Nat) (f : Port → List Byte) : List Byte :=
  match finOf 6 k with
  | some p => f (s.port p)
  | none => []

/-- The configuration item `k` above 20h (R188). -/
def State.configItem (s : State) (k : Nat) : List Byte :=
  match finOf 6 (k / 8) with
  | some p => (s.cfg p).itemBytes (k % 8)
  | none => []

/-- The number of session records that are not FREE (R182). -/
def State.sessionCount (s : State) : Nat := ((List.finRange 12).filter (fun i => decide ((s.session i).state ≠ .free))).length

/-- The status items (R182, R188); an item that is not one of them has no bytes here. -/
def State.statusItem (s : State) (item : Nat) : List Byte :=
  match item with
  | 0x00 => [s.device.byte]
  | 0x01 => beBytes 2 s.tab.occupancy
  | 0x02 => beBytes 2 s.tab.pool.length
  | 0x03 => [byteOf s.sessionCount]
  | 0x04 => beBytes 4 (if Config.lastSessionNumber < s.nextNumber then 0 else s.nextNumber)
  | 0x05 => beBytes 4 s.clock.toNat
  | 0x06 => [byteOf s.sweepPtr.val]
  | 0x07 => beBytes 2 s.slips
  | 0x14 => [s.gate.link.byte]
  | 0x15 => beBytes 2 s.gate.badFrames
  | 0x16 => [byteOf s.alerts.length]
  | k =>
    if 0x08 ≤ k ∧ k ≤ 0x0D then s.portItem (k - 0x08) (fun x => [x.link.byte])
    else if 0x0E ≤ k ∧ k ≤ 0x13 then s.portItem (k - 0x0E) (fun x => beBytes 2 x.badFrames)
    else []

/-- The items above the configuration (R188). The command code item is not readable, and what a read of it returns is a
free value. -/
def State.upperItem (s : State) (item : Nat) : List Byte :=
  match item with
  | 0x50 => beBytes 2 s.recallLimit
  | 0x51 => beBytes 2 s.occThreshold
  | 0x58 => beBytes 2 s.arg1.toNat
  | 0x59 => [s.arg2]
  | 0x5A => beBytes 6 s.arg3.toNat
  | 0x5B => [Config.writeOnlyRead s.openReads]
  | 0x5C => s.cmdStatus.bytes ++ [s.lastCode, byteOf s.overrun.toNat]
  | 0x60 => alertItem s.alerts
  | 0x68 => s.selKind :: beBytes 2 s.selIndex.toNat
  | 0x69 => [byteOf s.window.isSome.toNat]
  | 0x6A => match s.window with
    | some c => c.bytes
    | none => []
  | _ => []

/-- The bytes of an item (R188, Table 11-7). -/
def State.itemBytes (s : State) (item : Nat) : List Byte :=
  if item < 0x20 then s.statusItem item
  else if item < 0x50 then s.configItem (item - 0x20)
  else s.upperItem item

/-! ### The read transfer (R172, R181, R182) -/

/-- The item under the pointer is latched whole at the read of its first byte. The oldest alert record leaves the set as
item 60h is latched, and ALERT_N is released when the set becomes empty (R181). -/
def State.latch (s : State) : State :=
  let x := { s with readLatch := s.itemBytes s.itemPtr.toNat }
  if s.itemPtr = 0x60 then { x with alerts := s.alerts.tail, alertN := s.alerts.tail.isEmpty }
  else if s.itemPtr = 0x5B then { x with openReads := s.openReads + 1 }
  else x

/-- The port returns one byte of what it has latched, and the pointer advances with the item's last byte. With nothing
latched the number names no item, the byte is 0 and the pointer stays (R172; notes/assumptions/25.md). -/
def State.shiftOut (s : State) : State :=
  match s.readLatch with
  | [] => { s with readOut := s.readOut ++ [0] }
  | b :: rest =>
    { s with readOut := s.readOut ++ [b], readLatch := rest, itemPtr := if rest.isEmpty then s.itemPtr + 1 else s.itemPtr }

/-- One byte of a read transfer: the first byte of an item latches it. -/
def State.readByte (s : State) : State := if s.readLatch.isEmpty then s.latch.shiftOut else s.shiftOut

/-- The next bytes of a read transfer. -/
def State.readBytes : Nat → State → State
  | 0, s => s
  | k + 1, s => State.readBytes k s.readByte

/-- A read transfer begins, and what an earlier one left of its item is dropped, or it goes on (R172). -/
def State.openRead (s : State) (goesOn : Bool) : State :=
  { s with readOut := [], readLatch := if goesOn then s.readLatch else [] }

/-! ### The commands of the bus -/

/-- A write of data to an item, whole or not at all (R172, R188). Bytes beyond the item's length are ignored. -/
def State.writeItem (s : State) (item : Byte) (data : List Byte) : State :=
  if item = 0x58 ∧ 2 ≤ data.length then { s with arg1 := BitVec.ofNat 16 (fieldNat data 0 2) }
  else if item = 0x59 ∧ 1 ≤ data.length then { s with arg2 := BitVec.ofNat 8 (fieldNat data 0 1) }
  else if item = 0x5A ∧ 6 ≤ data.length then { s with arg3 := BitVec.ofNat 48 (fieldNat data 0 6) }
  else if item = 0x5B ∧ 1 ≤ data.length then s.writeCode (BitVec.ofNat 8 (fieldNat data 0 1))
  else if item = 0x68 ∧ 3 ≤ data.length then
    s.select (BitVec.ofNat 8 (fieldNat data 0 1)) (BitVec.ofNat 16 (fieldNat data 1 2))
  else s

/-- A write transfer names an item: the item pointer takes its number, and a read transfer is over (R172). -/
def State.point (s : State) (item : Byte) : State := { s with itemPtr := item, readLatch := [] }

/-- REGISTER_WRITE: a write transfer (R172, R174). -/
def execRegisterWrite (item : Byte) (data : List Byte) (s : State) : Host.Outcome State Fault Refusal :=
  event (fun s => (s.point item).writeItem item data) s

/-- ALERT_READ: a read transfer, which reads the alert item when the pointer stands at 60h (R172, R181, R182). -/
def execAlertRead (transfer : ReadTransfer) (s : State) : Host.Outcome State Fault Refusal :=
  event (fun s => State.readBytes transfer.bytes (s.openRead transfer.goesOn)) s

/-- RECORD_WINDOW_SELECT: a whole write of item 68h (R183). -/
def execRecordWindowSelect (kind : Byte) (index : BitVec 16) (s : State) : Host.Outcome State Fault Refusal :=
  event (fun s => (s.point 0x68).select kind index) s

end Sys2Proof.Machine
end

