-- ==== Sys2Proof/Machine/Links.lean ====
section
/-! DEFINITION. The link half of a Requester Port: HELLO_RECEIVE, BAD_FRAME, DISCARDED_FRAME, LINK_SILENCE_TIMEOUT and
FRAME_TRANSMIT_COMPLETE (chapters 8.2, 8.3, 8.7), and HELLO_TRANSMIT of every link. -/

namespace Sys2Proof.Machine

/-! ### Frames that arrive (R146, R147, R148) -/

/-- The port enters UP: silence time and error run count are 0 (R146). -/
def Port.enterUp (x : Port) : Port := { x with link := .up, helloCount := 2, silence := 0, errorRun := 0 }

/-- The send position of the session bound to port `p` is reset (R167). -/
def State.resetSendOf (s : State) (p : PortId) : State :=
  match s.boundSession p with
  | some i => s.setSession i (s.session i).resetSend
  | none => s

/-- A valid HELLO on port `p` (R146, R147). -/
def State.helloFrame (s : State) (p : PortId) : State :=
  let x := s.port p
  match x.link with
  | .down => s
  | .training =>
    if 2 ≤ x.helloCount + 1 then ((s.setPort p x.enterUp).resetSendOf p).settle
    else s.setPort p { x with helloCount := x.helloCount + 1 }
  | .up => s.setPort p x.goodFrame

/-- A good frame that port `p` discards: ANSWER and NOTICE in UP count as good frames, and in TRAINING nothing happens
(R146, R148). A REQUEST is not discarded in UP. -/
def State.discardFrame (s : State) (p : PortId) (kind : RpDiscard) : State :=
  let x := s.port p
  match x.link, kind with
  | .up, .answer => s.setPort p x.goodFrame
  | .up, .notice => s.setPort p x.goodFrame
  | _, _ => s

/-- The silence time of port `p` reaches 2 ms: an UP port goes DOWN, and trains again at once if it may (R147). -/
def State.silenceTimeout (s : State) (p : PortId) : State :=
  let x := s.port p
  if x.link = .up then ((s.setPort p { x with silence := Config.silenceMax }).portDown p).retrain p else s

/-! ### Frames that are sent (R146, R147, R160) -/

/-- A port that is not DOWN, is sending nothing, and has begun no frame in this millisecond begins a HELLO (R146, R160). -/
def Port.beginHello (x : Port) : Port :=
  if x.link ≠ .down ∧ x.tx = none ∧ x.sentThisMs = false then { x with tx := some .hello, sentThisMs := true } else x

/-- The same for the Gate Port, whose HELLO is not kept as a frame in progress (R131; notes/assumptions/7.md). -/
def Gate.beginHello (g : Gate) : Gate :=
  if g.link ≠ .down ∧ g.tx = none ∧ g.sentThisMs = false then { g with sentThisMs := true } else g

/-- A HELLO is due on a link. -/
def State.helloDue (s : State) (l : LinkRef) : State :=
  match l with
  | .rp p => s.setPort p (s.port p).beginHello
  | .gate => { s with gate := s.gate.beginHello }

/-- What the end of a frame's sending does to what was sent: an answer gives up its place, a notice is marked sent (R159,
R166) unless the send position has gone back since its frame was begun (R167; notes/assumptions/9.md). -/
def State.frameSent (s : State) (p : PortId) (f : TxFrame) : State :=
  let x := s.port p
  match f with
  | .hello => s.setPort p { x with tx := none }
  | .answer _ => s.setPort p { x with tx := none, answers := x.answers.tail }
  | .notice i number round seq _ =>
    let s1 := s.setPort p { x with tx := none }
    if (s.session i).number = number ∧ (s.session i).round = round then s1.setSession i ((s.session i).markSent seq) else s1

/-- The transmitter of port `p` comes free and chooses its next frame (R160). -/
def State.chooseNext (s : State) (p : PortId) : State :=
  let s1 := s.settle
  if (s1.port p).link = .up then s1.setPort p (s1.port p).beginHello else s1

/-- The transmitter of port `p` finishes its frame (R160). -/
def State.transmitted (s : State) (p : PortId) : State :=
  match (s.port p).tx with
  | some f => (s.frameSent p f).chooseNext p
  | none => s

/-! ### The meanings -/

/-- HELLO_RECEIVE (R146). -/
def execHelloReceive (p : PortId) (s : State) : Host.Outcome State Fault Refusal := event (fun s => s.helloFrame p) s

/-- BAD_FRAME (R148). -/
def execBadFrame (p : PortId) (s : State) : Host.Outcome State Fault Refusal := event (fun s => s.rpBadFrame p) s

/-- DISCARDED_FRAME (R148). -/
def execDiscardedFrame (p : PortId) (kind : RpDiscard) (s : State) : Host.Outcome State Fault Refusal :=
  event (fun s => s.discardFrame p kind) s

/-- LINK_SILENCE_TIMEOUT (R147). -/
def execLinkSilenceTimeout (p : PortId) (s : State) : Host.Outcome State Fault Refusal :=
  event (fun s => s.silenceTimeout p) s

/-- HELLO_TRANSMIT (R146). -/
def execHelloTransmit (l : LinkRef) (s : State) : Host.Outcome State Fault Refusal := event (fun s => s.helloDue l) s

/-- FRAME_TRANSMIT_COMPLETE (R160). -/
def execFrameTransmitComplete (p : PortId) (s : State) : Host.Outcome State Fault Refusal :=
  event (fun s => s.transmitted p) s

end Sys2Proof.Machine
end

