-- ==== Sys2Proof/Machine/Maintenance.lean ====
section
/-! DEFINITION. The other maintenance commands: REVOKE, CLOSE-SESSION, PORT-RESET, TABLE-CLEAR, SET-CONFIG, and a code
that names no command (chapter 10.4). -/

namespace Sys2Proof.Machine

/-! ### REVOKE (R69) -/

/-- The slot is HELD. -/
def Tables.isHeld (t : Tables) (n : Nat) : Bool :=
  match t.body n with
  | .held _ _ => true
  | .pending _ _ => false
  | .free => false

/-- REVOKE's step (R69). -/
def State.revokeStep (c : Command) (s : State) : State :=
  if Config.slots ≤ c.arg1.toNat then s.refuseCommand .badArgument
  else if s.tab.isHeld c.arg1.toNat then
    s.finishCommand none ((Run.start s).retire (.revocation .maintenance) c.arg1.toNat)
  else s.refuseCommand .notHeld

/-! ### CLOSE-SESSION (R94) -/

/-- A session ACTIVE or ORPHANED is closed with close kind PURGE; an ACTIVE one is unbound first (R94). -/
def State.closeSession (s : State) (i : SessionId) : State :=
  ((s.unbind i).closeAs i .purge).finishCommand none ((Run.start s).endWaitsOf i .sessionEnded)

/-- CLOSE-SESSION's step (R94, R176). -/
def State.closeSessionStep (c : Command) (s : State) : State :=
  match finOf 12 c.arg1.toNat with
  | none => s.refuseCommand .badArgument
  | some i =>
    match (s.session i).state with
    | .free => s.refuseCommand .badState
    | .closing => s.refuseCommand .badState
    | .active => s.closeSession i
    | .orphaned => s.closeSession i

/-! ### PORT-RESET (R151) -/

/-- The counters that a PORT-RESET clears (R151, step 2). -/
def Port.clearCounters (x : Port) : Port := { x with badFrames := 0, errorRun := 0, helloCount := 0 }

/-- A PORT-RESET of port `p` (R151). -/
def State.resetPort (s : State) (p : PortId) : State :=
  let s1 := s.portDown p
  (s1.setPort p (s1.port p).clearCounters).retrain p

/-- PORT-RESET's step (R151). -/
def State.portResetStep (c : Command) (s : State) : State :=
  match finOf 6 c.arg1.toNat with
  | none => s.refuseCommand .badArgument
  | some p => (s.resetPort p).finishCommand none (Run.start s)

/-! ### TABLE-CLEAR (R178) -/

/-- The lease structures after Table Clear: the volumes are kept (R25, R56, R130). -/
def Tables.clear (t : Tables) : Tables :=
  { Tables.reset with slots := t.slots.clearAll, volumes := t.volumes }

/-- A Requester Port at Table Clear: DOWN with no alert and no claim; the bad-frame counter is kept (R162). -/
def Port.cleared (x : Port) : Port :=
  { x with link := .down, helloCount := 0, errorRun := 0, inbox := [], answers := [], tx := none }

/-- The Gate Port at Table Clear; the bad-frame counter is kept (R144). -/
def Gate.cleared (g : Gate) : Gate :=
  { g with link := .down, helloCount := 0, silence := 0, errorRun := 0, queue := [], replies := [], tx := none }

/-- The work of Table Clear, up to its completion, with the device state CLEARING (R25, R56, R100, R105, R115, R144, R162,
R178). -/
def State.clearTables (s : State) : State :=
  { s with
    device := .clearing, tab := s.tab.clear, sessions := Vector.replicate 12 Session.freed, timersQueue := [],
    purgeQueue := [], purgeSection := 0, visitPending := false, clock := 0, sweepPtr := 0, slips := 0,
    ports := mapPorts (fun _ x => x.cleared) s.ports, gate := s.gate.cleared }

/-- TABLE-CLEAR's step: the clearing, then DONE and READY, and the links train (R178). -/
def State.tableClearStep (_ : Command) (s : State) : State :=
  ((s.clearTables.finishStatus none).setDevice .ready).retrainAll

/-! ### SET-CONFIG (R177) -/

/-- A value in a range. -/
def inRange (lo hi n : Nat) : Bool := decide (lo ≤ n) && decide (n ≤ hi)

/-- The value of a SET-CONFIG for an item of `k` bytes: it stands in the low bytes of argument 3 (R188;
notes/assumptions/14.md). -/
def Command.value (c : Command) (k : Nat) : Nat := c.arg3.toNat % 256 ^ k

/-- How many bytes item `i` of a port has (R188). -/
def portItemSize (i : Nat) : Nat := if i < 2 then 1 else 2

/-- A port's configuration with item `i` given a value; none when the item or the value is out of range (R177, R188). -/
def PortConfig.setItem (c : PortConfig) (i value : Nat) : Option PortConfig :=
  match i with
  | 0 => if inRange 0 1 value then some { c with enable := decide (value = 1) } else none
  | 1 => if inRange 1 32 value then some { c with windowMax := value } else none
  | 2 => if inRange 1 4096 value then some { c with quota := value } else none
  | 3 => if inRange 10 60000 value then some { c with sessionTerm := value } else none
  | 4 => if inRange 0 30000 value then some { c with orphanGrace := value } else none
  | _ => none

/-- The configuration of port `p` is stored (R177). -/
def State.setCfg (s : State) (p : PortId) (c : PortConfig) : State := { s with config := upd s.config p c }

/-- The link follows a change of the enable item (R150). -/
def State.followEnable (s : State) (p : PortId) (before after : Bool) : State :=
  if before = after then s else if after then s.retrain p else s.portDown p

/-- A SET-CONFIG of a port item (R177). -/
def State.setPortItem (s : State) (p : PortId) (i value : Nat) : State :=
  match (s.cfg p).setItem i value with
  | none => s.refuseCommand .badArgument
  | some c =>
    ((s.setCfg p c).followEnable p (s.cfg p).enable c.enable).finishCommand none (Run.start s)

/-- A SET-CONFIG of a device item (R177). -/
def State.setDeviceItem (s : State) (i value : Nat) : State :=
  match i with
  | 0 =>
    if value = 0 ∨ inRange 10 60000 value = true then
      State.finishCommand { s with recallLimit := value } none (Run.start s)
    else s.refuseCommand .badArgument
  | 1 =>
    if inRange 1 4096 value then State.finishCommand { s with occThreshold := value } none (Run.start s)
    else s.refuseCommand .badArgument
  | _ => s.refuseCommand .badArgument

/-- SET-CONFIG's step: targets 0 to 5 are ports and 6 is the device, both of whose items have 2 bytes (R177, R188). -/
def State.setConfigStep (c : Command) (s : State) : State :=
  match finOf 6 c.arg1.toNat with
  | some p => s.setPortItem p c.arg2.toNat (c.value (portItemSize c.arg2.toNat))
  | none =>
    if c.arg1 = 6 then s.setDeviceItem c.arg2.toNat (c.value 2) else s.refuseCommand .badArgument

/-- A code that names no command (R175, R188). -/
def namesNoCommand (code : Byte) : Bool := decide (code = 0) || decide (0x0B < code.toNat)

/-! ### The meanings -/

/-- REVOKE (R69). -/
def execRevoke (s : State) : Host.Outcome State Fault Refusal :=
  event (fun s => s.takeCode 0x07 State.revokeStep) s

/-- CLOSE_SESSION (R94). -/
def execCloseSession (s : State) : Host.Outcome State Fault Refusal :=
  event (fun s => s.takeCode 0x08 State.closeSessionStep) s

/-- PORT_RESET (R151). -/
def execPortReset (s : State) : Host.Outcome State Fault Refusal :=
  event (fun s => s.takeCode 0x09 State.portResetStep) s

/-- TABLE_CLEAR (R178). -/
def execTableClear (s : State) : Host.Outcome State Fault Refusal :=
  event (fun s => s.takeCode 0x0A State.tableClearStep) s

/-- SET_CONFIG (R177). -/
def execSetConfig (s : State) : Host.Outcome State Fault Refusal :=
  event (fun s => s.takeCode 0x0B State.setConfigStep) s

/-- BAD_COMMAND (R175). -/
def execBadCommand (s : State) : Host.Outcome State Fault Refusal :=
  event (fun s => s.takeCommand namesNoCommand (fun _ s => s.refuseCommand .badCommand)) s

end Sys2Proof.Machine
end

