-- ==== Sys2Proof/Machine/Purge.lean ====
section
/-! DEFINITION. The purge job: PURGE_SECTION (chapter 4.8). -/

namespace Sys2Proof.Machine

/-- The slots of section `k` that session `i` owns, in ascending slot number (R98). -/
def Tables.ownedIn (t : Tables) (i : SessionId) (k : Nat) : List Nat :=
  t.slotsWhere (fun n l => decide (l.owner = i) && decide (sectionOf n = k))

/-- Retire the HELD slots of the section with cause purge (R98). -/
def Run.purge (r : Run) (i : SessionId) (k : Nat) : Run := (r.tab.ownedIn i k).foldl (fun r n => r.retire .purge n) r

/-- The tag of the DEPART that a CLOSING session has still to answer: the one marked parked (R95). -/
def Session.departTag (x : Session) : Option Tag :=
  (x.outstanding.find? (fun t => decide (t.2 = .parked))).map Prod.fst

/-- The OK answer of a DEPART (R99). -/
def departAnswer (tag : Tag) : Answer :=
  { tag := tag, code := ReqKind.depart.code, status := .ok, replay := false, result := .empty }

/-- The DEPART answer is handed to the port, and the requests in its inbox are discarded (R99, step 1). -/
def State.answerDepart (s : State) (i : SessionId) : State :=
  match (s.session i).closeKind, (s.session i).port, (s.session i).departTag with
  | some .depart, some p, some tag =>
    let s1 := s.discardInbox p
    s1.setPort p ((s1.port p).handAnswer (departAnswer tag))
  | some .depart, some p, none => s.discardInbox p
  | _, _, _ => s

/-- The alert of a session's end (R99, step 2). -/
def Run.closedAlert (r : Run) (i : SessionId) (k : Option CloseKind) : Run :=
  if k = some .purge then r.alarm (.sessionClosed, .session i) else r

/-- The record becomes FREE, the session leaves the purge queue, and the job begins on the next one at section 0 (R97,
R99, steps 3 and 4). -/
def State.freeSession (s : State) (i : SessionId) : State :=
  { s.setSession i Session.freed with purgeQueue := s.purgeQueue.tail, purgeSection := 0 }

/-- The purge step of session `i` (R98, R99). -/
def State.purgeStep (i : SessionId) (s : State) : State :=
  let r := (Run.start s).purge i s.purgeSection
  if s.purgeSection < 15 then r.complete { s with purgeSection := s.purgeSection + 1 }
  else (r.closedAlert i (s.session i).closeKind).complete ((s.answerDepart i).freeSession i)

/-- PURGE_SECTION (R98). -/
def execPurgeSection (s : State) : Host.Outcome State Fault Refusal := event (fun s => s.takePurge State.purgeStep) s

end Sys2Proof.Machine
end

