-- ==== Sys2Proof/Machine/Requests.lean ====
section
/-! DEFINITION. The requests that the engine takes from an inbox: JOIN (chapter 4.2), ACQUIRE, CONVERT and CANCEL
(chapter 2), RENEW, RELEASE, QUERY and LIST (chapter 3), DEPART (chapter 4.7). -/

namespace Sys2Proof.Machine

/-! ### JOIN (R81 to R84) -/

/-- A record of a session that is not FREE holds the name (R82). -/
def holdsName (name : Name) (x : Session) : Bool := decide (x.state ≠ .free) && decide (x.name = name)

/-- The record set by the creation of a session (R83). -/
def Session.created (p : PortId) (c : PortConfig) (name : Name) (window number : Nat) (now : Time) : Session :=
  { Session.freed with
    state := .active, name := name, number := number, port := some p, window := min window c.windowMax,
    quota := c.quota, term := .running (deadlineAt now c.sessionTerm) }

/-- The record changed by a reclaim on port `p` (R84, R167). -/
def Session.reclaimed (x : Session) (p : PortId) (c : PortConfig) (window : Nat) (now : Time) : Session :=
  { x.resetSend with
    state := .active, port := some p, window := min window c.windowMax, grace := .stopped,
    term := .running (deadlineAt now c.sessionTerm) }

/-- The OK answer of a JOIN (R83, R84). -/
def joinedResult (x : Session) : Result := .joined x.number x.window x.quota

/-- A JOIN for a new session on an unbound port (R82, R83). -/
def State.joinNew (s : State) (p : PortId) (tag : Tag) (name : Name) (window : Nat) : State :=
  let refuse (s : State) (st : Status) := s.answerRequest p tag .join none (.final st .empty) (Run.start s)
  match s.findSession (holdsName name) with
  | some j =>
    match (s.session j).state with
    | .active => refuse s .nameInUse
    | .orphaned => refuse (s.closeAs j .purge) .busy
    | .closing => refuse s .busy
    | .free => refuse s .busy
  | none =>
    match s.findSession (fun x => decide (x.state = .free)) with
    | none => refuse s .noSessionSlot
    | some k =>
      if Config.lastSessionNumber < s.nextNumber then refuse s .noSessionSlot
      else
        let x := Session.created p (s.cfg p) name window s.nextNumber s.clock
        let s1 := { s.setSession k x with nextNumber := s.nextNumber + 1 }
        s1.answerRequest p tag .join (some k) (.final .ok (joinedResult x)) (Run.start s1)

/-- A JOIN that reclaims a session, on an unbound port (R84). -/
def State.joinReclaim (s : State) (p : PortId) (tag : Tag) (name : Name) (window number : Nat) : State :=
  let refuse (st : Status) := s.answerRequest p tag .join none (.final st .empty) (Run.start s)
  match s.findSession (fun x => holdsName name x && decide (x.number = number)) with
  | none => refuse .reclaimFailed
  | some j =>
    match (s.session j).state with
    | .orphaned =>
      let x := (s.session j).reclaimed p (s.cfg p) window s.clock
      let s1 := s.setSession j x
      s1.answerRequest p tag .join (some j) (.final .ok (joinedResult x)) (Run.start s1)
    | .closing => refuse .busy
    | .active => refuse .reclaimFailed
    | .free => refuse .reclaimFailed

/-- The check order of a JOIN (R81). A refusal at check 1 or 2 is an answer of the bound session, if there is one. -/
def State.joinStep (s : State) (p : PortId) (rq : Request) : State :=
  let bound := s.boundSession p
  let refuse (st : Status) := s.answerRequest p rq.tag .join bound (.final st .empty) (Run.start s)
  match rq.body with
  | .join name window reclaim =>
    if name = 0 ∨ window = 0 ∨ 32 < window then refuse .badRequest
    else
      match bound with
      | some i => if (s.session i).state = .active then refuse .alreadyJoined else refuse .busy
      | none =>
        match reclaim with
        | none => s.joinNew p rq.tag name window
        | some number => s.joinReclaim p rq.tag name window number
  | _ => refuse .badRequest

/-! ### ACQUIRE (R28 to R33, R39) -/

/-- The final answer of a refusal. -/
def refusal (r : Run) (st : Status) : Run × Reply := (r, .final st .empty)

/-- The wait deadline of a parked request (R4, R9). -/
def waitDeadlineOf (now : Time) (limit : Option Nat) : Option Time := limit.map (deadlineAt now)

/-- A wait limit in range, or none (R28, R34). -/
def waitLimitOk : Option Nat → Bool
  | none => true
  | some w => decide (1 ≤ w) && decide (w ≤ Config.maxWait)

/-- A hold length in range, or none (R28, R62). -/
def holdOk : Option Nat → Bool
  | none => true
  | some h => decide (Config.minHold ≤ h) && decide (h ≤ Config.maxHold)

/-- The volume that a request names, if it is 0..31 and ONLINE or FROZEN (R29, R71). -/
def Tables.inService (t : Tables) (n : Nat) : Option VolumeId :=
  match finOf 32 n with
  | some v => if (t.volume v).state = .offline then none else some v
  | none => none

/-- The lease that an ACQUIRE would make (R4). -/
def leaseOf (i : SessionId) (v : VolumeId) (tag : Tag) (a : AcquireReq) : Lease :=
  { owner := i, volume := v, start := a.start, count := a.count, mode := a.mode, holdLength := a.hold,
    originTag := tag }

/-- The extent overlaps a HELD or PENDING slot of the session on the volume (R13). -/
def Tables.selfOverlap (t : Tables) (l : Lease) : Bool :=
  !(t.slotsWhere (fun _ m => decide (m.owner = l.owner) && m.overlaps l)).isEmpty

/-- An ACQUIRE is grantable now (R30). -/
def Tables.grantableNow (t : Tables) (l : Lease) : Bool :=
  decide ((t.volume l.volume).state = .online) && (t.conflictSearch l).isEmpty &&
    !t.waitersConflict (t.waitList l.volume) l

/-- The OK answer of an immediate grant in slot `n` (R31). -/
def grantResult (t : Tables) (n : Nat) (l : Lease) : Result :=
  .lease (t.handle n) l.mode (t.tokenFor l.mode l.volume)

/-- An ACQUIRE that has passed Table 2-2 and has FREE slot `n` before it: granted, refused or parked (R30 to R33, R39). -/
def acquireIn (r : Run) (n : Nat) (l : Lease) (noWait : Bool) (limit : Option Nat) : Run × Reply :=
  if r.tab.grantableNow l then
    if r.tab.exhaustedFor l.mode l.volume then refusal (r.exhaust l.volume) .conflict
    else (r.grantNow n l, .final .ok (grantResult r.tab n l))
  else if noWait then refusal r .conflict
  else
    match r.tab.lowestFreeEntry with
    | none => refusal r .waitFull
    | some e => (r.parkAcquire n e l (waitDeadlineOf r.now limit), .parked)

/-- The check order of an ACQUIRE (R28, R29). `quota` is the session's. -/
def acquireChecked (r : Run) (i : SessionId) (quota : Nat) (tag : Tag) (a : AcquireReq) : Run × Reply :=
  if a.count = 0 ∨ holdOk a.hold = false ∨ waitLimitOk a.waitLimit = false then refusal r .badRequest
  else
    match r.tab.inService a.volume with
    | none => refusal r .badVolume
    | some v =>
      let l := leaseOf i v tag a
      if (r.tab.volume v).size < a.start + a.count then refusal r .badRange
      else if r.tab.selfOverlap l then refusal r .selfOverlap
      else if quota ≤ r.tab.slotCount i then refusal r .quota
      else
        match r.tab.lowestFreeSlot with
        | none => refusal r .tableFull
        | some n => acquireIn r n l a.noWait a.waitLimit

/-- The work of an ACQUIRE's step. -/
def acquireWork (i : SessionId) (rq : Request) (s : State) : Run × Reply :=
  match rq.body with
  | .acquire a => acquireChecked (Run.start s) i (s.session i).quota rq.tag a
  | _ => refusal (Run.start s) .badRequest

/-! ### Handles (R6) -/

/-- The check of a handle: the lease it names, or the answer of the first check that fails (R6). -/
def Tables.checkHandle (t : Tables) (i : SessionId) (h : Handle) : Except Status (Lease × Tenure) :=
  if Config.slots ≤ h.slot then .error .badRequest
  else
    match t.body h.slot with
    | .held l ten =>
      if (t.slots.get h.slot).gen ≠ h.gen then .error .staleHandle
      else if l.owner ≠ i then .error .notOwner
      else .ok (l, ten)
    | .free => .error .staleHandle
    | .pending _ _ => .error .staleHandle

/-! ### CONVERT (R34 to R39) -/

/-- A downgrade of the lease in slot `n` (R35). -/
def downgrade (r : Run) (n : Nat) (l : Lease) (ten : Tenure) : Run × Reply :=
  ((r.withTab (r.tab.setBody n (.held { l with mode := .shared } { ten with token := none }))).passDue l.volume,
    .final .ok (.lease (r.tab.handle n) .shared none))

/-- Another session waits to upgrade a lease of the volume that overlaps the lease `l` (R36). -/
def Tables.upgradeConflict (t : Tables) (l : Lease) : Bool :=
  !(t.searchHeld l.volume (fun m ten => ten.upgrade.isSome && decide (m.owner ≠ l.owner) && m.overlaps l)).isEmpty

/-- The claim of an upgrade: the lease's extent in EXCLUSIVE mode (R12). -/
def Lease.upgraded (l : Lease) : Lease := { l with mode := .exclusive }

/-- An upgrade takes effect at once (R37). -/
def upgradeNow (r : Run) (n : Nat) (l : Lease) (ten : Tenure) : Run × Reply :=
  let token := r.tab.tokenFor .exclusive l.volume
  (r.withTab ((r.tab.drawFor .exclusive l.volume).setBody n (.held l.upgraded { ten with token := token })),
    .final .ok (.lease (r.tab.handle n) .exclusive token))

/-- An upgrade of the SHARED lease in slot `n` (R36 to R39). -/
def upgrade (r : Run) (n : Nat) (l : Lease) (ten : Tenure) (tag : Tag) (c : ConvertReq) : Run × Reply :=
  if ten.upgrade.isSome then refusal r .busy
  else if r.tab.upgradeConflict l then refusal r .upgradeConflict
  else if (r.tab.volume l.volume).state = .online ∧ (r.tab.conflictSearch l.upgraded).isEmpty = true then
    if r.tab.exhaustedFor .exclusive l.volume then refusal (r.exhaust l.volume) .conflict
    else upgradeNow r n l ten
  else if c.noWait then refusal r .conflict
  else
    match r.tab.lowestFreeEntry with
    | none => refusal r .waitFull
    | some e =>
      (r.parkUpgrade n e l ten { tag := tag, waitDeadline := waitDeadlineOf r.now c.waitLimit }, .parked)

/-- The check order of a CONVERT (R34). -/
def convertChecked (r : Run) (i : SessionId) (tag : Tag) (c : ConvertReq) : Run × Reply :=
  if waitLimitOk c.waitLimit = false then refusal r .badRequest
  else
    match r.tab.checkHandle i c.handle with
    | .error st => refusal r st
    | .ok (l, ten) =>
      if l.mode = c.mode then refusal r .sameMode
      else
        match c.mode with
        | .shared => downgrade r c.handle.slot l ten
        | .exclusive => upgrade r c.handle.slot l ten tag c

/-- The work of a CONVERT's step. -/
def convertWork (i : SessionId) (rq : Request) (s : State) : Run × Reply :=
  match rq.body with
  | .convert c => convertChecked (Run.start s) i rq.tag c
  | _ => refusal (Run.start s) .badRequest

/-! ### RENEW (R62) and RELEASE (R58) -/

/-- A RENEW with its checks (R62). -/
def renewChecked (r : Run) (i : SessionId) (h : Handle) (hold : Option Nat) : Run × Reply :=
  if holdOk hold = false then refusal r .badRequest
  else
    match r.tab.checkHandle i h with
    | .error st => refusal r st
    | .ok (l, ten) =>
      match l.holdLength with
      | none => refusal r .notTimed
      | some stored =>
        let length := hold.getD stored
        let deadline := deadlineAt r.now length
        (r.withTab (r.tab.setBody h.slot
            (.held { l with holdLength := some length } { ten with holdDeadline := some deadline })),
          .final .ok (.renewed h length deadline))

/-- The work of a RENEW's step. -/
def renewWork (i : SessionId) (rq : Request) (s : State) : Run × Reply :=
  match rq.body with
  | .renew h hold => renewChecked (Run.start s) i h hold
  | _ => refusal (Run.start s) .badRequest

/-- A RELEASE with its checks (R58). -/
def releaseChecked (r : Run) (i : SessionId) (h : Handle) : Run × Reply :=
  match r.tab.checkHandle i h with
  | .error st => refusal r st
  | .ok _ => (r.retire .release h.slot, .final .ok (.handle h))

/-- The work of a RELEASE's step. -/
def releaseWork (i : SessionId) (rq : Request) (s : State) : Run × Reply :=
  match rq.body with
  | .release h => releaseChecked (Run.start s) i h
  | _ => refusal (Run.start s) .badRequest

/-! ### CANCEL (R51) -/

/-- The wait entry of the session's parked request with a tag. -/
def Tables.findWait (t : Tables) (i : SessionId) (tag : Tag) : Option Nat :=
  (t.pool.find? (fun e =>
    match e.2.kind, t.body e.2.slot with
    | .acquire, .pending l _ => decide (l.owner = i) && decide (l.originTag = tag)
    | .upgrade, .held l ten => decide (l.owner = i) && decide (ten.upgrade.map (fun u => u.tag) = some tag)
    | _, _ => false)).map Prod.fst

/-- The cache entry is the OK of an ACQUIRE or a CONVERT (R51). -/
def CacheEntry.isGrant (e : CacheEntry) : Bool :=
  decide (e.status = .ok) && (decide (e.kind = .acquire) || decide (e.kind = .convert))

/-- The cases of a CANCEL for the tag of a request (R51). -/
def cancelChecked (r : Run) (i : SessionId) (x : Session) (tag : Tag) : Run × Reply :=
  match (if x.tagMark tag = some .parked then r.tab.findWait i tag else none) with
  | some e => (r.endWait .cancelled e, .final .cancelled (.waitEnd .cancelled))
  | none =>
    match x.cached tag with
    | some e => if e.isGrant then refusal r .tooLate else refusal r .notParked
    | none => refusal r .notParked

/-- The work of a CANCEL's step. -/
def cancelWork (i : SessionId) (rq : Request) (s : State) : Run × Reply :=
  match rq.body with
  | .cancel tag => cancelChecked (Run.start s) i (s.session i) tag
  | _ => refusal (Run.start s) .badRequest

/-! ### QUERY (R71, R72) and LIST (R73) -/

/-- The entry that a QUERY reports for slot `n` (R72). -/
def State.queryEntry (s : State) (n : Nat) : Option QueryEntry :=
  ((s.tab.body n).lease?).map (fun l =>
    { holder := (s.session l.owner).name, mode := l.mode, start := l.start, count := l.count })

/-- A QUERY with its checks (R71, R72). -/
def State.queryChecked (s : State) (volume start count : Nat) : Reply :=
  if count = 0 then .final .badRequest .empty
  else
    match s.tab.inService volume with
    | none => .final .badVolume .empty
    | some v =>
      if (s.tab.volume v).size < start + count then .final .badRange .empty
      else
        let found := s.tab.overlapSearch v start count
        .final .ok (.leases ((found.take Config.reportEntries).filterMap s.queryEntry)
          (decide (Config.reportEntries < found.length)))

/-- The work of a QUERY's step: it changes nothing (R71). -/
def queryWork (_ : SessionId) (rq : Request) (s : State) : Run × Reply :=
  match rq.body with
  | .query volume start count => (Run.start s, s.queryChecked volume start count)
  | _ => refusal (Run.start s) .badRequest

/-- The session's non-FREE slots from a cursor on, in ascending slot number (R73). -/
def Tables.ownedFrom (t : Tables) (i : SessionId) (cursor : Nat) : List Nat :=
  t.slotsWhere (fun n l => decide (l.owner = i) && decide (cursor ≤ n))

/-- The next cursor of a LIST: one past the last slot reported when the session owns a later one (R73). -/
def nextCursor (found : List Nat) : Option Nat :=
  if Config.reportEntries < found.length then (found[Config.reportEntries - 1]?).map (fun n => n + 1) else none

/-- A LIST with its checks (R73). -/
def State.listChecked (s : State) (i : SessionId) (cursor : Nat) : Reply :=
  if Config.slots ≤ cursor then .final .badRequest .empty
  else
    let found := s.tab.ownedFrom i cursor
    .final .ok (.slots ((found.take Config.reportEntries).map (fun n => (n, s.tab.slots.get n))) (nextCursor found))

/-- The work of a LIST's step: it changes nothing (R73). -/
def listWork (i : SessionId) (rq : Request) (s : State) : Run × Reply :=
  match rq.body with
  | .list cursor => (Run.start s, s.listChecked i cursor)
  | _ => refusal (Run.start s) .badRequest

/-! ### DEPART (R95) -/

/-- A DEPART of the session bound to port `p` (R95, R96). -/
def State.departStep (s : State) (p : PortId) (rq : Request) : State :=
  match s.boundSession p with
  | none => s.answerRequest p rq.tag .depart none (.final .noSession .empty) (Run.start s)
  | some i =>
    if (s.session i).state = .active then
      match rq.body with
      | .depart =>
        (s.closeAs i .depart).answerRequest p rq.tag .depart (some i) .silent
          ((Run.start s).endWaitsOf i .sessionEnded)
      | _ => s.answerRequest p rq.tag .depart (some i) (.final .badRequest .empty) (Run.start s)
    else s.answerRequest p rq.tag .depart (some i) (.final .busy .empty) (Run.start s)

/-! ### The meanings -/

/-- JOIN (R81). -/
def execJoin (s : State) : Host.Outcome State Fault Refusal :=
  event (fun s => s.takeRequest .join (fun p rq s => s.joinStep p rq)) s

/-- ACQUIRE (R29). -/
def execAcquire (s : State) : Host.Outcome State Fault Refusal :=
  event (fun s => s.sessionRequest .acquire acquireWork) s

/-- CONVERT (R34). -/
def execConvert (s : State) : Host.Outcome State Fault Refusal :=
  event (fun s => s.sessionRequest .convert convertWork) s

/-- RENEW (R62). -/
def execRenew (s : State) : Host.Outcome State Fault Refusal :=
  event (fun s => s.sessionRequest .renew renewWork) s

/-- RELEASE (R58). -/
def execRelease (s : State) : Host.Outcome State Fault Refusal :=
  event (fun s => s.sessionRequest .release releaseWork) s

/-- CANCEL (R51). -/
def execCancel (s : State) : Host.Outcome State Fault Refusal :=
  event (fun s => s.sessionRequest .cancel cancelWork) s

/-- QUERY (R71). -/
def execQuery (s : State) : Host.Outcome State Fault Refusal :=
  event (fun s => s.sessionRequest .query queryWork) s

/-- LIST (R73). -/
def execList (s : State) : Host.Outcome State Fault Refusal :=
  event (fun s => s.sessionRequest .list listWork) s

/-- DEPART (R95). -/
def execDepart (s : State) : Host.Outcome State Fault Refusal :=
  event (fun s => s.takeRequest .depart (fun p rq s => s.departStep p rq)) s

end Sys2Proof.Machine
end

