-- ==== Sys2Proof/Machine/Sweep.lean ====
section
/-! DEFINITION. The visit of the Expiry Sweep: SWEEP_VISIT (chapter 5.3). -/

namespace Sys2Proof.Machine

/-- The slots that a visit to section `k` examines: non-FREE, on a volume that is not FROZEN, in ascending slot number
(R107). -/
def Tables.examined (t : Tables) (k : Nat) : List Nat :=
  t.slotsWhere (fun n l => decide (sectionOf n = k) && decide ((t.volume l.volume).state ≠ .frozen))

/-- End the wait of kind `k` that refers to slot `n` of volume `v`, with reason TIMED_OUT (R108). -/
def Run.timeOut (r : Run) (k : WaitKind) (v : VolumeId) (n : Nat) : Run :=
  match r.tab.entryFor k v n with
  | some e => r.endWait .timedOut e
  | none => r

/-- Phase A at slot `n`: a wait whose deadline has passed ends (R108). -/
def Run.visitWait (r : Run) (n : Nat) : Run :=
  match r.tab.body n with
  | .pending l d => if passedOpt r.now d then r.timeOut .acquire l.volume n else r
  | .held l ten =>
    match ten.upgrade with
    | some u => if passedOpt r.now u.waitDeadline then r.timeOut .upgrade l.volume n else r
    | none => r
  | .free => r

/-- Phase B at slot `n`: a timed lease whose hold deadline has passed is retired with cause expiry (R109). -/
def Run.visitHold (r : Run) (n : Nat) : Run :=
  match r.tab.body n with
  | .held _ ten => if passedOpt r.now ten.holdDeadline then r.retire .expiry n else r
  | .pending _ _ => r
  | .free => r

/-- The lease in slot `n` of volume `v` still blocks an entry of the volume's wait list (R67). -/
def Tables.stillBlocks (t : Tables) (v : VolumeId) (n : Nat) : Bool :=
  (t.waitList v).any (fun e => (t.blockersOf e).contains n)

/-- The recall mark of the lease in slot `n` is cleared (R67). -/
def Run.clearMark (r : Run) (n : Nat) (l : Lease) (ten : Tenure) : Run :=
  r.withTab (r.tab.setBody n (.held l { ten with recallMark := none }))

/-- Phase C at slot `n`: a recall mark is judged (R67, R110). -/
def Run.visitRecall (r : Run) (n : Nat) : Run :=
  match r.tab.body n with
  | .held l ten =>
    match ten.recallMark with
    | none => r
    | some m =>
      let blocks := r.tab.stillBlocks l.volume n
      match m.deadline with
      | some d =>
        if passed r.now d then
          if blocks then r.retire (.revocation .recallLimit) n else r.clearMark n l ten
        else r
      | none => if blocks then r else r.clearMark n l ten
  | .pending _ _ => r
  | .free => r

/-- Phases A, B and C over the examined slots (R107). -/
def Run.visit (r : Run) (slots : List Nat) : Run :=
  slots.foldl Run.visitRecall (slots.foldl Run.visitHold (slots.foldl Run.visitWait r))

/-- The visit's step: the phases, the due passes, and the pointer's advance (R106, R107, R111). -/
def State.visitStep (s : State) : State :=
  let done := ((Run.start s).visit (s.tab.examined s.sweepPtr.val)).complete s
  { done with sweepPtr := s.sweepPtr + 1 }

/-- SWEEP_VISIT (R107). -/
def execSweepVisit (s : State) : Host.Outcome State Fault Refusal := event (fun s => s.takeVisit State.visitStep) s

end Sys2Proof.Machine
end

