-- ==== Sys2Proof/Machine/Timers.lean ====
section
/-! DEFINITION. The lease clock with the sweep timer (chapter 5.1, 5.2), the session timers and the three claims of the
Timers claimant: loss, link-lost and grace (chapters 4.4 to 4.7, 5.5). -/

namespace Sys2Proof.Machine

/-- A millisecond without a valid symbol so far; the second one is the silence timeout itself (R131, R147;
notes/assumptions/6.md). -/
def silenceGrown (n : Nat) : Nat := if n + 1 < Config.silenceMax then n + 1 else n

/-- A millisecond begins at a Requester Port: no frame has been sent in it, and the silence of an UP port grows (R147,
R160). -/
def Port.millisecond (x : Port) : Port :=
  { x with sentThisMs := false, silence := if x.link = .up then silenceGrown x.silence else x.silence }

/-- A millisecond begins at the Gate Port (R131). -/
def Gate.millisecond (g : Gate) : Gate :=
  { g with sentThisMs := false, silence := if g.link = .down then g.silence else silenceGrown g.silence }

/-- The lease clock advances (R102). -/
def State.advanceClock (s : State) : State :=
  { s with clock := s.clock + 1, ports := mapPorts (fun _ x => x.millisecond) s.ports, gate := s.gate.millisecond }

/-- The sweep timer expires: a visit claim is raised, or a slip is counted while one is pending (R105). -/
def State.sweepTimer (s : State) : State :=
  if s.visitPending then { s with slips := satCount s.slips } else { s with visitPending := true }

/-- The term timer of session `i` is judged: a RUNNING timer whose deadline has passed becomes EXPIRED and raises a loss
claim (R86, R114). -/
def State.judgeTerm (s : State) (i : SessionId) : State :=
  match (s.session i).term with
  | .running d =>
    if passed s.clock d then
      (s.setSession i { s.session i with term := .expired d }).claim
        { kind := .loss, session := i, number := (s.session i).number, ports := [] }
    else s
  | .stopped => s
  | .expired _ => s

/-- The grace timer of session `i` is judged: a RUNNING timer whose deadline has passed expires and raises a grace claim
(R92, R114). -/
def State.judgeGrace (s : State) (i : SessionId) : State :=
  match (s.session i).grace with
  | .running d =>
    if passed s.clock d then
      (s.setSession i { s.session i with grace := .expired d }).claim
        { kind := .grace, session := i, number := (s.session i).number, ports := [] }
    else s
  | .stopped => s
  | .expired _ => s

/-- The timers of every session are judged, by ascending index (R114; that order is the model's choice,
notes/assumptions/5.md). -/
def State.judgeTimers (s : State) : State := (List.finRange 12).foldl (fun s i => (s.judgeTerm i).judgeGrace i) s

/-- The orphan grace configured for the port that session `i` is bound to (R85, R90). -/
def State.graceOf (s : State) (i : SessionId) : Nat :=
  match (s.session i).port with
  | some p => (s.cfg p).orphanGrace
  | none => 0

/-- The session records at an orphaning: unbound, inbox discarded, ORPHANED, grace timer started (R90, steps 1, 2 and
4). -/
def State.makeOrphan (s : State) (i : SessionId) : State :=
  let s1 := s.unbind i
  s1.setSession i { s1.session i with state := .orphaned, grace := .running (deadlineAt s.clock (s.graceOf i)) }

/-- The orphaning step (R90); a grace of 0 ms raises its claim at the completion (R92, R114). -/
def State.orphan (s : State) (i : SessionId) : State :=
  let r := ((Run.start s).endWaitsOf i .sessionEnded).alarm (.sessionOrphaned, .session i)
  (r.complete (s.makeOrphan i)).judgeGrace i

/-- A loss claim is voided unless the session is ACTIVE, holds the number, and its term deadline has passed (R88). -/
def State.lossHolds (s : State) (c : TimerClaim) : Bool :=
  decide ((s.session c.session).state = .active) && decide ((s.session c.session).number = c.number) &&
    passedOpt s.clock (s.session c.session).term.deadline?

/-- The loss claim's step (R88). -/
def State.lossStep (c : TimerClaim) (s : State) : State := if s.lossHolds c then s.orphan c.session else s

/-- The session of a link-lost claim holds its number and is bound to a port whose loss raised it (R89;
notes/assumptions/12.md). -/
def State.linkLostHolds (s : State) (c : TimerClaim) : Bool :=
  decide ((s.session c.session).number = c.number) && (s.session c.session).port.any c.ports.contains

/-- The link-lost claim's step (R89). Where it unbinds a CLOSING session, every request in the port's inbox stays there and
its tag in the outstanding set: whatever intake accepted after the link trained again and before the engine took the DEPART,
a JOIN among them, and the DEPARTs accepted later (R153). When taken, a JOIN is carried out as an unbound port's (R81) and any
other request is answered NO_SESSION (R79). R89 and R158 name no discard there, though R152 and R158 hold the inbox of an
unbound port to one request (DESIGN CHOICE, notes/assumptions/29.md). -/
def State.linkLostStep (c : TimerClaim) (s : State) : State :=
  let x := s.session c.session
  if s.linkLostHolds c then
    match x.state, x.closeKind with
    | .active, _ => s.orphan c.session
    | .closing, some .depart => s.setSession c.session { x with port := none }
    | _, _ => s
  else s

/-- A grace claim is voided unless the session is ORPHANED, holds the number, and its grace deadline has passed (R92). -/
def State.graceHolds (s : State) (c : TimerClaim) : Bool :=
  decide ((s.session c.session).state = .orphaned) && decide ((s.session c.session).number = c.number) &&
    passedOpt s.clock (s.session c.session).grace.deadline?

/-- The grace claim's step (R92, R93). -/
def State.graceStep (c : TimerClaim) (s : State) : State := if s.graceHolds c then s.closeAs c.session .purge else s

/-- SWEEP_TIMER_EXPIRY: the lease clock advances, the sweep timer expires, and the session timers are judged (R102, R105,
R114). -/
def execSweepTimerExpiry (s : State) : Host.Outcome State Fault Refusal :=
  event (fun s => s.advanceClock.sweepTimer.judgeTimers) s

/-- TERM_TIMER_EXPIRY: the judgment of one term timer by itself (R86, R114; notes/assumptions/5.md). -/
def execTermTimerExpiry (i : SessionId) (s : State) : Host.Outcome State Fault Refusal :=
  event (fun s => s.judgeTerm i) s

/-- GRACE_TIMER_EXPIRY: the judgment of one grace timer by itself (R92, R114; notes/assumptions/5.md). -/
def execGraceTimerExpiry (i : SessionId) (s : State) : Host.Outcome State Fault Refusal :=
  event (fun s => s.judgeGrace i) s

/-- LOSS_CLAIM (R88). -/
def execLossClaim (s : State) : Host.Outcome State Fault Refusal :=
  event (fun s => s.takeTimer .loss State.lossStep) s

/-- LINK_LOST_CLAIM (R89). -/
def execLinkLostClaim (s : State) : Host.Outcome State Fault Refusal :=
  event (fun s => s.takeTimer .linkLost State.linkLostStep) s

/-- GRACE_CLAIM (R92). -/
def execGraceClaim (s : State) : Host.Outcome State Fault Refusal :=
  event (fun s => s.takeTimer .grace State.graceStep) s

end Sys2Proof.Machine
end

