-- ==== Sys2Proof/Machine/Volumes.lean ====
section
/-! DEFINITION. The volume commands: DEFINE, ONLINE, FREEZE, THAW, OFFLINE and OFFLINE-FORCE (chapter 6.3, R176, R188). -/

namespace Sys2Proof.Machine

/-- A command that names a volume: a number above 31 is refused (R118, R175). -/
def State.onVolume (c : Command) (s : State) (work : VolumeId → State) : State :=
  match finOf 32 c.arg1.toNat with
  | some v => work v
  | none => s.refuseCommand .badArgument

/-- The record of volume `v`. -/
def State.volume (s : State) (v : VolumeId) : Volume := s.tab.volume v

/-- Some slot on the volume is PENDING or HELD (R124). -/
def Tables.hasSlots (t : Tables) (v : VolumeId) : Bool := !(t.slotsWhere (fun _ l => decide (l.volume = v))).isEmpty

/-- A command carried out: the volume takes a new state and nothing else changes. -/
def State.moveVolume (s : State) (v : VolumeId) (st : VolumeState) : State :=
  s.finishCommand none ((Run.start s).withTab (s.tab.setVolumeState v st))

/-- DEFINE's step (R119). -/
def State.defineStep (c : Command) (s : State) : State :=
  s.onVolume c fun v =>
    if Config.maxSize < c.arg3.toNat then s.refuseCommand .badArgument
    else if (s.volume v).state ≠ .offline then s.refuseCommand .badState
    else
      let vol := { s.volume v with size := c.arg3.toNat }
      s.finishCommand none ((Run.start s).withTab { s.tab with volumes := upd s.tab.volumes v vol })

/-- ONLINE's step (R120). -/
def State.onlineStep (c : Command) (s : State) : State :=
  s.onVolume c fun v =>
    if (s.volume v).state ≠ .offline then s.refuseCommand .badState
    else if (s.volume v).size = 0 then s.refuseCommand .noSize
    else if Config.lastToken ≤ (s.volume v).fence then s.refuseCommand .exhausted
    else s.moveVolume v .online

/-- FREEZE's step (R121). -/
def State.freezeStep (c : Command) (s : State) : State :=
  s.onVolume c fun v =>
    if (s.volume v).state ≠ .online then s.refuseCommand .badState else s.moveVolume v .frozen

/-- THAW's step (R123). -/
def State.thawStep (c : Command) (s : State) : State :=
  s.onVolume c fun v =>
    if (s.volume v).state ≠ .frozen then s.refuseCommand .badState
    else if Config.lastToken ≤ (s.volume v).fence then s.refuseCommand .exhausted
    else s.finishCommand none (((Run.start s).withTab (s.tab.setVolumeState v .online)).passDue v)

/-- OFFLINE's step (R124). -/
def State.offlineStep (c : Command) (s : State) : State :=
  s.onVolume c fun v =>
    if s.tab.hasSlots v then s.refuseCommand .slotsPresent else s.moveVolume v .offline

/-- The work of OFFLINE-FORCE on a volume in service: its waits end, its leases are revoked, it goes OFFLINE (R125). -/
def Run.forceOffline (r : Run) (v : VolumeId) : Run :=
  let r1 := (r.tab.waitList v).foldl (fun r e => r.endWait .volumeOffline e) r
  let r2 := (r1.tab.slotsWhere (fun _ l => decide (l.volume = v))).foldl
    (fun r n => r.retire (.revocation .volumeOffline) n) r1
  r2.withTab (r2.tab.setVolumeState v .offline)

/-- OFFLINE-FORCE's step (R125). -/
def State.offlineForceStep (c : Command) (s : State) : State :=
  s.onVolume c fun v =>
    if (s.volume v).state = .offline then s.finishCommand none (Run.start s)
    else s.finishCommand none ((Run.start s).forceOffline v)

/-- DEFINE (R119). -/
def execDefine (s : State) : Host.Outcome State Fault Refusal := event (fun s => s.takeCode 0x01 State.defineStep) s

/-- ONLINE (R120). -/
def execOnline (s : State) : Host.Outcome State Fault Refusal := event (fun s => s.takeCode 0x02 State.onlineStep) s

/-- FREEZE (R121). -/
def execFreeze (s : State) : Host.Outcome State Fault Refusal := event (fun s => s.takeCode 0x03 State.freezeStep) s

/-- THAW (R123). -/
def execThaw (s : State) : Host.Outcome State Fault Refusal := event (fun s => s.takeCode 0x04 State.thawStep) s

/-- OFFLINE (R124). -/
def execOffline (s : State) : Host.Outcome State Fault Refusal := event (fun s => s.takeCode 0x05 State.offlineStep) s

/-- OFFLINE-FORCE (R125). -/
def execOfflineForce (s : State) : Host.Outcome State Fault Refusal :=
  event (fun s => s.takeCode 0x06 State.offlineForceStep) s

end Sys2Proof.Machine
end

