-- ==== Sys2Proof/Machine/Dispatch.lean ====
section
/-! DEFINITION. One arm for each command, each a call of its meaning. -/

namespace Sys2Proof.Machine

/-- The effect of a command on everything but the queue. -/
def exec (i : Instr) (s : State) : Host.Outcome State Fault Refusal :=
  match i with
  | .powerOnReset => Sys2Proof.Machine.execPowerOnReset s
  | .resetRelease straps => Sys2Proof.Machine.execResetRelease straps s
  | .startupComplete => Sys2Proof.Machine.execStartupComplete s
  | .requestIntake p tag body => Sys2Proof.Machine.execRequestIntake p tag body s
  | .keepalive p tag => Sys2Proof.Machine.execKeepalive p tag s
  | .noticeAck p tag seq => Sys2Proof.Machine.execNoticeAck p tag seq s
  | .join => Sys2Proof.Machine.execJoin s
  | .acquire => Sys2Proof.Machine.execAcquire s
  | .convert => Sys2Proof.Machine.execConvert s
  | .renew => Sys2Proof.Machine.execRenew s
  | .release => Sys2Proof.Machine.execRelease s
  | .cancel => Sys2Proof.Machine.execCancel s
  | .query => Sys2Proof.Machine.execQuery s
  | .list => Sys2Proof.Machine.execList s
  | .depart => Sys2Proof.Machine.execDepart s
  | .sweepTimerExpiry => Sys2Proof.Machine.execSweepTimerExpiry s
  | .sweepVisit => Sys2Proof.Machine.execSweepVisit s
  | .termTimerExpiry k => Sys2Proof.Machine.execTermTimerExpiry k s
  | .graceTimerExpiry k => Sys2Proof.Machine.execGraceTimerExpiry k s
  | .lossClaim => Sys2Proof.Machine.execLossClaim s
  | .linkLostClaim => Sys2Proof.Machine.execLinkLostClaim s
  | .graceClaim => Sys2Proof.Machine.execGraceClaim s
  | .purgeSection => Sys2Proof.Machine.execPurgeSection s
  | .define => Sys2Proof.Machine.execDefine s
  | .online => Sys2Proof.Machine.execOnline s
  | .freeze => Sys2Proof.Machine.execFreeze s
  | .thaw => Sys2Proof.Machine.execThaw s
  | .offline => Sys2Proof.Machine.execOffline s
  | .offlineForce => Sys2Proof.Machine.execOfflineForce s
  | .revoke => Sys2Proof.Machine.execRevoke s
  | .closeSession => Sys2Proof.Machine.execCloseSession s
  | .portReset => Sys2Proof.Machine.execPortReset s
  | .tableClear => Sys2Proof.Machine.execTableClear s
  | .setConfig => Sys2Proof.Machine.execSetConfig s
  | .registerWrite item data => Sys2Proof.Machine.execRegisterWrite item data s
  | .alertRead transfer => Sys2Proof.Machine.execAlertRead transfer s
  | .recordWindowSelect kind index => Sys2Proof.Machine.execRecordWindowSelect kind index s
  | .helloReceive p => Sys2Proof.Machine.execHelloReceive p s
  | .badFrame p => Sys2Proof.Machine.execBadFrame p s
  | .discardedFrame p kind => Sys2Proof.Machine.execDiscardedFrame p kind s
  | .linkSilenceTimeout p => Sys2Proof.Machine.execLinkSilenceTimeout p s
  | .helloTransmit l => Sys2Proof.Machine.execHelloTransmit l s
  | .frameTransmitComplete p => Sys2Proof.Machine.execFrameTransmitComplete p s
  | .gateHelloReceive => Sys2Proof.Machine.execGateHelloReceive s
  | .gateQuery tag body => Sys2Proof.Machine.execGateQuery tag body s
  | .gateLookup => Sys2Proof.Machine.execGateLookup s
  | .gateAnswerSent => Sys2Proof.Machine.execGateAnswerSent s
  | .gateBadFrame => Sys2Proof.Machine.execGateBadFrame s
  | .gateLinkSilenceTimeout => Sys2Proof.Machine.execGateLinkSilenceTimeout s
  | .gateDiscardedFrame kind => Sys2Proof.Machine.execGateDiscardedFrame kind s
  | .badCommand => Sys2Proof.Machine.execBadCommand s

end Sys2Proof.Machine
end

