-- ==== Sys2Proof/Safety.lean ====
section
/-! DEFINITION. The laws of the device as predicates on its state, and the canonical form of its sparse tables. The
obligations say that every command keeps them. -/

namespace Sys2Proof.Machine

/-! ### The lease structures -/

/-- The canonical form of the Lease Table: slot numbers rise, lie below 4096, and no listed slot is what an unlisted one
is (notes/assumptions/18.md). -/
def SlotTable.wf (t : SlotTable) : Prop :=
  keysRise t.entries ∧ ∀ p ∈ t.entries, p.1 < Config.slots ∧ p.2 ≠ { gen := t.freeGen, body := .free }

/-- First law (R12): two HELD leases of different sessions whose extents overlap are both SHARED. -/
def Tables.lawOne (t : Tables) : Prop :=
  ∀ m n a ta b tb, m ≠ n → t.body m = .held a ta → t.body n = .held b tb → a.owner ≠ b.owner →
    a.overlaps b = true → a.mode = .shared ∧ b.mode = .shared

/-- Second law (R13): no two non-FREE slots of one session overlap. -/
def Tables.lawTwo (t : Tables) : Prop :=
  ∀ m n a b, m ≠ n → (t.body m).lease? = some a → (t.body n).lease? = some b → a.owner = b.owner →
    a.overlaps b = false

/-- The order of an index list: by start block, then by slot number (R14). -/
def Tables.before (t : Tables) (m n : Nat) : Prop := t.startOf m < t.startOf n ∨ (t.startOf m = t.startOf n ∧ m < n)

/-- Each volume's index list holds exactly the HELD slots of the volume, each once, in order (R14). -/
def Tables.indexLaw (t : Tables) : Prop :=
  ∀ v : VolumeId, (t.indexOf v).Pairwise t.before ∧
    ∀ n, n ∈ t.indexOf v ↔ ∃ l ten, t.body n = .held l ten ∧ l.volume = v

/-- The slot is PENDING or HELD and owned by session `i`. -/
def Slot.ownedBy (i : SessionId) (s : Slot) : Bool :=
  match s.body.lease? with
  | some l => decide (l.owner = i)
  | none => false

/-- Occupancy and slot counts are the numbers of the slots they count (R16). -/
def Tables.countLaw (t : Tables) : Prop :=
  t.occupancy = countKeys (fun s => !s.body.isFree) t.slots.entries ∧
    ∀ i : SessionId, t.slotCount i = countKeys (Slot.ownedBy i) t.slots.entries

/-- The fields of a HELD slot are present as R2 says: a token exactly in mode EXCLUSIVE, a hold deadline exactly when it
is timed, a pending upgrade in mode SHARED only. -/
def Tables.fieldLaw (t : Tables) : Prop :=
  ∀ n l ten, t.body n = .held l ten →
    (ten.token.isSome = true ↔ l.mode = .exclusive) ∧ (ten.holdDeadline.isSome = l.holdLength.isSome) ∧
    (ten.upgrade.isSome = true → l.mode = .shared)

/-- Seventh law (R127): no token is above its volume's counter, and no two HELD leases of one volume hold the same
token. -/
def Tables.tokenLaw (t : Tables) : Prop :=
  (∀ v : VolumeId, (t.volume v).fence ≤ Config.lastToken) ∧
  (∀ n l ten k, t.body n = .held l ten → ten.token = some k → 1 ≤ k ∧ k ≤ (t.volume l.volume).fence) ∧
  (∀ m n a ta b tb k, m ≠ n → t.body m = .held a ta → t.body n = .held b tb → a.volume = b.volume →
    ta.token = some k → tb.token ≠ some k)

/-- The slot has a wait: it is PENDING, or HELD with a pending upgrade. -/
def SlotBody.waits : SlotBody → Bool
  | .free => false
  | .pending _ _ => true
  | .held _ ten => ten.upgrade.isSome

/-- A wait entry refers to a slot of its kind and volume that has a wait (R40, R41). -/
def Tables.entryFits (t : Tables) (we : WaitEntry) : Prop :=
  match we.kind with
  | .acquire => ∃ l d, t.body we.slot = .pending l d ∧ l.volume = we.volume
  | .upgrade => ∃ l ten u, t.body we.slot = .held l ten ∧ ten.upgrade = some u ∧ l.volume = we.volume

/-- Fifth law (R41, R42), as far as the lease structures go: every entry in use fits its slot, every slot with a wait has
exactly one entry, the wait lists hold exactly the entries in use, each once, and the pool has 512. -/
def Tables.waitLaw (t : Tables) : Prop :=
  keysRise t.pool ∧
  (∀ e we, lookupKey e t.pool = some we → e < Config.poolEntries ∧ t.entryFits we) ∧
  (∀ d e wd we, lookupKey d t.pool = some wd → lookupKey e t.pool = some we → wd.slot = we.slot → d = e) ∧
  (∀ n, (t.body n).waits = true → ∃ e we, lookupKey e t.pool = some we ∧ we.slot = n) ∧
  (∀ v : VolumeId, (t.waitList v).Nodup ∧
    ∀ e, e ∈ t.waitList v ↔ ∃ we, lookupKey e t.pool = some we ∧ we.volume = v)

/-- No non-FREE slot lies on an OFFLINE volume, and every extent has a block and lies within its volume (R2, R11,
R117). -/
def Tables.volumeLaw (t : Tables) : Prop :=
  ∀ n l, (t.body n).lease? = some l →
    (t.volume l.volume).state ≠ .offline ∧ 0 < l.count ∧ l.start + l.count ≤ (t.volume l.volume).size

/-- The laws of the lease structures together. -/
structure Tables.Sound (t : Tables) : Prop where
  wf : t.slots.wf
  lawOne : t.lawOne
  lawTwo : t.lawTwo
  indexLaw : t.indexLaw
  countLaw : t.countLaw
  fieldLaw : t.fieldLaw
  tokenLaw : t.tokenLaw
  waitLaw : t.waitLaw
  volumeLaw : t.volumeLaw

/-! ### Sessions -/

/-- The records are bound and named as the tenth and eleventh laws say (R79, R82): a port is bound to at most one session,
a name and a session number stand on at most one record that is not FREE, and numbers lie between 1 and the counter (R80). -/
structure SessionLaw (ss : Vector Session 12) (next : Nat) : Prop where
  counter : 1 ≤ next
  ports : ∀ i j : SessionId, ss[i].port.isSome = true → ss[i].port = ss[j].port → i = j
  names : ∀ i j : SessionId, ss[i].state ≠ .free → ss[j].state ≠ .free → ss[i].name = ss[j].name → i = j
  numbers : ∀ i j : SessionId, ss[i].state ≠ .free → ss[j].state ≠ .free → ss[i].number = ss[j].number → i = j
  issued : ∀ i : SessionId, ss[i].state ≠ .free → 1 ≤ ss[i].number ∧ ss[i].number < next

/-- Ninth law (R164): at most 16 notices, numbered consecutively modulo 65536 up to one below the next number. -/
def Session.noticeLaw (x : Session) : Prop :=
  x.queue.length ≤ Config.noticePlaces ∧
    ∀ k, (h : k < x.queue.length) → x.queue[k].seq = x.nextSeq - BitVec.ofNat 16 (x.queue.length - k)

/-- The answer cache holds at most 16 entries (R27). -/
def Session.cacheLaw (x : Session) : Prop := x.cache.length ≤ Config.cacheEntries

/-! ### Slots, sessions and ports together -/

/-- Session `i` waits in this slot by a parked request with the tag (R42). -/
def SlotBody.waitsFor : SlotBody → SessionId → Tag → Prop
  | .free, _, _ => False
  | .pending l _, i, tag => l.owner = i ∧ l.originTag = tag
  | .held l ten, i, tag => l.owner = i ∧ ∃ u, ten.upgrade = some u ∧ u.tag = tag

/-- Session `i` waits by a parked request with the tag. -/
def Tables.waitsFor (t : Tables) (i : SessionId) (tag : Tag) : Prop := ∃ n, (t.body n).waitsFor i tag

/-- What slots, session records, inboxes and the purge queue say of each other: the owner of a lease has a record, one
that waits is ACTIVE (fifth law, R41); no session has more slots than its quota (third law, R16) or more tags outstanding
than its window (R156); an ACTIVE session has a port, and only an ACTIVE or a CLOSING one (R79); each tag of an ACTIVE
session is that of a request in its port's inbox or of one that is parked, and an ORPHANED session has none (R27, R90);
the purge queue holds the CLOSING sessions, each once, and what the job's session still owns lies in the sections that are
left (R97, R98). -/
structure State.ownerLaw (s : State) : Prop where
  owners : ∀ n l, (s.tab.body n).lease? = some l → (s.session l.owner).state ≠ .free
  waiters : ∀ i tag, s.tab.waitsFor i tag → (s.session i).state = .active
  quotas : ∀ i, s.tab.slotCount i ≤ (s.session i).quota
  windows : ∀ i, (s.session i).outstanding.length ≤ (s.session i).window
  bound : ∀ i, (s.session i).state = .active → (s.session i).port.isSome = true
  unbound : ∀ i, (s.session i).port.isSome = true → (s.session i).state = .active ∨ (s.session i).state = .closing
  queued : ∀ i p tag, (s.session i).state = .active → (s.session i).port = some p →
    (tag, TagMark.queued) ∈ (s.session i).outstanding → ∃ r ∈ (s.port p).inbox, r.tag = tag
  parked : ∀ i tag, (s.session i).state = .active → (tag, TagMark.parked) ∈ (s.session i).outstanding →
    s.tab.waitsFor i tag
  orphans : ∀ i, (s.session i).state = .orphaned → (s.session i).outstanding = []
  purging : ∀ i, i ∈ s.purgeQueue ↔ (s.session i).state = .closing
  once : s.purgeQueue.Nodup
  reached : ∀ i n l, s.purgeQueue.head? = some i → (s.tab.body n).lease? = some l → l.owner = i →
    s.purgeSection ≤ n / 256

/-! ### Alerts -/

/-- ALERT_N is low exactly while the set holds a record, and no two records have the same kind and source (R179,
R181). -/
def State.alertLaw (s : State) : Prop :=
  s.alertN = s.alerts.isEmpty ∧ s.alerts.Pairwise (fun a b => ¬(a.kind = b.kind ∧ a.source = b.source))

/-! ### What the engine takes -/

/-- RESET_N is high and the arbiter presents the claim at a ring position (R18, R20). -/
def State.serves (s : State) (pos : RingPos) : Prop := s.resetN = true ∧ s.presented = some pos

/-- The engine's next claim is the oldest request `rq` of port `p`, with `rest` behind it (R21, R158). -/
def State.takesRequest (s : State) (p : PortId) (rq : Request) (rest : List Request) : Prop :=
  s.serves (portPos p) ∧ (s.port p).inbox = rq :: rest

/-- The same, the port being bound to session `i` and the session ACTIVE (R26, R57, R79). -/
def State.takesFor (s : State) (p : PortId) (i : SessionId) (rq : Request) (rest : List Request) : Prop :=
  s.takesRequest p rq rest ∧ s.boundSession p = some i ∧ (s.session i).state = .active

/-- The engine's next claim is the waiting command `c` (R21, R174). -/
def State.takesCommand (s : State) (c : Command) : Prop := s.serves 9 ∧ s.waiting = some c

/-- The engine's next claim is the oldest claim `c` of the Timers queue, with `rest` behind it (R21). -/
def State.takesTimer (s : State) (c : TimerClaim) (rest : List TimerClaim) : Prop :=
  s.serves 7 ∧ s.timersQueue = c :: rest

/-- An answer handed to port `p` between two states: it joins the queue of an UP port and is discarded otherwise
(R149). -/
def State.handed (s t : State) (p : PortId) (a : Answer) : Prop :=
  (t.port p).answers = if (s.port p).link = .up then (s.port p).answers ++ [a] else (s.port p).answers

/-- The answer of a step to a request, with REPLAY clear (R161). -/
def stepAnswer (tag : Tag) (k : ReqKind) (st : Status) (r : Result) : Answer :=
  { tag := tag, code := k.code, status := st, replay := false, result := r }

/-! ### What a step leaves alone -/

/-- Apart from these parts a step of the engine changes nothing. -/
def State.engineOnly (s t : State) : Prop :=
  t = { s with lastServed := t.lastServed, tab := t.tab, sessions := t.sessions, ports := t.ports, alerts := t.alerts,
               alertN := t.alertN }

/-- Each port of `t` is the port that `x` gives it, once its transmitter has begun its next frame if it could (R160). -/
def State.portsAre (t : State) (x : PortId → Port) : Prop := ∀ q, t.port q = pumpPort t.sessions q (x q)

/-- The ports when the oldest request of port `p` has been taken and answered with `a` (R149, R158). -/
def State.answering (s : State) (p : PortId) (rest : List Request) (a : Answer) (q : PortId) : Port :=
  if q = p then ({ s.port p with inbox := rest } : Port).handAnswer a else s.port q

/-- The ports when the inbox of the port that session `i` is bound to has been discarded, if it is bound (R89, R90). -/
def State.discarding (s : State) (i : SessionId) (q : PortId) : Port :=
  if (s.session i).port = some q then { s.port q with inbox := [] } else s.port q

/-- The step of a request of session `i` that gives the final answer, produces no notice, and raises the alerts `as`
(R19, R27, R158, R179, R181). -/
structure State.finalAnswer (s t : State) (p : PortId) (i : SessionId) (rq : Request) (rest : List Request) (k : ReqKind)
    (st : Status) (res : Result) (as : List Alert) : Prop where
  only : s.engineOnly t
  served : t.lastServed = portPos p
  sessions : ∀ j, t.session j = if j = i
    then (s.session i).conclude { tag := rq.tag, kind := k, status := st, result := res } else s.session j
  ports : t.portsAre (s.answering p rest (stepAnswer rq.tag k st res))
  alerts : t.alerts = mergeAlerts s.alerts as
  alertN : t.alertN = (s.alertN && as.isEmpty)

/-- The step of a request of session `i` that refuses it: the final answer and no further effect (R27). -/
def State.turnedDown (s t : State) (p : PortId) (i : SessionId) (rq : Request) (rest : List Request) (k : ReqKind)
    (st : Status) : Prop :=
  s.finalAnswer t p i rq rest k st .empty [] ∧ t.tab = s.tab

/-- Owner, volume, start, count and origin tag of a slot that is not FREE: what no step changes (R3). -/
def SlotBody.claims (b : SlotBody) : Option (SessionId × VolumeId × Nat × Nat × Tag) :=
  b.lease?.map (fun l => (l.owner, l.volume, l.start, l.count, l.originTag))

/-- What a step does to the slots' generations: each slot keeps its generation and its claims, or becomes FREE with its
generation advanced by 1 modulo 256, or, where the step may make a lease, a FREE slot keeps its generation as it is
taken (R3, R5). -/
def Tables.slotsOnward (t u : Tables) (makes : Prop) : Prop :=
  ∀ n, ((u.slots.get n).gen = (t.slots.get n).gen ∧
      ((u.body n).claims = (t.body n).claims ∨ (makes ∧ t.body n = .free))) ∨
    (t.body n ≠ .free ∧ u.body n = .free ∧ (u.slots.get n).gen = (t.slots.get n).gen + 1)

/-! ### What arrives on a port -/

/-- RESET_N is high, port `p` is UP, and the body length is one that a REQUEST frame may have (R148, R185). -/
def State.hears (s : State) (p : PortId) (body : List Byte) : Prop :=
  s.resetN = true ∧ (s.port p).link = .up ∧ 1 ≤ body.length ∧ body.length ≤ 19

/-- Intake gives at most one answer to a frame, if the answer queue has a place for it, and does nothing else but what
every good frame does (R147, R159). -/
def State.intakeGives (s t : State) (p : PortId) (a : Option Answer) : Prop :=
  t = { s with ports := t.ports } ∧
    t.portsAre (fun q => if q = p
      then { (s.port p).goodFrame with answers := (s.port p).answers ++ if s.hasRoom p then a.toList else [] }
      else s.port q)

/-- An answer that intake makes, with REPLAY clear and no result (R161). -/
def portAnswer (tag : Tag) (code : Byte) (st : Status) : Answer :=
  { tag := tag, code := code, status := st, replay := false, result := .empty }

/-- Check 2 lets the request through: the session is ACTIVE, or the request is a DEPART (R153). -/
def State.passesState (s : State) (i : SessionId) (b : ReqBody) : Prop :=
  (s.session i).state = .active ∨ b.kind? = some .depart

/-- The tag is neither in the answer cache nor outstanding (R154, R155). -/
def State.newTag (s : State) (i : SessionId) (tag : Tag) : Prop :=
  (s.session i).cached tag = none ∧ (s.session i).tagMark tag = none

/-! ### Requests of the engine -/

/-- A JOIN's step that refuses it: the answer, which the session bound to the port caches if there is one (R81). -/
def State.joinRefused (s t : State) (p : PortId) (rq : Request) (rest : List Request) (st : Status) : Prop :=
  t = { s with lastServed := portPos p, sessions := t.sessions, ports := t.ports } ∧
    (∀ j, t.session j = if s.boundSession p = some j
      then (s.session j).conclude { tag := rq.tag, kind := .join, status := st, result := .empty } else s.session j) ∧
    t.portsAre (s.answering p rest (stepAnswer rq.tag .join st .empty))

/-- An ACQUIRE's fields are well formed (R28). -/
def AcquireReq.formed (a : AcquireReq) : Prop :=
  0 < a.count ∧ (∀ h, a.hold = some h → 10 ≤ h ∧ h ≤ 3600000) ∧ (∀ w, a.waitLimit = some w → 1 ≤ w ∧ w ≤ 60000)

/-- Session `i` has a PENDING or HELD slot on volume `v` that overlaps an extent (R13). -/
def Tables.ownOverlap (t : Tables) (i : SessionId) (v : VolumeId) (start count : Nat) : Prop :=
  ∃ m l, (t.body m).lease? = some l ∧ l.owner = i ∧ l.volume = v ∧ Machine.overlaps l.start l.count start count = true

/-- An ACQUIRE of session `i` passes Table 2-2 on volume `v`, and `n` is the lowest-numbered FREE slot (R4, R29). -/
structure State.mayAcquire (s : State) (i : SessionId) (a : AcquireReq) (v : VolumeId) (n : Nat) : Prop where
  formed : a.formed
  volume : v.val = a.volume
  service : (s.tab.volume v).state ≠ .offline
  size : a.start + a.count ≤ (s.tab.volume v).size
  own : ¬ s.tab.ownOverlap i v a.start a.count
  quota : s.tab.slotCount i < (s.session i).quota
  slot : n < 4096 ∧ s.tab.body n = .free ∧ ∀ m, m < n → s.tab.body m ≠ .free

/-- No HELD lease blocks the claim `l` (R12, R15). -/
def Tables.unblocked (t : Tables) (l : Lease) : Prop := ∀ m b ten, t.body m = .held b ten → b.blocks l = false

/-- The claim `l` is grantable now (R30). -/
def Tables.freeFor (t : Tables) (l : Lease) : Prop :=
  (t.volume l.volume).state = .online ∧ t.unblocked l ∧
    ∀ e w, e ∈ t.waitList l.volume → t.claimOf e = some w → w.overlaps l = true → conflicting w.mode l.mode = false

/-- The alert of a step that makes a slot non-FREE (R17). -/
def State.highAlert (s : State) : List Alert :=
  if s.tab.occupancy + 1 = s.occThreshold then [(.tableHigh, .device)] else []

/-- Slot `n` became non-FREE for session `i`, with its generation kept (R4, R16). -/
def Tables.madeSlot (t u : Tables) (n : Nat) (i : SessionId) : Prop :=
  (u.slots.get n).gen = (t.slots.get n).gen ∧ u.occupancy = t.occupancy + 1 ∧
    ∀ j, u.slotCount j = if j = i then t.slotCount j + 1 else t.slotCount j

/-- Slot `n` of session `i` became FREE, with its generation advanced, and it alone changed (R5, R16). -/
def Tables.freedOnly (t u : Tables) (n : Nat) (i : SessionId) : Prop :=
  u.slots.get n = { gen := (t.slots.get n).gen + 1, body := .free } ∧ (∀ m, m ≠ n → u.slots.get m = t.slots.get m) ∧
    u.occupancy = t.occupancy - 1 ∧ ∀ j, u.slotCount j = if j = i then t.slotCount j - 1 else t.slotCount j

/-- One slot changed its body and kept its generation; every other slot, and the counts, are as they were. -/
def Tables.slotOnly (t u : Tables) (n : Nat) (b : SlotBody) : Prop :=
  u.slots.get n = { gen := (t.slots.get n).gen, body := b } ∧ (∀ m, m ≠ n → u.slots.get m = t.slots.get m) ∧
    u.occupancy = t.occupancy ∧ u.slotCounts = t.slotCounts

/-- Pool, lists and arrival counter are as they were. -/
def Tables.waitsKept (t u : Tables) : Prop := u.pool = t.pool ∧ u.waitLists = t.waitLists ∧ u.arrival = t.arrival

/-- The fence counter of volume `v` advanced by one, and nothing else in the Volume Table changed (R127). -/
def Tables.fenceDrawn (t u : Tables) (v : VolumeId) : Prop :=
  ∀ w, u.volume w = if w = v then { t.volume v with fence := (t.volume v).fence + 1 } else t.volume w

/-- Volume `v` took a new state, and nothing else in the Volume Table changed (R117). -/
def Tables.volumeMoved (t u : Tables) (v : VolumeId) (st : VolumeState) : Prop :=
  ∀ w, u.volume w = if w = v then { t.volume v with state := st } else t.volume w

/-- The RECALL notices of the HELD leases in a list of slots that carry no mark (R64). -/
def Tables.recallNotices (t : Tables) (ns : List Nat) : List (SessionId × Notice) :=
  ns.filterMap (fun m => match t.body m with
    | .held l ten => if ten.recallMark.isNone then some (l.owner, .recall (t.handle m)) else none
    | .pending _ _ => none
    | .free => none)

/-- The mark that a recall made at state `s` sets (R10). -/
def State.markNow (s : State) : RecallMark :=
  { deadline := if s.recallLimit = 0 then none else some (deadlineAt s.clock s.recallLimit) }

/-- Recall applied for the claim `c`: every HELD lease that blocks it carries a mark, the new ones made now, and nothing
else about a HELD lease changed (R64). -/
def State.recalledFor (s : State) (u : Tables) (c : Lease) : Prop :=
  ∀ m l ten, s.tab.body m = .held l ten → u.body m = .held l
    (if l.blocks c = true ∧ ten.recallMark = none then { ten with recallMark := some s.markNow } else ten)

/-- The wait entry `e`, the lowest-numbered free one, is in use at the tail of its list (R40, R41). -/
def Tables.entryAdded (t u : Tables) (e : Nat) (we : WaitEntry) : Prop :=
  e < 512 ∧ lookupKey e t.pool = none ∧ (∀ d, d < e → lookupKey d t.pool ≠ none) ∧ we.arrival = t.arrival + 1 ∧
    (∀ d, lookupKey d u.pool = if d = e then some we else lookupKey d t.pool) ∧ u.arrival = t.arrival + 1 ∧
    ∀ w, u.waitList w = if w = we.volume then t.waitList w ++ [e] else t.waitList w

/-- A step hands over notices and then alerts; `ss` are the session records with the answers already made (R19, R165,
R169). -/
def State.delivers (s t : State) (ss : Vector Session 12) (ns : List (SessionId × Notice)) (as : List Alert) : Prop :=
  let o := ns.foldl offerIn (ss, [])
  t.sessions = o.1 ∧ t.alerts = mergeAlerts s.alerts (as ++ o.2) ∧ t.alertN = (s.alertN && (as ++ o.2).isEmpty)

/-- The step of a request of session `i` that parks it: PARKED, the tag marked, the notices delivered (R27). -/
structure State.parks (s t : State) (p : PortId) (i : SessionId) (rq : Request) (rest : List Request) (k : ReqKind)
    (ns : List (SessionId × Notice)) (as : List Alert) : Prop where
  only : s.engineOnly t
  served : t.lastServed = portPos p
  ports : t.portsAre (s.answering p rest (stepAnswer rq.tag k .parked .empty))
  delivered : s.delivers t (upd s.sessions i ((s.session i).parkTag rq.tag)) ns as

/-- No entry of the volume's wait list is grantable, and every lease that blocks one carries a recall mark: what a wake
pass leaves behind (R46, R47). -/
def Tables.woken (t : Tables) (v : VolumeId) : Prop :=
  ∀ e, e ∈ t.waitList v →
    (∀ we c, lookupKey e t.pool = some we → t.entryClaim we = some c → t.grantable e we c = false) ∧
    ∀ m, m ∈ t.blockersOf e → ∃ l ten, t.body m = .held l ten ∧ ten.recallMark ≠ none

/-- Volume `w`, its slots, its lists and their entries are as they were. -/
structure Tables.kept (t u : Tables) (w : VolumeId) : Prop where
  slots : ∀ m l, (t.body m).lease? = some l → l.volume = w → u.slots.get m = t.slots.get m
  volume : u.volume w = t.volume w
  index : u.indexOf w = t.indexOf w
  waits : u.waitList w = t.waitList w
  entries : ∀ e, e ∈ t.waitList w → lookupKey e u.pool = lookupKey e t.pool

/-- What wake passes on the volumes of `on` may do: a PENDING slot is granted, a pending upgrade takes effect, a HELD lease
is marked recalled, an exhausted volume is frozen, and nothing else. A volume with no waiter is left alone (R46 to
R49). -/
structure Tables.passes (t u : Tables) (on : VolumeId → Prop) : Prop where
  gen : ∀ m, (u.slots.get m).gen = (t.slots.get m).gen
  free : ∀ m, t.body m = .free → u.body m = .free
  pending : ∀ m l d, t.body m = .pending l d → u.body m = .pending l d ∨ ∃ ten, ten.upgrade = none ∧ u.body m = .held l ten
  held : ∀ m l ten, t.body m = .held l ten → ∃ mark, (ten.recallMark ≠ none → mark = ten.recallMark) ∧
    (u.body m = .held l { ten with recallMark := mark } ∨ (ten.upgrade ≠ none ∧ ∃ token, u.body m =
      .held { l with mode := .exclusive } { ten with recallMark := mark, token := some token, upgrade := none }))
  kept : ∀ w, ¬ on w ∨ t.waitList w = [] → t.kept u w
  counts : u.occupancy = t.occupancy ∧ u.slotCounts = t.slotCounts ∧ u.arrival = t.arrival
  pool : ∀ e we, lookupKey e u.pool = some we → lookupKey e t.pool = some we
  volumes : ∀ w, (u.volume w).size = (t.volume w).size ∧ (t.volume w).fence ≤ (u.volume w).fence ∧
    ((u.volume w).state = (t.volume w).state ∨ (u.volume w).state = .frozen)

/-! ### What a wake pass makes and hands over (R39, R43 to R49) -/

/-- The order in which a pass examines a volume's entries: UPGRADE entries in list order, then ACQUIRE entries in list
order (R46). -/
def Tables.examineOrder (t : Tables) (v : VolumeId) : List Nat :=
  let ofKind := fun k => (t.waitList v).filter (fun e => (lookupKey e t.pool).any (fun we => decide (we.kind = k)))
  ofKind .upgrade ++ ofKind .acquire

/-- Entry `e` with claim `c` is grantable: no HELD lease blocks the claim and, for an ACQUIRE entry, no entry that stands
earlier in the list overlaps it with a conflicting mode (R43, R44). -/
def Tables.eligible (t : Tables) (e : Nat) (we : WaitEntry) (c : Lease) : Prop :=
  t.unblocked c ∧ (we.kind = .acquire → ∀ d ∈ (t.waitList we.volume).takeWhile (fun d => !(d == e)), ∀ w,
    t.claimOf d = some w → w.overlaps c = true → conflicting w.mode c.mode = false)

/-- The claim `c` needs a token that the volume's counter cannot give (R39, R129). -/
def Tables.outOfTokens (t : Tables) (c : Lease) : Prop := c.mode = .exclusive ∧ 4294967295 ≤ (t.volume c.volume).fence

/-- Entry `e` left the list of volume `v` and returned to the pool, and no other entry moved (R40, R41). -/
def Tables.entryGone (t u : Tables) (e : Nat) (v : VolumeId) : Prop :=
  (∀ d, lookupKey d u.pool = if d = e then none else lookupKey d t.pool) ∧
    (∀ w, u.waitList w = if w = v then (t.waitList w).filter (fun d => !(d == e)) else t.waitList w) ∧
    u.arrival = t.arrival

/-- An ACQUIRE entry for the PENDING lease `l` is granted: the slot becomes HELD with the next token when it is EXCLUSIVE,
a hold deadline of now plus the hold length when it is timed, no mark and gate-use count 0, and enters the index (R48). -/
structure Tables.grantsAcquire (now : Time) (t u : Tables) (e : Nat) (we : WaitEntry) (l : Lease) (token : Option Nat) :
    Prop where
  drawn : token = if l.mode = .exclusive then some ((t.volume l.volume).fence + 1) else none
  slot : t.slotOnly u we.slot (.held l
    { token := token, holdDeadline := l.holdLength.map (fun h => now + BitVec.ofNat 32 h), upgrade := none,
      recallMark := none, gateUse := 0 })
  index : ∀ w m, m ∈ u.indexOf w ↔ m ∈ t.indexOf w ∨ (w = l.volume ∧ m = we.slot)
  entry : t.entryGone u e we.volume
  fence : if l.mode = .exclusive then t.fenceDrawn u l.volume else u.volumes = t.volumes

/-- An UPGRADE entry is granted: the lease becomes EXCLUSIVE with the next token and loses its pending upgrade; it keeps
its hold, mark, gate-use count and place in the index (R49). -/
structure Tables.grantsUpgrade (t u : Tables) (e : Nat) (we : WaitEntry) (l : Lease) (ten : Tenure) (token : Nat) :
    Prop where
  drawn : token = (t.volume l.volume).fence + 1
  slot : t.slotOnly u we.slot (.held { l with mode := .exclusive } { ten with token := some token, upgrade := none })
  index : u.index = t.index
  entry : t.entryGone u e we.volume
  fence : t.fenceDrawn u l.volume

/-- A grant of entry `e`, with the cache entry OK and the GRANTED notice that it makes for the waiter (R27, R48, R49). -/
inductive Tables.grantMade (now : Time) (t u : Tables) (e : Nat) (we : WaitEntry) :
    SessionId × CacheEntry → SessionId × Notice → Prop where
  | acquire (l : Lease) (d : Option Time) (token : Option Nat) (body : t.body we.slot = .pending l d)
      (made : t.grantsAcquire now u e we l token) :
      Tables.grantMade now t u e we
        (l.owner, { tag := l.originTag, kind := .acquire, status := .ok,
                    result := .lease (t.handle we.slot) l.mode token })
        (l.owner, .granted l.originTag (t.handle we.slot) l.mode l.volume l.start l.count token)
  | upgrade (l : Lease) (ten : Tenure) (x : PendingUpgrade) (token : Nat) (body : t.body we.slot = .held l ten)
      (parked : ten.upgrade = some x) (made : t.grantsUpgrade u e we l ten token) :
      Tables.grantMade now t u e we
        (l.owner, { tag := x.tag, kind := .convert, status := .ok,
                    result := .lease (t.handle we.slot) .exclusive (some token) })
        (l.owner, .granted x.tag (t.handle we.slot) .exclusive l.volume l.start l.count (some token))

/-- The examination of a list of entries, one by one, each against the tables as the grants before it left them: an entry
that is not grantable is passed over, one that is grantable is granted, and one whose grant would need a token that the
counter cannot give freezes the volume, raises FENCE_EXHAUSTED and ends the pass, which the flag says (R39, R46). -/
inductive Tables.examines (now : Time) : Tables → List Nat → Tables → Bool → List (SessionId × CacheEntry) →
    List (SessionId × Notice) → List Alert → Prop where
  | done (t : Tables) : Tables.examines now t [] t false [] [] []
  | leave {t u : Tables} {e : Nat} {es : List Nat} {ended : Bool} {cs : List (SessionId × CacheEntry)}
      {ns : List (SessionId × Notice)} {as : List Alert}
      (stuck : ∀ we c, lookupKey e t.pool = some we → t.entryClaim we = some c → ¬ t.eligible e we c)
      (more : Tables.examines now t es u ended cs ns as) : Tables.examines now t (e :: es) u ended cs ns as
  | grant {t m u : Tables} {e : Nat} {es : List Nat} {ended : Bool} {cs : List (SessionId × CacheEntry)}
      {ns : List (SessionId × Notice)} {as : List Alert} {we : WaitEntry} {c : Lease} {x : SessionId × CacheEntry}
      {y : SessionId × Notice} (entry : lookupKey e t.pool = some we) (claim : t.entryClaim we = some c)
      (free : t.eligible e we c) (token : ¬ t.outOfTokens c) (made : t.grantMade now m e we x y)
      (more : Tables.examines now m es u ended cs ns as) : Tables.examines now t (e :: es) u ended (x :: cs) (y :: ns) as
  | exhaust {t u : Tables} {e : Nat} {es : List Nat} {we : WaitEntry} {c : Lease} (entry : lookupKey e t.pool = some we)
      (claim : t.entryClaim we = some c) (free : t.eligible e we c) (token : t.outOfTokens c)
      (frozen : t.volumeMoved u c.volume .frozen) (rest : u = { t with volumes := u.volumes }) :
      Tables.examines now t (e :: es) u true [] [] [(.fenceExhausted, .volume c.volume)]

/-- The recall after a pass, for every entry left in the list of volume `v`, in the order of the examination: each HELD
lease that blocks one and carries no mark is marked once, with RECALL to its holder in the order of first finding (R47,
R64). -/
structure Tables.recallsLeft (mark : RecallMark) (t u : Tables) (v : VolumeId) (ns : List (SessionId × Notice)) :
    Prop where
  notices : ns = t.recallNotices ((t.examineOrder v).flatMap t.blockersOf).eraseDups
  body : ∀ m, u.body m = match t.body m with
    | .held l ten => .held l (if m ∈ (t.examineOrder v).flatMap t.blockersOf ∧ ten.recallMark = none
        then { ten with recallMark := some mark } else ten)
    | .pending l d => .pending l d
    | .free => .free
  gen : ∀ m, (u.slots.get m).gen = (t.slots.get m).gen
  rest : u = { t with slots := u.slots }

/-- The wake pass on volume `v`: the examination of its entries, then recall unless the pass ended on exhaustion (R46,
R47). -/
def Tables.passMade (now : Time) (mark : RecallMark) (t u : Tables) (v : VolumeId) (cs : List (SessionId × CacheEntry))
    (ns : List (SessionId × Notice)) (as : List Alert) : Prop :=
  ∃ (m : Tables) (ended : Bool) (granted recalled : List (SessionId × Notice)),
    Tables.examines now t (t.examineOrder v) m ended cs granted as ∧ ns = granted ++ recalled ∧
      (ended = true → u = m ∧ recalled = []) ∧ (ended = false → m.recallsLeft mark u v recalled)

/-- The passes over a list of volumes, one after the other: on each volume that is due and ONLINE at that point (R45). -/
inductive Tables.passesMade (now : Time) (mark : RecallMark) (due : VolumeId → Prop) : Tables → List VolumeId → Tables →
    List (SessionId × CacheEntry) → List (SessionId × Notice) → List Alert → Prop where
  | done (t : Tables) : Tables.passesMade now mark due t [] t [] [] []
  | skip {t u : Tables} {v : VolumeId} {vs : List VolumeId} {cs : List (SessionId × CacheEntry)}
      {ns : List (SessionId × Notice)} {as : List Alert} (off : ¬ (due v ∧ (t.volume v).state = .online))
      (more : Tables.passesMade now mark due t vs u cs ns as) : Tables.passesMade now mark due t (v :: vs) u cs ns as
  | pass {t m u : Tables} {v : VolumeId} {vs : List VolumeId} {cs cs' : List (SessionId × CacheEntry)}
      {ns ns' : List (SessionId × Notice)} {as as' : List Alert} (on : due v ∧ (t.volume v).state = .online)
      (made : t.passMade now mark m v cs ns as) (more : Tables.passesMade now mark due m vs u cs' ns' as') :
      Tables.passesMade now mark due t (v :: vs) u (cs ++ cs') (ns ++ ns') (as ++ as')

/-- The passes of a step taken at state `s`, from the tables `u` that the step's own work left, on the volumes that are due
and ONLINE, in ascending volume number: what they grant, mark and freeze, with the final answers `cs`, the notices `ns` and
the alerts `as` that they hand over. Where a due volume is still ONLINE after them, they leave it woken (R45 to R49). -/
structure State.wakes (s : State) (u t : Tables) (due : VolumeId → Prop) (cs : List (SessionId × CacheEntry))
    (ns : List (SessionId × Notice)) (as : List Alert) : Prop where
  frame : u.passes t (fun w => due w ∧ (u.volume w).state = .online)
  woken : ∀ v, due v → (t.volume v).state = .online → t.woken v
  made : u.passesMade s.clock s.markNow due (List.finRange 32) t cs ns as

/-- The step of a request of session `i` that gives the final answer; its own work left the tables `u`, and after the
answer come the cache entries `cs` and the notices `ns` of that work, and then the results of the wake passes on the volumes
that are due (R19, R27, R45). -/
structure State.answersFirst (s t : State) (p : PortId) (i : SessionId) (rq : Request) (rest : List Request) (k : ReqKind)
    (st : Status) (res : Result) (cs : List (SessionId × CacheEntry)) (ns : List (SessionId × Notice)) (u : Tables)
    (due : VolumeId → Prop) : Prop where
  only : s.engineOnly t
  served : t.lastServed = portPos p
  ports : t.portsAre (s.answering p rest (stepAnswer rq.tag k st res))
  results : ∃ cs' ns' as, s.wakes u t.tab due cs' ns' as ∧ s.delivers t ((cs ++ cs').foldl concludeIn (upd s.sessions i
    ((s.session i).conclude { tag := rq.tag, kind := k, status := st, result := res }))) (ns ++ ns') as

/-- A handle that passes its check: a HELD lease of session `i` with the handle's generation (R6). -/
def State.holds (s : State) (i : SessionId) (h : Handle) (l : Lease) (ten : Tenure) : Prop :=
  h.slot < 4096 ∧ s.tab.slots.get h.slot = { gen := h.gen, body := .held l ten } ∧ l.owner = i

/-- The status that a handle's check gives, if it fails (R6). -/
def State.handleFault (s : State) (i : SessionId) (h : Handle) (st : Status) : Prop :=
  (4096 ≤ h.slot ∧ st = .badRequest) ∨
  (h.slot < 4096 ∧ (¬ ∃ l ten, s.tab.slots.get h.slot = { gen := h.gen, body := .held l ten }) ∧ st = .staleHandle) ∨
  (h.slot < 4096 ∧ (∃ l ten, s.tab.slots.get h.slot = { gen := h.gen, body := .held l ten } ∧ l.owner ≠ i) ∧
    st = .notOwner)

/-! ### Waits that end and leases that are retired -/

/-- The session that waits by entry `e`, with the tag and the kind of its parked request (R42). -/
def Tables.waiter (t : Tables) (e : Nat) : Option (SessionId × Tag × ReqKind) :=
  match lookupKey e t.pool with
  | some we =>
    match we.kind, t.body we.slot with
    | .acquire, .pending l _ => some (l.owner, l.originTag, .acquire)
    | .upgrade, .held l ten => ten.upgrade.map (fun u => (l.owner, u.tag, .convert))
    | _, _ => none
  | none => none

/-- The entries of session `i`, in ascending volume number and list order (R53). -/
def Tables.waitsOf (t : Tables) (i : SessionId) : List Nat :=
  (List.finRange 32).flatMap (fun v => (t.waitList v).filter (fun e => decide (t.entryOwner e = some i)))

/-- The final answers of parked requests whose waits end (R50). -/
def Tables.endAnswers (t : Tables) (reason : WaitReason) (es : List Nat) : List (SessionId × CacheEntry) :=
  es.filterMap (fun e => (t.waiter e).map (fun x =>
    (x.1, { tag := x.2.1, kind := x.2.2, status := .cancelled, result := .waitEnd reason })))

/-- The WAIT_ENDED notices of waits that end (R50). -/
def Tables.endNotices (t : Tables) (reason : WaitReason) (es : List Nat) : List (SessionId × Notice) :=
  es.filterMap (fun e => (t.waiter e).map (fun x => (x.1, .waitEnded x.2.1 reason)))

/-- The waits of the entries `gone` have ended: the entries left pool and lists, PENDING slots became FREE, pending
upgrades were removed, and nothing else changed (R50). -/
structure Tables.waitsEnded (t u : Tables) (gone : Nat → Prop) : Prop where
  pending : ∀ e we l d, lookupKey e t.pool = some we → gone e → t.body we.slot = .pending l d →
    u.slots.get we.slot = { gen := (t.slots.get we.slot).gen + 1, body := .free }
  held : ∀ e we l ten, lookupKey e t.pool = some we → gone e → t.body we.slot = .held l ten →
    u.slots.get we.slot = { gen := (t.slots.get we.slot).gen, body := .held l { ten with upgrade := none } }
  others : ∀ m, (∀ e we, lookupKey e t.pool = some we → gone e → we.slot ≠ m) → u.slots.get m = t.slots.get m
  pool : ∀ e we, lookupKey e u.pool = some we ↔ lookupKey e t.pool = some we ∧ ¬ gone e
  lists : ∀ v, (u.waitList v).Sublist (t.waitList v) ∧ ∀ e, e ∈ u.waitList v ↔ e ∈ t.waitList v ∧ ¬ gone e
  index : u.index = t.index
  volumes : u.volumes = t.volumes
  arrival : u.arrival = t.arrival

/-- A wait of volume `v` is among those that end. -/
def Tables.endsOn (t : Tables) (gone : Nat → Prop) (v : VolumeId) : Prop :=
  ∃ e we, lookupKey e t.pool = some we ∧ gone e ∧ we.volume = v

/-- The HELD leases in the slots `gone` have been retired: their slots became FREE, they left the index, their pending
upgrades ended, and nothing else changed (R59). -/
structure Tables.retired (t u : Tables) (gone : Nat → Prop) : Prop where
  freed : ∀ m l ten, t.body m = .held l ten → gone m →
    u.slots.get m = { gen := (t.slots.get m).gen + 1, body := .free }
  others : ∀ m, (∀ l ten, t.body m = .held l ten → ¬ gone m) → u.slots.get m = t.slots.get m
  index : ∀ v m, m ∈ u.indexOf v ↔ m ∈ t.indexOf v ∧ ¬ gone m
  pool : ∀ e we, lookupKey e u.pool = some we ↔ lookupKey e t.pool = some we ∧ (we.kind = .upgrade → ¬ gone we.slot)
  lists : ∀ v, (u.waitList v).Sublist (t.waitList v) ∧ ∀ e, e ∈ u.waitList v ↔ e ∈ t.waitList v ∧
    ∀ we, lookupKey e t.pool = some we → we.kind = .upgrade → ¬ gone we.slot
  volumes : u.volumes = t.volumes
  arrival : u.arrival = t.arrival

/-- A lease of volume `v` is among those that are retired. -/
def Tables.retiresOn (t : Tables) (gone : Nat → Prop) (v : VolumeId) : Prop :=
  ∃ m l ten, t.body m = .held l ten ∧ gone m ∧ l.volume = v

/-- The notice with which a retirement for a cause reports to the owner (R60). -/
def Cause.notice : Cause → Handle → Option Notice
  | .release, _ => none
  | .purge, _ => none
  | .expiry, h => some (.expired h)
  | .revocation reason, h => some (.revoked h reason)

/-- The alert that a retirement for a cause raises (R60). -/
def Cause.alert : Cause → Option AlertKind
  | .release => none
  | .purge => none
  | .expiry => some .leaseExpired
  | .revocation _ => some .leaseRevoked

/-- The final answers of the parked upgrades of leases that are retired, slot by slot (R55, R59). -/
def Tables.goneAnswers (t : Tables) (ns : List Nat) : List (SessionId × CacheEntry) :=
  ns.flatMap (fun n => match t.body n with
    | .held l ten => ten.upgrade.toList.map (fun x =>
        (l.owner, { tag := x.tag, kind := .convert, status := .cancelled, result := .waitEnd .leaseGone }))
    | .pending _ _ => []
    | .free => [])

/-- The notices of leases that are retired for a cause, slot by slot (R59, R60). -/
def Tables.goneNotices (t : Tables) (c : Cause) (ns : List Nat) : List (SessionId × Notice) :=
  ns.flatMap (fun n => match t.body n with
    | .held l ten => ten.upgrade.toList.map (fun x => (l.owner, .waitEnded x.tag .leaseGone)) ++
        (c.notice (t.handle n)).toList.map (fun x => (l.owner, x))
    | .pending _ _ => []
    | .free => [])

/-- The alerts of leases that are retired for a cause, slot by slot (R60). -/
def Tables.goneAlerts (t : Tables) (c : Cause) (ns : List Nat) : List Alert :=
  ns.flatMap (fun n => match t.body n with
    | .held l _ => c.alert.toList.map (fun k => (k, .session l.owner))
    | .pending _ _ => []
    | .free => [])

/-! ### The visit of the sweep -/

/-- The deadline of the wait that a slot has, if it has one (R4, R9). -/
def SlotBody.waitDeadline : SlotBody → Option Time
  | .free => none
  | .pending _ d => d
  | .held _ ten => ten.upgrade.bind (fun u => u.waitDeadline)

/-- The hold deadline of a slot's lease, if it is timed (R8). -/
def SlotBody.holdDeadline : SlotBody → Option Time
  | .free => none
  | .pending _ _ => none
  | .held _ ten => ten.holdDeadline

/-- The wait entry that refers to slot `n` (R42). -/
def Tables.waitAt (t : Tables) (n : Nat) : Option Nat := (t.pool.find? (fun p => p.2.slot == n)).map Prod.fst

/-- The entries of the slots of a list whose wait deadline has passed (R108). -/
def Tables.lateWaits (t : Tables) (now : Time) (ns : List Nat) : List Nat :=
  (ns.filter (fun n => passedOpt now (t.body n).waitDeadline)).filterMap t.waitAt

/-- The slots of a list whose hold deadline has passed (R109). -/
def Tables.lateHolds (t : Tables) (now : Time) (ns : List Nat) : List Nat :=
  ns.filter (fun n => passedOpt now (t.body n).holdDeadline)

/-- The lease `l` blocks a wait entry that passes the test. -/
def Tables.blocksWaiter (t : Tables) (l : Lease) (test : WaitEntry → Prop) : Prop :=
  ∃ e we c, lookupKey e t.pool = some we ∧ t.entryClaim we = some c ∧ l.blocks c = true ∧ test we

/-- Phase C over the slots `ns`: what each recall mark led to (R67, R110). A lease that blocks only upgrades is judged
after the retirements before it, which may have ended those upgrades. -/
structure Tables.judged (t u : Tables) (now : Time) (ns : Nat → Prop) : Prop where
  others : ∀ m, ¬ ns m ∨ (∀ l ten, t.body m = .held l ten → ten.recallMark = none) → u.slots.get m = t.slots.get m
  early : ∀ m l ten mk d, ns m → t.body m = .held l ten → ten.recallMark = some mk → mk.deadline = some d →
    passed now d = false → u.slots.get m = t.slots.get m
  idle : ∀ m l ten mk, ns m → t.body m = .held l ten → ten.recallMark = some mk →
    (∀ d, mk.deadline = some d → passed now d = true) → ¬ t.blocksWaiter l (fun _ => True) →
    u.slots.get m = { gen := (t.slots.get m).gen, body := .held l { ten with recallMark := none } }
  stays : ∀ m l ten mk, ns m → t.body m = .held l ten → ten.recallMark = some mk → mk.deadline = none →
    t.blocksWaiter l (fun we => we.kind = .acquire) → u.slots.get m = t.slots.get m
  late : ∀ m l ten mk d, ns m → t.body m = .held l ten → ten.recallMark = some mk → mk.deadline = some d →
    passed now d = true → t.blocksWaiter l (fun we => we.kind = .acquire) →
    u.slots.get m = { gen := (t.slots.get m).gen + 1, body := .free }
  anyway : ∀ m l ten mk, ns m → t.body m = .held l ten → ten.recallMark = some mk →
    u.slots.get m = t.slots.get m ∨ u.slots.get m = { gen := (t.slots.get m).gen + 1, body := .free } ∨
    u.slots.get m = { gen := (t.slots.get m).gen, body := .held l { ten with recallMark := none } }
  volumes : u.volumes = t.volumes

/-- Phase C over a list of slots, one after the other, each against the tables as the judgments before it left them; the
last argument is the list of the slots whose leases were revoked (R67, R68, R110). -/
inductive Tables.judges (now : Time) : Tables → List Nat → Tables → List Nat → Prop where
  | done (t : Tables) : Tables.judges now t [] t []
  | keep {t u : Tables} {n : Nat} {ns rs : List Nat}
      (stays : ∀ l ten mk, t.body n = .held l ten → ten.recallMark = some mk →
        (∃ d, mk.deadline = some d ∧ passed now d = false) ∨ (mk.deadline = none ∧ t.blocksWaiter l (fun _ => True)))
      (more : Tables.judges now t ns u rs) : Tables.judges now t (n :: ns) u rs
  | clear {t m u : Tables} {n : Nat} {ns rs : List Nat} {l : Lease} {ten : Tenure} {mk : RecallMark}
      (held : t.body n = .held l ten) (mark : ten.recallMark = some mk)
      (due : ∀ d, mk.deadline = some d → passed now d = true) (idle : ¬ t.blocksWaiter l (fun _ => True))
      (slot : t.slotOnly m n (.held l { ten with recallMark := none })) (rest : m = { t with slots := m.slots })
      (more : Tables.judges now m ns u rs) : Tables.judges now t (n :: ns) u rs
  | revoke {t m u : Tables} {n : Nat} {ns rs : List Nat} {l : Lease} {ten : Tenure} {mk : RecallMark} {d : Time}
      (held : t.body n = .held l ten) (mark : ten.recallMark = some mk) (late : mk.deadline = some d)
      (due : passed now d = true) (blocks : t.blocksWaiter l (fun _ => True)) (gone : t.retired m (fun k => k = n))
      (more : Tables.judges now m ns u rs) : Tables.judges now t (n :: ns) u (n :: rs)

/-! ### Steps that answer no request -/

/-- The completion of a step that answers no request: `s` is the state with the step's own changes made, but for the lease
structures; then the final answers `cs` of parked requests, the notices `ns` and the alerts `as` are handed over, in that
order (R19), and the transmitters go on (R160). -/
structure State.completesWith (s t : State) (cs : List (SessionId × CacheEntry)) (ns : List (SessionId × Notice))
    (as : List Alert) : Prop where
  only : t = { s with tab := t.tab, sessions := t.sessions, ports := t.ports, alerts := t.alerts, alertN := t.alertN }
  ports : t.portsAre s.port
  results : s.delivers t (cs.foldl concludeIn s.sessions) ns as

/-- The same for a step whose own work left the tables `u`, with the results of the wake passes on the volumes that are due
after those (R19, R45). -/
def State.completes (s t : State) (u : Tables) (due : VolumeId → Prop) (cs : List (SessionId × CacheEntry))
    (ns : List (SessionId × Notice)) (as : List Alert) : Prop :=
  ∃ cs' ns' as', s.wakes u t.tab due cs' ns' as' ∧ s.completesWith t (cs ++ cs') (ns ++ ns') (as ++ as')

/-- A claim is raised in the Timers queue: one of the same kind and session keeps its place, takes a differing number, and
stands for both where the numbers are the same; otherwise the claim joins the tail (R21, R87). -/
def claimRaised (q q' : List TimerClaim) (c : TimerClaim) : Prop :=
  ((∀ d ∈ q, d.kind = c.kind → d.session ≠ c.session) → q' = q ++ [c]) ∧
  ((∃ d ∈ q, d.kind = c.kind ∧ d.session = c.session) → q'.length = q.length ∧ ∀ (k : Nat) d, q[k]? = some d →
    q'[k]? = some (if d.kind = c.kind ∧ d.session = c.session
      then if d.number = c.number then { d with ports := d.ports ++ c.ports.filter (fun p => p ∉ d.ports) } else c
      else d))

/-- Claims are raised one after the other (R21, R87). -/
def claimsRaised (q q' : List TimerClaim) : List TimerClaim → Prop
  | [] => q' = q
  | c :: cs => ∃ m, claimRaised q m c ∧ claimsRaised m q' cs

/-- A session timer judged at clock value `now`: a RUNNING one whose deadline has passed is EXPIRED (R86, R103, R114). -/
def SessionTimer.judged (now : Time) : SessionTimer → SessionTimer
  | .running d => if (now - d).toNat < 2147483648 then .expired d else .running d
  | .stopped => .stopped
  | .expired d => .expired d

/-- What the judgment of a timer at clock value `now` raises: a claim where it expires (R86, R87, R92). -/
def SessionTimer.raises (now : Time) (tm : SessionTimer) (k : TimerKind) (i : SessionId) (number : Nat) : List TimerClaim :=
  if tm.judged now = tm then [] else [{ kind := k, session := i, number := number, ports := [] }]

/-- The record without the tags of some discarded requests (R89, R90, R149). -/
def Session.without (x : Session) (inbox : List Request) : Session :=
  { x with outstanding := x.outstanding.filter (fun y => !((inbox.map (fun r => r.tag)).contains y.1)) }

/-- Session `i`, bound to port `p`, is orphaned by a step: unbound, inbox discarded, waits ended, grace timer started, and
the alert; a grace of 0 ms has expired at once (R53, R90, R92, R114). -/
def State.orphaned (s t : State) (i : SessionId) (p : PortId) : Prop :=
  ∃ (t1 : State) (u : Tables),
    State.completes
      { s with
        sessions := upd s.sessions i { (s.session i).without (s.port p).inbox with
          state := .orphaned, port := none, term := .stopped,
          grace := .running (s.clock + BitVec.ofNat 32 (s.cfg p).orphanGrace) }
        ports := upd s.ports p { s.port p with inbox := [] } }
      t1 u (s.tab.endsOn (fun e => s.tab.entryOwner e = some i))
      (s.tab.endAnswers .sessionEnded (s.tab.waitsOf i)) (s.tab.endNotices .sessionEnded (s.tab.waitsOf i))
      [(.sessionOrphaned, .session i)] ∧
    s.tab.waitsEnded u (fun e => s.tab.entryOwner e = some i) ∧
    (0 < (s.cfg p).orphanGrace → t = t1) ∧
    ((s.cfg p).orphanGrace = 0 → t = { t1 with sessions := t.sessions, timersQueue := t.timersQueue } ∧
      t.sessions = upd t1.sessions i { t1.session i with grace := .expired s.clock } ∧
      claimRaised s.timersQueue t.timersQueue
        { kind := .grace, session := i, number := (s.session i).number, ports := [] })

/-- The record of a session that becomes CLOSING (R93). -/
def Session.closing (x : Session) (k : CloseKind) : Session :=
  { x with state := .closing, closeKind := some k, term := .stopped, grace := .stopped }

/-- The purge queue with session `i` at its tail, the job beginning at section 0 if it was empty (R97). -/
def State.queued (s : State) (i : SessionId) : State :=
  { s with purgeQueue := s.purgeQueue ++ [i], purgeSection := if s.purgeQueue = [] then 0 else s.purgeSection }

/-! ### Commands of the Maintenance Port -/

/-- The status after a command of the engine's, with no waiting command, and OVERRUN cleared if it was set before the
command was accepted (R174). -/
def State.finished (s : State) (st : CmdStatus) : State :=
  { s with lastServed := 9, cmdStatus := st, waiting := none, overrun := s.overrun && !s.overrunClears,
           overrunClears := false }

/-- A refused command: the status with its reason, and nothing else changed but what the completion of any command
changes (R174, R175). -/
def State.commandRefused (s t : State) (r : Reason) : Prop := t = s.finished (.refused r)

/-! ### Ports that go DOWN -/

/-- The port that goes DOWN from TRAINING or UP: frame abandoned, answer queue and inbox emptied (R149). -/
def Port.dropped (x : Port) : Port := { x with link := .down, tx := none, answers := [], inbox := [] }

/-- The port that may train, as it enters TRAINING (R146). -/
def State.trains (s : State) (p : PortId) (x : Port) : Port :=
  if (s.cfg p).enable = true ∧ s.device = .ready then { x with link := .training, helloCount := 0, sentThisMs := false }
  else x

/-- Port `p` went DOWN and was left as `x`: the tags of its inbox leave the bound session's outstanding set, a link-lost
claim if it is bound, and LINK_DOWN (R149). -/
structure State.drops (s t : State) (p : PortId) (x : Port) : Prop where
  only : t = { s with sessions := t.sessions, ports := t.ports, timersQueue := t.timersQueue, alerts := t.alerts,
                      alertN := false }
  sessions : ∀ j, t.session j = if s.boundSession p = some j then (s.session j).without (s.port p).inbox else s.session j
  ports : ∀ q, t.port q = if q = p then x else s.port q
  claim : match s.boundSession p with
    | some i => claimRaised s.timersQueue t.timersQueue
        { kind := .linkLost, session := i, number := (s.session i).number, ports := [p] }
    | none => t.timersQueue = s.timersQueue
  alert : t.alerts = mergeAlert s.alerts (.linkDown, .port p)

/-- Configuration values are in their ranges (R177). -/
def State.configLaw (s : State) : Prop :=
  (∀ p, 1 ≤ (s.cfg p).windowMax ∧ (s.cfg p).windowMax ≤ 32 ∧ 1 ≤ (s.cfg p).quota ∧ (s.cfg p).quota ≤ 4096 ∧
    10 ≤ (s.cfg p).sessionTerm ∧ (s.cfg p).sessionTerm ≤ 60000 ∧ (s.cfg p).orphanGrace ≤ 30000) ∧
  (s.recallLimit = 0 ∨ 10 ≤ s.recallLimit ∧ s.recallLimit ≤ 60000) ∧ 1 ≤ s.occThreshold ∧ s.occThreshold ≤ 4096

/-- The lookup is at a point where it can be made: a query waits, and the answer of the oldest has not been made (R133). -/
def State.looksUp (s : State) (q : GateQuery) (rest : List GateQuery) : Prop :=
  s.resetN = true ∧ s.gate.queue = q :: rest ∧ ∀ r ∈ s.gate.replies, r.fromQueue = false

/-- The lease of session `i` that covers a query's blocks (R15, R140). -/
def Tables.covers (t : Tables) (i : SessionId) (v : VolumeId) (q : GateQuery) (n : Nat) (l : Lease) (ten : Tenure) : Prop :=
  t.body n = .held l ten ∧ l.owner = i ∧ l.volume = v ∧ l.start ≤ q.start ∧ q.start + q.count ≤ l.start + l.count

/-! ### Events that can occur -/

/-- The engine's next claim is a request of kind `k` (R20, R21). -/
def State.takesKind (s : State) (k : ReqKind) : Prop :=
  ∃ p rq rest, s.takesRequest p rq rest ∧ rq.body.kind? = some k

/-- The engine's next claim is a timer claim of kind `k` (R21). -/
def State.takesTimerKind (s : State) (k : TimerKind) : Prop := ∃ c rest, s.takesTimer c rest ∧ c.kind = k

/-- The engine's next claim is the waiting command, whose code passes the test (R174). -/
def State.takesCode (s : State) (test : Byte → Prop) : Prop := ∃ c, s.takesCommand c ∧ test c.code

/-- The event that a command names can occur at this state and finds something to act on (notes/assumptions/1.md). -/
def State.mayAct (s : State) : Instr → Prop
  | .powerOnReset => True
  | .resetRelease _ => s.resetN = false
  | .startupComplete => s.resetN = true ∧ s.device = .starting
  | .requestIntake p _ body => s.resetN = true ∧ ((s.port p).link = .up ∨
      (s.port p).link = .training ∧ ¬ (1 ≤ body.length ∧ body.length ≤ 19))
  | .keepalive p _ => s.resetN = true ∧ (s.port p).link = .up
  | .noticeAck p _ _ => s.resetN = true ∧ (s.port p).link = .up
  | .join => s.takesKind .join
  | .acquire => s.takesKind .acquire
  | .convert => s.takesKind .convert
  | .renew => s.takesKind .renew
  | .release => s.takesKind .release
  | .cancel => s.takesKind .cancel
  | .query => s.takesKind .query
  | .list => s.takesKind .list
  | .depart => s.takesKind .depart
  | .sweepTimerExpiry => s.resetN = true
  | .sweepVisit => s.serves 6
  | .termTimerExpiry i => s.resetN = true ∧ ∃ d, (s.session i).term = .running d ∧ (s.clock - d).toNat < 2147483648
  | .graceTimerExpiry i => s.resetN = true ∧ ∃ d, (s.session i).grace = .running d ∧ (s.clock - d).toNat < 2147483648
  | .lossClaim => s.takesTimerKind .loss
  | .linkLostClaim => s.takesTimerKind .linkLost
  | .graceClaim => s.takesTimerKind .grace
  | .purgeSection => s.serves 8
  | .define => s.takesCode (fun c => c = 0x01)
  | .online => s.takesCode (fun c => c = 0x02)
  | .freeze => s.takesCode (fun c => c = 0x03)
  | .thaw => s.takesCode (fun c => c = 0x04)
  | .offline => s.takesCode (fun c => c = 0x05)
  | .offlineForce => s.takesCode (fun c => c = 0x06)
  | .revoke => s.takesCode (fun c => c = 0x07)
  | .closeSession => s.takesCode (fun c => c = 0x08)
  | .portReset => s.takesCode (fun c => c = 0x09)
  | .tableClear => s.takesCode (fun c => c = 0x0A)
  | .setConfig => s.takesCode (fun c => c = 0x0B)
  | .badCommand => s.takesCode (fun c => c = 0 ∨ 0x0B < c.toNat)
  | .registerWrite _ _ => s.resetN = true
  | .alertRead _ => s.resetN = true
  | .recordWindowSelect _ _ => s.resetN = true
  | .helloReceive p => s.resetN = true ∧ (s.port p).link ≠ .down
  | .badFrame p => s.resetN = true ∧ (s.port p).link ≠ .down
  | .discardedFrame p kind => s.resetN = true ∧ (s.port p).link = .up ∧ (kind = .answer ∨ kind = .notice)
  | .linkSilenceTimeout p => s.resetN = true ∧ (s.port p).link = .up
  | .helloTransmit (.rp p) => s.resetN = true ∧ (s.port p).link ≠ .down ∧ (s.port p).tx = none ∧
      (s.port p).sentThisMs = false
  | .helloTransmit .gate => s.resetN = true ∧ s.gate.link ≠ .down ∧ s.gate.tx = none ∧ s.gate.sentThisMs = false
  | .frameTransmitComplete p => s.resetN = true ∧ (s.port p).tx ≠ none
  | .gateHelloReceive => s.resetN = true ∧ s.gate.link ≠ .down
  | .gateQuery _ _ => s.resetN = true ∧ s.gate.link ≠ .down
  | .gateLookup => ∃ q rest, s.looksUp q rest
  | .gateAnswerSent => s.resetN = true ∧ s.gate.tx ≠ none
  | .gateBadFrame => s.resetN = true ∧ s.gate.link ≠ .down
  | .gateLinkSilenceTimeout => s.resetN = true ∧ s.gate.link ≠ .down
  | .gateDiscardedFrame kind => s.resetN = true ∧ (s.gate.link = .training ∨ s.gate.link = .up ∧ kind = .answer)

/-! ### Layouts -/

/-- Fields of the given widths in bytes and values, one after the other (R185). -/
def layout (fields : List (Nat × Nat)) : List Byte := fields.flatMap (fun f => beBytes f.1 f.2)

/-- The codes of an enumeration: its values in the order of the manual's table, counted from `first` (R186 to R188). -/
def codedFrom {α : Type} (first : Nat) (code : α → Byte) (values : List α) : Prop :=
  ∀ k v, values[k]? = some v → (code v).toNat = first + k

end Sys2Proof.Machine
end

