-- ==== Sys2Proof/Certificates/Slice0/Obligations.lean ====
section
/-! DEFINITION. The statements about the model, chapter by chapter of the manual. `s.takesFor …` and its like say what
the arbiter presents; `t` is the state after the command. -/

open Sys2Proof Sys2Proof.Machine

/-! ### The step, reset and start-up -/

/-- One step carries out the oldest command, and an empty queue leaves the block idle (the model's choice, log entry 3).
-/
def Obligations.StepRunsTheOldestCommand : Prop :=
  (∀ (c : Instr) (rest : List Instr) (s : State), s.pending = c :: rest → step s = exec c { s with pending := rest }) ∧
    ∀ s : State, s.pending = [] → step s = .next s

/-- Every command answers a next state with the queue left alone, and one whose event cannot occur at the state, or finds
nothing to act on there, changes nothing (the model's choice, log entry 1). -/
def Obligations.EveryCommandCompletes : Prop :=
  ∀ (c : Instr) (s : State), (∃ t, exec c s = .next t ∧ t.pending = s.pending) ∧ (¬ s.mayAct c → exec c s = .next s)

/-- What the manual gives for power-on reset (R24, R56, R75, R100, R115, R130, R144, R162, R177, R184). -/
def Obligations.ResetValues : Prop :=
  (∀ n, State.reset.tab.slots.get n = { gen := 0, body := .free }) ∧
  (∀ v : VolumeId, State.reset.tab.indexOf v = [] ∧ State.reset.tab.waitList v = [] ∧
    State.reset.tab.volume v = { state := .offline, size := 0, fence := 0 }) ∧
  State.reset.tab.occupancy = 0 ∧ (∀ i : SessionId, State.reset.tab.slotCount i = 0) ∧
  State.reset.tab.pool = [] ∧ State.reset.tab.arrival = 0 ∧ State.reset.engine = .idle ∧ State.reset.lastServed = 9 ∧
  (∀ i : SessionId, (State.reset.session i).state = .free ∧ (State.reset.session i).port = none ∧
    (State.reset.session i).term = .stopped ∧ (State.reset.session i).grace = .stopped) ∧
  (∀ p : PortId, State.reset.boundSession p = none) ∧ State.reset.nextNumber = 1 ∧
  State.reset.timersQueue = [] ∧ State.reset.purgeQueue = [] ∧
  State.reset.visitPending = false ∧ State.reset.sweepPtr = 0 ∧ State.reset.slips = 0 ∧ State.reset.clock = 0 ∧
  (∀ p : PortId, (State.reset.port p).link = .down ∧ (State.reset.port p).helloCount = 0 ∧
    (State.reset.port p).silence = 0 ∧ (State.reset.port p).errorRun = 0 ∧ (State.reset.port p).badFrames = 0 ∧
    (State.reset.port p).inbox = [] ∧ (State.reset.port p).answers = [] ∧
    State.reset.cfg p = { enable := true, windowMax := 8, quota := 1024, sessionTerm := 1000, orphanGrace := 5000 }) ∧
  State.reset.gate.link = .down ∧ State.reset.gate.helloCount = 0 ∧ State.reset.gate.silence = 0 ∧
  State.reset.gate.errorRun = 0 ∧ State.reset.gate.badFrames = 0 ∧ State.reset.gate.queue = [] ∧
  State.reset.gate.replies = [] ∧
  State.reset.recallLimit = 0 ∧ State.reset.occThreshold = 3584 ∧
  State.reset.cmdStatus = .idle ∧ State.reset.lastCode = 0 ∧ State.reset.overrun = false ∧
  State.reset.waiting = none ∧ State.reset.arg1 = 0 ∧ State.reset.arg2 = 0 ∧ State.reset.arg3 = 0 ∧
  State.reset.itemPtr = 0 ∧ State.reset.window = none ∧
  State.reset.alerts = [] ∧ State.reset.alertN = true ∧ State.reset.device = .starting

/-- RESET_N low holds the part at its power-on values: POWER_ON_RESET brings them, no other event but the release
changes anything, and the release samples the straps and starts the lease clock at 0 (R172, R173, R189). The values that
the manual does not give are those of log entry 4. -/
def Obligations.ResetHoldsTheDevice : Prop :=
  (∀ s : State, exec .powerOnReset s = .next { State.reset with pending := s.pending }) ∧
  (∀ (c : Instr) (s : State), s.resetN = false → c ≠ .powerOnReset → (∀ straps, c ≠ .resetRelease straps) →
    exec c s = .next s) ∧
  ∀ (straps : BitVec 3) (s : State), s.resetN = false →
    exec (.resetRelease straps) s = .next { s with resetN := true, address := 0x2C#7 + straps.setWidth 7,
                                                   device := .starting, clock := 0 }

/-- At the end of STARTING the engine's structures are at their power-on values: every slot is FREE with generation 0, every
session FREE and unbound with its timers STOPPED, the timer and purge queues empty, the next session number 1 and the last
served position 9. The device is READY, and the links that may train are in TRAINING with a HELLO count of 0 (R24, R100,
R131, R146, R173). -/
def Obligations.StartupMakesReady : Prop :=
  ∀ s : State, s.resetN = true → s.device = .starting →
    ∃ t, exec .startupComplete s = .next t ∧ t.device = .ready ∧ t.tab = Tables.reset ∧
      (∀ n, t.tab.slots.get n = { gen := 0, body := .free }) ∧
      (∀ i : SessionId, (t.session i).state = .free ∧ (t.session i).port = none ∧ (t.session i).term = .stopped ∧
        (t.session i).grace = .stopped) ∧
      t.timersQueue = [] ∧ t.purgeQueue = [] ∧ t.nextNumber = 1 ∧ t.lastServed = 9 ∧
      (∀ p : PortId, (s.port p).link = .down →
        if (s.cfg p).enable then (t.port p).link = .training ∧ (t.port p).helloCount = 0
        else t.port p = s.port p) ∧
      (s.gate.link = .down → t.gate.link = .training ∧ t.gate.helloCount = 0) ∧
      t = { s with device := t.device, tab := t.tab, lastServed := t.lastServed, sessions := t.sessions,
                   nextNumber := t.nextNumber, timersQueue := t.timersQueue, purgeQueue := t.purgeQueue,
                   purgeSection := t.purgeSection, ports := t.ports, gate := t.gate }

/-! ### The claim arbiter (chapter 1.4) -/

/-- The arbiter presents the claim of the first ring position with a claim, going round from the position after the one
last served, while the device is READY and the engine IDLE (R18, R20, R21, R24). -/
def Obligations.ArbiterSearchesTheRing : Prop :=
  ∀ (s : State) (pos : RingPos),
    let claims := fun q : RingPos => (∃ p : PortId, q.val = p.val ∧ (s.port p).inbox ≠ []) ∨
      (q = 6 ∧ s.visitPending = true) ∨ (q = 7 ∧ s.timersQueue ≠ []) ∨ (q = 8 ∧ s.purgeQueue ≠ []) ∨
      (q = 9 ∧ s.waiting ≠ none)
    (s.presented = some pos ↔ s.device = .ready ∧ s.engine = .idle ∧ claims pos ∧
      ∀ q : RingPos, (q - (s.lastServed + 1)).val < (pos - (s.lastServed + 1)).val → ¬ claims q) ∧
    (s.presented = none ↔ s.device ≠ .ready ∨ s.engine ≠ .idle ∨ ∀ q, ¬ claims q)

/-! ### Intake (chapter 8.5) -/

/-- A request that passes checks 1 to 8 is accepted: it joins the inbox, its tag the outstanding set, and the term timer
of an ACTIVE session is restarted; with no place reserved for its answer the frame has no effect (R156, R159). A free
transmitter begins its next frame at the same event (log entry 8). -/
def Obligations.RequestAccepted : Prop :=
  ∀ (s : State) (p : PortId) (i : SessionId) (tag : Tag) (body : List Byte),
    s.hears p body → s.boundSession p = some i → s.passesState i (parseRequest body) → s.newTag i tag →
    (∃ k, (parseRequest body).kind? = some k ∧ k ≠ .keepalive ∧ k ≠ .noticeAck) →
    (s.session i).outstanding.length < (s.session i).window →
    ∃ t, exec (.requestIntake p tag body) s = .next t ∧
      (s.hasRoom p = false → s.intakeGives t p none) ∧
      (s.hasRoom p = true →
        t = { s with sessions := t.sessions, ports := t.ports } ∧
        (∀ j, t.session j = if j = i
          then { (s.session i).restartTerm (deadlineAt s.clock (s.cfg p).sessionTerm) with
                 outstanding := (s.session i).outstanding ++ [(tag, .queued)] }
          else s.session j) ∧
        t.portsAre (fun q => if q = p
          then { (s.port p).goodFrame with inbox := (s.port p).inbox ++ [{ tag := tag, body := parseRequest body }] }
          else s.port q))

/-- What intake answers on a bound port to a request it does not accept, check by check (R153, R154, R155, R156), BAD_REQUEST
to a KEEPALIVE or NOTICE_ACK that is not well formed (R157), and nothing where the answer queue has no place (R159). What
a replay carries as its kind is log entry 10. A free transmitter begins its next frame at the same event (log entry 8). -/
def Obligations.RequestAnsweredAtIntake : Prop :=
  ∀ (s : State) (p : PortId) (i : SessionId) (tag : Tag) (body : List Byte),
    s.hears p body → s.boundSession p = some i →
    ∃ t, exec (.requestIntake p tag body) s = .next t ∧
      (¬ s.passesState i (parseRequest body) →
        s.intakeGives t p (some (portAnswer tag (parseRequest body).code .busy))) ∧
      (s.passesState i (parseRequest body) → (parseRequest body).kind? = none →
        s.intakeGives t p (some (portAnswer tag (parseRequest body).code .badRequest))) ∧
      (s.passesState i (parseRequest body) → (parseRequest body).kind? ≠ none →
        (∀ e, (s.session i).cached tag = some e → s.intakeGives t p
          (some { tag := e.tag, code := e.kind.code, status := e.status, replay := true, result := e.result })) ∧
        ((s.session i).cached tag = none → (s.session i).tagMark tag = some .parked → s.intakeGives t p
          (some { portAnswer tag (parseRequest body).code .parked with replay := true })) ∧
        ((s.session i).cached tag = none → (s.session i).tagMark tag = some .queued → s.intakeGives t p none) ∧
        (s.newTag i tag → (parseRequest body).kind? ≠ some .keepalive → (parseRequest body).kind? ≠ some .noticeAck →
          (s.session i).window ≤ (s.session i).outstanding.length →
          s.intakeGives t p (some (portAnswer tag (parseRequest body).code .noCredit))) ∧
        (s.newTag i tag → parseRequest body = .malformed .keepalive ∨ parseRequest body = .malformed .noticeAck →
          s.intakeGives t p (some (portAnswer tag (parseRequest body).code .badRequest))))

/-- Intake on an unbound port: JOIN against a window of 1, NO_SESSION for every other request (R152); a JOIN that finds no
place for its answer has no effect (R159). A free transmitter begins its next frame at the same event (log entry 8). -/
def Obligations.UnboundPortTakesOneJoin : Prop :=
  ∀ (s : State) (p : PortId) (tag : Tag) (body : List Byte), s.hears p body → s.boundSession p = none →
    ∃ t, exec (.requestIntake p tag body) s = .next t ∧
      ((parseRequest body).kind? ≠ some .join →
        s.intakeGives t p (some (portAnswer tag (parseRequest body).code .noSession))) ∧
      ((parseRequest body).kind? = some .join → (s.port p).inbox = [] → s.hasRoom p = true →
        t = { s with ports := t.ports } ∧
        t.portsAre (fun q => if q = p
          then { (s.port p).goodFrame with inbox := [{ tag := tag, body := parseRequest body }] } else s.port q)) ∧
      ((parseRequest body).kind? = some .join → (s.port p).inbox = [] → s.hasRoom p = false → s.intakeGives t p none) ∧
      ((parseRequest body).kind? = some .join →
        (∃ rq ∈ (s.port p).inbox, rq.tag = tag ∧ rq.body.kind? = some .join) → s.intakeGives t p none) ∧
      ((parseRequest body).kind? = some .join → (s.port p).inbox ≠ [] →
        (∀ rq ∈ (s.port p).inbox, rq.tag = tag → rq.body.kind? ≠ some .join) →
        s.intakeGives t p (some (portAnswer tag (parseRequest body).code .noCredit)))

/-- KEEPALIVE and NOTICE_ACK under a new tag are handled at the port: the term timer restarts, an acknowledgement is
applied, and the answer is OK; with no place for the answer the frame has no effect (R157, R159, R168). In every state the
two commands are the arrival of a request with their body, so that an unbound port, a session that is not ACTIVE and a known
tag are met as the statements about REQUEST_INTAKE say (log entry 20). A free transmitter begins its next frame at the same
event (log entry 8). -/
def Obligations.PortHandlesKeepaliveAndNoticeAck : Prop :=
  (∀ (s : State) (p : PortId) (tag : Tag) (seq : BitVec 16),
    exec (.keepalive p tag) s = exec (.requestIntake p tag (layout [(1, 0x02)])) s ∧
    exec (.noticeAck p tag seq) s = exec (.requestIntake p tag (layout [(1, 0x0A), (2, seq.toNat)])) s) ∧
  ∀ (s : State) (p : PortId) (i : SessionId) (tag : Tag) (seq : BitVec 16),
    s.resetN = true → (s.port p).link = .up → s.boundSession p = some i → (s.session i).state = .active →
    s.newTag i tag →
    (∃ t, exec (.keepalive p tag) s = .next t ∧ (s.hasRoom p = false → s.intakeGives t p none) ∧
      (s.hasRoom p = true →
        t = { s with sessions := t.sessions, ports := t.ports } ∧
        (∀ j, t.session j = if j = i
          then (s.session i).restartTerm (deadlineAt s.clock (s.cfg p).sessionTerm) else s.session j) ∧
        t.portsAre (fun q => if q = p
          then { (s.port p).goodFrame with answers := (s.port p).answers ++ [portAnswer tag 0x02 .ok] }
          else s.port q))) ∧
    (∃ t, exec (.noticeAck p tag seq) s = .next t ∧ (s.hasRoom p = false → s.intakeGives t p none) ∧
      (s.hasRoom p = true →
        t = { s with sessions := t.sessions, ports := t.ports } ∧
        (∀ j, t.session j = if j = i
          then ((s.session i).restartTerm (deadlineAt s.clock (s.cfg p).sessionTerm)).acknowledge seq
          else s.session j) ∧
        t.portsAre (fun q => if q = p
          then { (s.port p).goodFrame with answers := (s.port p).answers ++ [portAnswer tag 0x0A .ok] }
          else s.port q)))

/-- NOTICE_ACK at a port: with the oldest number, the queue's length `k` and the difference `d`, the `d + 1` oldest
notices leave when `d` is below `k` and none otherwise; the answer is OK (R168). A drained overflowed queue takes RESYNC
(R170). -/
def Obligations.NoticeAckRemovesOldest : Prop :=
  ∀ (s : State) (p : PortId) (i : SessionId) (tag : Tag) (n : BitVec 16),
    s.resetN = true → (s.port p).link = .up → s.boundSession p = some i → (s.session i).state = .active →
    s.newTag i tag → s.hasRoom p = true →
    let x := s.session i
    let left := match x.queue with
      | [] => []
      | oldest :: _ => if (n - oldest.seq).toNat < x.queue.length then x.queue.drop ((n - oldest.seq).toNat + 1) else x.queue
    ∃ t, exec (.noticeAck p tag n) s = .next t ∧ (∀ j, j ≠ i → t.session j = s.session j) ∧
      (t.port p).answers = (s.port p).answers ++ [portAnswer tag 0x0A .ok] ∧
      (left ≠ [] ∨ x.queue = [] ∨ x.overflow = false → (t.session i).queue = left ∧
        (t.session i).nextSeq = x.nextSeq ∧ (t.session i).overflow = x.overflow) ∧
      (left = [] → x.queue ≠ [] → x.overflow = true →
        (t.session i).queue = [{ seq := x.nextSeq, notice := .resync, sent := false }] ∧
        (t.session i).nextSeq = x.nextSeq + 1 ∧ (t.session i).overflow = false)

/-! ### JOIN (chapter 4.2) -/

/-- A JOIN under a new name makes the lowest-numbered FREE record a session (R80, R82, R83). `round` is the model's own (log
entry 9). A free transmitter begins its next frame at the same event (log entry 8). -/
def Obligations.JoinCreatesSession : Prop :=
  ∀ (s : State) (p : PortId) (tag : Tag) (name : Name) (window : Nat) (rest : List Request) (k : SessionId),
    s.takesRequest p { tag := tag, body := .join name window none } rest → s.boundSession p = none →
    name ≠ 0 → 1 ≤ window → window ≤ 32 →
    (∀ j, (s.session j).state ≠ .free → (s.session j).name ≠ name) →
    (s.session k).state = .free → (∀ j, j < k → (s.session j).state ≠ .free) → s.nextNumber ≤ 4294967295 →
    let joined := Result.joined s.nextNumber (min window (s.cfg p).windowMax) (s.cfg p).quota
    ∃ t, exec .join s = .next t ∧
      t = { s with lastServed := portPos p, sessions := t.sessions, nextNumber := s.nextNumber + 1, ports := t.ports } ∧
      (∀ j, t.session j = if j = k
        then { state := .active, name := name, number := s.nextNumber, port := some p,
               window := min window (s.cfg p).windowMax, outstanding := [],
               cache := [{ tag := tag, kind := .join, status := .ok, result := joined }],
               quota := (s.cfg p).quota, term := .running (s.clock + BitVec.ofNat 32 (s.cfg p).sessionTerm),
               grace := .stopped, queue := [], nextSeq := 0, overflow := false, closeKind := none, round := 0 }
        else s.session j) ∧
      t.portsAre (s.answering p rest (stepAnswer tag .join .ok joined))

/-- A JOIN with the name and number of an ORPHANED session reclaims it; quota, cache, notices, sequence and overflow
flag are kept, and every queued notice is waiting again (R84, R167). A new round of sending begins, which the model counts
(log entry 9). A free transmitter begins its next frame at the same event (log entry 8). -/
def Obligations.JoinReclaimsOrphan : Prop :=
  ∀ (s : State) (p : PortId) (tag : Tag) (name : Name) (window number : Nat) (rest : List Request) (k : SessionId),
    s.takesRequest p { tag := tag, body := .join name window (some number) } rest → s.boundSession p = none →
    name ≠ 0 → 1 ≤ window → window ≤ 32 → SessionLaw s.sessions s.nextNumber →
    (s.session k).state = .orphaned → (s.session k).name = name → (s.session k).number = number →
    let joined := Result.joined number (min window (s.cfg p).windowMax) (s.session k).quota
    ∃ t, exec .join s = .next t ∧
      t = { s with lastServed := portPos p, sessions := t.sessions, ports := t.ports } ∧
      (∀ j, t.session j = if j = k
        then { s.session k with
               state := .active, port := some p, window := min window (s.cfg p).windowMax, grace := .stopped,
               term := .running (s.clock + BitVec.ofNat 32 (s.cfg p).sessionTerm),
               outstanding := (s.session k).outstanding.filter (fun x => !(x.1 == tag)),
               queue := (s.session k).queue.map (fun q => { q with sent := false }), round := (s.session k).round + 1,
               cache := pushCache (s.session k).cache { tag := tag, kind := .join, status := .ok, result := joined } }
        else s.session j) ∧
      t.portsAre (s.answering p rest (stepAnswer tag .join .ok joined))

/-- The refusals of a JOIN, check by check, and the abandonment of an orphan whose name is joined afresh (R81, R82, R84,
R93). A free transmitter begins its next frame at the same event (log entry 8). -/
def Obligations.JoinRefused : Prop :=
  ∀ (s : State) (p : PortId) (rq : Request) (rest : List Request), s.takesRequest p rq rest →
    (rq.body = .malformed .join → ∃ t, exec .join s = .next t ∧ s.joinRefused t p rq rest .badRequest) ∧
    ∀ name window reclaim, rq.body = .join name window reclaim →
      ∃ t, exec .join s = .next t ∧
        (name = 0 ∨ window = 0 ∨ 32 < window → s.joinRefused t p rq rest .badRequest) ∧
        (name ≠ 0 → 1 ≤ window → window ≤ 32 →
          (∀ i, s.boundSession p = some i → s.joinRefused t p rq rest
            (if (s.session i).state = .active then .alreadyJoined else .busy)) ∧
          (s.boundSession p = none → reclaim = none → SessionLaw s.sessions s.nextNumber →
            (∀ j, (s.session j).name = name →
              ((s.session j).state = .active → s.joinRefused t p rq rest .nameInUse) ∧
              ((s.session j).state = .closing → s.joinRefused t p rq rest .busy) ∧
              ((s.session j).state = .orphaned →
                t = { s with lastServed := portPos p, sessions := t.sessions, ports := t.ports,
                             purgeQueue := s.purgeQueue ++ [j],
                             purgeSection := if s.purgeQueue = [] then 0 else s.purgeSection } ∧
                (∀ m, t.session m = if m = j
                  then { s.session j with state := .closing, closeKind := some .purge, term := .stopped,
                                          grace := .stopped }
                  else s.session m) ∧
                t.portsAre (s.answering p rest (stepAnswer rq.tag .join .busy .empty)))) ∧
            ((∀ j, (s.session j).state ≠ .free → (s.session j).name ≠ name) →
              (∀ j, (s.session j).state ≠ .free) ∨ 4294967295 < s.nextNumber →
              s.joinRefused t p rq rest .noSessionSlot)) ∧
          (∀ number, s.boundSession p = none → reclaim = some number → SessionLaw s.sessions s.nextNumber →
            (∀ j, (s.session j).state = .closing → (s.session j).name = name → (s.session j).number = number →
              s.joinRefused t p rq rest .busy) ∧
            ((∀ j, (s.session j).state = .orphaned ∨ (s.session j).state = .closing → (s.session j).name = name →
              (s.session j).number ≠ number) → s.joinRefused t p rq rest .reclaimFailed)))

/-! ### ACQUIRE (chapter 2.2) -/

/-- An ACQUIRE that passes Table 2-2 and is grantable now makes a HELD lease in the lowest-numbered FREE slot, and the
answer is OK with handle, mode and token (R4, R7, R8, R10, R14, R16, R17, R31). A free transmitter begins its next frame
at the same event (log entry 8). -/
def Obligations.AcquireGranted : Prop :=
  ∀ (s : State) (p : PortId) (i : SessionId) (rq : Request) (rest : List Request) (a : AcquireReq) (v : VolumeId)
    (n : Nat), s.takesFor p i rq rest → rq.body = .acquire a → s.tab.Sound → s.mayAcquire i a v n →
    s.tab.freeFor (leaseOf i v rq.tag a) → (a.mode = .exclusive → (s.tab.volume v).fence < 4294967295) →
    let token := if a.mode = .exclusive then some ((s.tab.volume v).fence + 1) else none
    ∃ t, exec .acquire s = .next t ∧
      s.finalAnswer t p i rq rest .acquire .ok (.lease { slot := n, gen := (s.tab.slots.get n).gen } a.mode token)
        s.highAlert ∧
      t.tab.body n = .held (leaseOf i v rq.tag a)
        { token := token, holdDeadline := a.hold.map (fun h => s.clock + BitVec.ofNat 32 h), upgrade := none,
          recallMark := none, gateUse := 0 } ∧
      s.tab.madeSlot t.tab n i ∧ (∀ m, m ≠ n → t.tab.slots.get m = s.tab.slots.get m) ∧
      (∀ w m, m ∈ t.tab.indexOf w ↔ m ∈ s.tab.indexOf w ∨ (w = v ∧ m = n)) ∧
      (a.mode = .exclusive → s.tab.fenceDrawn t.tab v) ∧ (a.mode = .shared → t.tab.volumes = s.tab.volumes) ∧
      s.tab.waitsKept t.tab

/-- The refusals of an ACQUIRE, check by check (R28, R29, R32). A free transmitter begins its next frame at the same
event (log entry 8). -/
def Obligations.AcquireRefused : Prop :=
  ∀ (s : State) (p : PortId) (i : SessionId) (rq : Request) (rest : List Request), s.takesFor p i rq rest →
    s.tab.Sound →
    (rq.body = .malformed .acquire → ∃ t, exec .acquire s = .next t ∧ s.turnedDown t p i rq rest .acquire .badRequest) ∧
    ∀ a, rq.body = .acquire a → ∃ t, exec .acquire s = .next t ∧
      (¬ a.formed → s.turnedDown t p i rq rest .acquire .badRequest) ∧
      (a.formed → (∀ v : VolumeId, v.val = a.volume → (s.tab.volume v).state = .offline) →
        s.turnedDown t p i rq rest .acquire .badVolume) ∧
      (∀ v : VolumeId, a.formed → v.val = a.volume → (s.tab.volume v).state ≠ .offline →
        ((s.tab.volume v).size < a.start + a.count → s.turnedDown t p i rq rest .acquire .badRange) ∧
        (a.start + a.count ≤ (s.tab.volume v).size →
          (s.tab.ownOverlap i v a.start a.count → s.turnedDown t p i rq rest .acquire .selfOverlap) ∧
          (¬ s.tab.ownOverlap i v a.start a.count →
            ((s.session i).quota ≤ s.tab.slotCount i → s.turnedDown t p i rq rest .acquire .quota) ∧
            (s.tab.slotCount i < (s.session i).quota → (∀ m, m < 4096 → s.tab.body m ≠ .free) →
              s.turnedDown t p i rq rest .acquire .tableFull)))) ∧
      (∀ v n, s.mayAcquire i a v n → ¬ s.tab.freeFor (leaseOf i v rq.tag a) →
        (a.noWait = true → s.turnedDown t p i rq rest .acquire .conflict) ∧
        (a.noWait = false → (∀ e, e < 512 → lookupKey e s.tab.pool ≠ none) →
          s.turnedDown t p i rq rest .acquire .waitFull))

/-- An ACQUIRE that has to wait is parked: a PENDING slot, a wait entry at the tail of the volume's list, and recall of
the leases that block it (R4, R17, R33, R40, R41, R64). That a recall leaves a pending upgrade of the recalled lease waiting
is the model's choice (log entry 27). A free transmitter begins its next frame at the same event (log entry 8). -/
def Obligations.AcquireParked : Prop :=
  ∀ (s : State) (p : PortId) (i : SessionId) (rq : Request) (rest : List Request) (a : AcquireReq) (v : VolumeId)
    (n e : Nat), s.takesFor p i rq rest → rq.body = .acquire a → s.tab.Sound → s.mayAcquire i a v n →
    ¬ s.tab.freeFor (leaseOf i v rq.tag a) → a.noWait = false → s.tab.lowestFreeEntry = some e →
    ∃ t, exec .acquire s = .next t ∧
      s.parks t p i rq rest .acquire (s.tab.recallNotices (s.tab.conflictSearch (leaseOf i v rq.tag a))) s.highAlert ∧
      t.tab.body n = .pending (leaseOf i v rq.tag a) (a.waitLimit.map (fun w => s.clock + BitVec.ofNat 32 w)) ∧
      s.tab.madeSlot t.tab n i ∧ s.recalledFor t.tab (leaseOf i v rq.tag a) ∧
      (∀ m, (t.tab.slots.get m).gen = (s.tab.slots.get m).gen) ∧
      (∀ m l d, s.tab.body m = .pending l d → t.tab.body m = .pending l d) ∧
      (∀ m, m ≠ n → s.tab.body m = .free → t.tab.body m = .free) ∧
      s.tab.entryAdded t.tab e { kind := .acquire, slot := n, volume := v, arrival := s.tab.arrival + 1 } ∧
      t.tab.index = s.tab.index ∧ t.tab.volumes = s.tab.volumes

/-- A grant that needs a token the counter cannot give is not made: CONFLICT whatever the no-wait flag says, the volume
FROZEN, and FENCE_EXHAUSTED (R39, R129). A free transmitter begins its next frame at the same event (log entry 8). -/
def Obligations.ExhaustedGrantFreezesVolume : Prop :=
  ∀ (s : State) (p : PortId) (i : SessionId) (rq : Request) (rest : List Request) (v : VolumeId), s.takesFor p i rq rest →
    s.tab.Sound → (s.tab.volume v).fence = 4294967295 →
    (∀ a n, rq.body = .acquire a → s.mayAcquire i a v n → s.tab.freeFor (leaseOf i v rq.tag a) → a.mode = .exclusive →
      ∃ t, exec .acquire s = .next t ∧
        s.finalAnswer t p i rq rest .acquire .conflict .empty [(.fenceExhausted, .volume v)] ∧
        s.tab.volumeMoved t.tab v .frozen ∧ t.tab = { s.tab with volumes := t.tab.volumes }) ∧
    (∀ c l ten, rq.body = .convert c → (∀ w, c.waitLimit = some w → 1 ≤ w ∧ w ≤ 60000) → s.holds i c.handle l ten →
      l.volume = v → l.mode = .shared → c.mode = .exclusive → ten.upgrade = none → s.tab.upgradeConflict l = false →
      (s.tab.volume v).state = .online → s.tab.unblocked { l with mode := .exclusive } →
      ∃ t, exec .convert s = .next t ∧
        s.finalAnswer t p i rq rest .convert .conflict .empty [(.fenceExhausted, .volume v)] ∧
        s.tab.volumeMoved t.tab v .frozen ∧ t.tab = { s.tab with volumes := t.tab.volumes })

/-! ### CONVERT (chapter 2.3) -/

/-- A downgrade: mode SHARED, no token, hold, mark and gate use kept, answer OK (R35). A RELEASE retires the lease: a
pending upgrade of it ends first with LEASE_GONE, it leaves the index, its slot becomes FREE with the generation advanced,
and the answer is OK (R5, R55, R58, R59, R60). After either comes the wake pass on the volume, with all it grants,
marks and hands over (R39, R45 to R49). That a recall leaves a pending upgrade of the recalled lease waiting is the model's
choice (log entry 27). A free transmitter begins its next frame at the same event (log entry 8). -/
def Obligations.DowngradeAndReleaseWake : Prop :=
  (∀ (s : State) (p : PortId) (i : SessionId) (rq : Request) (rest : List Request) (c : ConvertReq) (l : Lease)
      (ten : Tenure), s.takesFor p i rq rest → rq.body = .convert c → s.tab.Sound →
      (∀ w, c.waitLimit = some w → 1 ≤ w ∧ w ≤ 60000) → s.holds i c.handle l ten → l.mode = .exclusive →
      c.mode = .shared →
      ∃ t u, exec .convert s = .next t ∧
        s.answersFirst t p i rq rest .convert .ok (.lease c.handle .shared none) [] [] u (fun w => w = l.volume) ∧
        s.tab.slotOnly u c.handle.slot (.held { l with mode := .shared } { ten with token := none }) ∧
        u = { s.tab with slots := u.slots }) ∧
  ∀ (s : State) (p : PortId) (i : SessionId) (rq : Request) (rest : List Request), s.takesFor p i rq rest →
    (rq.body = .malformed .release → ∃ t, exec .release s = .next t ∧ s.turnedDown t p i rq rest .release .badRequest) ∧
    ∀ h l ten, rq.body = .release h → s.tab.Sound → s.holds i h l ten →
      ∃ t u, exec .release s = .next t ∧
        s.answersFirst t p i rq rest .release .ok (.handle h)
          (ten.upgrade.toList.map (fun x =>
            (i, { tag := x.tag, kind := .convert, status := .cancelled, result := .waitEnd .leaseGone })))
          (ten.upgrade.toList.map (fun x => (i, .waitEnded x.tag .leaseGone))) u (fun w => w = l.volume) ∧
        s.tab.retired u (fun m => m = h.slot) ∧ s.tab.freedOnly u h.slot i ∧
        (∀ w m, m ∈ u.indexOf w ↔ m ∈ s.tab.indexOf w ∧ m ≠ h.slot) ∧
        (∀ e we, lookupKey e u.pool = some we ↔ lookupKey e s.tab.pool = some we ∧ we.slot ≠ h.slot) ∧
        u.volumes = s.tab.volumes

/-- An upgrade that is grantable now takes effect at once, with the next token; older waiters do not hold it back (R37).
A free transmitter begins its next frame at the same event (log entry 8). -/
def Obligations.UpgradeMade : Prop :=
  ∀ (s : State) (p : PortId) (i : SessionId) (rq : Request) (rest : List Request) (c : ConvertReq) (l : Lease)
    (ten : Tenure), s.takesFor p i rq rest → rq.body = .convert c → s.tab.Sound →
    (∀ w, c.waitLimit = some w → 1 ≤ w ∧ w ≤ 60000) → s.holds i c.handle l ten → l.mode = .shared →
    c.mode = .exclusive → ten.upgrade = none → s.tab.upgradeConflict l = false →
    (s.tab.volume l.volume).state = .online → s.tab.unblocked { l with mode := .exclusive } →
    (s.tab.volume l.volume).fence < 4294967295 →
    let token := (s.tab.volume l.volume).fence + 1
    ∃ t, exec .convert s = .next t ∧
      s.finalAnswer t p i rq rest .convert .ok (.lease c.handle .exclusive (some token)) [] ∧
      s.tab.slotOnly t.tab c.handle.slot (.held { l with mode := .exclusive } { ten with token := some token }) ∧
      s.tab.fenceDrawn t.tab l.volume ∧ t.tab = { s.tab with slots := t.tab.slots, volumes := t.tab.volumes }

/-- An upgrade that has to wait is parked: a pending upgrade on the lease, a wait entry and recall (R9, R38, R40, R41,
R64). That a recall leaves a pending upgrade of the recalled lease waiting is the model's choice (log entry 27). A free
transmitter begins its next frame at the same event (log entry 8). -/
def Obligations.UpgradeParked : Prop :=
  ∀ (s : State) (p : PortId) (i : SessionId) (rq : Request) (rest : List Request) (c : ConvertReq) (l : Lease)
    (ten : Tenure) (e : Nat), s.takesFor p i rq rest → rq.body = .convert c → s.tab.Sound →
    (∀ w, c.waitLimit = some w → 1 ≤ w ∧ w ≤ 60000) → s.holds i c.handle l ten → l.mode = .shared →
    c.mode = .exclusive → ten.upgrade = none → s.tab.upgradeConflict l = false →
    (s.tab.volume l.volume).state ≠ .online ∨ ¬ s.tab.unblocked { l with mode := .exclusive } →
    c.noWait = false → s.tab.lowestFreeEntry = some e →
    let upgrade := { tag := rq.tag, waitDeadline := c.waitLimit.map (fun w => s.clock + BitVec.ofNat 32 w) }
    ∃ t, exec .convert s = .next t ∧
      s.parks t p i rq rest .convert
        (s.tab.recallNotices (s.tab.conflictSearch { l with mode := .exclusive })) [] ∧
      t.tab.body c.handle.slot = .held l { ten with upgrade := some upgrade } ∧
      (∀ m, m ≠ c.handle.slot → ∀ b bt, s.tab.body m = .held b bt → t.tab.body m = .held b
        (if b.blocks { l with mode := .exclusive } = true ∧ bt.recallMark = none
          then { bt with recallMark := some s.markNow } else bt)) ∧
      (∀ m, (t.tab.slots.get m).gen = (s.tab.slots.get m).gen) ∧
      (∀ m b d, s.tab.body m = .pending b d → t.tab.body m = .pending b d) ∧
      (∀ m, s.tab.body m = .free → t.tab.body m = .free) ∧
      s.tab.entryAdded t.tab e
        { kind := .upgrade, slot := c.handle.slot, volume := l.volume, arrival := s.tab.arrival + 1 } ∧
      t.tab = { s.tab with slots := t.tab.slots, pool := t.tab.pool, waitLists := t.tab.waitLists,
                           arrival := t.tab.arrival }

/-- The refusals of a CONVERT after its handle's check (R34, R36, R37). A free transmitter begins its next frame at the
same event (log entry 8). -/
def Obligations.ConvertRefused : Prop :=
  ∀ (s : State) (p : PortId) (i : SessionId) (rq : Request) (rest : List Request), s.takesFor p i rq rest →
    s.tab.Sound →
    (rq.body = .malformed .convert → ∃ t, exec .convert s = .next t ∧ s.turnedDown t p i rq rest .convert .badRequest) ∧
    ∀ c, rq.body = .convert c → ∃ t, exec .convert s = .next t ∧
      (¬ (∀ w, c.waitLimit = some w → 1 ≤ w ∧ w ≤ 60000) → s.turnedDown t p i rq rest .convert .badRequest) ∧
      ((∀ w, c.waitLimit = some w → 1 ≤ w ∧ w ≤ 60000) → ∀ l ten, s.holds i c.handle l ten →
        (l.mode = c.mode → s.turnedDown t p i rq rest .convert .sameMode) ∧
        (l.mode = .shared → c.mode = .exclusive →
          (ten.upgrade ≠ none → s.turnedDown t p i rq rest .convert .busy) ∧
          (ten.upgrade = none → s.tab.upgradeConflict l = true → s.turnedDown t p i rq rest .convert .upgradeConflict) ∧
          (ten.upgrade = none → s.tab.upgradeConflict l = false →
            (s.tab.volume l.volume).state ≠ .online ∨ ¬ s.tab.unblocked { l with mode := .exclusive } →
            (c.noWait = true → s.turnedDown t p i rq rest .convert .conflict) ∧
            (c.noWait = false → (∀ e, e < 512 → lookupKey e s.tab.pool ≠ none) →
              s.turnedDown t p i rq rest .convert .waitFull))))

/-! ### Handles, RENEW, RELEASE (chapters 1.1.3, 3) -/

/-- The check of a handle by CONVERT, RENEW and RELEASE: the first of its three steps that fails gives the answer (R6).
A free transmitter begins its next frame at the same event (log entry 8). -/
def Obligations.HandleChecked : Prop :=
  ∀ (s : State) (p : PortId) (i : SessionId) (rq : Request) (rest : List Request) (h : Handle) (st : Status),
    s.takesFor p i rq rest → s.handleFault i h st →
    (∀ c, rq.body = .convert c → c.handle = h → (∀ w, c.waitLimit = some w → 1 ≤ w ∧ w ≤ 60000) →
      ∃ t, exec .convert s = .next t ∧ s.turnedDown t p i rq rest .convert st) ∧
    (∀ hold, rq.body = .renew h hold → (∀ x, hold = some x → 10 ≤ x ∧ x ≤ 3600000) →
      ∃ t, exec .renew s = .next t ∧ s.turnedDown t p i rq rest .renew st) ∧
    (rq.body = .release h → ∃ t, exec .release s = .next t ∧ s.turnedDown t p i rq rest .release st)

/-- A RENEW of a timed lease sets the hold deadline to now plus the length it gives, or the stored one, and stores a
length it gives; an untimed lease is answered NOT_TIMED (R62). A free transmitter begins its next frame at the same
event (log entry 8). -/
def Obligations.RenewSetsDeadline : Prop :=
  ∀ (s : State) (p : PortId) (i : SessionId) (rq : Request) (rest : List Request), s.takesFor p i rq rest →
    (rq.body = .malformed .renew → ∃ t, exec .renew s = .next t ∧ s.turnedDown t p i rq rest .renew .badRequest) ∧
    ∀ h hold, rq.body = .renew h hold → ∃ t, exec .renew s = .next t ∧
      (¬ (∀ x, hold = some x → 10 ≤ x ∧ x ≤ 3600000) → s.turnedDown t p i rq rest .renew .badRequest) ∧
      ((∀ x, hold = some x → 10 ≤ x ∧ x ≤ 3600000) → ∀ st, s.handleFault i h st →
        s.turnedDown t p i rq rest .renew st) ∧
      ((∀ x, hold = some x → 10 ≤ x ∧ x ≤ 3600000) → ∀ l ten, s.holds i h l ten →
        (l.holdLength = none → s.turnedDown t p i rq rest .renew .notTimed) ∧
        ∀ stored, l.holdLength = some stored →
          let length := hold.getD stored
          let deadline := s.clock + BitVec.ofNat 32 length
          s.finalAnswer t p i rq rest .renew .ok (.renewed h length deadline) [] ∧
          s.tab.slotOnly t.tab h.slot
            (.held { l with holdLength := some length } { ten with holdDeadline := some deadline }) ∧
          t.tab = { s.tab with slots := t.tab.slots })

/-! ### CANCEL, QUERY, LIST (chapters 2.9, 3.6, 3.7) -/

/-- A CANCEL of a parked request ends its wait: the entry leaves, a PENDING slot becomes FREE or the pending upgrade is
removed, the CANCEL's own answer comes before the withdrawn request's, and the wake pass on the volume follows with all it
grants, marks and hands over (R41, R45 to R51). That a recall leaves a pending upgrade of the recalled lease waiting is the
model's choice (log entry 27). A free transmitter begins its next frame at the same event (log entry 8). -/
def Obligations.CancelEndsWait : Prop :=
  ∀ (s : State) (p : PortId) (i : SessionId) (rq : Request) (rest : List Request) (tag : Tag) (e : Nat) (we : WaitEntry),
    s.takesFor p i rq rest → rq.body = .cancel tag → s.tab.Sound → (s.session i).tagMark tag = some .parked →
    s.tab.findWait i tag = some e → lookupKey e s.tab.pool = some we →
    ∃ t u, exec .cancel s = .next t ∧
      s.answersFirst t p i rq rest .cancel .cancelled (.waitEnd .cancelled)
        [(i, { tag := tag, kind := if we.kind = .acquire then .acquire else .convert, status := .cancelled,
               result := .waitEnd .cancelled })]
        [(i, .waitEnded tag .cancelled)] u (fun w => w = we.volume) ∧
      s.tab.waitsEnded u (fun d => d = e) ∧
      (∀ d, lookupKey d u.pool = if d = e then none else lookupKey d s.tab.pool) ∧
      (∀ d w, d ∈ u.waitList w ↔ d ∈ s.tab.waitList w ∧ d ≠ e) ∧
      (we.kind = .acquire → s.tab.freedOnly u we.slot i) ∧
      (we.kind = .upgrade → ∃ l ten, s.tab.body we.slot = .held l ten ∧
        s.tab.slotOnly u we.slot (.held l { ten with upgrade := none })) ∧
      u.index = s.tab.index ∧ u.volumes = s.tab.volumes

/-- The other cases of a CANCEL: TOO_LATE for a tag whose cached answer is the OK of an ACQUIRE or CONVERT, NOT_PARKED
otherwise (R51). A free transmitter begins its next frame at the same event (log entry 8). -/
def Obligations.CancelTooLate : Prop :=
  ∀ (s : State) (p : PortId) (i : SessionId) (rq : Request) (rest : List Request), s.takesFor p i rq rest →
    (rq.body = .malformed .cancel → ∃ t, exec .cancel s = .next t ∧ s.turnedDown t p i rq rest .cancel .badRequest) ∧
    ∀ tag, rq.body = .cancel tag → (s.session i).tagMark tag ≠ some .parked →
      ∃ t, exec .cancel s = .next t ∧
        ((∃ x, (s.session i).cached tag = some x ∧ x.status = .ok ∧ (x.kind = .acquire ∨ x.kind = .convert)) →
          s.turnedDown t p i rq rest .cancel .tooLate) ∧
        ((∀ x, (s.session i).cached tag = some x → x.status ≠ .ok ∨ (x.kind ≠ .acquire ∧ x.kind ≠ .convert)) →
          s.turnedDown t p i rq rest .cancel .notParked)

/-- A QUERY reports the first 8 HELD leases over its extent in index order, says whether there are more, and changes
nothing but its answer (R15, R71, R72). A free transmitter begins its next frame at the same event (log entry 8). -/
def Obligations.QueryReports : Prop :=
  ∀ (s : State) (p : PortId) (i : SessionId) (rq : Request) (rest : List Request), s.takesFor p i rq rest →
    (rq.body = .malformed .query → ∃ t, exec .query s = .next t ∧ s.turnedDown t p i rq rest .query .badRequest) ∧
    ∀ volume start count, rq.body = .query volume start count → ∃ t, exec .query s = .next t ∧ t.tab = s.tab ∧
      (count = 0 → s.turnedDown t p i rq rest .query .badRequest) ∧
      (0 < count → (∀ v : VolumeId, v.val = volume → (s.tab.volume v).state = .offline) →
        s.turnedDown t p i rq rest .query .badVolume) ∧
      (∀ v : VolumeId, 0 < count → v.val = volume → (s.tab.volume v).state ≠ .offline →
        ((s.tab.volume v).size < start + count → s.turnedDown t p i rq rest .query .badRange) ∧
        (start + count ≤ (s.tab.volume v).size → s.tab.Sound → ∃ entries more,
          s.finalAnswer t p i rq rest .query .ok (.leases entries more) [] ∧
          let found := (s.tab.indexOf v).filter (fun n => match s.tab.body n with
            | .held l _ => overlaps l.start l.count start count
            | .pending _ _ => false
            | .free => false)
          more = decide (8 < found.length) ∧ entries.length = min 8 found.length ∧
          ∀ k n l ten, k < 8 → found[k]? = some n → s.tab.body n = .held l ten → entries[k]? =
            some { holder := (s.session l.owner).name, mode := l.mode, start := l.start, count := l.count }))

/-- A LIST reports the session's first 8 non-FREE slots from its cursor on, in slot order, with the next cursor, and
changes nothing but its answer (R73). A free transmitter begins its next frame at the same event (log entry 8). -/
def Obligations.ListReports : Prop :=
  ∀ (s : State) (p : PortId) (i : SessionId) (rq : Request) (rest : List Request), s.takesFor p i rq rest →
    (rq.body = .malformed .list → ∃ t, exec .list s = .next t ∧ s.turnedDown t p i rq rest .list .badRequest) ∧
    ∀ cursor, rq.body = .list cursor → ∃ t, exec .list s = .next t ∧ t.tab = s.tab ∧
      (4095 < cursor → s.turnedDown t p i rq rest .list .badRequest) ∧
      (cursor ≤ 4095 → s.tab.Sound → ∃ found : List Nat, found.Pairwise (· < ·) ∧
        (∀ n, n ∈ found ↔ cursor ≤ n ∧ ∃ l, (s.tab.body n).lease? = some l ∧ l.owner = i) ∧
        s.finalAnswer t p i rq rest .list .ok (.slots ((found.take 8).map (fun n => (n, s.tab.slots.get n)))
          (if 8 < found.length then (found[7]?).map (fun n => n + 1) else none)) [])

/-- A session's request from an unbound port is answered NO_SESSION, which nothing caches, and one from a CLOSING
session BUSY, which its cache takes; neither has a further effect (R26, R57, R79, R96). That a DEPART of a CLOSING session
that is not well formed is answered BUSY and not BAD_REQUEST is log entry 13. A free transmitter begins its next frame at
the same event (log entry 8). -/
def Obligations.RequestNeedsActiveSession : Prop :=
  ∀ (s : State) (p : PortId) (rq : Request) (rest : List Request) (c : Instr) (k : ReqKind),
    (c, k) ∈ [(Instr.acquire, ReqKind.acquire), (.convert, .convert), (.renew, .renew), (.release, .release),
      (.cancel, .cancel), (.query, .query), (.list, .list), (.depart, .depart)] →
    s.takesRequest p rq rest → rq.body.kind? = some k →
    ∃ t, exec c s = .next t ∧
      (s.boundSession p = none → t = { s with lastServed := portPos p, ports := t.ports } ∧
        t.portsAre (s.answering p rest (stepAnswer rq.tag k .noSession .empty))) ∧
      ∀ i, s.boundSession p = some i → (s.session i).state ≠ .active → s.turnedDown t p i rq rest k .busy

/-! ### DEPART (chapter 4.7) -/

/-- A DEPART of an ACTIVE session ends its waits, makes it CLOSING with the port bound and its tag parked, and sends no
answer (R53, R93, R95, R97). CLOSE-SESSION makes an ACTIVE or ORPHANED session CLOSING with close kind PURGE; an ACTIVE one
is unbound, its inbox discarded, and its waits end (R53, R93, R94, R97). After either come the wake passes on the volumes of
the waits, with all they grant, mark and hand over (R39, R45 to R49). That a recall leaves a pending upgrade of the recalled
lease waiting is the model's choice (log entry 27). A free transmitter begins its next frame at the same event (log entry 8).
-/
def Obligations.DepartAndCloseSessionClose : Prop :=
  (∀ (s : State) (p : PortId) (i : SessionId) (rq : Request) (rest : List Request), s.takesFor p i rq rest →
      (rq.body = .malformed .depart → ∃ t, exec .depart s = .next t ∧ s.turnedDown t p i rq rest .depart .badRequest) ∧
      (rq.body = .depart → s.tab.Sound → ∃ t u, exec .depart s = .next t ∧
        State.completes
          { s.queued i with
            lastServed := portPos p
            sessions := upd s.sessions i (((s.session i).parkTag rq.tag).closing .depart)
            ports := upd s.ports p { s.port p with inbox := rest } }
          t u (s.tab.endsOn (fun e => s.tab.entryOwner e = some i))
          (s.tab.endAnswers .sessionEnded (s.tab.waitsOf i)) (s.tab.endNotices .sessionEnded (s.tab.waitsOf i)) [] ∧
        s.tab.waitsEnded u (fun e => s.tab.entryOwner e = some i))) ∧
  ∀ (s : State) (c : Command) (i : SessionId), s.takesCommand c → c.code = 0x08 → c.arg1.toNat = i.val → s.tab.Sound →
    SessionLaw s.sessions s.nextNumber →
    (∀ p, (s.session i).state = .active → (s.session i).port = some p → ∃ t u, exec .closeSession s = .next t ∧
      State.completes
        { (s.finished .done).queued i with
          sessions := upd s.sessions i { ((s.session i).without (s.port p).inbox).closing .purge with port := none }
          ports := upd s.ports p { s.port p with inbox := [] } }
        t u (s.tab.endsOn (fun e => s.tab.entryOwner e = some i))
        (s.tab.endAnswers .sessionEnded (s.tab.waitsOf i)) (s.tab.endNotices .sessionEnded (s.tab.waitsOf i)) [] ∧
      s.tab.waitsEnded u (fun e => s.tab.entryOwner e = some i)) ∧
    ((s.session i).state = .orphaned → (s.session i).port = none → ∃ t u, exec .closeSession s = .next t ∧
      State.completes
        { (s.finished .done).queued i with sessions := upd s.sessions i ((s.session i).closing .purge) }
        t u (s.tab.endsOn (fun e => s.tab.entryOwner e = some i))
        (s.tab.endAnswers .sessionEnded (s.tab.waitsOf i)) (s.tab.endNotices .sessionEnded (s.tab.waitsOf i)) [] ∧
      s.tab.waitsEnded u (fun e => s.tab.entryOwner e = some i))

/-! ### The clock, the sweep and the session timers (chapters 4.4 to 4.6, 5) -/

/-- The lease clock advances and the sweep timer expires: a visit claim, or a slip while one is pending (R102, R105). Every
session timer is judged at the advance: a RUNNING one whose deadline has passed becomes EXPIRED and raises its claim, so that
none stays RUNNING past its deadline (R86, R87, R92, R103, R114). That the sweep timer's row is the clock's advance, and that
the claims of one advance are raised by ascending session index, is the model's choice (log entry 5); so is that a
millisecond without a symbol counts at most 1 before the silence timeout, and that the transmitters' note of a frame sent
clears here (log entries 6 and 7). -/
def Obligations.ClockAndSweepTimer : Prop :=
  ∀ s : State, s.resetN = true → ∃ t, exec .sweepTimerExpiry s = .next t ∧
    t = { s with clock := s.clock + 1, visitPending := true, slips := t.slips, ports := t.ports, gate := t.gate,
                 sessions := t.sessions, timersQueue := t.timersQueue } ∧
    (∀ i, t.session i = { s.session i with
      term := (s.session i).term.judged (s.clock + 1), grace := (s.session i).grace.judged (s.clock + 1) }) ∧
    claimsRaised s.timersQueue t.timersQueue ((List.finRange 12).flatMap (fun i =>
      (s.session i).term.raises (s.clock + 1) .loss i (s.session i).number ++
        (s.session i).grace.raises (s.clock + 1) .grace i (s.session i).number)) ∧
    (∀ i d, (t.session i).term = .running d ∨ (t.session i).grace = .running d → 2147483648 ≤ (t.clock - d).toNat) ∧
    t.slips = (if s.visitPending then (if s.slips < 65535 then s.slips + 1 else 65535) else s.slips) ∧
    (∀ p, t.port p = { s.port p with
      sentThisMs := false
      silence := if (s.port p).link = .up ∧ (s.port p).silence = 0 then 1 else (s.port p).silence }) ∧
    t.gate = { s.gate with
      sentThisMs := false
      silence := if s.gate.link ≠ .down ∧ s.gate.silence = 0 then 1 else s.gate.silence }

/-- A RUNNING term or grace timer that is judged by itself: one whose deadline has passed becomes EXPIRED and raises its
claim; one whose deadline has not passed is left alone (R86, R87, R92, R103, R114). That the judgment of one timer is a
command beside the clock's advance is the table's, and the model's reading of it log entry 5. -/
def Obligations.SessionTimersExpire : Prop :=
  ∀ (s : State) (i : SessionId) (d : Time), s.resetN = true →
    ((s.session i).term = .running d → ∃ t, exec (.termTimerExpiry i) s = .next t ∧
      ((s.clock - d).toNat < 2147483648 →
        t = { s with sessions := upd s.sessions i { s.session i with term := .expired d }, timersQueue := t.timersQueue } ∧
        claimRaised s.timersQueue t.timersQueue
          { kind := .loss, session := i, number := (s.session i).number, ports := [] }) ∧
      (2147483648 ≤ (s.clock - d).toNat → t = s)) ∧
    ((s.session i).grace = .running d → ∃ t, exec (.graceTimerExpiry i) s = .next t ∧
      ((s.clock - d).toNat < 2147483648 →
        t = { s with sessions := upd s.sessions i { s.session i with grace := .expired d }, timersQueue := t.timersQueue } ∧
        claimRaised s.timersQueue t.timersQueue
          { kind := .grace, session := i, number := (s.session i).number, ports := [] }) ∧
      (2147483648 ≤ (s.clock - d).toNat → t = s))

/-- A visit examines the non-FREE slots of the section under the pointer but those of FROZEN volumes, ends the waits
whose deadline has passed, then retires the leases whose hold deadline has, then judges the recall marks slot by slot, each
against the wait lists as the work before it left them, then runs the passes that are due with all they grant, mark and hand
over, and the pointer advances (R45 to R49, R67, R106 to R111). That a recall leaves a pending upgrade of the recalled lease
waiting is the model's choice (log entry 27). A free transmitter begins its next frame at the same event (log entry 8). -/
def Obligations.SweepVisitActs : Prop :=
  ∀ s : State, s.serves 6 → s.tab.Sound → ∃ (t : State) (ns rs : List Nat) (u₁ u₂ u₃ : Tables),
    exec .sweepVisit s = .next t ∧ ns.Pairwise (· < ·) ∧
    (∀ n, n ∈ ns ↔ ∃ l, (s.tab.body n).lease? = some l ∧ n / 256 = s.sweepPtr.val ∧
      (s.tab.volume l.volume).state ≠ .frozen) ∧
    s.tab.waitsEnded u₁ (fun e => e ∈ s.tab.lateWaits s.clock ns) ∧
    u₁.retired u₂ (fun m => m ∈ u₁.lateHolds s.clock ns) ∧
    u₂.judges s.clock ns u₃ rs ∧ u₂.judged u₃ s.clock (fun m => m ∈ ns) ∧
    rs.Pairwise (· < ·) ∧ (∀ m, m ∈ rs ↔ m ∈ ns ∧ (∃ l ten, u₂.body m = .held l ten) ∧ u₃.body m = .free) ∧
    (∀ e we, lookupKey e u₃.pool = some we ↔ lookupKey e u₂.pool = some we ∧ (we.kind = .upgrade → we.slot ∉ rs)) ∧
    State.completes { s with lastServed := 6, visitPending := false, sweepPtr := s.sweepPtr + 1 } t u₃
      (fun v => s.tab.endsOn (fun e => e ∈ s.tab.lateWaits s.clock ns) v ∨
        u₁.retiresOn (fun m => m ∈ u₁.lateHolds s.clock ns) v ∨ u₂.retiresOn (fun m => m ∈ rs) v)
      (s.tab.endAnswers .timedOut (s.tab.lateWaits s.clock ns) ++ u₁.goneAnswers (u₁.lateHolds s.clock ns) ++
        u₂.goneAnswers rs)
      (s.tab.endNotices .timedOut (s.tab.lateWaits s.clock ns) ++ u₁.goneNotices .expiry (u₁.lateHolds s.clock ns) ++
        u₂.goneNotices (.revocation .recallLimit) rs)
      (u₁.goneAlerts .expiry (u₁.lateHolds s.clock ns) ++ u₂.goneAlerts (.revocation .recallLimit) rs)

/-- A loss claim orphans its session when the session is ACTIVE, holds the claim's number, and its term deadline has
passed; a link-lost claim orphans the ACTIVE session that still holds its number and is bound to a port whose loss raised it,
whatever the term deadline, and unbinds a departing one; otherwise they are voided. The wake passes on the volumes of the
session's waits follow (R45 to R49, R53, R88, R89, R90). That the claim keeps the ports is the model's reading (log entry
12), and that a recall leaves a pending upgrade of the recalled lease waiting its choice (log entry 27). That every request in
the inbox of the port that a departing session loses stays there, with its tag queued in the record, is the model's choice
(log entry 29). A free transmitter begins its next frame at the same event (log entry 8). -/
def Obligations.LossAndLinkLostOrphan : Prop :=
  (∀ (s : State) (c : TimerClaim) (rest : List TimerClaim), s.takesTimer c rest → c.kind = .loss →
      ∃ t, exec .lossClaim s = .next t ∧
        (∀ p, (s.session c.session).state = .active → (s.session c.session).number = c.number →
          (∃ d, ((s.session c.session).term = .running d ∨ (s.session c.session).term = .expired d) ∧
            (s.clock - d).toNat < 2147483648) →
          s.tab.Sound → SessionLaw s.sessions s.nextNumber → s.configLaw → (s.session c.session).port = some p →
          State.orphaned { s with lastServed := 7, timersQueue := rest } t c.session p) ∧
        ((s.session c.session).state ≠ .active ∨ (s.session c.session).number ≠ c.number ∨
          (∀ d, (s.session c.session).term = .running d ∨ (s.session c.session).term = .expired d →
            2147483648 ≤ (s.clock - d).toNat) →
          t = { s with lastServed := 7, timersQueue := rest })) ∧
  ∀ (s : State) (c : TimerClaim) (rest : List TimerClaim), s.takesTimer c rest → c.kind = .linkLost →
    ∃ t, exec .linkLostClaim s = .next t ∧
      ((s.session c.session).number = c.number → ∀ p ∈ c.ports, (s.session c.session).port = some p →
        ((s.session c.session).state = .active → s.tab.Sound → SessionLaw s.sessions s.nextNumber → s.configLaw →
          State.orphaned { s with lastServed := 7, timersQueue := rest } t c.session p) ∧
        ((s.session c.session).state = .closing → (s.session c.session).closeKind = some .depart →
          t = { s with lastServed := 7, timersQueue := rest,
                       sessions := upd s.sessions c.session { s.session c.session with port := none } })) ∧
      ((s.session c.session).number ≠ c.number ∨ (s.session c.session).port = none ∨
        (∀ p ∈ c.ports, (s.session c.session).port ≠ some p) ∨ (s.session c.session).state = .free ∨
        (s.session c.session).state = .orphaned →
        t = { s with lastServed := 7, timersQueue := rest })

/-- A grace claim makes its session CLOSING with close kind PURGE when the session is ORPHANED, holds the number, and
its grace deadline has passed; otherwise it is voided (R92, R93, R97). -/
def Obligations.GraceClaimCloses : Prop :=
  ∀ (s : State) (c : TimerClaim) (rest : List TimerClaim), s.takesTimer c rest → c.kind = .grace →
    ∃ t, exec .graceClaim s = .next t ∧
      ((s.session c.session).state = .orphaned → (s.session c.session).number = c.number →
        (∃ d, ((s.session c.session).grace = .running d ∨ (s.session c.session).grace = .expired d) ∧
          (s.clock - d).toNat < 2147483648) →
        t = { s.queued c.session with
              lastServed := 7, timersQueue := rest,
              sessions := upd s.sessions c.session ((s.session c.session).closing .purge) }) ∧
      ((s.session c.session).state ≠ .orphaned ∨ (s.session c.session).number ≠ c.number ∨
        (∀ d, (s.session c.session).grace = .running d ∨ (s.session c.session).grace = .expired d →
          2147483648 ≤ (s.clock - d).toNat) →
        t = { s with lastServed := 7, timersQueue := rest })

/-! ### The purge job (chapter 4.8) -/

/-- A purge step retires the job's session's HELD slots of the next section, in slot order, without notice or alert, and
the section advances; the step of section 15 ends the session as well: a DEPART is answered OK on its port, a PURGE raises
SESSION_CLOSED, the record becomes FREE, and the next session becomes the job's subject. The wake passes on the volumes of
the leases follow (R45 to R49, R97, R98, R99). The order of the session's end and the due passes is log entry 22, that the
section is 0 after the last purge even where no session is left to purge log entry 4, and that a recall leaves a pending
upgrade of the recalled lease waiting log entry 27, all three the model's. A free transmitter begins its next frame at the
same event (log entry 8). -/
def Obligations.PurgeRetiresAndEnds : Prop :=
  (∀ (s : State) (i : SessionId) (more : List SessionId), s.serves 8 → s.purgeQueue = i :: more → s.purgeSection < 15 →
      s.tab.Sound → ∃ (t : State) (ns : List Nat) (u : Tables), exec .purgeSection s = .next t ∧ ns.Pairwise (· < ·) ∧
        (∀ n, n ∈ ns ↔ ∃ l, (s.tab.body n).lease? = some l ∧ l.owner = i ∧ n / 256 = s.purgeSection) ∧
        s.tab.retired u (fun m => m ∈ ns) ∧
        State.completes { s with lastServed := 8, purgeSection := s.purgeSection + 1 } t u
          (s.tab.retiresOn (fun m => m ∈ ns)) (s.tab.goneAnswers ns) (s.tab.goneNotices .purge ns) []) ∧
  ∀ (s : State) (i : SessionId) (more : List SessionId), s.serves 8 → s.purgeQueue = i :: more → s.purgeSection = 15 →
    s.tab.Sound → SessionLaw s.sessions s.nextNumber →
    ∃ (t : State) (ns : List Nat) (u : Tables) (x : PortId → Port), exec .purgeSection s = .next t ∧ ns.Pairwise (· < ·) ∧
      (∀ n, n ∈ ns ↔ ∃ l, (s.tab.body n).lease? = some l ∧ l.owner = i ∧ n / 256 = 15) ∧
      s.tab.retired u (fun m => m ∈ ns) ∧
      State.completes
        { s with
          lastServed := 8, purgeQueue := more, purgeSection := 0
          sessions := upd s.sessions i Session.freed
          ports := Vector.ofFn x }
        t u (s.tab.retiresOn (fun m => m ∈ ns)) (s.tab.goneAnswers ns) (s.tab.goneNotices .purge ns)
        (if (s.session i).closeKind = some .purge then [(.sessionClosed, .session i)] else []) ∧
      (∀ p tag, (s.session i).closeKind = some .depart → (s.session i).port = some p →
        (s.session i).outstanding.filter (fun y => y.2 = .parked) = [(tag, .parked)] →
        ∀ q, x q = if q = p
          then { s.port p with
                 inbox := []
                 answers := (s.port p).answers ++ if (s.port p).link = .up
                   then [{ tag := tag, code := 0x0B, status := .ok, replay := false, result := .empty }] else [] }
          else s.port q) ∧
      ((s.session i).closeKind ≠ some .depart ∨ (s.session i).port = none → ∀ q, x q = s.port q)

/-! ### Volume commands (chapter 6.3) -/

/-- DEFINE, ONLINE, FREEZE and OFFLINE carried out: the volume takes its new size or state, and nothing else changes
(R118 to R121, R124). A free transmitter begins its next frame at the same event (log entry 8). -/
def Obligations.VolumeCommandsDone : Prop :=
  ∀ (s : State) (c : Command) (v : VolumeId), s.takesCommand c → c.arg1.toNat = v.val →
    (c.code = 0x01 → (s.tab.volume v).state = .offline → c.arg3.toNat ≤ 1099511627776 →
      ∃ t, exec .define s = .next t ∧ (s.finished .done).completesWith t [] [] [] ∧
        t.tab = { s.tab with volumes := upd s.tab.volumes v { s.tab.volume v with size := c.arg3.toNat } }) ∧
    (c.code = 0x02 → (s.tab.volume v).state = .offline → (s.tab.volume v).size ≠ 0 →
      (s.tab.volume v).fence < 4294967295 →
      ∃ t, exec .online s = .next t ∧ (s.finished .done).completesWith t [] [] [] ∧
        t.tab = { s.tab with volumes := upd s.tab.volumes v { s.tab.volume v with state := .online } }) ∧
    (c.code = 0x03 → (s.tab.volume v).state = .online →
      ∃ t, exec .freeze s = .next t ∧ (s.finished .done).completesWith t [] [] [] ∧
        t.tab = { s.tab with volumes := upd s.tab.volumes v { s.tab.volume v with state := .frozen } }) ∧
    (c.code = 0x05 → s.tab.Sound → (∀ n l, (s.tab.body n).lease? = some l → l.volume ≠ v) →
      ∃ t, exec .offline s = .next t ∧ (s.finished .done).completesWith t [] [] [] ∧
        t.tab = { s.tab with volumes := upd s.tab.volumes v { s.tab.volume v with state := .offline } })

/-- OFFLINE-FORCE: the volume's waits end in list order, its leases are revoked in slot order, and it goes OFFLINE with
no pass run; an OFFLINE volume stays as it is (R54, R60, R125). A free transmitter begins its next frame at the same
event (log entry 8). -/
def Obligations.OfflineForceClears : Prop :=
  ∀ (s : State) (c : Command) (v : VolumeId), s.takesCommand c → c.code = 0x06 → c.arg1.toNat = v.val → s.tab.Sound →
    ∃ t, exec .offlineForce s = .next t ∧
      ((s.tab.volume v).state = .offline → (s.finished .done).completesWith t [] [] [] ∧ t.tab = s.tab) ∧
      ((s.tab.volume v).state ≠ .offline → ∃ (ns : List Nat) (u₁ u₂ : Tables), ns.Pairwise (· < ·) ∧
        (∀ n, n ∈ ns ↔ ∃ l ten, s.tab.body n = .held l ten ∧ l.volume = v) ∧
        s.tab.waitsEnded u₁ (fun e => e ∈ s.tab.waitList v) ∧ u₁.retired u₂ (fun m => m ∈ ns) ∧
        t.tab = { u₂ with volumes := upd s.tab.volumes v { s.tab.volume v with state := .offline } } ∧
        (∀ n l, (t.tab.body n).lease? = some l → l.volume ≠ v) ∧
        (s.finished .done).completesWith t (s.tab.endAnswers .volumeOffline (s.tab.waitList v))
          (s.tab.endNotices .volumeOffline (s.tab.waitList v) ++ u₁.goneNotices (.revocation .volumeOffline) ns)
          (u₁.goneAlerts (.revocation .volumeOffline) ns))

/-- The refusals of the commands, each with its reason, checked in order; a refused command changes nothing but the
status (R69, R94, R118 to R121, R123, R124, R151, R175, R176). -/
def Obligations.CommandsRefused : Prop :=
  ∀ (s : State) (c : Command), s.takesCommand c →
    (∀ i code, (i, code) ∈ [(Instr.define, (0x01 : Byte)), (.online, 0x02), (.freeze, 0x03), (.thaw, 0x04),
        (.offline, 0x05), (.offlineForce, 0x06)] → c.code = code → 31 < c.arg1.toNat →
      ∃ t, exec i s = .next t ∧ s.commandRefused t .badArgument) ∧
    (∀ v : VolumeId, c.arg1.toNat = v.val →
      (c.code = 0x01 → ∃ t, exec .define s = .next t ∧
        (1099511627776 < c.arg3.toNat → s.commandRefused t .badArgument) ∧
        (c.arg3.toNat ≤ 1099511627776 → (s.tab.volume v).state ≠ .offline → s.commandRefused t .badState)) ∧
      (c.code = 0x02 → ∃ t, exec .online s = .next t ∧
        ((s.tab.volume v).state ≠ .offline → s.commandRefused t .badState) ∧
        ((s.tab.volume v).state = .offline → (s.tab.volume v).size = 0 → s.commandRefused t .noSize) ∧
        ((s.tab.volume v).state = .offline → (s.tab.volume v).size ≠ 0 → (s.tab.volume v).fence = 4294967295 →
          s.commandRefused t .exhausted)) ∧
      (c.code = 0x03 → ∃ t, exec .freeze s = .next t ∧
        ((s.tab.volume v).state ≠ .online → s.commandRefused t .badState)) ∧
      (c.code = 0x04 → ∃ t, exec .thaw s = .next t ∧
        ((s.tab.volume v).state ≠ .frozen → s.commandRefused t .badState) ∧
        ((s.tab.volume v).state = .frozen → (s.tab.volume v).fence = 4294967295 → s.commandRefused t .exhausted)) ∧
      (c.code = 0x05 → ∃ t, exec .offline s = .next t ∧
        (s.tab.Sound → (∃ n l, (s.tab.body n).lease? = some l ∧ l.volume = v) → s.commandRefused t .slotsPresent))) ∧
    (c.code = 0x07 → ∃ t, exec .revoke s = .next t ∧
      (4095 < c.arg1.toNat → s.commandRefused t .badArgument) ∧
      (c.arg1.toNat ≤ 4095 → (∀ l ten, s.tab.body c.arg1.toNat ≠ .held l ten) → s.commandRefused t .notHeld)) ∧
    (c.code = 0x08 → ∃ t, exec .closeSession s = .next t ∧
      (11 < c.arg1.toNat → s.commandRefused t .badArgument) ∧
      (∀ i : SessionId, c.arg1.toNat = i.val → (s.session i).state = .free ∨ (s.session i).state = .closing →
        s.commandRefused t .badState)) ∧
    (c.code = 0x09 → 5 < c.arg1.toNat → ∃ t, exec .portReset s = .next t ∧ s.commandRefused t .badArgument) ∧
    (c.code = 0 ∨ 0x0B < c.code.toNat → ∃ t, exec .badCommand s = .next t ∧ s.commandRefused t .badCommand)

/-! ### The other commands (chapters 3.5, 4.6, 8.4, 10.4) -/

/-- THAW carried out: the volume is ONLINE and the pass over its whole wait list runs at once, which may freeze it again;
REVOKE retires whatever lease the slot holds, with REVOKED to its owner, the alert, and the wake pass on its volume (R39,
R45 to R49, R60, R69, R123). That a recall leaves a pending upgrade of the recalled lease waiting is the model's choice (log
entry 27). A free transmitter begins its next frame at the same event (log entry 8). -/
def Obligations.ThawAndRevokeWake : Prop :=
  (∀ (s : State) (c : Command) (v : VolumeId), s.takesCommand c → c.code = 0x04 → c.arg1.toNat = v.val → s.tab.Sound →
      (s.tab.volume v).state = .frozen → (s.tab.volume v).fence < 4294967295 →
      ∃ t, exec .thaw s = .next t ∧ (s.finished .done).completes t
        { s.tab with volumes := upd s.tab.volumes v { s.tab.volume v with state := .online } } (fun w => w = v) [] [] []) ∧
  ∀ (s : State) (c : Command) (l : Lease) (ten : Tenure), s.takesCommand c → c.code = 0x07 → c.arg1.toNat ≤ 4095 →
    s.tab.Sound → s.tab.body c.arg1.toNat = .held l ten →
    ∃ t u, exec .revoke s = .next t ∧ s.tab.retired u (fun m => m = c.arg1.toNat) ∧
      (s.finished .done).completes t u (fun w => w = l.volume)
        (ten.upgrade.toList.map (fun x =>
          (l.owner, { tag := x.tag, kind := .convert, status := .cancelled, result := .waitEnd .leaseGone })))
        (ten.upgrade.toList.map (fun x => (l.owner, .waitEnded x.tag .leaseGone)) ++
          [(l.owner, .revoked (s.tab.handle c.arg1.toNat) .maintenance)])
        [(.leaseRevoked, .session l.owner)]

/-- PORT-RESET takes a port that is TRAINING or UP DOWN, clears its counters, and lets it train again; a port that is
DOWN has its counters cleared (R149, R151). That the silence time is kept is log entry 6, that the note of a frame sent in
the millisecond is cleared on entering TRAINING log entry 7, and that the link-lost claim keeps the port log entry 12. A free
transmitter begins its next frame at the same event (log entry 8). -/
def Obligations.PortResetDropsLink : Prop :=
  ∀ (s : State) (c : Command) (p : PortId), s.takesCommand c → c.code = 0x09 → c.arg1.toNat = p.val →
    ∃ t, exec .portReset s = .next t ∧ t.tab = s.tab ∧
      let cleared := fun x : Port => { x with badFrames := 0, errorRun := 0, helloCount := 0 }
      ((s.port p).link = .down → State.completesWith
        { s.finished .done with ports := upd s.ports p (s.trains p (cleared (s.port p))) } t [] [] []) ∧
      ((s.port p).link ≠ .down → ∃ w, (s.finished .done).drops w p (s.trains p (cleared (s.port p).dropped)) ∧
        w.completesWith t [] [] [])

/-- SET-CONFIG stores the value in the low bytes of item 5Ah, or is refused BAD_ARGUMENT where target, item or value is out
of range; a change of the enable item takes the port DOWN or lets it train (R146, R149, R150, R177, R188). That the value
has as many low bytes as the item, one for items 0 and 1 of a port and two for the others, is log entry 14; what a port
that enters TRAINING keeps and clears is log entries 6 and 7, and that the link-lost claim keeps the port log entry 12. A
free transmitter begins its next frame at the same event (log entry 8). -/
def Obligations.SetConfigStores : Prop :=
  ∀ (s : State) (c : Command), s.takesCommand c → c.code = 0x0B →
    let one := c.arg3.toNat % 256
    let two := c.arg3.toNat % 65536
    ∃ t, exec .setConfig s = .next t ∧
    (∀ p : PortId, c.arg1.toNat = p.val →
      (c.arg2 = 1 → (1 ≤ one ∧ one ≤ 32 → State.completesWith { s.finished .done with
        config := upd s.config p { s.cfg p with windowMax := one } } t [] [] [] ∧ t.tab = s.tab) ∧
        (one = 0 ∨ 32 < one → s.commandRefused t .badArgument)) ∧
      (c.arg2 = 2 → (1 ≤ two ∧ two ≤ 4096 → State.completesWith { s.finished .done with
        config := upd s.config p { s.cfg p with quota := two } } t [] [] [] ∧ t.tab = s.tab) ∧
        (two = 0 ∨ 4096 < two → s.commandRefused t .badArgument)) ∧
      (c.arg2 = 3 → (10 ≤ two ∧ two ≤ 60000 → State.completesWith { s.finished .done with
        config := upd s.config p { s.cfg p with sessionTerm := two } } t [] [] [] ∧ t.tab = s.tab) ∧
        (two < 10 ∨ 60000 < two → s.commandRefused t .badArgument)) ∧
      (c.arg2 = 4 → (two ≤ 30000 → State.completesWith { s.finished .done with
        config := upd s.config p { s.cfg p with orphanGrace := two } } t [] [] [] ∧ t.tab = s.tab) ∧
        (30000 < two → s.commandRefused t .badArgument)) ∧
      (4 < c.arg2.toNat → s.commandRefused t .badArgument) ∧
      (c.arg2 = 0 →
        (1 < one → s.commandRefused t .badArgument) ∧
        (one ≤ 1 → t.tab = s.tab ∧
          let on := decide (one = 1)
          let s' := { s.finished .done with config := upd s.config p { s.cfg p with enable := on } }
          ((s.cfg p).enable = on ∨ (on = false ∧ (s.port p).link = .down) ∨ (on = true ∧ (s.port p).link ≠ .down) →
            s'.completesWith t [] [] []) ∧
          ((s.cfg p).enable = true → on = false → (s.port p).link ≠ .down →
            ∃ w, s'.drops w p (s.port p).dropped ∧ w.completesWith t [] [] []) ∧
          ((s.cfg p).enable = false → on = true → (s.port p).link = .down →
            State.completesWith { s' with ports := upd s.ports p (s'.trains p (s.port p)) } t [] [] [])))) ∧
    (c.arg1.toNat = 6 →
      (c.arg2 = 0 → (two = 0 ∨ 10 ≤ two ∧ two ≤ 60000 →
          State.completesWith { s.finished .done with recallLimit := two } t [] [] [] ∧ t.tab = s.tab) ∧
        (1 ≤ two ∧ two < 10 ∨ 60000 < two → s.commandRefused t .badArgument)) ∧
      (c.arg2 = 1 → (1 ≤ two ∧ two ≤ 4096 →
          State.completesWith { s.finished .done with occThreshold := two } t [] [] [] ∧ t.tab = s.tab) ∧
        (two = 0 ∨ 4096 < two → s.commandRefused t .badArgument)) ∧
      (1 < c.arg2.toNat → s.commandRefused t .badArgument)) ∧
    (6 < c.arg1.toNat → s.commandRefused t .badArgument)

/-- TABLE-CLEAR empties lease, wait and session state and keeps volumes, configuration, alerts, counters and the session
number counter; every slot's generation advances, the clock becomes 0, the links go DOWN without claim or alert and
train again (R25, R56, R100, R105, R115, R144, R162, R178). The purge section is 0 by log entry 4. -/
def Obligations.TableClearClears : Prop :=
  ∀ (s : State) (c : Command), s.takesCommand c → c.code = 0x0A → s.tab.Sound →
    ∃ t, exec .tableClear s = .next t ∧
      t = { s.finished .done with
            tab := t.tab, clock := 0, sweepPtr := 0, slips := 0, visitPending := false, timersQueue := [],
            purgeQueue := [], purgeSection := 0, sessions := Vector.replicate 12 Session.freed, ports := t.ports,
            gate := t.gate, device := .ready } ∧
      (∀ n, t.tab.slots.get n = { gen := (s.tab.slots.get n).gen + 1, body := .free }) ∧
      (∀ v, t.tab.indexOf v = [] ∧ t.tab.waitList v = [] ∧ t.tab.volume v = s.tab.volume v) ∧
      t.tab.occupancy = 0 ∧ (∀ i, t.tab.slotCount i = 0) ∧ t.tab.pool = [] ∧ t.tab.arrival = 0 ∧
      (∀ p, (t.port p).inbox = [] ∧ (t.port p).answers = [] ∧ (t.port p).tx = none ∧ (t.port p).helloCount = 0 ∧
        (t.port p).errorRun = 0 ∧ (t.port p).badFrames = (s.port p).badFrames ∧
        (t.port p).link = if (s.cfg p).enable then .training else .down) ∧
      t.gate.link = .training ∧ t.gate.helloCount = 0 ∧ t.gate.errorRun = 0 ∧ t.gate.silence = 0 ∧ t.gate.queue = [] ∧ t.gate.replies = [] ∧ t.gate.tx = none ∧
      t.gate.badFrames = s.gate.badFrames

/-! ### The Maintenance Port (chapter 10) -/

/-- A register write sets the item pointer and, when it holds the item's whole value, the argument item, the command
code or the selector; a command code is refused, ignored or accepted by device state and status (R172, R174, R183,
R188). When OVERRUN clears is log entry 16, the pointer after a write of the selector log entry 23, and that what a read
transfer left of its item is dropped log entry 17. -/
def Obligations.RegisterWriteTakes : Prop :=
  ∀ (s : State) (item : Byte) (data : List Byte), s.resetN = true →
    ∃ t, exec (.registerWrite item data) s = .next t ∧ t.itemPtr = item ∧
      (∀ a b more, item = 0x58 → data = a :: b :: more →
        t = { s with itemPtr := item, readLatch := [], arg1 := BitVec.ofNat 16 (a.toNat * 256 + b.toNat) }) ∧
      (∀ a more, item = 0x59 → data = a :: more → t = { s with itemPtr := item, readLatch := [], arg2 := a }) ∧
      (∀ a b d e f g more, item = 0x5A → data = a :: b :: d :: e :: f :: g :: more →
        t = { s with itemPtr := item, readLatch := [], arg3 := BitVec.ofNat 48 (beNat [a, b, d, e, f, g]) }) ∧
      (∀ code more, item = 0x5B → data = code :: more →
        (s.device = .starting →
          t = { s with itemPtr := item, readLatch := [], cmdStatus := .refused .notReady, lastCode := code }) ∧
        (s.device ≠ .starting → s.cmdStatus = .busy →
          t = { s with itemPtr := item, readLatch := [], overrun := true, overrunClears := false }) ∧
        (s.device = .ready → s.cmdStatus ≠ .busy →
          t = { s with itemPtr := item, readLatch := [], cmdStatus := .busy, lastCode := code, overrunClears := s.overrun,
                       waiting := some { code := code, arg1 := s.arg1, arg2 := s.arg2, arg3 := s.arg3 } })) ∧
      (∀ k a b more, item = 0x68 → data = k :: a :: b :: more →
        exec (.recordWindowSelect k (BitVec.ofNat 16 (a.toNat * 256 + b.toNat))) s = .next t) ∧
      (item ∉ [(0x58 : Byte), 0x59, 0x5A, 0x5B, 0x68] ∨ data = [] ∨ (item = 0x58 ∧ data.length < 2) ∨
        (item = 0x5A ∧ data.length < 6) ∨ (item = 0x68 ∧ data.length < 3) → t = { s with itemPtr := item, readLatch := [] })

/-- A read transfer of `k` of the alert item's three bytes latches and removes the oldest record at its first byte and
releases ALERT_N when none is left, and the pointer advances with the third byte; a write of the selector captures a copy
of the record, or nothing where kind or index is out of range (R172, R181, R183, R188). That RECORD_WINDOW_SELECT is a write
transfer of item 68h, which leaves the pointer there, is log entry 23; that the place in the purge queue counts from 0, log
entry 15; that ALERT_READ is the read transfer from the item under the pointer, given in parts, and that a write transfer
drops what one left, log entry 17. -/
def Obligations.AlertReadAndWindow : Prop :=
  ∀ s : State, s.resetN = true →
    (s.itemPtr = 0x60 → ∀ k, 1 ≤ k → k ≤ 3 → exec (.alertRead ⟨false, k⟩) s = .next { s with
      readOut := (alertItem s.alerts).take k, readLatch := (alertItem s.alerts).drop k, alerts := s.alerts.tail,
      alertN := s.alerts.tail.isEmpty, itemPtr := if k = 3 then 0x61 else 0x60 }) ∧
    ∀ (kind : Byte) (index : BitVec 16), ∃ t, exec (.recordWindowSelect kind index) s = .next t ∧
      t = { s with itemPtr := 0x68, readLatch := [], selKind := kind, selIndex := index, window := t.window } ∧
      (kind = 0 → index.toNat ≤ 4095 → t.window = some (.slot index.toNat (s.tab.slots.get index.toNat))) ∧
      (kind = 1 → index.toNat ≤ 511 → t.window = some (.waitEntry (lookupKey index.toNat s.tab.pool))) ∧
      (∀ i : SessionId, kind = 2 → index.toNat = i.val → t.window = some (.session (s.session i) (s.tab.slotCount i)
        (s.purgeQueue.findIdx? (fun j => j == i)) (if s.purgeQueue.head? = some i then some s.purgeSection else none))) ∧
      (∀ v : VolumeId, kind = 3 → index.toNat = v.val → t.window = some (.volume (s.tab.volume v))) ∧
      (3 < kind.toNat ∨ (kind = 0 ∧ 4095 < index.toNat) ∨ (kind = 1 ∧ 511 < index.toNat) ∨
        (kind = 2 ∧ 11 < index.toNat) ∨ (kind = 3 ∧ 31 < index.toNat) → t.window = none)

/-- A read transfer gives the item under the pointer: the item is latched whole at its first byte and given byte by byte,
whatever becomes of it meanwhile; the pointer advances with its last byte, so that the next item follows; only the alert
item is changed by it; and a number that names no item gives 0 in every byte (R172, R181, R182, R188). What the items read
as is Table 11-7 (R182, R188). That a transfer may be given in parts is log entry 17, the pointer where nothing is latched
log entry 25, and what a read of the write-only item gives log entry 28. -/
def Obligations.ReadTransferGivesItems : Prop :=
  (∀ s : State, s.resetN = true →
    let item := s.itemBytes s.itemPtr.toNat
    (∀ k, 0 < k → k ≤ item.length → exec (.alertRead ⟨false, k⟩) s = .next { s with
      readOut := item.take k, readLatch := item.drop k
      itemPtr := if k = item.length then s.itemPtr + 1 else s.itemPtr
      alerts := if s.itemPtr = 0x60 then s.alerts.tail else s.alerts
      alertN := if s.itemPtr = 0x60 then s.alerts.tail.isEmpty else s.alertN
      openReads := if s.itemPtr = 0x5B then s.openReads + 1 else s.openReads }) ∧
    (∀ k, s.readLatch ≠ [] → k ≤ s.readLatch.length → exec (.alertRead ⟨true, k⟩) s = .next { s with
      readOut := s.readLatch.take k, readLatch := s.readLatch.drop k
      itemPtr := if k = s.readLatch.length then s.itemPtr + 1 else s.itemPtr }) ∧
    (∀ k, item = [] → exec (.alertRead ⟨false, k⟩) s = .next { s with readOut := List.replicate k 0, readLatch := [] }) ∧
    ∀ g m n, ∃ u t, exec (.alertRead ⟨g, m⟩) s = .next u ∧ exec (.alertRead ⟨true, n⟩) u = .next t ∧
      exec (.alertRead ⟨g, m + n⟩) s = .next { t with readOut := u.readOut ++ t.readOut }) ∧
  ∀ s : State,
    s.itemBytes 0x00 = layout [(1, match s.device with | .starting => 0 | .ready => 1 | .clearing => 2)] ∧
    s.itemBytes 0x01 = layout [(2, s.tab.occupancy)] ∧ s.itemBytes 0x02 = layout [(2, s.tab.pool.length)] ∧
    s.itemBytes 0x03 = layout [(1, ((List.finRange 12).filter (fun i => decide ((s.session i).state ≠ .free))).length)] ∧
    s.itemBytes 0x04 = layout [(4, if 4294967295 < s.nextNumber then 0 else s.nextNumber)] ∧
    s.itemBytes 0x05 = layout [(4, s.clock.toNat)] ∧ s.itemBytes 0x06 = layout [(1, s.sweepPtr.val)] ∧
    s.itemBytes 0x07 = layout [(2, s.slips)] ∧
    (∀ p : PortId,
      s.itemBytes (0x08 + p.val) = layout [(1, match (s.port p).link with | .down => 0 | .training => 1 | .up => 2)] ∧
      s.itemBytes (0x0E + p.val) = layout [(2, (s.port p).badFrames)] ∧
      s.itemBytes (0x20 + 8 * p.val) = layout [(1, if (s.cfg p).enable then 1 else 0)] ∧
      s.itemBytes (0x21 + 8 * p.val) = layout [(1, (s.cfg p).windowMax)] ∧
      s.itemBytes (0x22 + 8 * p.val) = layout [(2, (s.cfg p).quota)] ∧
      s.itemBytes (0x23 + 8 * p.val) = layout [(2, (s.cfg p).sessionTerm)] ∧
      s.itemBytes (0x24 + 8 * p.val) = layout [(2, (s.cfg p).orphanGrace)]) ∧
    s.itemBytes 0x14 = layout [(1, match s.gate.link with | .down => 0 | .training => 1 | .up => 2)] ∧
    s.itemBytes 0x15 = layout [(2, s.gate.badFrames)] ∧ s.itemBytes 0x16 = layout [(1, s.alerts.length)] ∧
    s.itemBytes 0x50 = layout [(2, s.recallLimit)] ∧ s.itemBytes 0x51 = layout [(2, s.occThreshold)] ∧
    s.itemBytes 0x58 = layout [(2, s.arg1.toNat)] ∧ s.itemBytes 0x59 = layout [(1, s.arg2.toNat)] ∧
    s.itemBytes 0x5A = layout [(6, s.arg3.toNat)] ∧ (s.itemBytes 0x5B).length = 1 ∧
    (let status := match s.cmdStatus with
      | .idle => (0, 0)
      | .busy => (1, 0)
      | .done => (2, 0)
      | .refused x => (3, x.byte.toNat)
    s.itemBytes 0x5C =
      layout [(1, status.1), (1, status.2), (1, s.lastCode.toNat), (1, if s.overrun then 1 else 0)]) ∧
    (s.alerts = [] → s.itemBytes 0x60 = layout [(1, 0), (1, 0), (1, 0)]) ∧
    (∀ a more, s.alerts = a :: more → s.itemBytes 0x60 = layout [(1, a.kind.byte.toNat),
      (1, match a.source with
        | .port p => p.val
        | .session i => 64 + i.val
        | .volume v => 128 + v.val
        | .device => 192),
      (1, a.repeats)]) ∧
    s.itemBytes 0x68 = layout [(1, s.selKind.toNat), (2, s.selIndex.toNat)] ∧
    s.itemBytes 0x69 = layout [(1, if s.window.isSome then 1 else 0)] ∧
    (∀ c, s.window = some c → s.itemBytes 0x6A = c.bytes) ∧ (s.window = none → s.itemBytes 0x6A = []) ∧
    (∀ n, (0x16 < n ∧ n < 0x20) ∨ (0x20 ≤ n ∧ n < 0x50 ∧ 4 < n % 8) ∨ (0x51 < n ∧ n < 0x58) ∨ (0x5C < n ∧ n < 0x60) ∨
      (0x60 < n ∧ n < 0x68) ∨ 0x6A < n → s.itemBytes n = []) ∧
    codedFrom 1 Reason.byte
      [.notReady, .badCommand, .badArgument, .badState, .slotsPresent, .noSize, .exhausted, .notHeld] ∧
    codedFrom 1 AlertKind.byte [.sessionOrphaned, .sessionClosed, .leaseRevoked, .leaseExpired, .tableHigh,
      .fenceExhausted, .noticeOverflow, .linkDown]

/-! ### The links of the Requester Ports (chapters 8.2, 8.3) -/

/-- The link of a Requester Port. Two HELLO frames in a row bring a TRAINING port UP, with every queued notice of its
session waiting again; a port that is DOWN takes nothing (R146, R147, R167). A bad frame counts and restarts the HELLO run in
TRAINING or lengthens the error run in UP, the eighth in a row and a silence of 2 ms take the port DOWN, and it trains again
at once if it may; good frames of kinds a requester does not send are discarded (R145 to R149). A REQUEST frame whose body has
no byte or more than 19 is a bad frame (R148, R185), and a good one has no effect on a port that is not UP (R146). How the
counts stand after a link has gone DOWN is log entry 6, that the note of a frame sent in the millisecond is cleared on entering
TRAINING log entry 7, that a free transmitter begins its next frame at the same event log entry 8, the count of rounds of
sending log entry 9, and that the link-lost claim keeps the port log entry 12. -/
def Obligations.RequesterLinkFrames : Prop :=
  (∀ (s : State) (p : PortId), s.resetN = true → ∃ t, exec (.helloReceive p) s = .next t ∧
     ((s.port p).link = .training → (s.port p).helloCount = 0 →
       t = { s with ports := upd s.ports p { s.port p with helloCount := 1 } }) ∧
     ((s.port p).link = .training → 1 ≤ (s.port p).helloCount →
       t = { s with sessions := t.sessions, ports := t.ports } ∧
       (∀ j, t.session j = if s.boundSession p = some j
         then { s.session j with
           queue := (s.session j).queue.map (fun q => { q with sent := false }), round := (s.session j).round + 1 }
         else s.session j) ∧
       t.portsAre (fun q => if q = p
         then { s.port p with link := .up, helloCount := 2, silence := 0, errorRun := 0 } else s.port q)) ∧
     ((s.port p).link = .up → t = { s with ports := upd s.ports p { s.port p with silence := 0, errorRun := 0 } }) ∧
     ((s.port p).link = .down → t = s)) ∧
  ∀ (s : State) (p : PortId), s.resetN = true →
    let bad := if (s.port p).badFrames < 65535 then (s.port p).badFrames + 1 else 65535
    (∃ t, exec (.badFrame p) s = .next t ∧
      ((s.port p).link = .down → t = s) ∧
      ((s.port p).link = .training →
        t = { s with ports := upd s.ports p { s.port p with helloCount := 0, badFrames := bad } }) ∧
      ((s.port p).link = .up → (s.port p).errorRun < 7 →
        t = { s with ports := upd s.ports p { s.port p with
          badFrames := bad, errorRun := (s.port p).errorRun + 1, silence := 0 } }) ∧
      ((s.port p).link = .up → 7 ≤ (s.port p).errorRun →
        s.drops t p (s.trains p { (s.port p).dropped with
          badFrames := bad, errorRun := (s.port p).errorRun + 1, silence := 0 }))) ∧
    (∃ t, exec (.linkSilenceTimeout p) s = .next t ∧
      ((s.port p).link = .up → s.drops t p (s.trains p { (s.port p).dropped with silence := 2 })) ∧
      ((s.port p).link ≠ .up → t = s)) ∧
    (∀ kind, ∃ t, exec (.discardedFrame p kind) s = .next t ∧
      ((s.port p).link = .up → kind = .answer ∨ kind = .notice →
        t = { s with ports := upd s.ports p { s.port p with silence := 0, errorRun := 0 } }) ∧
      ((s.port p).link ≠ .up → t = s)) ∧
    ∀ (tag : Tag) (body : List Byte),
      (body.length = 0 ∨ 19 < body.length → exec (.requestIntake p tag body) s = exec (.badFrame p) s) ∧
      (1 ≤ body.length → body.length ≤ 19 → (s.port p).link ≠ .up → exec (.requestIntake p tag body) s = .next s)

/-! ### The bodies of the gate's frames (chapter 11.3) -/

/-- The 13-byte QUERY body is a control byte, the volume, the start, the count and the token; bits 2..0 of the control byte
are the path, bits 5..4 the access, 01 READ and 10 WRITE, a query with another access code is refused with DENY_FORMAT, and
bits 7, 6 and 3 are not read. The 1-byte ANSWER body is the code, 0 ALLOW to 7 REFUSED_FULL (R187). -/
def Obligations.GateBodiesAreCoded : Prop :=
  (∀ (tag : BitVec 16) (control : Byte) (volume start count token : Nat), volume < 2 ^ 8 → start < 2 ^ 40 →
    count < 2 ^ 16 → token < 2 ^ 32 →
    let body := layout [(1, control.toNat), (1, volume), (5, start), (2, count), (4, token)]
    let q := parseGateQuery tag body
    body.length = 13 ∧ q.path = (control.extractLsb' 0 3).toNat ∧ q.volume = volume ∧ q.start = start ∧ q.count = count ∧
    q.token = token ∧
    (control.extractLsb' 4 2 = 0b01#2 → q.access = .read) ∧ (control.extractLsb' 4 2 = 0b10#2 → q.access = .write) ∧
    (control.extractLsb' 4 2 = 0b00#2 ∨ control.extractLsb' 4 2 = 0b11#2 → ∀ s : State, s.lookup q = (.denyFormat, none))) ∧
  (∀ (tag : BitVec 16) (c d : Byte) (fields : List Byte), c.extractLsb' 0 3 = d.extractLsb' 0 3 →
    c.extractLsb' 4 2 = d.extractLsb' 4 2 → parseGateQuery tag (c :: fields) = parseGateQuery tag (d :: fields)) ∧
  (∀ r : GateReply, r.bytes = frameBytes .answer (r.number.setWidth 16) (layout [(1, r.code.byte.toNat)])) ∧
  codedFrom 0 GateCode.byte [.allow, .denyFormat, .denySession, .denyVolume, .denyUncovered, .denyMode, .denyToken,
    .refusedFull]

/-! ### The transmitters (chapter 8.7) -/

/-- The transmitter: a HELLO begins on a link that is not DOWN, sends nothing and has sent no frame in the millisecond;
when a frame's sending ends, an answer gives up its place, a notice is marked sent, and the next frame is the oldest
answer, else the due notice, else a HELLO (R146, R147, R159, R160, R166); on the gate's link a HELLO is due by the same
conditions (R131). Wherever a step lets a transmitter begin its next frame (`pumpPort`), a port that is UP with no frame in
progress begins its oldest answer, else the due notice of its bound session, and any other port is left as it is (R160,
R166). A notice whose send position has gone back since its frame was begun is not marked (R167). The note of a frame sent in
the millisecond and the gate's HELLO, the end of a frame, and the round by which the marked notice is told are log entries 7,
8 and 9. -/
def Obligations.TransmitterGoesOn : Prop :=
  ∀ (s : State) (p : PortId), s.resetN = true →
    (∃ t, exec (.helloTransmit (.rp p)) s = .next t ∧
      ((s.port p).link ≠ .down → (s.port p).tx = none → (s.port p).sentThisMs = false →
        t = { s with ports := upd s.ports p { s.port p with tx := some .hello, sentThisMs := true } }) ∧
      ((s.port p).link = .down ∨ (s.port p).tx ≠ none ∨ (s.port p).sentThisMs = true → t = s)) ∧
    (s.gate.link ≠ .down → s.gate.tx = none → s.gate.sentThisMs = false →
      exec (.helloTransmit .gate) s = .next { s with gate := { s.gate with sentThisMs := true } }) ∧
    (s.gate.link = .down ∨ s.gate.tx ≠ none ∨ s.gate.sentThisMs = true → exec (.helloTransmit .gate) s = .next s) ∧
    (∀ f, (s.port p).tx = some f → ∃ t, exec (.frameTransmitComplete p) s = .next t ∧
      t = { s with sessions := t.sessions, ports := t.ports } ∧
      (∀ j, t.session j = match f with
        | .notice i number round seq _ => if j = i ∧ (s.session i).number = number ∧ (s.session i).round = round
          then { s.session i with queue := (s.session i).queue.map (fun q =>
            if q.seq = seq then { q with sent := true } else q) }
          else s.session j
        | .hello => s.session j
        | .answer _ => s.session j) ∧
      (∀ q, q ≠ p → t.port q = pumpPort t.sessions q (s.port q)) ∧
      let left := match f with
        | .answer _ => (s.port p).answers.tail
        | .hello => (s.port p).answers
        | .notice _ _ _ _ _ => (s.port p).answers
      ∃ next, t.port p = { s.port p with
          tx := next, answers := left, sentThisMs := (s.port p).sentThisMs || next.isSome } ∧
        ((s.port p).link ≠ .up → next = none) ∧
        ((s.port p).link = .up →
          (∀ a more, left = a :: more → next = some (.answer a)) ∧
          (left = [] → ∀ i, boundTo t.sessions p = some i →
            (∀ q, (t.session i).queue.find? (fun q => !q.sent) = some q →
              next = some (.notice i (t.session i).number (t.session i).round q.seq q.notice)) ∧
            ((t.session i).queue.find? (fun q => !q.sent) = none →
              next = if (s.port p).sentThisMs then none else some .hello)) ∧
          (left = [] → boundTo t.sessions p = none → next = if (s.port p).sentThisMs then none else some .hello))) ∧
    ∀ (ss : Vector Session 12) (x : Port),
      let begins := fun f : TxFrame => { x with tx := some f, sentThisMs := true }
      (x.link ≠ .up ∨ x.tx ≠ none → pumpPort ss p x = x) ∧
      (x.link = .up → x.tx = none →
        (∀ a more, x.answers = a :: more → pumpPort ss p x = begins (.answer a)) ∧
        (x.answers = [] → ∀ i, boundTo ss p = some i →
          (∀ q, ss[i].queue.find? (fun q => !q.sent) = some q →
            pumpPort ss p x = begins (.notice i ss[i].number ss[i].round q.seq q.notice)) ∧
          (ss[i].queue.find? (fun q => !q.sent) = none → pumpPort ss p x = x)) ∧
        (x.answers = [] → boundTo ss p = none → pumpPort ss p x = x))

/-! ### The Write Gate (chapter 7) -/

/-- The Gate Port's link: HELLO frames bring it UP, good frames that it discards clear its counts, the eighth bad frame
in a row and a silence of 2 ms take it DOWN with LINK_DOWN, dropping all it holds, and it trains again (R131, R132,
R135). A QUERY frame whose body has not 13 bytes is a bad frame (R132, R185). How the counts stand after DOWN is log entry 6,
that the note of a frame sent in the millisecond is cleared on entering TRAINING log entry 7, and that a free transmitter
takes the next answer at the event, log entries 8 and 11. -/
def Obligations.GateLinkFrames : Prop :=
  ∀ s : State, s.resetN = true →
    let g := s.gate
    let bad := if g.badFrames < 65535 then g.badFrames + 1 else 65535
    let down := fun x : Gate => { x with
      link := if s.device = .ready then .training else .down
      helloCount := if s.device = .ready then 0 else x.helloCount
      silence := if s.device = .ready then 0 else x.silence
      sentThisMs := if s.device = .ready then false else x.sentThisMs
      queue := [], replies := [], tx := none }
    let lost := fun (x : Gate) => { s with
      gate := down x, alerts := mergeAlert s.alerts (.linkDown, .device), alertN := false }
    (∃ t, exec .gateHelloReceive s = .next t ∧
      (g.link = .down → t = s) ∧
      (g.link = .training → g.helloCount = 0 →
        t = { s with gate := { g with silence := 0, errorRun := 0, helloCount := 1 } }) ∧
      (g.link = .training → 1 ≤ g.helloCount →
        t = { s with gate := Gate.pump { g with link := .up, helloCount := 2, silence := 0, errorRun := 0 } }) ∧
      (g.link = .up → t = { s with gate := { g with silence := 0, errorRun := 0 } })) ∧
    (∀ kind, ∃ t, exec (.gateDiscardedFrame kind) s = .next t ∧
      (g.link = .down → t = s) ∧
      (g.link = .training ∨ g.link = .up ∧ kind = .answer → t = { s with gate := { g with silence := 0, errorRun := 0 } })) ∧
    (∃ t, exec .gateBadFrame s = .next t ∧
      (g.link = .down → t = s) ∧
      (g.link ≠ .down → g.errorRun < 7 → t = { s with gate := { g with
        badFrames := bad, errorRun := g.errorRun + 1, silence := 0,
        helloCount := if g.link = .training then 0 else g.helloCount } }) ∧
      (g.link ≠ .down → 7 ≤ g.errorRun → t = lost { g with
        badFrames := bad, errorRun := 0, silence := 0,
        helloCount := if g.link = .training then 0 else g.helloCount })) ∧
    (∃ t, exec .gateLinkSilenceTimeout s = .next t ∧
      (g.link = .down → t = s) ∧ (g.link ≠ .down → t = lost { g with silence := 2 })) ∧
    ∀ (tag : BitVec 16) (body : List Byte), body.length ≠ 13 → exec (.gateQuery tag body) s = exec .gateBadFrame s

/-- A gate query joins the query queue, is refused REFUSED_FULL when its 8 places are taken, and has no effect when the
refusal store is full too; an answer that has been sent lets the transmitter take the next (R131, R133, R134, R135).
Wherever a step lets the transmitter take its next answer (`Gate.pump`), a gate that is UP with none in progress hands it the
oldest that waits, the answer of a lookup giving up its query's place, and any other is left as it is (R133, R134). That a
free transmitter takes the next answer at the event is log entries 8 and 11, and that the frame is noted as sent in the
millisecond log entry 7. -/
def Obligations.GateQueryQueued : Prop :=
  ∀ s : State, s.resetN = true →
    (∀ (tag : BitVec 16) (body : List Byte), body.length = 13 → ∃ t, exec (.gateQuery tag body) s = .next t ∧
      (s.gate.link = .down → t = s) ∧
      (s.gate.link = .training → t = { s with gate := { s.gate with silence := 0, errorRun := 0 } }) ∧
      (s.gate.link = .up →
        let g := { s.gate with silence := 0, errorRun := 0 }
        let stored := (s.gate.replies.filter (fun r => !r.fromQueue)).length
        (s.gate.queue.length < 8 →
          t = { s with gate := Gate.pump { g with queue := g.queue ++ [parseGateQuery tag body] } }) ∧
        (8 ≤ s.gate.queue.length → stored < 8 → t = { s with gate := Gate.pump { g with
          replies := g.replies ++ [{ number := tag.extractLsb' 0 8, code := .refusedFull, fromQueue := false }] } }) ∧
        (8 ≤ s.gate.queue.length → 8 ≤ stored → t = { s with gate := Gate.pump g }))) ∧
    (∀ r, s.gate.tx = some r → exec .gateAnswerSent s = .next { s with gate := Gate.pump { s.gate with tx := none } }) ∧
    (∀ g : Gate, g.tx = none → g.link = .up → ∀ r more, g.replies = r :: more → g.pump = { g with
      tx := some r, replies := more, queue := if r.fromQueue then g.queue.tail else g.queue, sentThisMs := true }) ∧
    ∀ g : Gate, g.tx ≠ none ∨ g.link ≠ .up ∨ g.replies = [] → g.pump = g

/-- A lookup answers the oldest query by the first check of Table 7-1 that fails, and changes nothing but the gate-use
count of the covering lease of an ALLOW; a WRITE is allowed only under the EXCLUSIVE lease of the ACTIVE session on the
path, covering every block, with the query's token, on an ONLINE volume (R136 to R142). The query keeps its place until its
answer is handed to the transmitter (R133). That a free transmitter takes the answer at the same event, and that an answer
which must wait does so behind those made before it while its query stands at the head of the queue, is the model's choice
(log entries 8 and 11). -/
def Obligations.GateLookupAnswers : Prop :=
  ∀ (s : State) (q : GateQuery) (rest : List GateQuery), s.looksUp q rest → s.tab.Sound →
    let formed := q.path < 6 ∧ q.access ≠ .other ∧ q.count ≠ 0 ∧ ¬ (q.access = .write ∧ q.token = 0)
    let holder := fun i : SessionId => (s.session i).state = .active ∧ ∃ p : PortId, p.val = q.path ∧
      s.boundSession p = some i
    let open' := fun v : VolumeId => v.val = q.volume ∧
      ((s.tab.volume v).state = .online ∨ (s.tab.volume v).state = .frozen ∧ q.access = .read)
    ∃ t code, exec .gateLookup s = .next t ∧
      t = { s with
        tab := t.tab
        gate := Gate.pump { s.gate with
          replies := s.gate.replies ++ [{ number := q.number, code := code, fromQueue := true }] } } ∧
      t.gate.queue = (if s.gate.link = .up ∧ s.gate.tx = none ∧ s.gate.replies = [] then rest else q :: rest) ∧
      t.gate.tx.toList ++ t.gate.replies = s.gate.tx.toList ++ s.gate.replies ++
        [{ number := q.number, code := code, fromQueue := true }] ∧
      (code ≠ .allow → t.tab = s.tab) ∧
      (¬ formed → code = .denyFormat) ∧
      (formed →
        ((∀ i, ¬ holder i) → code = .denySession) ∧
        (∀ i, holder i →
          ((∀ v, ¬ open' v) → code = .denyVolume) ∧
          (∀ v, open' v →
            ((∀ n l ten, ¬ s.tab.covers i v q n l ten) → code = .denyUncovered) ∧
            (∀ n l ten, s.tab.covers i v q n l ten →
              (q.access = .write → l.mode = .shared → code = .denyMode) ∧
              (q.access = .write → l.mode = .exclusive → ten.token ≠ some q.token → code = .denyToken) ∧
              (q.access = .read ∨ l.mode = .exclusive ∧ ten.token = some q.token → code = .allow ∧
                s.tab.slotOnly t.tab n (.held l { ten with
                  gateUse := if ten.gateUse < 65535 then ten.gateUse + 1 else 65535 }) ∧
                t.tab = { s.tab with slots := t.tab.slots })))))

/-! ### Laws that every command keeps -/

/-- Every law below holds at reset. -/
def Obligations.LawsHoldAtReset : Prop :=
  State.reset.tab.Sound ∧ SessionLaw State.reset.sessions State.reset.nextNumber ∧
    (∀ i, (State.reset.session i).noticeLaw ∧ (State.reset.session i).cacheLaw) ∧ State.reset.alertLaw ∧
    State.reset.configLaw ∧ State.reset.ownerLaw

/-- The laws of the lease structures, kept by every step: holders conflict nowhere, a session's extents are apart,
index, counts and wait lists mirror the slots, tokens stay below the counters (R2, R11 to R16, R40 to R42, R117, R127).
-/
def Obligations.LeaseLawsKept : Prop := ∀ s t : State, s.tab.Sound → step s = .next t → t.tab.Sound

/-- The laws of sessions, notice queues, answer caches, alerts and configuration, kept by every step (R27, R79, R80,
R82, R164, R177, R179, R181). -/
def Obligations.SessionLawsKept : Prop :=
  ∀ s t : State, SessionLaw s.sessions s.nextNumber → (∀ i, (s.session i).noticeLaw ∧ (s.session i).cacheLaw) →
    s.alertLaw → s.configLaw → step s = .next t →
    SessionLaw t.sessions t.nextNumber ∧ (∀ i, (t.session i).noticeLaw ∧ (t.session i).cacheLaw) ∧ t.alertLaw ∧
      t.configLaw

/-- No fence counter falls but by power-on reset: the sequence of a volume's tokens rises (R127, R130). -/
def Obligations.FenceCountersNeverFall : Prop :=
  ∀ (c : Instr) (s t : State) (v : VolumeId), s.tab.Sound → c ≠ .powerOnReset → c ≠ .startupComplete →
    exec c s = .next t → (s.tab.volume v).fence ≤ (t.tab.volume v).fence

/-- What slots, session records, inboxes, windows and purge queue say of each other, kept by every step: the owner of a
lease has a record and the owner of a wait is ACTIVE, no session is above its quota or its window, an ACTIVE session is
bound, its tags are those of queued and parked requests, and the purge queue holds the CLOSING sessions (R2, R16, R27, R41,
R42, R79, R90, R97, R98, R156). -/
def Obligations.OwnerLawKept : Prop :=
  ∀ s t : State, s.tab.Sound → SessionLaw s.sessions s.nextNumber → s.ownerLaw → step s = .next t → t.ownerLaw

/-- The generation law: a slot keeps its generation and its claims until it becomes FREE, which advances the generation by
1 modulo 256, and an ACQUIRE alone makes a FREE slot non-FREE, with its generation kept; reset, start-up and Table Clear
are apart (R3, R5). -/
def Obligations.GenerationsAdvance : Prop :=
  ∀ (c : Instr) (s t : State), s.tab.Sound → SessionLaw s.sessions s.nextNumber → c ≠ .powerOnReset →
    c ≠ .startupComplete → c ≠ .tableClear → exec c s = .next t → s.tab.slotsOnward t.tab (c = .acquire)

/-! ### Layouts (chapter 11) -/

/-- What the part sends and shows: multi-byte fields most significant byte first, the link frame with its CRC, the bodies of
answers, notices and gate answers, the slot entry, the records of the record window, and the codes (R185 to R188). -/
def Obligations.FramesAreLaidOut : Prop :=
  let modeOf := fun m : Mode => match m with
    | .shared => 0
    | .exclusive => 1
  let timeOf := fun d : Option Time => (d.getD 0).toNat
  (∀ k n j, j < k → (beBytes k n)[j]? = some (BitVec.ofNat 8 (n / 256 ^ (k - 1 - j)))) ∧
  (∀ k n, (beBytes k n).length = k) ∧
  (∀ (k : FrameKind) tag body,
    let kind := match k with
      | .hello => 1
      | .request => 2
      | .answer => 3
      | .notice => 4
      | .query => 5
    let covered := layout [(1, kind), (2, body.length), (2, tag.toNat)] ++ body
    frameBytes k tag body = covered ++ layout [(4, (crc32 covered).toNat)]) ∧
  (∀ bytes : List Byte, crc32 bytes = ~~~((bytes.flatMap (fun b => (List.range 8).map b.getLsbD)).foldl
    (fun (reg : BitVec 32) bit => if reg.msb != bit then (reg <<< 1) ^^^ 0x04C11DB7#32 else reg <<< 1)
    0xFFFFFFFF#32).reverse) ∧
  TxFrame.hello.bytes = frameBytes .hello 0 [] ∧
  (∀ a, (TxFrame.answer a).bytes = frameBytes .answer a.tag a.body) ∧
  (∀ i number round seq n, (TxFrame.notice i number round seq n).bytes = frameBytes .notice seq n.body) ∧
  (∀ r : GateReply, r.bytes = frameBytes .answer (r.number.setWidth 16) (layout [(1, r.code.byte.toNat)])) ∧
  (∀ a : Answer, a.body =
    layout [(1, a.status.byte.toNat), (1, if a.replay then 1 else 0), (1, a.code.toNat)] ++ a.result.bytes) ∧
  Result.empty.bytes = [] ∧
  (∀ number window quota, (Result.joined number window quota).bytes = layout [(4, number), (1, window), (2, quota)]) ∧
  (∀ h mode token, (Result.lease h mode token).bytes =
    layout [(2, h.slot), (1, h.gen.toNat), (1, modeOf mode), (4, token.getD 0)]) ∧
  (∀ h hold deadline, (Result.renewed h hold deadline).bytes =
    layout [(2, h.slot), (1, h.gen.toNat), (4, hold), (4, deadline.toNat)]) ∧
  (∀ h, (Result.handle h).bytes = layout [(2, h.slot), (1, h.gen.toNat)]) ∧
  (∀ reason, (Result.waitEnd reason).bytes = layout [(1, reason.byte.toNat)]) ∧
  (∀ entries more, (Result.leases entries more).bytes = layout [(1, entries.length), (1, if more then 1 else 0)] ++
    entries.flatMap (fun e => layout [(8, e.holder.toNat), (1, modeOf e.mode), (5, e.start), (4, e.count)])) ∧
  (∀ entries next, (Result.slots entries next).bytes = layout [(1, entries.length), (2, next.getD 65535)] ++
    entries.flatMap (fun e => slotEntry false e.1 e.2)) ∧
  (∀ tag h mode volume start count token, (Notice.granted tag h mode volume start count token).body =
    layout [(1, 1), (2, tag.toNat), (2, h.slot), (1, h.gen.toNat), (1, modeOf mode), (1, volume.val), (5, start), (4, count),
      (4, token.getD 0)]) ∧
  (∀ tag reason, (Notice.waitEnded tag reason).body = layout [(1, 2), (2, tag.toNat), (1, reason.byte.toNat)]) ∧
  (∀ h, (Notice.recall h).body = layout [(1, 3), (2, h.slot), (1, h.gen.toNat)]) ∧
  (∀ h reason, (Notice.revoked h reason).body = layout [(1, 4), (2, h.slot), (1, h.gen.toNat), (1, reason.byte.toNat)]) ∧
  (∀ h, (Notice.expired h).body = layout [(1, 5), (2, h.slot), (1, h.gen.toNat)]) ∧
  Notice.resync.body = layout [(1, 6)] ∧
  (∀ own n (g : Gen), slotEntry own n { gen := g, body := .free } = layout [(2, n), (1, g.toNat), (1, 0), (43, 0)]) ∧
  (∀ own n (g : Gen) l d, slotEntry own n { gen := g, body := .pending l d } =
    layout [(2, n), (1, g.toNat), (1, 1), (1, l.volume.val), (5, l.start), (4, l.count), (1, modeOf l.mode),
      (2, l.originTag.toNat),
      (2, bitsNat [false, l.holdLength.isSome, false, d.isSome, false, false, false, false, false, own]),
      (4, 0), (4, l.holdLength.getD 0), (4, 0), (4, timeOf d), (2, 0), (4, 0), (4, 0), (2, 0)]) ∧
  (∀ own n (g : Gen) l ten, slotEntry own n { gen := g, body := .held l ten } =
    let wait := ten.upgrade.bind (fun u => u.waitDeadline)
    let recalled := ten.recallMark.bind (fun m => m.deadline)
    layout [(2, n), (1, g.toNat), (1, 2), (1, l.volume.val), (5, l.start), (4, l.count), (1, modeOf l.mode),
      (2, l.originTag.toNat),
      (2, bitsNat [ten.token.isSome, l.holdLength.isSome, ten.holdDeadline.isSome, false, ten.upgrade.isSome, wait.isSome,
        ten.recallMark.isSome, recalled.isSome, true, own]),
      (4, ten.token.getD 0), (4, l.holdLength.getD 0), (4, timeOf ten.holdDeadline), (4, 0),
      (2, (ten.upgrade.map (fun u => u.tag.toNat)).getD 0), (4, timeOf wait), (4, timeOf recalled), (2, ten.gateUse)]) ∧
  (∀ n (x : Slot), (RecordCopy.slot n x).bytes = slotEntry true n x ++
    layout [(1, (x.body.lease?.map (fun l => l.owner.val)).getD 0)]) ∧
  (RecordCopy.waitEntry none).bytes = layout [(1, 0), (1, 0), (2, 0), (1, 0), (4, 0)] ∧
  (∀ e : WaitEntry, (RecordCopy.waitEntry (some e)).bytes = layout [(1, 1), (1, if e.kind = .upgrade then 1 else 0),
    (2, e.slot), (1, e.volume.val), (4, e.arrival.toNat)]) ∧
  (∀ (x : Session) slots place next, (RecordCopy.session x slots place next).bytes =
    let count := fun m => (x.outstanding.filter (fun y => decide (y.2 = m))).length
    let timer := fun t : SessionTimer => match t with
      | .stopped => (0, none)
      | .running d => (1, some d)
      | .expired d => (2, some d)
    layout [(1, x.state.byte.toNat), (8, x.name.toNat), (4, x.number), (1, (x.port.map (fun p => p.val)).getD 255),
      (1, x.window), (2, x.quota), (2, slots), (1, count .queued), (1, count .parked), (1, x.cache.length),
      (1, (timer x.term).1), (4, timeOf (timer x.term).2), (4, timeOf (timer x.grace).2),
      (1, match x.closeKind with | none => 0 | some .depart => 1 | some .purge => 2),
      (1, x.queue.length), (2, x.nextSeq.toNat), (1, if x.overflow then 1 else 0), (1, place.getD 255), (1, next.getD 255),
      (1, bitsNat [(timer x.term).2.isSome, (timer x.grace).2.isSome])]) ∧
  (∀ v : Volume, (RecordCopy.volume v).bytes = layout [(1, v.state.byte.toNat), (6, v.size), (4, v.fence)]) ∧
  codedFrom 0 Status.byte [.ok, .parked, .noCredit, .noSession, .alreadyJoined, .nameInUse, .noSessionSlot, .reclaimFailed,
    .busy, .badVolume, .badRange, .selfOverlap, .quota, .tableFull, .waitFull, .conflict, .staleHandle, .notOwner, .sameMode,
    .upgradeConflict, .notTimed, .tooLate, .notParked, .cancelled, .badRequest] ∧
  codedFrom 1 WaitReason.byte [.cancelled, .timedOut, .sessionEnded, .volumeOffline, .leaseGone] ∧
  codedFrom 1 RevokeReason.byte [.recallLimit, .maintenance, .volumeOffline] ∧
  codedFrom 0 GateCode.byte [.allow, .denyFormat, .denySession, .denyVolume, .denyUncovered, .denyMode, .denyToken,
    .refusedFull] ∧
  codedFrom 0 SessionState.byte [.free, .active, .orphaned, .closing] ∧
  codedFrom 0 VolumeState.byte [.offline, .online, .frozen]

/-- What the part reads: a REQUEST body laid out as Table 11-3 is the request with its fields; one of another length, with an
undefined flags bit or a mode byte above 1, or with a length that its flags byte does not give, is not well formed; a code of
no kind is an unknown request; a 13-byte gate query is its control, volume, start, count and token (R186, R187). The frame
check on arrival: bytes laid out as a frame of a kind and body length that Table 11-2 lists for the port are that frame, and
any other bytes are a bad frame (R132, R148, R185). -/
def Obligations.RequestsAreRead : Prop :=
  let modeOf := fun m : Mode => match m with
    | .shared => 0
    | .exclusive => 1
  let opt := fun (w : Nat) (x : Option Nat) => x.toList.map (fun v => (w, v))
  (∀ (name : Name) window reclaim, window < 256 → (∀ x, reclaim = some x → x < 2 ^ 32) →
    parseRequest (layout ([(1, 0x01), (8, name.toNat), (1, window), (1, bitsNat [reclaim.isSome])] ++ opt 4 reclaim)) =
      .join name window reclaim) ∧
  parseRequest (layout [(1, 0x02)]) = .keepalive ∧
  (∀ a : AcquireReq, a.volume < 2 ^ 8 → a.start < 2 ^ 40 → a.count < 2 ^ 32 → (∀ x, a.hold = some x → x < 2 ^ 32) →
    (∀ x, a.waitLimit = some x → x < 2 ^ 16) →
    parseRequest (layout ([(1, 0x03), (1, a.volume), (5, a.start), (4, a.count), (1, modeOf a.mode),
      (1, bitsNat [a.noWait, a.hold.isSome, a.waitLimit.isSome])] ++ opt 4 a.hold ++ opt 2 a.waitLimit)) = .acquire a) ∧
  (∀ c : ConvertReq, c.handle.slot < 2 ^ 16 → (∀ x, c.waitLimit = some x → x < 2 ^ 16) →
    parseRequest (layout ([(1, 0x04), (2, c.handle.slot), (1, c.handle.gen.toNat), (1, modeOf c.mode),
      (1, bitsNat [c.noWait, false, c.waitLimit.isSome])] ++ opt 2 c.waitLimit)) = .convert c) ∧
  (∀ (h : Handle) hold, h.slot < 2 ^ 16 → (∀ x, hold = some x → x < 2 ^ 32) →
    parseRequest (layout ([(1, 0x05), (2, h.slot), (1, h.gen.toNat), (1, bitsNat [false, hold.isSome])] ++ opt 4 hold)) =
      .renew h hold) ∧
  (∀ h : Handle, h.slot < 2 ^ 16 → parseRequest (layout [(1, 0x06), (2, h.slot), (1, h.gen.toNat)]) = .release h) ∧
  (∀ tag : Tag, parseRequest (layout [(1, 0x07), (2, tag.toNat)]) = .cancel tag) ∧
  (∀ volume start count, volume < 2 ^ 8 → start < 2 ^ 40 → count < 2 ^ 32 →
    parseRequest (layout [(1, 0x08), (1, volume), (5, start), (4, count)]) = .query volume start count) ∧
  (∀ cursor, cursor < 2 ^ 16 → parseRequest (layout [(1, 0x09), (2, cursor)]) = .list cursor) ∧
  (∀ n : BitVec 16, parseRequest (layout [(1, 0x0A), (2, n.toNat)]) = .noticeAck n) ∧
  parseRequest (layout [(1, 0x0B)]) = .depart ∧
  codedFrom 1 ReqKind.code [.join, .keepalive, .acquire, .convert, .renew, .release, .cancel, .query, .list, .noticeAck,
    .depart] ∧
  (∀ (k : ReqKind) rest, (parseRequest (k.code :: rest)).kind? = some k) ∧
  (∀ (c : Byte) rest, c = 0 ∨ 0x0B < c.toNat → parseRequest (c :: rest) = .unknown c) ∧
  (∀ k lengths rest, (k, lengths) ∈ [(ReqKind.join, [10, 14]), (.keepalive, [0]), (.acquire, [12, 14, 16, 18]),
      (.convert, [5, 7]), (.renew, [4, 8]), (.release, [3]), (.cancel, [2]), (.query, [10]), (.list, [2]), (.noticeAck, [2]),
      (.depart, [0])] →
    rest.length ∉ lengths → parseRequest (k.code :: rest) = .malformed k) ∧
  (∀ (fields : List Byte) (flags : Byte) tail, fields.length = 9 →
    1 < flags.toNat ∨ tail.length ≠ (if flags = 1 then 4 else 0) →
    parseRequest (0x01 :: (fields ++ flags :: tail)) = .malformed .join) ∧
  (∀ (fields : List Byte) (mode flags : Byte) tail, fields.length = 10 →
    1 < mode.toNat ∨ 7 < flags.toNat ∨
      tail.length ≠ (if flags.getLsbD 1 then 4 else 0) + (if flags.getLsbD 2 then 2 else 0) →
    parseRequest (0x03 :: (fields ++ mode :: flags :: tail)) = .malformed .acquire) ∧
  (∀ (fields : List Byte) (mode flags : Byte) tail, fields.length = 3 →
    1 < mode.toNat ∨ 7 < flags.toNat ∨ flags.getLsbD 1 = true ∨ tail.length ≠ (if flags.getLsbD 2 then 2 else 0) →
    parseRequest (0x04 :: (fields ++ mode :: flags :: tail)) = .malformed .convert) ∧
  (∀ (fields : List Byte) (flags : Byte) tail, fields.length = 3 →
    (flags ≠ 0 ∧ flags ≠ 2) ∨ tail.length ≠ (if flags = 2 then 4 else 0) →
    parseRequest (0x05 :: (fields ++ flags :: tail)) = .malformed .renew) ∧
  (∀ (p : PortId) (tag : Tag) (body : List Byte), body.length < 65536 →
    rpArrival p (frameBytes .hello tag body) = (if body = [] then .helloReceive p else .badFrame p) ∧
    rpArrival p (frameBytes .request tag body) =
      (if 1 ≤ body.length ∧ body.length ≤ 19 then .requestIntake p tag body else .badFrame p) ∧
    rpArrival p (frameBytes .answer tag body) =
      (if 3 ≤ body.length ∧ body.length ≤ 382 then .discardedFrame p .answer else .badFrame p) ∧
    rpArrival p (frameBytes .notice tag body) =
      (if 1 ≤ body.length ∧ body.length ≤ 21 then .discardedFrame p .notice else .badFrame p) ∧
    rpArrival p (frameBytes .query tag body) = .badFrame p ∧
    gateArrival (frameBytes .hello tag body) = (if body = [] then .gateHelloReceive else .gateBadFrame) ∧
    gateArrival (frameBytes .query tag body) = (if body.length = 13 then .gateQuery tag body else .gateBadFrame) ∧
    gateArrival (frameBytes .answer tag body) =
      (if body.length = 1 then .gateDiscardedFrame .answer else .gateBadFrame) ∧
    gateArrival (frameBytes .request tag body) = .gateBadFrame ∧
    gateArrival (frameBytes .notice tag body) = .gateBadFrame) ∧
  (∀ (p : PortId) (bytes : List Byte), (∀ k tag body, body.length < 65536 → bytes ≠ frameBytes k tag body) →
    rpArrival p bytes = .badFrame p ∧ gateArrival bytes = .gateBadFrame) ∧
  ∀ (tag : BitVec 16) control volume start count token, control < 2 ^ 8 → volume < 2 ^ 8 → start < 2 ^ 40 →
    count < 2 ^ 16 → token < 2 ^ 32 →
    parseGateQuery tag (layout [(1, control), (1, volume), (5, start), (2, count), (4, token)]) =
      { number := tag.extractLsb' 0 8, path := control % 8, volume := volume, start := start, count := count,
        access := if control / 16 % 4 = 1 then .read else if control / 16 % 4 = 2 then .write else .other, token := token }
end

