-- ==== Sys2Proof/Laws/Lists.lean ====
section
/-! SUPPORT. Lemmas of the sparse lists and fixed arrays: what a lookup finds after an insertion or an erasure, the
canonical form, counting, and reading an array after an update. -/

namespace Sys2Proof.Machine

/-! ### Fixed arrays -/

theorem upd_same {α : Type} {n : Nat} (v : Vector α n) (i : Fin n) (x : α) : (upd v i x)[i] = x := by
  simp [upd]

theorem upd_other {α : Type} {n : Nat} (v : Vector α n) (i j : Fin n) (x : α) (h : i ≠ j) :
    (upd v i x)[j] = v[j] := by
  have hne : i.val ≠ j.val := fun e => h (Fin.ext e)
  simp [upd, hne]

theorem upd_get {α : Type} {n : Nat} (v : Vector α n) (i j : Fin n) (x : α) :
    (upd v i x)[j] = if i = j then x else v[j] := by
  by_cases h : i = j
  · subst h; rw [if_pos rfl]; exact upd_same v i x
  · rw [if_neg h]; exact upd_other v i j x h

@[simp] theorem upd_same_val {α : Type} {n : Nat} (v : Vector α n) (i : Fin n) (x : α) : (upd v i x)[i.val] = x :=
  upd_same v i x

@[simp] theorem upd_other_val {α : Type} {n : Nat} (v : Vector α n) (i j : Fin n) (x : α) (h : i ≠ j) :
    (upd v i x)[j.val] = v[j.val] := upd_other v i j x h

/-! ### Folds -/

/-- What every step of a fold keeps, the fold keeps. -/
theorem foldl_keeps {α β : Type} (P : β → Prop) (f : β → α → β) (h : ∀ b a, P b → P (f b a)) :
    ∀ (l : List α) (b : β), P b → P (l.foldl f b)
  | [], _, hb => hb
  | a :: l, b, hb => foldl_keeps P f h l (f b a) (h b a hb)

/-! ### Search -/

theorem findFrom_some {p : Nat → Bool} : ∀ {fuel n k : Nat}, findFrom p fuel n = some k →
    p k = true ∧ n ≤ k ∧ k < n + fuel
  | 0, _, _, h => by simp [findFrom] at h
  | fuel + 1, n, k, h => by
    by_cases hp : p n = true
    · simp [findFrom, hp] at h
      subst h; exact ⟨hp, Nat.le_refl _, by omega⟩
    · simp [findFrom, hp] at h
      have ih := findFrom_some h
      exact ⟨ih.1, by omega, by omega⟩

/-! ### Sparse lists -/

theorem lookupKey_mem {α : Type} {k : Nat} {v : α} : ∀ {l : List (Nat × α)}, lookupKey k l = some v → (k, v) ∈ l
  | [], h => by simp [lookupKey] at h
  | (j, w) :: l, h => by
    by_cases hj : j = k
    · simp [lookupKey, hj] at h; subst h; subst hj; simp
    · simp [lookupKey, hj] at h
      exact List.mem_cons_of_mem _ (lookupKey_mem h)

theorem lookupKey_of_mem {α : Type} {k : Nat} {v : α} : ∀ {l : List (Nat × α)}, keysRise l → (k, v) ∈ l →
    lookupKey k l = some v
  | [], _, h => by simp at h
  | (j, w) :: l, hr, h => by
    rcases List.mem_cons.mp h with he | ht
    · cases he; simp [lookupKey]
    · have hlt : j < k := (List.pairwise_cons.mp hr).1 (k, v) ht
      have hne : ¬ j = k := by omega
      simp [lookupKey, hne]
      exact lookupKey_of_mem (List.pairwise_cons.mp hr).2 ht

theorem lookupKey_none {α : Type} {k : Nat} : ∀ {l : List (Nat × α)}, (∀ p ∈ l, p.1 ≠ k) → lookupKey k l = none
  | [], _ => rfl
  | (j, w) :: l, h => by
    have hj : ¬ j = k := h (j, w) (by simp)
    simp [lookupKey, hj]
    exact lookupKey_none (fun p hp => h p (by simp [hp]))

theorem lookupKey_insert {α : Type} (k j : Nat) (v : α) : ∀ (l : List (Nat × α)),
    lookupKey j (insertKey k v l) = if j = k then some v else lookupKey j l
  | [] => by
    by_cases h : j = k
    · subst h; simp [insertKey, lookupKey]
    · have h' : ¬ k = j := fun e => h e.symm
      simp [insertKey, lookupKey, h, h']
  | (i, w) :: l => by
    have ih := lookupKey_insert k j v l
    unfold insertKey
    by_cases h1 : k < i
    · by_cases h : j = k
      · subst h; simp [h1, lookupKey]
      · have h' : ¬ k = j := fun e => h e.symm
        simp [h1, lookupKey, h, h']
    · by_cases h2 : k = i
      · subst h2
        by_cases h : j = k
        · subst h; simp [lookupKey]
        · have h' : ¬ k = j := fun e => h e.symm
          simp [lookupKey, h, h']
      · simp only [h1, h2, if_false, lookupKey]
        by_cases h : i = j
        · subst h
          have h' : ¬ i = k := fun e => h2 e.symm
          simp [h']
        · simp [h, ih]

theorem lookupKey_erase {α : Type} (k j : Nat) : ∀ (l : List (Nat × α)),
    lookupKey j (eraseKey k l) = if j = k then none else lookupKey j l
  | [] => by simp [eraseKey, lookupKey]
  | (i, w) :: l => by
    have ih := lookupKey_erase k j l
    unfold eraseKey at ih ⊢
    by_cases hi : i = k
    · subst hi
      by_cases h : j = i
      · subst h; simpa using ih
      · have h' : ¬ i = j := fun e => h e.symm
        simp [h, lookupKey, h'] at ih ⊢
        exact ih
    · by_cases h : i = j
      · subst h; simp [hi, lookupKey]
      · simp [hi, lookupKey, h]
        exact ih

theorem mem_insertKey {α : Type} {k : Nat} {v : α} {p : Nat × α} : ∀ {l : List (Nat × α)}, p ∈ insertKey k v l →
    p = (k, v) ∨ p ∈ l
  | [], h => by simpa [insertKey] using h
  | (i, w) :: l, h => by
    unfold insertKey at h
    by_cases h1 : k < i
    · simp [h1] at h; simpa using h
    · by_cases h2 : k = i
      · simp [h2] at h
        rcases h with h | h
        · left; rw [h, h2]
        · right; simp [h]
      · simp [h1, h2] at h
        rcases h with h | h
        · right; simp [h]
        · rcases mem_insertKey h with h | h
          · left; exact h
          · right; simp [h]

theorem keysRise_insert {α : Type} (k : Nat) (v : α) : ∀ {l : List (Nat × α)}, keysRise l → keysRise (insertKey k v l)
  | [], _ => by simp [insertKey, keysRise]
  | (i, w) :: l, hr => by
    obtain ⟨hh, ht⟩ := List.pairwise_cons.mp hr
    unfold insertKey
    by_cases h1 : k < i
    · simp only [h1, if_true]
      refine List.pairwise_cons.mpr ⟨?_, hr⟩
      intro p hp
      rcases List.mem_cons.mp hp with rfl | hp
      · exact h1
      · exact Nat.lt_trans h1 (hh p hp)
    · by_cases h2 : k = i
      · simp only [h2, Nat.lt_irrefl, if_false, if_true]
        exact List.pairwise_cons.mpr ⟨hh, ht⟩
      · simp only [h1, h2, if_false]
        refine List.pairwise_cons.mpr ⟨?_, keysRise_insert k v ht⟩
        intro p hp
        rcases mem_insertKey hp with rfl | hp
        · simp only; omega
        · exact hh p hp

theorem keysRise_erase {α : Type} (k : Nat) {l : List (Nat × α)} (hr : keysRise l) : keysRise (eraseKey k l) :=
  List.Pairwise.filter _ hr

theorem mem_eraseKey {α : Type} {k : Nat} {p : Nat × α} {l : List (Nat × α)} (h : p ∈ eraseKey k l) : p ∈ l :=
  (List.mem_filter.mp h).1

/-! ### Counting the listed values that pass a test -/

/-- A value as the count of itself. -/
def countOne {α : Type} (q : α → Bool) : Option α → Nat
  | some v => if q v then 1 else 0
  | none => 0

theorem countKeys_cons {α : Type} (q : α → Bool) (p : Nat × α) (l : List (Nat × α)) :
    countKeys q (p :: l) = (if q p.2 then 1 else 0) + countKeys q l := by
  unfold countKeys
  by_cases h : q p.2 = true
  · simp [h]; omega
  · simp [h]

theorem countKeys_insert {α : Type} (q : α → Bool) (k : Nat) (v : α) : ∀ {l : List (Nat × α)}, keysRise l →
    countKeys q (insertKey k v l) + countOne q (lookupKey k l) = countKeys q l + (if q v then 1 else 0)
  | [], _ => by cases h : q v <;> simp [insertKey, lookupKey, countOne, countKeys, h]
  | (i, w) :: l, hr => by
    obtain ⟨hh, ht⟩ := List.pairwise_cons.mp hr
    have ih := countKeys_insert q k v ht
    unfold insertKey
    by_cases h1 : k < i
    · have hn : lookupKey k ((i, w) :: l) = none := by
        refine lookupKey_none ?_
        intro p hp
        rcases List.mem_cons.mp hp with rfl | hp
        · simp only; omega
        · have := hh p hp; simp only at this; omega
      rw [hn]
      simp only [h1, if_true, countKeys_cons, countOne]
      omega
    · by_cases h2 : k = i
      · subst h2
        simp only [Nat.lt_irrefl, if_false, if_true, countKeys_cons, lookupKey, countOne]
        omega
      · have h2' : ¬ i = k := fun e => h2 e.symm
        simp only [h1, h2, if_false, countKeys_cons, lookupKey, h2']
        omega

theorem countKeys_erase {α : Type} (q : α → Bool) (k : Nat) : ∀ {l : List (Nat × α)}, keysRise l →
    countKeys q (eraseKey k l) + countOne q (lookupKey k l) = countKeys q l
  | [], _ => by simp [eraseKey, lookupKey, countOne, countKeys]
  | (i, w) :: l, hr => by
    obtain ⟨hh, ht⟩ := List.pairwise_cons.mp hr
    have ih := countKeys_erase q k ht
    unfold eraseKey at ih ⊢
    by_cases hi : i = k
    · subst hi
      have hn : lookupKey i l = none := lookupKey_none (fun p hp => by have := hh p hp; simp only at this; omega)
      rw [hn] at ih
      simp only [countOne] at ih
      simp [lookupKey, countOne, countKeys_cons]
      omega
    · simp [hi, lookupKey, countKeys_cons]
      omega

/-! ### Searches -/

/-- The search of a fixed array finds the lowest index that passes. -/
theorem find_lowest {n : Nat} (test : Fin n → Bool) (k : Fin n) (hk : test k = true) (hl : ∀ j, j < k → test j = false) :
    (List.finRange n).find? test = some k := by
  rw [List.find?_eq_some_iff_getElem]
  refine ⟨hk, k.val, by simp, by simp, ?_⟩
  intro j hj
  have := hl ⟨j, by omega⟩ (by exact hj)
  simp [this]
/-- It finds the only index that passes. -/
theorem find_unique {n : Nat} (test : Fin n → Bool) (k : Fin n) (hk : test k = true) (hl : ∀ j, test j = true → j = k) :
    (List.finRange n).find? test = some k := by
  apply find_lowest test k hk
  intro j hj
  cases h : test j with
  | false => rfl
  | true => have := hl j h; subst this; omega
/-- It finds nothing where nothing passes. -/
theorem find_none {n : Nat} (test : Fin n → Bool) (h : ∀ j, test j = false) : (List.finRange n).find? test = none := by
  rw [List.find?_eq_none]; intro x _; simp [h x]

/-- The search of the numbers from `n` on finds the lowest that passes. -/
theorem findFrom_eq (p : Nat → Bool) (k : Nat) (hk : p k = true) : ∀ fuel n, n ≤ k → k < n + fuel → (∀ m, n ≤ m → m < k → p m = false) → findFrom p fuel n = some k := by
  intro fuel
  induction fuel with
  | zero => intro n h1 h2; omega
  | succ f ih =>
    intro n h1 h2 h3
    unfold findFrom
    by_cases h : n = k
    · subst h; simp [hk]
    · rw [h3 n (Nat.le_refl n) (by omega)]
      simp only [Bool.false_eq_true, if_false]
      exact ih (n+1) (by omega) (by omega) (fun m a b => h3 m (by omega) b)
/-- It finds nothing where nothing passes. -/
theorem findFrom_none (p : Nat → Bool) : ∀ fuel n, (∀ m, n ≤ m → m < n + fuel → p m = false) → findFrom p fuel n = none := by
  intro fuel
  induction fuel with
  | zero => intro n _; rfl
  | succ f ih =>
    intro n h
    unfold findFrom
    rw [h n (Nat.le_refl n) (by omega)]
    simp only [Bool.false_eq_true, if_false]
    exact ih (n+1) (fun m a b => h m (by omega) (by omega))

end Sys2Proof.Machine
end

