-- ==== Sys2Proof/Laws/Tables.lean ====
section
/-! SUPPORT. The Lease Table and the operations that change it: what each slot holds afterwards, which fields are left
alone, and that the canonical form is kept. -/

namespace Sys2Proof.Machine

/-! ### The sparse table -/

theorem SlotTable.get_set (t : SlotTable) (n m : Nat) (s : Slot) :
    (t.set n s).get m = if m = n then s else t.get m := by
  unfold SlotTable.set SlotTable.get
  by_cases hd : s = { gen := t.freeGen, body := .free }
  · simp only [hd, if_true, lookupKey_erase]
    by_cases h : m = n <;> simp [h]
  · simp only [hd, if_false, lookupKey_insert]
    by_cases h : m = n <;> simp [h]

theorem SlotTable.set_freeGen (t : SlotTable) (n : Nat) (s : Slot) : (t.set n s).freeGen = t.freeGen := by
  unfold SlotTable.set; split <;> rfl

theorem SlotTable.wf_set {t : SlotTable} (h : t.wf) {n : Nat} (hn : n < Config.slots) (s : Slot) : (t.set n s).wf := by
  unfold SlotTable.set
  by_cases hd : s = { gen := t.freeGen, body := .free }
  · rw [if_pos hd]
    exact ⟨keysRise_erase n h.1, fun p hp => h.2 p (mem_eraseKey hp)⟩
  · rw [if_neg hd]
    refine ⟨keysRise_insert n s h.1, fun p hp => ?_⟩
    rcases mem_insertKey hp with rfl | hp
    · exact ⟨hn, hd⟩
    · exact h.2 p hp

/-- A slot that is not FREE is listed, so its number is below 4096. -/
theorem SlotTable.lt_of_notFree {t : SlotTable} (h : t.wf) {n : Nat} (hn : (t.get n).body ≠ .free) :
    n < Config.slots := by
  unfold SlotTable.get at hn
  cases hl : lookupKey n t.entries with
  | none => rw [hl] at hn; exact absurd rfl hn
  | some s => exact (h.2 _ (lookupKey_mem hl)).1

/-- How a count over the listed slots changes when one slot is set; `q` counts no FREE slot. -/
theorem SlotTable.count_set {t : SlotTable} (h : t.wf) (q : Slot → Bool) (hq : ∀ g, q { gen := g, body := .free } = false)
    (n : Nat) (s : Slot) :
    countKeys q (t.set n s).entries + (if q (t.get n) then 1 else 0) =
      countKeys q t.entries + (if q s then 1 else 0) := by
  have hget : (if q (t.get n) then 1 else 0) = countOne q (lookupKey n t.entries) := by
    unfold SlotTable.get
    cases hl : lookupKey n t.entries with
    | none => simp [countOne, hq]
    | some x => simp [countOne]
  rw [hget]
  unfold SlotTable.set
  by_cases hd : s = { gen := t.freeGen, body := .free }
  · rw [if_pos hd]
    have := countKeys_erase q n h.1
    rw [hd, hq]
    simpa using this
  · rw [if_neg hd]
    exact countKeys_insert q n s h.1

/-! ### Bodies -/

theorem Tables.body_setBody (t : Tables) (n m : Nat) (b : SlotBody) :
    (t.setBody n b).body m = if m = n then b else t.body m := by
  unfold Tables.body Tables.setBody
  simp only [SlotTable.get_set]
  by_cases h : m = n <;> simp [h]

theorem Tables.body_freeSlot (t : Tables) (n m : Nat) (i : SessionId) :
    (t.freeSlot n i).body m = if m = n then .free else t.body m := by
  unfold Tables.body Tables.freeSlot
  simp only [SlotTable.get_set]
  by_cases h : m = n <;> simp [h]

@[simp] theorem Tables.body_addEntry (t : Tables) (e : Nat) (k : WaitKind) (n m : Nat) (v : VolumeId) :
    (t.addEntry e k n v).body m = t.body m := rfl

@[simp] theorem Tables.body_removeEntry (t : Tables) (e m : Nat) (v : VolumeId) :
    (t.removeEntry e v).body m = t.body m := rfl

@[simp] theorem Tables.body_indexAdd (t : Tables) (v : VolumeId) (n m : Nat) : (t.indexAdd v n).body m = t.body m := rfl

@[simp] theorem Tables.body_indexRemove (t : Tables) (v : VolumeId) (n m : Nat) :
    (t.indexRemove v n).body m = t.body m := rfl

@[simp] theorem Tables.body_drawFor (t : Tables) (k : Mode) (v : VolumeId) (m : Nat) :
    (t.drawFor k v).body m = t.body m := by
  cases k <;> rfl

/-! ### The fields that `drawFor` leaves alone, and the counter -/

@[simp] theorem Tables.slots_drawFor (t : Tables) (k : Mode) (v : VolumeId) : (t.drawFor k v).slots = t.slots := by
  cases k <;> rfl
@[simp] theorem Tables.index_drawFor (t : Tables) (k : Mode) (v : VolumeId) : (t.drawFor k v).index = t.index := by
  cases k <;> rfl
@[simp] theorem Tables.pool_drawFor (t : Tables) (k : Mode) (v : VolumeId) : (t.drawFor k v).pool = t.pool := by
  cases k <;> rfl
@[simp] theorem Tables.waitLists_drawFor (t : Tables) (k : Mode) (v : VolumeId) :
    (t.drawFor k v).waitLists = t.waitLists := by
  cases k <;> rfl
@[simp] theorem Tables.occupancy_drawFor (t : Tables) (k : Mode) (v : VolumeId) :
    (t.drawFor k v).occupancy = t.occupancy := by
  cases k <;> rfl
@[simp] theorem Tables.slotCounts_drawFor (t : Tables) (k : Mode) (v : VolumeId) :
    (t.drawFor k v).slotCounts = t.slotCounts := by
  cases k <;> rfl

@[simp] theorem Tables.indexOf_drawFor (t : Tables) (k : Mode) (v w : VolumeId) :
    (t.drawFor k v).indexOf w = t.indexOf w := by
  cases k <;> rfl
@[simp] theorem Tables.waitList_drawFor (t : Tables) (k : Mode) (v w : VolumeId) :
    (t.drawFor k v).waitList w = t.waitList w := by
  cases k <;> rfl

/-- A draw changes one thing: the counter of its volume, by 1, for EXCLUSIVE (R127). -/
theorem Tables.volume_drawFor (t : Tables) (k : Mode) (v w : VolumeId) :
    (t.drawFor k v).volume w =
      if k = .exclusive ∧ v = w then { t.volume w with fence := (t.volume w).fence + 1 } else t.volume w := by
  cases k with
  | shared => simp [Tables.drawFor]
  | exclusive =>
    show (upd t.volumes v { t.volume v with fence := (t.volume v).fence + 1 })[w] = _
    rw [upd_get]
    by_cases h : v = w
    · subst h; simp
    · simp only [h, if_false, and_false]; rfl

theorem Tables.fence_drawFor (t : Tables) (k : Mode) (v w : VolumeId) :
    ((t.drawFor k v).volume w).fence =
      if k = .exclusive ∧ v = w then (t.volume w).fence + 1 else (t.volume w).fence := by
  rw [t.volume_drawFor]; split <;> rfl

@[simp] theorem Tables.state_drawFor (t : Tables) (k : Mode) (v w : VolumeId) :
    ((t.drawFor k v).volume w).state = (t.volume w).state := by
  rw [t.volume_drawFor]; split <;> rfl

@[simp] theorem Tables.size_drawFor (t : Tables) (k : Mode) (v w : VolumeId) :
    ((t.drawFor k v).volume w).size = (t.volume w).size := by
  rw [t.volume_drawFor]; split <;> rfl

/-! ### The lists after an update -/

theorem Tables.indexOf_indexAdd (t : Tables) (v w : VolumeId) (n : Nat) :
    (t.indexAdd v n).indexOf w = if v = w then indexInsert t.startOf n (t.indexOf v) else t.indexOf w :=
  upd_get t.index v w _

theorem Tables.indexOf_indexRemove (t : Tables) (v w : VolumeId) (n : Nat) :
    (t.indexRemove v n).indexOf w = if v = w then (t.indexOf v).filter (fun m => !(m == n)) else t.indexOf w :=
  upd_get t.index v w _

theorem Tables.waitList_addEntry (t : Tables) (e : Nat) (k : WaitKind) (n : Nat) (v w : VolumeId) :
    (t.addEntry e k n v).waitList w = if v = w then t.waitList v ++ [e] else t.waitList w :=
  upd_get t.waitLists v w _

theorem Tables.waitList_removeEntry (t : Tables) (e : Nat) (v w : VolumeId) :
    (t.removeEntry e v).waitList w = if v = w then (t.waitList v).filter (fun d => !(d == e)) else t.waitList w :=
  upd_get t.waitLists v w _

theorem Tables.slotCount_makeSlot (t : Tables) (n : Nat) (i j : SessionId) (b : SlotBody) :
    (t.makeSlot n i b).slotCount j = if i = j then t.slotCount i + 1 else t.slotCount j :=
  upd_get t.slotCounts i j _

theorem Tables.slotCount_freeSlot (t : Tables) (n : Nat) (i j : SessionId) :
    (t.freeSlot n i).slotCount j = if i = j then t.slotCount i - 1 else t.slotCount j :=
  upd_get t.slotCounts i j _

/-! ### Searches -/

/-- A HELD lease that blocks a claim is found by the conflict search, when the index lists it. -/
theorem Tables.mem_conflictSearch (t : Tables) (c : Lease) (n : Nat) :
    n ∈ t.conflictSearch c ↔ n ∈ t.indexOf c.volume ∧ ∃ l ten, t.body n = .held l ten ∧ l.blocks c = true := by
  unfold Tables.conflictSearch Tables.searchHeld
  rw [List.mem_filter]
  refine and_congr_right (fun _ => ?_)
  cases hb : t.body n with
  | free => simp
  | pending l d => simp
  | held l ten => simp

/-- A slot passes `slotsWhere` when it is not FREE and its lease passes the test. -/
theorem Tables.mem_slotsWhere {t : Tables} (h : t.slots.wf) (p : Nat → Lease → Bool) (n : Nat) :
    n ∈ t.slotsWhere p ↔ ∃ l, (t.body n).lease? = some l ∧ p n l = true := by
  unfold Tables.slotsWhere Tables.body SlotTable.get
  constructor
  · intro hm
    obtain ⟨e, he, rfl⟩ := List.mem_map.mp hm
    obtain ⟨hmem, htest⟩ := List.mem_filter.mp he
    have hl := lookupKey_of_mem h.1 (show (e.1, e.2) ∈ t.slots.entries from hmem)
    rw [hl]
    cases hb : e.2.body.lease? with
    | none => rw [hb] at htest; exact absurd htest (by simp)
    | some l => rw [hb] at htest; exact ⟨l, rfl, htest⟩
  · rintro ⟨l, hl, hp⟩
    cases hlk : lookupKey n t.slots.entries with
    | none => rw [hlk] at hl; simp [SlotBody.lease?] at hl
    | some s =>
      rw [hlk] at hl
      refine List.mem_map.mpr ⟨(n, s), List.mem_filter.mpr ⟨lookupKey_mem hlk, ?_⟩, rfl⟩
      simp only at hl
      simp only [hl, hp]

end Sys2Proof.Machine
end

