-- ==== Sys2Proof/Laws/Updates.lean ====
section
/-! SUPPORT. Each law of the lease structures after a change of one slot: what has to be known of the slot's new body for
the law to be kept. `Laws/Moves.lean` puts these together for each change that a step can make. -/

namespace Sys2Proof.Machine

/-- The only body that changed is that of slot `n`, which is now `x`. -/
def bodyAt (t t' : Tables) (n : Nat) (x : SlotBody) : Prop := ∀ m, t'.body m = if m = n then x else t.body m

theorem bodyAt_self {t t' : Tables} {n : Nat} {x : SlotBody} (h : bodyAt t t' n x) : t'.body n = x := by
  rw [h n, if_pos rfl]

theorem bodyAt_other {t t' : Tables} {n m : Nat} {x : SlotBody} (h : bodyAt t t' n x) (hm : m ≠ n) :
    t'.body m = t.body m := by
  rw [h m, if_neg hm]

/-! ### Overlap and conflict -/

theorem Lease.overlaps_comm (a b : Lease) : a.overlaps b = b.overlaps a := by
  unfold Lease.overlaps Machine.overlaps
  have h1 : decide (a.volume = b.volume) = decide (b.volume = a.volume) := by
    by_cases h : a.volume = b.volume
    · simp [h]
    · have h' : ¬ b.volume = a.volume := fun e => h e.symm
      simp [h, h']
  rw [h1, Bool.and_comm (decide (a.start < b.start + b.count))]

theorem Lease.overlaps_volume {a b : Lease} (h : a.overlaps b = true) : a.volume = b.volume := by
  unfold Lease.overlaps at h
  simpa using (Bool.and_eq_true_iff.mp h).1

theorem conflicting_false {a b : Mode} (h : conflicting a b = false) : a = .shared ∧ b = .shared := by
  cases a <;> cases b <;> simp [conflicting] at h ⊢

/-- A claim that the conflict search finds nothing for meets only SHARED leases of other sessions, and is SHARED itself
where it meets one. -/
theorem Tables.noConflict {t : Tables} (hi : t.indexLaw) {c : Lease} (h : t.conflictSearch c = []) {n : Nat} {l : Lease}
    {ten : Tenure} (hb : t.body n = .held l ten) (ho : l.owner ≠ c.owner) (hv : l.overlaps c = true) :
    l.mode = .shared ∧ c.mode = .shared := by
  cases hc : conflicting l.mode c.mode with
  | false => exact conflicting_false hc
  | true =>
    have hm : n ∈ t.conflictSearch c := by
      rw [t.mem_conflictSearch]
      refine ⟨?_, l, ten, hb, ?_⟩
      · exact ((hi c.volume).2 n).mpr ⟨l, ten, hb, Lease.overlaps_volume hv⟩
      · simp [Lease.blocks, ho, hv, hc]
    rw [h] at hm
    exact absurd hm (by simp)

/-! ### First and second law -/

theorem lawOne_update {t t' : Tables} {n : Nat} {x : SlotBody} (h : t.lawOne) (hb : bodyAt t t' n x)
    (hx : ∀ l ten, x = .held l ten → ∀ m a ta, m ≠ n → t.body m = .held a ta → a.owner ≠ l.owner →
      a.overlaps l = true → a.mode = .shared ∧ l.mode = .shared) : t'.lawOne := by
  intro p q a ta b tb hpq hp hq ho hv
  by_cases hpn : p = n
  · subst hpn
    have hqp : q ≠ p := fun e => hpq e.symm
    rw [bodyAt_other hb hqp] at hq
    have := hx a ta ((bodyAt_self hb).symm.trans hp) q b tb hqp hq (fun e => ho e.symm)
      ((b.overlaps_comm a).trans hv)
    exact ⟨this.2, this.1⟩
  · rw [bodyAt_other hb hpn] at hp
    by_cases hqn : q = n
    · subst hqn
      exact hx b tb ((bodyAt_self hb).symm.trans hq) p a ta hpn hp ho hv
    · rw [bodyAt_other hb hqn] at hq
      exact h p q a ta b tb hpq hp hq ho hv

theorem lawTwo_update {t t' : Tables} {n : Nat} {x : SlotBody} (h : t.lawTwo) (hb : bodyAt t t' n x)
    (hx : ∀ l, x.lease? = some l → ∀ m a, m ≠ n → (t.body m).lease? = some a → a.owner = l.owner →
      a.overlaps l = false) : t'.lawTwo := by
  intro p q a b hpq hp hq ho
  by_cases hpn : p = n
  · subst hpn
    have hqp : q ≠ p := fun e => hpq e.symm
    rw [bodyAt_other hb hqp] at hq
    rw [bodyAt_self hb] at hp
    rw [a.overlaps_comm b]
    exact hx a hp q b hqp hq ho.symm
  · rw [bodyAt_other hb hpn] at hp
    by_cases hqn : q = n
    · subst hqn
      rw [bodyAt_self hb] at hq
      exact hx b hq p a hpn hp ho
    · rw [bodyAt_other hb hqn] at hq
      exact h p q a b hpq hp hq ho

/-- A slot that keeps its owner and extent keeps the second law. -/
theorem lawTwo_same {t t' : Tables} {n : Nat} {x : SlotBody} {l : Lease} (h : t.lawTwo) (hb : bodyAt t t' n x)
    (hl : (t.body n).lease? = some l)
    (hx : ∀ m, x.lease? = some m → m.owner = l.owner ∧ m.volume = l.volume ∧ m.start = l.start ∧ m.count = l.count) :
    t'.lawTwo := by
  refine lawTwo_update h hb (fun k hk m a hm ha ho => ?_)
  obtain ⟨h1, h2, h3, h4⟩ := hx k hk
  have := h m n a l hm ha hl (ho.trans h1)
  unfold Lease.overlaps at this ⊢
  rw [h2, h3, h4]
  exact this

/-! ### Fields, tokens and volumes -/

theorem fieldLaw_update {t t' : Tables} {n : Nat} {x : SlotBody} (h : t.fieldLaw) (hb : bodyAt t t' n x)
    (hx : ∀ l ten, x = .held l ten → (ten.token.isSome = true ↔ l.mode = .exclusive) ∧
      (ten.holdDeadline.isSome = l.holdLength.isSome) ∧ (ten.upgrade.isSome = true → l.mode = .shared)) :
    t'.fieldLaw := by
  intro p l ten hp
  by_cases hpn : p = n
  · subst hpn; exact hx l ten ((bodyAt_self hb).symm.trans hp)
  · rw [bodyAt_other hb hpn] at hp; exact h p l ten hp

theorem tokenLaw_update {t t' : Tables} {n : Nat} {x : SlotBody} (h : t.tokenLaw) (hb : bodyAt t t' n x)
    (hf : ∀ v : VolumeId, (t.volume v).fence ≤ (t'.volume v).fence ∧ (t'.volume v).fence ≤ Config.lastToken)
    (hx : ∀ l ten k, x = .held l ten → ten.token = some k → 1 ≤ k ∧ k ≤ (t'.volume l.volume).fence ∧
      ∀ m a ta, m ≠ n → t.body m = .held a ta → a.volume = l.volume → ta.token ≠ some k) : t'.tokenLaw := by
  refine ⟨fun v => (hf v).2, ?_, ?_⟩
  · intro p l ten k hp hk
    by_cases hpn : p = n
    · subst hpn
      obtain ⟨h1, h2, _⟩ := hx l ten k ((bodyAt_self hb).symm.trans hp) hk
      exact ⟨h1, h2⟩
    · rw [bodyAt_other hb hpn] at hp
      obtain ⟨h1, h2⟩ := h.2.1 p l ten k hp hk
      exact ⟨h1, Nat.le_trans h2 (hf l.volume).1⟩
  · intro p q a ta b tb k hpq hp hq hv hk
    by_cases hpn : p = n
    · subst hpn
      have hqp : q ≠ p := fun e => hpq e.symm
      rw [bodyAt_other hb hqp] at hq
      exact (hx a ta k ((bodyAt_self hb).symm.trans hp) hk).2.2 q b tb hqp hq hv.symm
    · rw [bodyAt_other hb hpn] at hp
      by_cases hqn : q = n
      · subst hqn
        intro hk'
        exact (hx b tb k ((bodyAt_self hb).symm.trans hq) hk').2.2 p a ta hpn hp hv hk
      · rw [bodyAt_other hb hqn] at hq
        exact h.2.2 p q a ta b tb k hpq hp hq hv hk

/-- The new counter value of an EXCLUSIVE grant is a token that no lease of the volume holds (R127). -/
theorem Tables.tokenFor_fresh {t : Tables} (h : t.tokenLaw) {md : Mode} {v : VolumeId} {k : Nat}
    (hk : t.tokenFor md v = some k) {m : Nat} {a : Lease} {ta : Tenure} (hb : t.body m = .held a ta)
    (hv : a.volume = v) : ta.token ≠ some k := by
  intro hta
  obtain ⟨_, h2⟩ := h.2.1 m a ta k hb hta
  cases md with
  | shared => simp [Tables.tokenFor] at hk
  | exclusive =>
    simp only [Tables.tokenFor, Option.some.injEq] at hk
    rw [hv] at h2
    omega

/-- The counter after a draw: not lower, and within its range when the grant was not refused for exhaustion. -/
theorem Tables.fence_step {t : Tables} (h : t.tokenLaw) {md : Mode} {v : VolumeId} (he : t.exhaustedFor md v = false)
    (w : VolumeId) : (t.volume w).fence ≤ ((t.drawFor md v).volume w).fence ∧
      ((t.drawFor md v).volume w).fence ≤ Config.lastToken := by
  rw [t.fence_drawFor]
  have hw := h.1 w
  split
  · rename_i hc
    obtain ⟨h1, h2⟩ := hc
    subst h1; subst h2
    simp [Tables.exhaustedFor] at he
    exact ⟨by omega, by omega⟩
  · exact ⟨Nat.le_refl _, hw⟩

/-- The token of a grant lies within the counter's range after the draw. -/
theorem Tables.tokenFor_range {t : Tables} {md : Mode} {v : VolumeId} {k : Nat} (hk : t.tokenFor md v = some k) :
    1 ≤ k ∧ k ≤ ((t.drawFor md v).volume v).fence := by
  cases md with
  | shared => simp [Tables.tokenFor] at hk
  | exclusive =>
    simp only [Tables.tokenFor, Option.some.injEq] at hk
    rw [t.fence_drawFor]
    simp
    omega

theorem Tables.tokenFor_isSome (t : Tables) (md : Mode) (v : VolumeId) :
    (t.tokenFor md v).isSome = true ↔ md = .exclusive := by
  cases md <;> simp [Tables.tokenFor]

theorem volumeLaw_update {t t' : Tables} {n : Nat} {x : SlotBody} (h : t.volumeLaw) (hb : bodyAt t t' n x)
    (hv : ∀ v : VolumeId, (t'.volume v).state = (t.volume v).state ∧ (t'.volume v).size = (t.volume v).size)
    (hx : ∀ l, x.lease? = some l →
      (t.volume l.volume).state ≠ .offline ∧ 0 < l.count ∧ l.start + l.count ≤ (t.volume l.volume).size) :
    t'.volumeLaw := by
  intro p l hp
  rw [(hv l.volume).1, (hv l.volume).2]
  by_cases hpn : p = n
  · subst hpn; rw [bodyAt_self hb] at hp; exact hx l hp
  · rw [bodyAt_other hb hpn] at hp; exact h p l hp

/-! ### Counts -/

theorem notFree_free (g : Gen) : (fun s : Slot => !s.body.isFree) { gen := g, body := .free } = false := rfl

theorem ownedBy_free (i : SessionId) (g : Gen) : Slot.ownedBy i { gen := g, body := .free } = false := rfl

/-- A slot that stays non-FREE with its owner keeps the counts. -/
theorem countLaw_same {t t' : Tables} (hwf : t.slots.wf) (h : t.countLaw) {n : Nat} {x : SlotBody} {g : Gen} {l m : Lease}
    (hs : t'.slots = t.slots.set n { gen := g, body := x }) (ho : t'.occupancy = t.occupancy)
    (hc : t'.slotCounts = t.slotCounts) (hl : (t.body n).lease? = some l) (hx : x.lease? = some m)
    (hm : m.owner = l.owner) : t'.countLaw := by
  have hfree : ∀ b : SlotBody, (∃ k, b.lease? = some k) → b.isFree = false := by
    intro b hb
    cases b with
    | free => obtain ⟨k, hk⟩ := hb; simp [SlotBody.lease?] at hk
    | pending _ _ => rfl
    | held _ _ => rfl
  refine ⟨?_, fun i => ?_⟩
  · have hc := SlotTable.count_set hwf (fun s => !s.body.isFree) notFree_free n { gen := g, body := x }
    rw [hs, ho, h.1]
    have h1 : (t.slots.get n).body.isFree = false := hfree _ ⟨l, hl⟩
    have h2 : x.isFree = false := hfree _ ⟨m, hx⟩
    simp only [h1, h2] at hc
    simp at hc
    omega
  · have hq := SlotTable.count_set hwf (Slot.ownedBy i) (ownedBy_free i) n { gen := g, body := x }
    rw [hs, show t'.slotCount i = t.slotCount i from congrArg (fun u : Vector Nat 12 => u[i]) hc, h.2 i]
    have h1 : Slot.ownedBy i (t.slots.get n) = decide (l.owner = i) := by
      unfold Slot.ownedBy; rw [show (t.slots.get n).body.lease? = some l from hl]
    have h2 : Slot.ownedBy i { gen := g, body := x } = decide (l.owner = i) := by
      unfold Slot.ownedBy; simp only [hx, hm]
    rw [h1, h2] at hq
    omega

/-- A FREE slot that becomes non-FREE raises both counts by one (R16). -/
theorem countLaw_make {t : Tables} (hwf : t.slots.wf) (h : t.countLaw) {n : Nat} {x : SlotBody} {m : Lease}
    (hf : t.body n = .free) (hx : x.lease? = some m) : (t.makeSlot n m.owner x).countLaw := by
  have hxf : x.isFree = false := by
    cases x with
    | free => simp [SlotBody.lease?] at hx
    | pending _ _ => rfl
    | held _ _ => rfl
  refine ⟨?_, fun i => ?_⟩
  · have hc := SlotTable.count_set hwf (fun s => !s.body.isFree) notFree_free n
      { gen := (t.slots.get n).gen, body := x }
    have h1 : (t.slots.get n).body.isFree = true := by rw [show (t.slots.get n).body = .free from hf]; rfl
    simp only [h1, hxf] at hc
    show t.occupancy + 1 = _
    rw [h.1]
    simp [Tables.makeSlot, Tables.setBody] at hc ⊢
    omega
  · have hq := SlotTable.count_set hwf (Slot.ownedBy i) (ownedBy_free i) n
      { gen := (t.slots.get n).gen, body := x }
    have h1 : Slot.ownedBy i (t.slots.get n) = false := by
      unfold Slot.ownedBy; rw [show (t.slots.get n).body = .free from hf]; rfl
    have h2 : Slot.ownedBy i { gen := (t.slots.get n).gen, body := x } = decide (m.owner = i) := by
      unfold Slot.ownedBy; simp only [hx]
    rw [h1, h2] at hq
    rw [t.slotCount_makeSlot]
    by_cases hi : m.owner = i
    · subst hi
      rw [if_pos rfl, h.2]
      simp [Tables.makeSlot, Tables.setBody] at hq ⊢
      omega
    · rw [if_neg hi, h.2]
      simp [hi] at hq
      exact hq.symm

/-- A non-FREE slot that becomes FREE lowers both counts by one (R16). -/
theorem countLaw_free {t : Tables} (hwf : t.slots.wf) (h : t.countLaw) {n : Nat} {l : Lease}
    (hl : (t.body n).lease? = some l) : (t.freeSlot n l.owner).countLaw := by
  have hnf : (t.slots.get n).body.isFree = false := by
    have hl' : (t.slots.get n).body.lease? = some l := hl
    cases hb : (t.slots.get n).body with
    | free => rw [hb] at hl'; simp [SlotBody.lease?] at hl'
    | pending _ _ => rfl
    | held _ _ => rfl
  refine ⟨?_, fun i => ?_⟩
  · have hc := SlotTable.count_set hwf (fun s => !s.body.isFree) notFree_free n
      { gen := (t.slots.get n).gen + 1, body := .free }
    simp only [hnf] at hc
    show t.occupancy - 1 = _
    rw [h.1]
    simp [Tables.freeSlot, SlotBody.isFree] at hc ⊢
    omega
  · have hq := SlotTable.count_set hwf (Slot.ownedBy i) (ownedBy_free i) n
      { gen := (t.slots.get n).gen + 1, body := .free }
    have h1 : Slot.ownedBy i (t.slots.get n) = decide (l.owner = i) := by
      unfold Slot.ownedBy; rw [show (t.slots.get n).body.lease? = some l from hl]
    rw [h1, ownedBy_free] at hq
    rw [t.slotCount_freeSlot]
    by_cases hi : l.owner = i
    · subst hi
      rw [if_pos rfl, h.2]
      simp [Tables.freeSlot] at hq ⊢
      omega
    · rw [if_neg hi, h.2]
      simp [hi] at hq
      exact hq.symm

/-! ### The Extent Index (R14) -/

theorem Tables.startOf_congr {t t' : Tables} {m : Nat} (h : t'.body m = t.body m) : t'.startOf m = t.startOf m := by
  unfold Tables.startOf; rw [h]

theorem Tables.startOf_held {t : Tables} {m : Nat} {l : Lease} {ten : Tenure} (h : t.body m = .held l ten) :
    t.startOf m = l.start := by
  unfold Tables.startOf; rw [h]; rfl

/-- The lists as they stood, when slot `n` was not HELD and is not, or stays HELD in its place. -/
theorem indexLaw_same {t t' : Tables} {n : Nat} {x : SlotBody} (h : t.indexLaw) (hb : bodyAt t t' n x)
    (hi : ∀ v : VolumeId, t'.indexOf v = t.indexOf v)
    (hx : ∀ l ten, x = .held l ten → ∃ k tk, t.body n = .held k tk ∧ k.volume = l.volume ∧ k.start = l.start)
    (hn : ∀ k tk, t.body n = .held k tk → ∃ l ten, x = .held l ten) : t'.indexLaw := by
  intro v
  rw [hi v]
  have hheld : ∀ m l ten, t'.body m = .held l ten →
      ∃ k tk, t.body m = .held k tk ∧ k.volume = l.volume ∧ k.start = l.start := by
    intro m l ten hm
    by_cases hmn : m = n
    · subst hmn; exact hx l ten ((bodyAt_self hb).symm.trans hm)
    · rw [bodyAt_other hb hmn] at hm; exact ⟨l, ten, hm, rfl, rfl⟩
  have hheld' : ∀ m k tk, t.body m = .held k tk →
      ∃ l ten, t'.body m = .held l ten ∧ k.volume = l.volume ∧ k.start = l.start := by
    intro m k tk hm
    by_cases hmn : m = n
    · subst hmn
      obtain ⟨l, ten, he⟩ := hn k tk hm
      obtain ⟨k', tk', hk', h1, h2⟩ := hx l ten he
      rw [hm] at hk'
      cases hk'
      exact ⟨l, ten, (bodyAt_self hb).trans he, h1, h2⟩
    · exact ⟨k, tk, (bodyAt_other hb hmn).trans hm, rfl, rfl⟩
  have hstart : ∀ m, m ∈ t.indexOf v → t'.startOf m = t.startOf m := by
    intro m hm
    obtain ⟨k, tk, hk, _⟩ := ((h v).2 m).mp hm
    obtain ⟨l, ten, hl, _, hs⟩ := hheld' m k tk hk
    rw [Tables.startOf_held hk, Tables.startOf_held hl, hs]
  refine ⟨(h v).1.imp_of_mem ?_, fun m => ?_⟩
  · intro a b ha hb' hab
    unfold Tables.before at hab ⊢
    rw [hstart a ha, hstart b hb']
    exact hab
  · rw [(h v).2 m]
    constructor
    · rintro ⟨k, tk, hk, hv⟩
      obtain ⟨l, ten, hl, h1, _⟩ := hheld' m k tk hk
      exact ⟨l, ten, hl, h1.symm.trans hv⟩
    · rintro ⟨l, ten, hl, hv⟩
      obtain ⟨k, tk, hk, h1, _⟩ := hheld m l ten hl
      exact ⟨k, tk, hk, h1.trans hv⟩

theorem mem_indexInsert (f : Nat → Nat) (n m : Nat) : ∀ l : List Nat, m ∈ indexInsert f n l ↔ m = n ∨ m ∈ l
  | [] => by simp [indexInsert]
  | k :: l => by
    unfold indexInsert
    split
    · simp
    · simp only [List.mem_cons, mem_indexInsert f n m l]
      constructor
      · rintro (h | h | h)
        · exact Or.inr (Or.inl h)
        · exact Or.inl h
        · exact Or.inr (Or.inr h)
      · rintro (h | h | h)
        · exact Or.inr (Or.inl h)
        · exact Or.inl h
        · exact Or.inr (Or.inr h)

theorem Tables.before_insert (t : Tables) {n : Nat} : ∀ {l : List Nat}, l.Pairwise t.before → n ∉ l →
    (indexInsert t.startOf n l).Pairwise t.before
  | [], _, _ => by simp [indexInsert]
  | k :: l, hp, hn => by
    obtain ⟨hh, ht⟩ := List.pairwise_cons.mp hp
    have hnk : n ≠ k := fun e => hn (by simp [e])
    have hnl : n ∉ l := fun e => hn (by simp [e])
    unfold indexInsert
    split
    · rename_i hlt
      refine List.pairwise_cons.mpr ⟨?_, hp⟩
      intro m hm
      rcases List.mem_cons.mp hm with rfl | hm
      · exact hlt
      · have := hh m hm
        unfold Tables.before at this ⊢
        omega
    · rename_i hge
      refine List.pairwise_cons.mpr ⟨?_, Tables.before_insert t ht hnl⟩
      intro m hm
      rcases (mem_indexInsert _ _ _ _).mp hm with rfl | hm
      · unfold Tables.before
        omega
      · exact hh m hm

/-- Slot `n`, not HELD before, becomes HELD and enters its volume's list. `u` is the table just before it enters. -/
theorem indexLaw_add {t u : Tables} {n : Nat} {l : Lease} {ten : Tenure} (h : t.indexLaw)
    (hb : bodyAt t u n (.held l ten)) (hi : ∀ v : VolumeId, u.indexOf v = t.indexOf v)
    (hn : ∀ k tk, t.body n ≠ .held k tk) : (u.indexAdd l.volume n).indexLaw := by
  have hnot : ∀ v, n ∉ t.indexOf v := by
    intro v hm
    obtain ⟨k, tk, hk, _⟩ := ((h v).2 n).mp hm
    exact hn k tk hk
  have hold : ∀ v : VolumeId, (t.indexOf v).Pairwise u.before := by
    intro v
    refine (h v).1.imp_of_mem ?_
    intro a b ha hb' hab
    have ha' : a ≠ n := fun e => hnot v (e ▸ ha)
    have hb'' : b ≠ n := fun e => hnot v (e ▸ hb')
    unfold Tables.before at hab ⊢
    rw [Tables.startOf_congr (bodyAt_other hb ha'), Tables.startOf_congr (bodyAt_other hb hb'')]
    exact hab
  intro v
  rw [Tables.indexOf_indexAdd]
  have hmem : ∀ m, m ≠ n → ((∃ k tk, t.body m = .held k tk ∧ k.volume = v) ↔
      ∃ k tk, (u.indexAdd l.volume n).body m = .held k tk ∧ k.volume = v) := by
    intro m hm
    rw [Tables.body_indexAdd, bodyAt_other hb hm]
  by_cases hv : l.volume = v
  · rw [if_pos hv, hi]
    subst hv
    refine ⟨u.before_insert (hold _) (hnot _), fun m => ?_⟩
    rw [mem_indexInsert]
    by_cases hm : m = n
    · subst hm
      rw [Tables.body_indexAdd, bodyAt_self hb]
      exact ⟨fun _ => ⟨l, ten, rfl, rfl⟩, fun _ => Or.inl rfl⟩
    · rw [← hmem m hm, ← (h l.volume).2 m]
      exact ⟨fun e => e.resolve_left hm, Or.inr⟩
  · rw [if_neg hv, hi]
    refine ⟨hold v, fun m => ?_⟩
    by_cases hm : m = n
    · subst hm
      rw [Tables.body_indexAdd, bodyAt_self hb]
      constructor
      · intro e; exact absurd e (hnot v)
      · rintro ⟨k, tk, hk, hkv⟩
        cases hk
        exact absurd hkv hv
    · rw [← hmem m hm]
      exact (h v).2 m

/-- HELD slot `n` leaves its volume's list and is no longer HELD. -/
theorem indexLaw_remove {t t' : Tables} {n : Nat} {l : Lease} {ten : Tenure} {x : SlotBody} (h : t.indexLaw)
    (hl : t.body n = .held l ten) (hb : bodyAt t t' n x)
    (hi : ∀ v : VolumeId, t'.indexOf v = (t.indexRemove l.volume n).indexOf v)
    (hx : ∀ k tk, x ≠ .held k tk) : t'.indexLaw := by
  have hnot : ∀ v, n ∉ t'.indexOf v := by
    intro v hm
    rw [hi v, Tables.indexOf_indexRemove] at hm
    by_cases hv : l.volume = v
    · rw [if_pos hv] at hm
      simp at hm
    · rw [if_neg hv] at hm
      obtain ⟨k, tk, hk, hkv⟩ := ((h v).2 n).mp hm
      rw [hl] at hk
      cases hk
      exact hv hkv
  have hmem : ∀ v m, m ≠ n → (m ∈ t'.indexOf v ↔ m ∈ t.indexOf v) := by
    intro v m hm
    rw [hi v, Tables.indexOf_indexRemove]
    by_cases hv : l.volume = v
    · rw [if_pos hv]; subst hv; simp [hm]
    · rw [if_neg hv]
  intro v
  refine ⟨?_, fun m => ?_⟩
  · have hold : (t'.indexOf v).Pairwise t.before := by
      rw [hi v, Tables.indexOf_indexRemove]
      by_cases hv : l.volume = v
      · rw [if_pos hv]; exact (h l.volume).1.filter _
      · rw [if_neg hv]; exact (h v).1
    refine hold.imp_of_mem ?_
    intro a b ha hb' hab
    have ha' : a ≠ n := fun e => hnot v (e ▸ ha)
    have hb'' : b ≠ n := fun e => hnot v (e ▸ hb')
    unfold Tables.before at hab ⊢
    rw [Tables.startOf_congr (bodyAt_other hb ha'), Tables.startOf_congr (bodyAt_other hb hb'')]
    exact hab
  · by_cases hm : m = n
    · subst hm
      rw [bodyAt_self hb]
      constructor
      · intro e; exact absurd e (hnot v)
      · rintro ⟨k, tk, hk, _⟩; exact absurd hk (hx k tk)
    · rw [hmem v m hm, bodyAt_other hb hm]
      exact (h v).2 m

/-! ### Wait entries (R40, R41, R42) -/

/-- The entry fits the table when the body of its slot is as it was. -/
theorem Tables.entryFits_congr {t t' : Tables} {we : WaitEntry} (h : t'.body we.slot = t.body we.slot)
    (hf : t.entryFits we) : t'.entryFits we := by
  unfold Tables.entryFits at hf ⊢
  rw [h]
  exact hf

/-- The pool and the lists are as they were, and slot `n` has the wait that it had. -/
theorem waitLaw_same {t t' : Tables} {n : Nat} {x : SlotBody} (h : t.waitLaw) (hb : bodyAt t t' n x)
    (hp : t'.pool = t.pool) (hw : ∀ v : VolumeId, t'.waitList v = t.waitList v)
    (hfit : ∀ we, we.slot = n → t.entryFits we → t'.entryFits we)
    (hx : x.waits = true → (t.body n).waits = true) : t'.waitLaw := by
  obtain ⟨h1, h2, h3, h4, h5⟩ := h
  refine ⟨hp ▸ h1, ?_, ?_, ?_, ?_⟩
  · intro e we he
    rw [hp] at he
    obtain ⟨ha, hf⟩ := h2 e we he
    refine ⟨ha, ?_⟩
    by_cases hs : we.slot = n
    · exact hfit we hs hf
    · exact Tables.entryFits_congr (bodyAt_other hb hs) hf
  · intro d e wd we hd he; rw [hp] at hd he; exact h3 d e wd we hd he
  · intro m hm
    rw [hp]
    by_cases hmn : m = n
    · subst hmn; rw [bodyAt_self hb] at hm; exact h4 m (hx hm)
    · rw [bodyAt_other hb hmn] at hm; exact h4 m hm
  · intro v
    rw [hw v, hp]
    exact h5 v

/-- A free entry is put in use for slot `n`, which had no wait and has one now. -/
theorem waitLaw_add {t t' : Tables} {n e : Nat} {x : SlotBody} {we : WaitEntry} (h : t.waitLaw) (hb : bodyAt t t' n x)
    (hfree : lookupKey e t.pool = none) (hlt : e < Config.poolEntries) (hslot : we.slot = n)
    (hp : t'.pool = insertKey e we t.pool)
    (hw : ∀ v : VolumeId, t'.waitList v = if we.volume = v then t.waitList we.volume ++ [e] else t.waitList v)
    (hfit : t'.entryFits we) (hold : (t.body n).waits = false) : t'.waitLaw := by
  obtain ⟨h1, h2, h3, h4, h5⟩ := h
  have hslots : ∀ d wd, lookupKey d t.pool = some wd → wd.slot ≠ n := by
    intro d wd hd hs
    have := (h2 d wd hd).2
    unfold Tables.entryFits at this
    rw [hs] at this
    cases hk : wd.kind with
    | acquire =>
      rw [hk] at this
      obtain ⟨l, dl, hl, _⟩ := this
      rw [hl] at hold; simp [SlotBody.waits] at hold
    | upgrade =>
      rw [hk] at this
      obtain ⟨l, ten, u, hl, hu, _⟩ := this
      rw [hl] at hold; simp [SlotBody.waits, hu] at hold
  have hnot : ∀ v, e ∉ t.waitList v := by
    intro v hm
    obtain ⟨wd, hwd, _⟩ := ((h5 v).2 e).mp hm
    rw [hfree] at hwd
    exact absurd hwd (by simp)
  refine ⟨by rw [hp]; exact keysRise_insert e we h1, ?_, ?_, ?_, ?_⟩
  · intro d wd hd
    rw [hp, lookupKey_insert] at hd
    by_cases hde : d = e
    · rw [if_pos hde] at hd; cases hd; exact ⟨hde ▸ hlt, hfit⟩
    · rw [if_neg hde] at hd
      obtain ⟨ha, hf⟩ := h2 d wd hd
      exact ⟨ha, Tables.entryFits_congr (bodyAt_other hb (hslots d wd hd)) hf⟩
  · intro c d wc wd hc hd hs
    rw [hp, lookupKey_insert] at hc hd
    by_cases hce : c = e
    · by_cases hde : d = e
      · rw [hce, hde]
      · rw [if_pos hce] at hc; rw [if_neg hde] at hd
        cases hc
        exact absurd (hs.symm.trans hslot) (hslots d wd hd)
    · rw [if_neg hce] at hc
      by_cases hde : d = e
      · rw [if_pos hde] at hd; cases hd
        exact absurd (hs.trans hslot) (hslots c wc hc)
      · rw [if_neg hde] at hd; exact h3 c d wc wd hc hd hs
  · intro m hm
    rw [hp]
    by_cases hmn : m = n
    · exact ⟨e, we, by rw [lookupKey_insert, if_pos rfl], hslot.trans hmn.symm⟩
    · rw [bodyAt_other hb hmn] at hm
      obtain ⟨d, wd, hd, hs⟩ := h4 m hm
      refine ⟨d, wd, ?_, hs⟩
      rw [lookupKey_insert, if_neg ?_, hd]
      intro hde
      rw [hde, hfree] at hd
      exact absurd hd (by simp)
  · intro v
    rw [hw v, hp]
    have hlook : ∀ d wd, d ≠ e → (lookupKey d (insertKey e we t.pool) = some wd ↔ lookupKey d t.pool = some wd) := by
      intro d wd hde; rw [lookupKey_insert, if_neg hde]
    by_cases hv : we.volume = v
    · rw [if_pos hv]
      subst hv
      refine ⟨List.nodup_append.mpr ⟨(h5 _).1, by simp, ?_⟩, fun d => ?_⟩
      · intro a ha b hb' hab
        rw [List.mem_singleton] at hb'
        exact hnot _ (by rw [← hb', ← hab]; exact ha)
      · rw [List.mem_append, List.mem_singleton]
        by_cases hde : d = e
        · subst hde
          exact ⟨fun _ => ⟨we, by rw [lookupKey_insert, if_pos rfl], rfl⟩, fun _ => Or.inr rfl⟩
        · rw [(h5 we.volume).2 d]
          constructor
          · rintro (⟨wd, h1', h2'⟩ | h')
            · exact ⟨wd, (hlook d wd hde).mpr h1', h2'⟩
            · exact absurd h' hde
          · rintro ⟨wd, h1', h2'⟩
            exact Or.inl ⟨wd, (hlook d wd hde).mp h1', h2'⟩
    · rw [if_neg hv]
      refine ⟨(h5 v).1, fun d => ?_⟩
      by_cases hde : d = e
      · subst hde
        constructor
        · intro hm; exact absurd hm (hnot v)
        · rintro ⟨wd, h1', h2'⟩
          rw [lookupKey_insert, if_pos rfl] at h1'
          cases h1'
          exact absurd h2' hv
      · rw [(h5 v).2 d]
        constructor
        · rintro ⟨wd, h1', h2'⟩; exact ⟨wd, (hlook d wd hde).mpr h1', h2'⟩
        · rintro ⟨wd, h1', h2'⟩; exact ⟨wd, (hlook d wd hde).mp h1', h2'⟩

/-- The entry of slot `n` returns to the pool, and the slot has no wait any more. -/
theorem waitLaw_remove {t t' : Tables} {n e : Nat} {x : SlotBody} {we : WaitEntry} (h : t.waitLaw) (hb : bodyAt t t' n x)
    (he : lookupKey e t.pool = some we) (hslot : we.slot = n) (hp : t'.pool = eraseKey e t.pool)
    (hw : ∀ v : VolumeId, t'.waitList v =
      if we.volume = v then (t.waitList we.volume).filter (fun d => !(d == e)) else t.waitList v)
    (hx : x.waits = false) : t'.waitLaw := by
  obtain ⟨h1, h2, h3, h4, h5⟩ := h
  have hlook : ∀ d wd, lookupKey d (eraseKey e t.pool) = some wd ↔ d ≠ e ∧ lookupKey d t.pool = some wd := by
    intro d wd
    rw [lookupKey_erase]
    by_cases hde : d = e <;> simp [hde]
  have hslots : ∀ d wd, d ≠ e → lookupKey d t.pool = some wd → wd.slot ≠ n := by
    intro d wd hde hd hs
    exact hde (h3 d e wd we hd he (hs.trans hslot.symm))
  refine ⟨by rw [hp]; exact keysRise_erase e h1, ?_, ?_, ?_, ?_⟩
  · intro d wd hd
    rw [hp, hlook] at hd
    obtain ⟨ha, hf⟩ := h2 d wd hd.2
    exact ⟨ha, Tables.entryFits_congr (bodyAt_other hb (hslots d wd hd.1 hd.2)) hf⟩
  · intro c d wc wd hc hd hs
    rw [hp, hlook] at hc hd
    exact h3 c d wc wd hc.2 hd.2 hs
  · intro m hm
    by_cases hmn : m = n
    · subst hmn; rw [bodyAt_self hb, hx] at hm; exact absurd hm (by simp)
    · rw [bodyAt_other hb hmn] at hm
      obtain ⟨d, wd, hd, hs⟩ := h4 m hm
      refine ⟨d, wd, ?_, hs⟩
      rw [hp, hlook]
      refine ⟨?_, hd⟩
      intro hde
      rw [hde, he] at hd
      cases hd
      exact hmn (hs.symm.trans hslot)
  · intro v
    rw [hw v, hp]
    by_cases hv : we.volume = v
    · rw [if_pos hv]
      subst hv
      refine ⟨(h5 _).1.filter _, fun d => ?_⟩
      rw [List.mem_filter, (h5 we.volume).2 d]
      constructor
      · rintro ⟨⟨wd, h1', h2'⟩, hne⟩
        exact ⟨wd, (hlook d wd).mpr ⟨by simpa using hne, h1'⟩, h2'⟩
      · rintro ⟨wd, h1', h2'⟩
        rw [hlook] at h1'
        exact ⟨⟨wd, h1'.2, h2'⟩, by simpa using h1'.1⟩
    · rw [if_neg hv]
      refine ⟨(h5 v).1, fun d => ?_⟩
      rw [(h5 v).2 d]
      constructor
      · rintro ⟨wd, h1', h2'⟩
        refine ⟨wd, (hlook d wd).mpr ⟨?_, h1'⟩, h2'⟩
        intro hde
        rw [hde, he] at h1'
        cases h1'
        exact hv h2'
      · rintro ⟨wd, h1', h2'⟩
        rw [hlook] at h1'
        exact ⟨wd, h1'.2, h2'⟩

end Sys2Proof.Machine
end

