-- ==== Sys2Proof/Laws/Moves.lean ====
section
/-! SUPPORT. The changes that a step can make to the lease structures, one constructor each, and that every one of them
keeps the laws. `Laws/Runs.lean` shows that each operation of a step is a chain of them. -/

namespace Sys2Proof.Machine

/-- What the table must be for a new lease `l` in FREE slot `n` (R13, R29, R30). -/
structure Tables.Fits (t : Tables) (n : Nat) (l : Lease) : Prop where
  free : t.body n = .free
  slot : n < Config.slots
  own : ∀ m a, (t.body m).lease? = some a → a.owner = l.owner → a.overlaps l = false
  service : (t.volume l.volume).state ≠ .offline
  count : 0 < l.count
  size : l.start + l.count ≤ (t.volume l.volume).size

/-- What the table must be for a grant of lease `l` (R30, R39, R43). -/
structure Tables.Grants (t : Tables) (l : Lease) : Prop where
  clear : t.conflictSearch l = []
  counter : t.exhaustedFor l.mode l.volume = false

/-- One change of the lease structures. -/
inductive Move : Tables → Tables → Prop
  /-- A volume takes a new state or size; it holds no slot that the new values would not allow (R117, R119). -/
  | volume (t : Tables) (v : VolumeId) (x : Volume) (fence : x.fence = (t.volume v).fence)
      (room : ∀ n l, (t.body n).lease? = some l → l.volume = v → x.state ≠ .offline ∧ l.start + l.count ≤ x.size) :
      Move t { t with volumes := upd t.volumes v x }
  /-- An ACQUIRE is parked (R33). -/
  | park (t : Tables) (n e : Nat) (l : Lease) (d : Option Time) (fits : t.Fits n l) (entry : lookupKey e t.pool = none)
      (place : e < Config.poolEntries) :
      Move t ((t.makeSlot n l.owner (.pending l d)).addEntry e .acquire n l.volume)
  /-- An ACQUIRE is granted at once (R31). -/
  | grantNew (t : Tables) (n : Nat) (l : Lease) (now : Time) (fits : t.Fits n l) (grants : t.Grants l) :
      Move t (((t.makeSlot n l.owner (.held l (Tenure.granted now l (t.tokenFor l.mode l.volume)))).drawFor l.mode
        l.volume).indexAdd l.volume n)
  /-- An upgrade is parked (R38). -/
  | parkUpgrade (t : Tables) (n e : Nat) (l : Lease) (ten : Tenure) (u : PendingUpgrade) (held : t.body n = .held l ten)
      (mode : l.mode = .shared) (none : ten.upgrade = none) (entry : lookupKey e t.pool = Option.none)
      (place : e < Config.poolEntries) :
      Move t ((t.setBody n (.held l { ten with upgrade := some u })).addEntry e .upgrade n l.volume)
  /-- A wake pass grants an ACQUIRE entry (R48). -/
  | grantParked (t : Tables) (e : Nat) (we : WaitEntry) (l : Lease) (d : Option Time) (now : Time)
      (entry : lookupKey e t.pool = some we) (pending : t.body we.slot = .pending l d) (grants : t.Grants l) :
      Move t ((((t.removeEntry e we.volume).drawFor l.mode l.volume).setBody we.slot
        (.held l (Tenure.granted now l (t.tokenFor l.mode l.volume)))).indexAdd l.volume we.slot)
  /-- An upgrade takes effect at once (R37). -/
  | upgradeNow (t : Tables) (n : Nat) (l : Lease) (ten : Tenure) (held : t.body n = .held l ten)
      (none : ten.upgrade = none) (grants : t.Grants { l with mode := .exclusive }) :
      Move t ((t.drawFor .exclusive l.volume).setBody n
        (.held { l with mode := .exclusive } { ten with token := t.tokenFor .exclusive l.volume }))
  /-- A wake pass grants an UPGRADE entry (R49). -/
  | upgradeParked (t : Tables) (e : Nat) (we : WaitEntry) (l : Lease) (ten : Tenure)
      (entry : lookupKey e t.pool = some we) (held : t.body we.slot = .held l ten)
      (grants : t.Grants { l with mode := .exclusive }) :
      Move t (((t.removeEntry e we.volume).drawFor .exclusive l.volume).setBody we.slot
        (.held { l with mode := .exclusive }
          { ten with token := t.tokenFor .exclusive l.volume, upgrade := Option.none }))
  /-- A downgrade (R35). -/
  | downgrade (t : Tables) (n : Nat) (l : Lease) (ten : Tenure) (held : t.body n = .held l ten)
      (mode : l.mode = .exclusive) :
      Move t (t.setBody n (.held { l with mode := .shared } { ten with token := none }))
  /-- A renewal, a recall mark made or cleared, or a gate use counted (R62, R64, R67, R142). -/
  | amend (t : Tables) (n : Nat) (l : Lease) (ten ten' : Tenure) (hold : Option Nat) (held : t.body n = .held l ten)
      (token : ten'.token = ten.token) (upgrade : ten'.upgrade = ten.upgrade)
      (timed : ten'.holdDeadline.isSome = hold.isSome) :
      Move t (t.setBody n (.held { l with holdLength := hold } ten'))
  /-- The wait of an ACQUIRE entry ends (R50). -/
  | endPending (t : Tables) (e : Nat) (we : WaitEntry) (l : Lease) (d : Option Time)
      (entry : lookupKey e t.pool = some we) (pending : t.body we.slot = .pending l d) :
      Move t ((t.removeEntry e we.volume).freeSlot we.slot l.owner)
  /-- The wait of an UPGRADE entry ends (R50). -/
  | endUpgrade (t : Tables) (e : Nat) (we : WaitEntry) (l : Lease) (ten : Tenure)
      (entry : lookupKey e t.pool = some we) (held : t.body we.slot = .held l ten) :
      Move t ((t.removeEntry e we.volume).setBody we.slot (.held l { ten with upgrade := none }))
  /-- A HELD lease is retired, its pending upgrade ended before (R59). -/
  | retire (t : Tables) (n : Nat) (l : Lease) (ten : Tenure) (held : t.body n = .held l ten) (none : ten.upgrade = none) :
      Move t ((t.indexRemove l.volume n).freeSlot n l.owner)

/-! ### Bodies after a move -/

theorem bodyAt_setBody (t u : Tables) (n : Nat) (x : SlotBody) (h : ∀ m, u.body m = t.body m) :
    bodyAt t (u.setBody n x) n x := by
  intro m; rw [Tables.body_setBody, h]

theorem bodyAt_freeSlot (t u : Tables) (n : Nat) (i : SessionId) (h : ∀ m, u.body m = t.body m) :
    bodyAt t (u.freeSlot n i) n .free := by
  intro m; rw [Tables.body_freeSlot, h]

theorem bodyAt_makeSlot (t : Tables) (n : Nat) (i : SessionId) (x : SlotBody) : bodyAt t (t.makeSlot n i x) n x := by
  intro m; exact Tables.body_setBody t n m x

/-- A slot that is not FREE lies below 4096. -/
theorem Tables.Sound.slot_lt {t : Tables} (h : t.Sound) {n : Nat} (hn : t.body n ≠ .free) : n < Config.slots :=
  SlotTable.lt_of_notFree h.wf hn

/-- The entry of a PENDING slot is of kind ACQUIRE, that of a HELD slot of kind UPGRADE, and both name its volume. -/
theorem Tables.Sound.entry_pending {t : Tables} (h : t.Sound) {e : Nat} {we : WaitEntry} {l : Lease} {d : Option Time}
    (he : lookupKey e t.pool = some we) (hb : t.body we.slot = .pending l d) :
    we.kind = .acquire ∧ we.volume = l.volume := by
  have hf := (h.waitLaw.2.1 e we he).2
  unfold Tables.entryFits at hf
  cases hk : we.kind with
  | acquire =>
    rw [hk] at hf
    obtain ⟨a, b, hab, hv⟩ := hf
    rw [hb] at hab; cases hab
    exact ⟨rfl, hv.symm⟩
  | upgrade =>
    rw [hk] at hf
    obtain ⟨a, b, u, hab, _, _⟩ := hf
    rw [hb] at hab; cases hab

theorem Tables.Sound.entry_held {t : Tables} (h : t.Sound) {e : Nat} {we : WaitEntry} {l : Lease} {ten : Tenure}
    (he : lookupKey e t.pool = some we) (hb : t.body we.slot = .held l ten) :
    we.kind = .upgrade ∧ we.volume = l.volume ∧ ∃ u, ten.upgrade = some u := by
  have hf := (h.waitLaw.2.1 e we he).2
  unfold Tables.entryFits at hf
  cases hk : we.kind with
  | acquire =>
    rw [hk] at hf
    obtain ⟨a, b, hab, _⟩ := hf
    rw [hb] at hab; cases hab
  | upgrade =>
    rw [hk] at hf
    obtain ⟨a, b, u, hab, hu, hv⟩ := hf
    rw [hb] at hab; cases hab
    exact ⟨rfl, hv.symm, u, hu⟩

/-! ### Every move keeps the laws -/

theorem Move.keeps_volume {t : Tables} {v : VolumeId} {x : Volume} (h : t.Sound) (fence : x.fence = (t.volume v).fence)
    (room : ∀ n l, (t.body n).lease? = some l → l.volume = v → x.state ≠ .offline ∧ l.start + l.count ≤ x.size) :
    Tables.Sound { t with volumes := upd t.volumes v x } := by
  have hvol : ∀ w, Tables.volume { t with volumes := upd t.volumes v x } w = if v = w then x else t.volume w :=
    fun w => upd_get t.volumes v w x
  have hf : ∀ w, (Tables.volume { t with volumes := upd t.volumes v x } w).fence = (t.volume w).fence := by
    intro w
    rw [hvol w]
    by_cases hw : v = w
    · subst hw; rw [if_pos rfl, fence]
    · rw [if_neg hw]
  refine ⟨h.wf, h.lawOne, h.lawTwo, h.indexLaw, h.countLaw, h.fieldLaw, ⟨?_, ?_, h.tokenLaw.2.2⟩, h.waitLaw, ?_⟩
  · intro w; rw [hf w]; exact h.tokenLaw.1 w
  · intro n l ten k hb hk; rw [hf]; exact h.tokenLaw.2.1 n l ten k hb hk
  · intro n l hl
    have hold := h.volumeLaw n l hl
    rw [hvol]
    by_cases hw : v = l.volume
    · rw [if_pos hw]
      obtain ⟨h1, h2⟩ := room n l hl hw.symm
      exact ⟨h1, hold.2.1, h2⟩
    · rw [if_neg hw]; exact hold

theorem Move.keeps_park {t : Tables} {n e : Nat} {l : Lease} {d : Option Time} (h : t.Sound) (fits : t.Fits n l)
    (entry : lookupKey e t.pool = none) (place : e < Config.poolEntries) :
    Tables.Sound ((t.makeSlot n l.owner (.pending l d)).addEntry e .acquire n l.volume) := by
  have hb : bodyAt t ((t.makeSlot n l.owner (.pending l d)).addEntry e .acquire n l.volume) n (.pending l d) :=
    bodyAt_makeSlot t n l.owner _
  refine ⟨SlotTable.wf_set h.wf fits.slot _, lawOne_update h.lawOne hb (fun _ _ hx => by cases hx),
    lawTwo_update h.lawTwo hb ?_, indexLaw_same h.indexLaw hb (fun _ => rfl) (fun _ _ hx => by cases hx) ?_,
    countLaw_make h.wf h.countLaw fits.free rfl, fieldLaw_update h.fieldLaw hb (fun _ _ hx => by cases hx),
    tokenLaw_update h.tokenLaw hb (fun v => ⟨Nat.le_refl _, h.tokenLaw.1 v⟩) (fun _ _ _ hx => by cases hx),
    waitLaw_add h.waitLaw hb entry place rfl rfl (Tables.waitList_addEntry _ _ _ _ _) ?_ ?_,
    volumeLaw_update h.volumeLaw hb (fun _ => ⟨rfl, rfl⟩) ?_⟩
  · intro k hk m a _ ha ho
    cases hk
    exact fits.own m a ha ho
  · intro k tk hk; rw [fits.free] at hk; cases hk
  · exact ⟨l, d, bodyAt_self hb, rfl⟩
  · rw [fits.free]; rfl
  · intro k hk
    cases hk
    exact ⟨fits.service, fits.count, fits.size⟩

theorem Tenure.granted_fields (now : Time) (l : Lease) (tok : Option Nat) :
    (Tenure.granted now l tok).token = tok ∧ (Tenure.granted now l tok).holdDeadline.isSome = l.holdLength.isSome ∧
      (Tenure.granted now l tok).upgrade = none := by
  refine ⟨rfl, ?_, rfl⟩
  unfold Tenure.granted
  cases l.holdLength <;> rfl

/-- The laws of one lease that is newly HELD under a grant: R2's fields and the seventh law. -/
theorem fieldLaw_grant {t t' : Tables} {n : Nat} {l : Lease} {now : Time} (h : t.fieldLaw)
    (hb : bodyAt t t' n (.held l (Tenure.granted now l (t.tokenFor l.mode l.volume)))) : t'.fieldLaw := by
  refine fieldLaw_update h hb ?_
  intro k tk hk
  cases hk
  obtain ⟨h1, h2, h3⟩ := Tenure.granted_fields now l (t.tokenFor l.mode l.volume)
  refine ⟨?_, h2, ?_⟩
  · rw [h1]; exact t.tokenFor_isSome l.mode l.volume
  · intro hu; rw [h3] at hu; exact absurd hu (by simp)

theorem tokenLaw_draw {t t' : Tables} {n : Nat} {l : Lease} {ten : Tenure} (h : t.tokenLaw)
    (hb : bodyAt t t' n (.held l ten)) (counter : t.exhaustedFor l.mode l.volume = false)
    (hv : ∀ v, (t'.volume v).fence = ((t.drawFor l.mode l.volume).volume v).fence)
    (htok : ten.token = t.tokenFor l.mode l.volume) : t'.tokenLaw := by
  refine tokenLaw_update h hb (fun v => by rw [hv v]; exact t.fence_step h counter v) ?_
  intro k tk c hk hc
  cases hk
  rw [htok] at hc
  obtain ⟨h1, h2⟩ := t.tokenFor_range hc
  exact ⟨h1, by rw [hv]; exact h2, fun m a ta _ ha hva => t.tokenFor_fresh h hc ha hva⟩

theorem Move.keeps_grantNew {t : Tables} {n : Nat} {l : Lease} {now : Time} (h : t.Sound) (fits : t.Fits n l)
    (grants : t.Grants l) :
    Tables.Sound (((t.makeSlot n l.owner (.held l (Tenure.granted now l (t.tokenFor l.mode l.volume)))).drawFor l.mode
      l.volume).indexAdd l.volume n) := by
  have hb : bodyAt t (((t.makeSlot n l.owner (.held l (Tenure.granted now l (t.tokenFor l.mode l.volume)))).drawFor l.mode
      l.volume).indexAdd l.volume n) n (.held l (Tenure.granted now l (t.tokenFor l.mode l.volume))) := by
    intro m
    rw [Tables.body_indexAdd, Tables.body_drawFor]
    exact bodyAt_makeSlot t n l.owner _ m
  have hvol : ∀ v, ((((t.makeSlot n l.owner (.held l (Tenure.granted now l (t.tokenFor l.mode l.volume)))).drawFor l.mode
      l.volume).indexAdd l.volume n).volume v) = (t.drawFor l.mode l.volume).volume v := by
    intro v
    show ((t.makeSlot n l.owner _).drawFor l.mode l.volume).volume v = _
    rw [Tables.volume_drawFor, Tables.volume_drawFor]; rfl
  refine ⟨?_, lawOne_update h.lawOne hb ?_, lawTwo_update h.lawTwo hb ?_, ?_, ?_, fieldLaw_grant h.fieldLaw hb,
    tokenLaw_draw h.tokenLaw hb grants.counter (fun v => by rw [hvol v]) rfl, ?_,
    volumeLaw_update h.volumeLaw hb (fun v => by rw [hvol v]; simp) ?_⟩
  · show ((t.makeSlot n l.owner _).drawFor l.mode l.volume).slots.wf
    rw [Tables.slots_drawFor]
    exact SlotTable.wf_set h.wf fits.slot _
  · intro k tk hk m a ta _ ha ho hv
    cases hk
    exact Tables.noConflict h.indexLaw grants.clear ha ho hv
  · intro k hk m a _ ha ho
    cases hk
    exact fits.own m a ha ho
  · refine indexLaw_add h.indexLaw (u := (t.makeSlot n l.owner _).drawFor l.mode l.volume) hb ?_ ?_
    · intro v; rw [Tables.indexOf_drawFor]; rfl
    · intro k tk hk; rw [fits.free] at hk; cases hk
  · have := countLaw_make (x := .held l (Tenure.granted now l (t.tokenFor l.mode l.volume))) h.wf h.countLaw fits.free rfl
    refine ⟨?_, fun i => ?_⟩
    · show ((t.makeSlot n l.owner _).drawFor l.mode l.volume).occupancy =
        countKeys _ ((t.makeSlot n l.owner _).drawFor l.mode l.volume).slots.entries
      rw [Tables.occupancy_drawFor, Tables.slots_drawFor]
      exact this.1
    · show (((t.makeSlot n l.owner _).drawFor l.mode l.volume).slotCounts)[i] =
        countKeys _ ((t.makeSlot n l.owner _).drawFor l.mode l.volume).slots.entries
      rw [Tables.slotCounts_drawFor, Tables.slots_drawFor]
      exact this.2 i
  · refine waitLaw_same h.waitLaw hb ?_ ?_ ?_ ?_
    · show ((t.makeSlot n l.owner _).drawFor l.mode l.volume).pool = t.pool
      rw [Tables.pool_drawFor]; rfl
    · intro v
      show ((t.makeSlot n l.owner _).drawFor l.mode l.volume).waitList v = t.waitList v
      rw [Tables.waitList_drawFor]; rfl
    · intro we hs hf
      unfold Tables.entryFits at hf
      rw [hs, fits.free] at hf
      cases hk : we.kind with
      | acquire => rw [hk] at hf; obtain ⟨_, _, hx, _⟩ := hf; cases hx
      | upgrade => rw [hk] at hf; obtain ⟨_, _, _, hx, _⟩ := hf; cases hx
    · intro hw; simp [SlotBody.waits, Tenure.granted] at hw
  · intro k hk
    cases hk
    exact ⟨fits.service, fits.count, fits.size⟩

theorem Move.keeps_parkUpgrade {t : Tables} {n e : Nat} {l : Lease} {ten : Tenure} {u : PendingUpgrade} (h : t.Sound)
    (held : t.body n = .held l ten) (mode : l.mode = .shared) (none : ten.upgrade = none)
    (entry : lookupKey e t.pool = Option.none) (place : e < Config.poolEntries) :
    Tables.Sound ((t.setBody n (.held l { ten with upgrade := some u })).addEntry e .upgrade n l.volume) := by
  have hb : bodyAt t ((t.setBody n (.held l { ten with upgrade := some u })).addEntry e .upgrade n l.volume) n
      (.held l { ten with upgrade := some u }) := bodyAt_setBody t t n _ (fun _ => rfl)
  have hslot : n < Config.slots := h.slot_lt (by rw [held]; simp)
  have hl : (t.body n).lease? = some l := by rw [held]; rfl
  have hfield := h.fieldLaw n l ten held
  refine ⟨SlotTable.wf_set h.wf hslot _, lawOne_update h.lawOne hb ?_, lawTwo_same h.lawTwo hb hl ?_,
    indexLaw_same h.indexLaw hb (fun _ => rfl) ?_ ?_, countLaw_same (x := .held l { ten with upgrade := some u }) h.wf h.countLaw rfl rfl rfl hl rfl rfl,
    fieldLaw_update h.fieldLaw hb ?_, tokenLaw_update h.tokenLaw hb (fun v => ⟨Nat.le_refl _, h.tokenLaw.1 v⟩) ?_,
    waitLaw_add h.waitLaw hb entry place rfl rfl (Tables.waitList_addEntry _ _ _ _ _) ?_ ?_,
    volumeLaw_update h.volumeLaw hb (fun _ => ⟨rfl, rfl⟩) ?_⟩
  · intro k tk hk m a ta hm ha ho hv
    cases hk
    exact h.lawOne m n a ta l ten hm ha held ho hv
  · intro k hk; cases hk; exact ⟨rfl, rfl, rfl, rfl⟩
  · intro k tk hk; cases hk; exact ⟨l, ten, held, rfl, rfl⟩
  · intro k tk _; exact ⟨_, _, rfl⟩
  · intro k tk hk; cases hk; exact ⟨hfield.1, hfield.2.1, fun _ => mode⟩
  · intro k tk c hk hc
    cases hk
    obtain ⟨h1, h2⟩ := h.tokenLaw.2.1 n l ten c held hc
    exact ⟨h1, h2, fun m a ta hm ha hv => h.tokenLaw.2.2 n m l ten a ta c (fun e => hm e.symm) held ha hv.symm hc⟩
  · exact ⟨l, _, u, bodyAt_self hb, rfl, rfl⟩
  · rw [held]; simp [SlotBody.waits, none]
  · intro k hk; cases hk; exact h.volumeLaw n l hl

theorem Move.keeps_grantParked {t : Tables} {e : Nat} {we : WaitEntry} {l : Lease} {d : Option Time} {now : Time}
    (h : t.Sound) (entry : lookupKey e t.pool = some we) (pending : t.body we.slot = .pending l d) (grants : t.Grants l) :
    Tables.Sound ((((t.removeEntry e we.volume).drawFor l.mode l.volume).setBody we.slot
      (.held l (Tenure.granted now l (t.tokenFor l.mode l.volume)))).indexAdd l.volume we.slot) := by
  have hdraw : ∀ m, ((t.removeEntry e we.volume).drawFor l.mode l.volume).body m = t.body m := by intro m; simp
  have hb : bodyAt t ((((t.removeEntry e we.volume).drawFor l.mode l.volume).setBody we.slot
      (.held l (Tenure.granted now l (t.tokenFor l.mode l.volume)))).indexAdd l.volume we.slot) we.slot
      (.held l (Tenure.granted now l (t.tokenFor l.mode l.volume))) := bodyAt_setBody t _ we.slot _ hdraw
  have hslot : we.slot < Config.slots := h.slot_lt (by rw [pending]; simp)
  have hl : (t.body we.slot).lease? = some l := by rw [pending]; rfl
  have hvol : ∀ v, ((((t.removeEntry e we.volume).drawFor l.mode l.volume).setBody we.slot
      (.held l (Tenure.granted now l (t.tokenFor l.mode l.volume)))).indexAdd l.volume we.slot).volume v =
      (t.drawFor l.mode l.volume).volume v := by
    intro v
    show ((t.removeEntry e we.volume).drawFor l.mode l.volume).volume v = _
    rw [Tables.volume_drawFor, Tables.volume_drawFor]; rfl
  have hslots : ∀ s : SlotTable, ((t.removeEntry e we.volume).drawFor l.mode l.volume).slots = s → s = t.slots := by
    intro s hs; rw [← hs, Tables.slots_drawFor]; rfl
  refine ⟨?_, lawOne_update h.lawOne hb ?_, lawTwo_same h.lawTwo hb hl ?_, ?_, ?_, fieldLaw_grant h.fieldLaw hb,
    tokenLaw_draw h.tokenLaw hb grants.counter (fun v => by rw [hvol v]) rfl,
    waitLaw_remove h.waitLaw hb entry rfl ?_ ?_ rfl,
    volumeLaw_update h.volumeLaw hb (fun v => by rw [hvol v]; simp) ?_⟩
  · show (((t.removeEntry e we.volume).drawFor l.mode l.volume).slots.set we.slot _).wf
    rw [hslots _ rfl]
    exact SlotTable.wf_set h.wf hslot _
  · intro k tk hk m a ta _ ha ho hv
    cases hk
    exact Tables.noConflict h.indexLaw grants.clear ha ho hv
  · intro k hk; cases hk; exact ⟨rfl, rfl, rfl, rfl⟩
  · refine indexLaw_add h.indexLaw (u := ((t.removeEntry e we.volume).drawFor l.mode l.volume).setBody we.slot _) hb ?_ ?_
    · intro v
      show ((t.removeEntry e we.volume).drawFor l.mode l.volume).indexOf v = t.indexOf v
      rw [Tables.indexOf_drawFor]; rfl
    · intro k tk hk; rw [pending] at hk; cases hk
  · refine countLaw_same (g := (t.slots.get we.slot).gen)
      (x := .held l (Tenure.granted now l (t.tokenFor l.mode l.volume))) h.wf h.countLaw ?_ ?_ ?_ hl rfl rfl
    · show ((t.removeEntry e we.volume).drawFor l.mode l.volume).slots.set we.slot _ = _
      rw [hslots _ rfl]
    · show ((t.removeEntry e we.volume).drawFor l.mode l.volume).occupancy = t.occupancy
      rw [Tables.occupancy_drawFor]; rfl
    · show ((t.removeEntry e we.volume).drawFor l.mode l.volume).slotCounts = t.slotCounts
      rw [Tables.slotCounts_drawFor]; rfl
  · show ((t.removeEntry e we.volume).drawFor l.mode l.volume).pool = _
    rw [Tables.pool_drawFor]; rfl
  · intro v
    show ((t.removeEntry e we.volume).drawFor l.mode l.volume).waitList v = _
    rw [Tables.waitList_drawFor]
    exact Tables.waitList_removeEntry t e we.volume v
  · intro k hk; cases hk; exact h.volumeLaw we.slot l hl

/-- A HELD lease that stays HELD with its owner and extent: what has to be known for all the laws. -/
theorem Tables.Sound.relabel {t t' : Tables} {n : Nat} {l l' : Lease} {ten ten' : Tenure} {g : Gen} (h : t.Sound)
    (held : t.body n = .held l ten) (hb : bodyAt t t' n (.held l' ten'))
    (same : l'.owner = l.owner ∧ l'.volume = l.volume ∧ l'.start = l.start ∧ l'.count = l.count)
    (slots : t'.slots = t.slots.set n { gen := g, body := .held l' ten' }) (occupancy : t'.occupancy = t.occupancy)
    (counts : t'.slotCounts = t.slotCounts) (index : ∀ v : VolumeId, t'.indexOf v = t.indexOf v)
    (volume : ∀ v, (t'.volume v).state = (t.volume v).state ∧ (t'.volume v).size = (t.volume v).size)
    (one : ∀ m a ta, m ≠ n → t.body m = .held a ta → a.owner ≠ l'.owner → a.overlaps l' = true →
      a.mode = .shared ∧ l'.mode = .shared)
    (field : (ten'.token.isSome = true ↔ l'.mode = .exclusive) ∧ (ten'.holdDeadline.isSome = l'.holdLength.isSome) ∧
      (ten'.upgrade.isSome = true → l'.mode = .shared))
    (tokens : t'.tokenLaw) (wait : t'.waitLaw) : t'.Sound := by
  have hslot : n < Config.slots := h.slot_lt (by rw [held]; simp)
  have hl : (t.body n).lease? = some l := by rw [held]; rfl
  refine ⟨by rw [slots]; exact SlotTable.wf_set h.wf hslot _, lawOne_update h.lawOne hb ?_,
    lawTwo_same h.lawTwo hb hl ?_, indexLaw_same h.indexLaw hb index ?_ ?_,
    countLaw_same (x := .held l' ten') h.wf h.countLaw slots occupancy counts hl rfl same.1,
    fieldLaw_update h.fieldLaw hb ?_, tokens, wait, volumeLaw_update h.volumeLaw hb volume ?_⟩
  · intro k tk hk; cases hk; exact one
  · intro k hk; cases hk; exact same
  · intro k tk hk; cases hk; exact ⟨l, ten, held, same.2.1.symm, same.2.2.1.symm⟩
  · intro k tk _; exact ⟨_, _, rfl⟩
  · intro k tk hk; cases hk; exact field
  · intro k hk
    cases hk
    obtain ⟨_, h2, h3, h4⟩ := same
    rw [h2, h3, h4]
    exact h.volumeLaw n l hl

/-- The second premise of the first law for a lease whose mode is not strengthened. -/
theorem Tables.Sound.one_kept {t : Tables} {n : Nat} {l l' : Lease} {ten : Tenure} (h : t.Sound)
    (held : t.body n = .held l ten)
    (same : l'.owner = l.owner ∧ l'.volume = l.volume ∧ l'.start = l.start ∧ l'.count = l.count)
    (mode : l.mode = .shared → l'.mode = .shared) :
    ∀ m a ta, m ≠ n → t.body m = .held a ta → a.owner ≠ l'.owner → a.overlaps l' = true →
      a.mode = .shared ∧ l'.mode = .shared := by
  intro m a ta hm ha ho hv
  obtain ⟨h1, h2, h3, h4⟩ := same
  have hv' : a.overlaps l = true := by
    unfold Lease.overlaps at hv ⊢
    rw [h2, h3, h4] at hv
    exact hv
  have := h.lawOne m n a ta l ten hm ha held (fun e => ho (e.trans h1.symm)) hv'
  exact ⟨this.1, mode this.2⟩

/-- The tokens of a lease that keeps its token or loses it. -/
theorem Tables.Sound.tokens_kept {t t' : Tables} {n : Nat} {l l' : Lease} {ten ten' : Tenure} (h : t.Sound)
    (held : t.body n = .held l ten) (hb : bodyAt t t' n (.held l' ten')) (hvol : l'.volume = l.volume)
    (fence : ∀ v, (t'.volume v).fence = (t.volume v).fence) (tok : ten'.token = ten.token ∨ ten'.token = none) :
    t'.tokenLaw := by
  refine tokenLaw_update h.tokenLaw hb (fun v => by rw [fence v]; exact ⟨Nat.le_refl _, h.tokenLaw.1 v⟩) ?_
  intro k tk c hk hc
  cases hk
  rcases tok with htk | htk
  · rw [htk] at hc
    obtain ⟨h1, h2⟩ := h.tokenLaw.2.1 n l ten c held hc
    rw [hvol]
    exact ⟨h1, by rw [fence]; exact h2,
      fun m a ta hm ha hv => h.tokenLaw.2.2 n m l ten a ta c (fun e => hm e.symm) held ha hv.symm hc⟩
  · rw [htk] at hc; exact absurd hc (by simp)

/-- The wait of a HELD lease whose pending upgrade is as it was. -/
theorem Tables.Sound.wait_kept {t t' : Tables} {n : Nat} {l l' : Lease} {ten ten' : Tenure} (h : t.Sound)
    (held : t.body n = .held l ten) (hb : bodyAt t t' n (.held l' ten')) (hvol : l'.volume = l.volume)
    (upgrade : ten'.upgrade = ten.upgrade) (pool : t'.pool = t.pool)
    (lists : ∀ v : VolumeId, t'.waitList v = t.waitList v) : t'.waitLaw := by
  refine waitLaw_same h.waitLaw hb pool lists ?_ ?_
  · intro we hs hf
    unfold Tables.entryFits at hf ⊢
    rw [hs] at hf ⊢
    rw [bodyAt_self hb]
    rw [held] at hf
    cases hk : we.kind with
    | acquire => rw [hk] at hf; obtain ⟨_, _, hx, _⟩ := hf; cases hx
    | upgrade =>
      rw [hk] at hf
      obtain ⟨_, _, u, hx, hu, hv⟩ := hf
      cases hx
      exact ⟨l', ten', u, rfl, upgrade.trans hu, hvol.trans hv⟩
  · rw [held]; simp only [SlotBody.waits, upgrade]; exact id

/-- The tokens of a lease upgraded with a new token (R37, R49). -/
theorem Tables.Sound.tokens_upgraded {t t' : Tables} {n : Nat} {l : Lease} {ten : Tenure} (h : t.Sound)
    (hb : bodyAt t t' n (.held { l with mode := .exclusive } ten)) (counter : t.exhaustedFor .exclusive l.volume = false)
    (hv : ∀ v, (t'.volume v).fence = ((t.drawFor .exclusive l.volume).volume v).fence)
    (htok : ten.token = t.tokenFor .exclusive l.volume) : t'.tokenLaw :=
  tokenLaw_draw (l := { l with mode := .exclusive }) h.tokenLaw hb counter hv htok

theorem Move.keeps_upgradeNow {t : Tables} {n : Nat} {l : Lease} {ten : Tenure} (h : t.Sound)
    (held : t.body n = .held l ten) (none : ten.upgrade = none) (grants : t.Grants { l with mode := .exclusive }) :
    Tables.Sound ((t.drawFor .exclusive l.volume).setBody n
      (.held { l with mode := .exclusive } { ten with token := t.tokenFor .exclusive l.volume })) := by
  have hb : bodyAt t ((t.drawFor .exclusive l.volume).setBody n
      (.held { l with mode := .exclusive } { ten with token := t.tokenFor .exclusive l.volume })) n
      (.held { l with mode := .exclusive } { ten with token := t.tokenFor .exclusive l.volume }) :=
    bodyAt_setBody t _ n _ (fun m => by simp)
  refine h.relabel (g := (t.slots.get n).gen) held hb ⟨rfl, rfl, rfl, rfl⟩ ?_ ?_ ?_ ?_ ?_ ?_ ?_
    (h.tokens_upgraded hb grants.counter (fun _ => rfl) rfl) (h.wait_kept held hb rfl rfl ?_ ?_)
  · show (t.drawFor .exclusive l.volume).slots.set n _ = _
    simp only [Tables.slots_drawFor]
  · show (t.drawFor .exclusive l.volume).occupancy = _; simp
  · show (t.drawFor .exclusive l.volume).slotCounts = _; simp
  · intro v; show (t.drawFor .exclusive l.volume).indexOf v = _; simp
  · intro v
    show ((t.drawFor .exclusive l.volume).volume v).state = _ ∧ ((t.drawFor .exclusive l.volume).volume v).size = _
    simp
  · intro m a ta _ ha ho hv
    exact Tables.noConflict h.indexLaw grants.clear ha ho hv
  · refine ⟨?_, (h.fieldLaw n l ten held).2.1, ?_⟩
    · simp [Tables.tokenFor]
    · intro hu; simp [none] at hu
  · show (t.drawFor .exclusive l.volume).pool = _; simp
  · intro v; show (t.drawFor .exclusive l.volume).waitList v = _; simp

theorem Move.keeps_upgradeParked {t : Tables} {e : Nat} {we : WaitEntry} {l : Lease} {ten : Tenure} (h : t.Sound)
    (entry : lookupKey e t.pool = some we) (held : t.body we.slot = .held l ten)
    (grants : t.Grants { l with mode := .exclusive }) :
    Tables.Sound (((t.removeEntry e we.volume).drawFor .exclusive l.volume).setBody we.slot
      (.held { l with mode := .exclusive } { ten with token := t.tokenFor .exclusive l.volume, upgrade := none })) := by
  have hb : bodyAt t (((t.removeEntry e we.volume).drawFor .exclusive l.volume).setBody we.slot
      (.held { l with mode := .exclusive } { ten with token := t.tokenFor .exclusive l.volume, upgrade := none })) we.slot
      (.held { l with mode := .exclusive } { ten with token := t.tokenFor .exclusive l.volume, upgrade := none }) :=
    bodyAt_setBody t _ we.slot _ (fun m => by simp)
  refine h.relabel (g := (t.slots.get we.slot).gen) held hb ⟨rfl, rfl, rfl, rfl⟩ ?_ ?_ ?_ ?_ ?_ ?_ ?_
    (h.tokens_upgraded hb grants.counter (fun _ => rfl) rfl) (waitLaw_remove h.waitLaw hb entry rfl ?_ ?_ rfl)
  · show ((t.removeEntry e we.volume).drawFor .exclusive l.volume).slots.set we.slot _ = _
    simp only [Tables.slots_drawFor]
    rfl
  · show ((t.removeEntry e we.volume).drawFor .exclusive l.volume).occupancy = _; simp; rfl
  · show ((t.removeEntry e we.volume).drawFor .exclusive l.volume).slotCounts = _; simp; rfl
  · intro v; show ((t.removeEntry e we.volume).drawFor .exclusive l.volume).indexOf v = _; simp; rfl
  · intro v
    show (((t.removeEntry e we.volume).drawFor .exclusive l.volume).volume v).state = _ ∧
      (((t.removeEntry e we.volume).drawFor .exclusive l.volume).volume v).size = _
    simp
    exact ⟨rfl, rfl⟩
  · intro m a ta _ ha ho hv
    exact Tables.noConflict h.indexLaw grants.clear ha ho hv
  · refine ⟨?_, (h.fieldLaw we.slot l ten held).2.1, ?_⟩
    · simp [Tables.tokenFor]
    · intro hu; simp at hu
  · show ((t.removeEntry e we.volume).drawFor .exclusive l.volume).pool = _; simp; rfl
  · intro v
    show ((t.removeEntry e we.volume).drawFor .exclusive l.volume).waitList v = _
    rw [Tables.waitList_drawFor]
    exact Tables.waitList_removeEntry t e we.volume v

theorem Move.keeps_downgrade {t : Tables} {n : Nat} {l : Lease} {ten : Tenure} (h : t.Sound)
    (held : t.body n = .held l ten) :
    Tables.Sound (t.setBody n (.held { l with mode := .shared } { ten with token := none })) := by
  have hb : bodyAt t (t.setBody n (.held { l with mode := .shared } { ten with token := none })) n
      (.held { l with mode := .shared } { ten with token := none }) := bodyAt_setBody t t n _ (fun _ => rfl)
  refine h.relabel held hb ⟨rfl, rfl, rfl, rfl⟩ rfl rfl rfl (fun _ => rfl) (fun _ => ⟨rfl, rfl⟩)
    (h.one_kept held ⟨rfl, rfl, rfl, rfl⟩ (fun _ => rfl)) ?_ (h.tokens_kept held hb rfl (fun _ => rfl) (Or.inr rfl))
    (h.wait_kept held hb rfl rfl rfl (fun _ => rfl))
  exact ⟨by simp, (h.fieldLaw n l ten held).2.1, fun _ => rfl⟩

theorem Move.keeps_amend {t : Tables} {n : Nat} {l : Lease} {ten ten' : Tenure} {hold : Option Nat} (h : t.Sound)
    (held : t.body n = .held l ten) (token : ten'.token = ten.token) (upgrade : ten'.upgrade = ten.upgrade)
    (timed : ten'.holdDeadline.isSome = hold.isSome) :
    Tables.Sound (t.setBody n (.held { l with holdLength := hold } ten')) := by
  have hb : bodyAt t (t.setBody n (.held { l with holdLength := hold } ten')) n
      (.held { l with holdLength := hold } ten') := bodyAt_setBody t t n _ (fun _ => rfl)
  refine h.relabel held hb ⟨rfl, rfl, rfl, rfl⟩ rfl rfl rfl (fun _ => rfl) (fun _ => ⟨rfl, rfl⟩)
    (h.one_kept held ⟨rfl, rfl, rfl, rfl⟩ id) ?_ (h.tokens_kept held hb rfl (fun _ => rfl) (Or.inl token))
    (h.wait_kept held hb rfl upgrade rfl (fun _ => rfl))
  have hf := h.fieldLaw n l ten held
  rw [token, upgrade]
  exact ⟨hf.1, timed, hf.2.2⟩

/-- A slot that becomes FREE keeps the laws that speak of leases. -/
theorem Tables.Sound.freed {t t' : Tables} {n : Nat} (h : t.Sound) (hb : bodyAt t t' n .free)
    (wf : t'.slots.wf) (index : t'.indexLaw) (counts : t'.countLaw) (volume : ∀ v, t'.volume v = t.volume v)
    (wait : t'.waitLaw) : t'.Sound := by
  refine ⟨wf, lawOne_update h.lawOne hb (fun _ _ hx => by cases hx),
    lawTwo_update h.lawTwo hb (fun _ hx => by cases hx), index, counts,
    fieldLaw_update h.fieldLaw hb (fun _ _ hx => by cases hx),
    tokenLaw_update h.tokenLaw hb (fun v => by rw [volume v]; exact ⟨Nat.le_refl _, h.tokenLaw.1 v⟩)
      (fun _ _ _ hx => by cases hx), wait,
    volumeLaw_update h.volumeLaw hb (fun v => by rw [volume v]; exact ⟨rfl, rfl⟩) (fun _ hx => by cases hx)⟩

theorem Move.keeps_endPending {t : Tables} {e : Nat} {we : WaitEntry} {l : Lease} {d : Option Time} (h : t.Sound)
    (entry : lookupKey e t.pool = some we) (pending : t.body we.slot = .pending l d) :
    Tables.Sound ((t.removeEntry e we.volume).freeSlot we.slot l.owner) := by
  have hb : bodyAt t ((t.removeEntry e we.volume).freeSlot we.slot l.owner) we.slot .free :=
    bodyAt_freeSlot t _ we.slot l.owner (fun _ => rfl)
  have hslot : we.slot < Config.slots := h.slot_lt (by rw [pending]; simp)
  refine h.freed hb (SlotTable.wf_set h.wf hslot _)
    (indexLaw_same h.indexLaw hb (fun _ => rfl) (fun _ _ hx => by cases hx) ?_)
    (countLaw_free h.wf h.countLaw (n := we.slot) (l := l) (by rw [pending]; rfl)) (fun _ => rfl)
    (waitLaw_remove h.waitLaw hb entry rfl rfl (Tables.waitList_removeEntry t e we.volume) rfl)
  intro k tk hk
  rw [pending] at hk
  cases hk

theorem Move.keeps_endUpgrade {t : Tables} {e : Nat} {we : WaitEntry} {l : Lease} {ten : Tenure} (h : t.Sound)
    (entry : lookupKey e t.pool = some we) (held : t.body we.slot = .held l ten) :
    Tables.Sound ((t.removeEntry e we.volume).setBody we.slot (.held l { ten with upgrade := none })) := by
  have hb : bodyAt t ((t.removeEntry e we.volume).setBody we.slot (.held l { ten with upgrade := none })) we.slot
      (.held l { ten with upgrade := none }) := bodyAt_setBody t _ we.slot _ (fun _ => rfl)
  refine h.relabel held hb ⟨rfl, rfl, rfl, rfl⟩ rfl rfl rfl (fun _ => rfl) (fun _ => ⟨rfl, rfl⟩)
    (h.one_kept held ⟨rfl, rfl, rfl, rfl⟩ id) ?_ (h.tokens_kept held hb rfl (fun _ => rfl) (Or.inl rfl))
    (waitLaw_remove h.waitLaw hb entry rfl rfl (Tables.waitList_removeEntry t e we.volume) rfl)
  have hf := h.fieldLaw we.slot l ten held
  exact ⟨hf.1, hf.2.1, fun hu => by simp at hu⟩

theorem Move.keeps_retire {t : Tables} {n : Nat} {l : Lease} {ten : Tenure} (h : t.Sound) (held : t.body n = .held l ten)
    (none : ten.upgrade = none) : Tables.Sound ((t.indexRemove l.volume n).freeSlot n l.owner) := by
  have hb : bodyAt t ((t.indexRemove l.volume n).freeSlot n l.owner) n .free :=
    bodyAt_freeSlot t _ n l.owner (fun _ => rfl)
  have hslot : n < Config.slots := h.slot_lt (by rw [held]; simp)
  refine h.freed hb (SlotTable.wf_set h.wf hslot _)
    (indexLaw_remove h.indexLaw held hb (fun _ => rfl) (fun _ _ hx => by cases hx))
    (countLaw_free h.wf h.countLaw (n := n) (l := l) (by rw [held]; rfl)) (fun _ => rfl)
    (waitLaw_same h.waitLaw hb rfl (fun _ => rfl) ?_ (fun hx => by cases hx))
  intro we hs hf
  unfold Tables.entryFits at hf
  rw [hs, held] at hf
  cases hk : we.kind with
  | acquire => rw [hk] at hf; obtain ⟨_, _, hx, _⟩ := hf; cases hx
  | upgrade =>
    rw [hk] at hf
    obtain ⟨_, _, u, hx, hu, _⟩ := hf
    cases hx
    rw [none] at hu
    exact absurd hu (by simp)

/-- Every change that a step makes to the lease structures keeps the laws. -/
theorem Move.keeps {t t' : Tables} (m : Move t t') (h : t.Sound) : t'.Sound := by
  cases m with
  | volume v x fence room => exact Move.keeps_volume h fence room
  | park n e l d fits entry place => exact Move.keeps_park h fits entry place
  | grantNew n l now fits grants => exact Move.keeps_grantNew h fits grants
  | parkUpgrade n e l ten u held mode none entry place => exact Move.keeps_parkUpgrade h held mode none entry place
  | grantParked e we l d now entry pending grants => exact Move.keeps_grantParked h entry pending grants
  | upgradeNow n l ten held none grants => exact Move.keeps_upgradeNow h held none grants
  | upgradeParked e we l ten entry held grants => exact Move.keeps_upgradeParked h entry held grants
  | downgrade n l ten held mode => exact Move.keeps_downgrade h held
  | amend n l ten ten' hold held token upgrade timed => exact Move.keeps_amend h held token upgrade timed
  | endPending e we l d entry pending => exact Move.keeps_endPending h entry pending
  | endUpgrade e we l ten entry held => exact Move.keeps_endUpgrade h entry held
  | retire n l ten held none => exact Move.keeps_retire h held none

/-- No change lowers a fence counter (R127). -/
theorem Move.fence {t t' : Tables} (m : Move t t') (v : VolumeId) : (t.volume v).fence ≤ (t'.volume v).fence := by
  have hdraw : ∀ (u : Tables) (k : Mode) (w : VolumeId), (u.volume v).fence ≤ ((u.drawFor k w).volume v).fence := by
    intro u k w; rw [Tables.fence_drawFor]; split <;> omega
  cases m with
  | volume w x fence room =>
    show _ ≤ ((upd t.volumes w x)[v]).fence
    rw [upd_get]
    by_cases hw : w = v
    · subst hw; rw [if_pos rfl]; exact Nat.le_of_eq fence.symm
    · rw [if_neg hw]; exact Nat.le_refl _
  | park n e l d fits entry place => exact Nat.le_refl _
  | grantNew n l now fits grants => exact hdraw (t.makeSlot n l.owner _) l.mode l.volume
  | parkUpgrade n e l ten u held mode none entry place => exact Nat.le_refl _
  | grantParked e we l d now entry pending grants => exact hdraw (t.removeEntry e we.volume) l.mode l.volume
  | upgradeNow n l ten held none grants => exact hdraw t .exclusive l.volume
  | upgradeParked e we l ten entry held grants => exact hdraw (t.removeEntry e we.volume) .exclusive l.volume
  | downgrade n l ten held mode => exact Nat.le_refl _
  | amend n l ten ten' hold held token upgrade timed => exact Nat.le_refl _
  | endPending e we l d entry pending => exact Nat.le_refl _
  | endUpgrade e we l ten entry held => exact Nat.le_refl _
  | retire n l ten held none => exact Nat.le_refl _

/-- A chain of changes. -/
inductive Moves : Tables → Tables → Prop
  | refl (t : Tables) : Moves t t
  | step {t u w : Tables} (ms : Moves t u) (m : Move u w) : Moves t w

theorem Moves.one {t u : Tables} (m : Move t u) : Moves t u := .step (.refl t) m

theorem Moves.trans {t u w : Tables} (a : Moves t u) (b : Moves u w) : Moves t w := by
  induction b with
  | refl => exact a
  | step _ m ih => exact .step ih m

theorem Moves.keeps {t u : Tables} (ms : Moves t u) (h : t.Sound) : u.Sound := by
  induction ms with
  | refl => exact h
  | step _ m ih => exact m.keeps ih

theorem Moves.fence {t u : Tables} (ms : Moves t u) (v : VolumeId) : (t.volume v).fence ≤ (u.volume v).fence := by
  induction ms with
  | refl => exact Nat.le_refl _
  | step _ m ih => exact Nat.le_trans ih (m.fence v)

end Sys2Proof.Machine
end

