-- ==== Sys2Proof/Laws/Runs.lean ====
section
/-! SUPPORT. What each operation of a step can do: from lease structures that keep the laws, a chain of `Move`s, with the
step's clock and configuration left alone. -/

namespace Sys2Proof.Machine

/-- One piece of a step's work: the tables change by moves, the clock and the configuration stay. -/
structure Run.To (r r' : Run) : Prop where
  moves : Moves r.tab r'.tab
  now : r'.now = r.now
  limit : r'.recallLimit = r.recallLimit
  threshold : r'.threshold = r.threshold

theorem Run.To.refl (r : Run) : r.To r := ⟨.refl _, rfl, rfl, rfl⟩

theorem Run.To.trans {a b c : Run} (h : a.To b) (k : b.To c) : a.To c :=
  ⟨h.moves.trans k.moves, k.now.trans h.now, k.limit.trans h.limit, k.threshold.trans h.threshold⟩

/-- One move of the tables. -/
theorem Run.To.move {r : Run} {t : Tables} (m : Move r.tab t) : r.To (r.withTab t) := ⟨.one m, rfl, rfl, rfl⟩

/-- The same tables and settings: only results were added. -/
theorem Run.To.same {r r' : Run} (h : r'.tab = r.tab ∧ r'.now = r.now ∧ r'.recallLimit = r.recallLimit ∧
    r'.threshold = r.threshold) : r.To r' :=
  ⟨h.1 ▸ .refl _, h.2.1, h.2.2.1, h.2.2.2⟩

theorem Run.To.notify {r r' : Run} (h : r.To r') (i : SessionId) (n : Notice) : r.To (r'.notify i n) :=
  h.trans (.same ⟨rfl, rfl, rfl, rfl⟩)

theorem Run.To.conclude {r r' : Run} (h : r.To r') (i : SessionId) (e : CacheEntry) : r.To (r'.conclude i e) :=
  h.trans (.same ⟨rfl, rfl, rfl, rfl⟩)

theorem Run.To.alarm {r r' : Run} (h : r.To r') (a : Alert) : r.To (r'.alarm a) := h.trans (.same ⟨rfl, rfl, rfl, rfl⟩)

theorem Run.To.passDue {r r' : Run} (h : r.To r') (v : VolumeId) : r.To (r'.passDue v) := by
  refine h.trans (.same ?_)
  unfold Run.passDue
  split <;> exact ⟨rfl, rfl, rfl, rfl⟩

@[simp] theorem Run.tab_passDue (r : Run) (v : VolumeId) : (r.passDue v).tab = r.tab := by
  unfold Run.passDue; split <;> rfl

@[simp] theorem Run.now_passDue (r : Run) (v : VolumeId) : (r.passDue v).now = r.now := by
  unfold Run.passDue; split <;> rfl

/-- What each step of a fold can do, the fold can do. -/
theorem Run.To.fold {α : Type} (f : Run → α → Run) (hf : ∀ (r : Run) (a : α), r.tab.Sound → r.To (f r a)) :
    ∀ (l : List α) (r : Run), r.tab.Sound → r.To (l.foldl f r)
  | [], r, _ => .refl r
  | a :: l, r, h => (hf r a h).trans (Run.To.fold f hf l (f r a) ((hf r a h).moves.keeps h))

/-! ### Recall (R64) -/

theorem Run.markRecalled_to (r : Run) (n : Nat) (h : r.tab.Sound) : r.To (r.markRecalled n) := by
  unfold Run.markRecalled
  split
  · rename_i l ten hb
    split
    · exact .refl r
    · have hm := Move.amend r.tab n l ten { ten with recallMark := some r.newMark } l.holdLength hb rfl rfl
        (h.fieldLaw n l ten hb).2.1
      exact (Run.To.move hm).notify _ _
  · exact .refl r
  · exact .refl r

theorem Run.applyRecall_to (r : Run) (e : Nat) (h : r.tab.Sound) : r.To (r.applyRecall e) :=
  Run.To.fold Run.markRecalled Run.markRecalled_to _ r h

/-! ### Grants, parking and exhaustion -/

theorem Run.exhaust_to (r : Run) (v : VolumeId) (h : r.tab.Sound) : r.To (r.exhaust v) := by
  refine (Run.To.move (Move.volume r.tab v { r.tab.volume v with state := .frozen } rfl ?_)).alarm _
  intro n l hl hv
  subst hv
  exact ⟨by simp, (h.volumeLaw n l hl).2.2⟩

@[simp] theorem Run.tab_makeSlot (r : Run) (n : Nat) (i : SessionId) (b : SlotBody) :
    (r.makeSlot n i b).tab = r.tab.makeSlot n i b := by
  unfold Run.makeSlot; simp only; split <;> rfl

theorem Run.settings_makeSlot (r : Run) (n : Nat) (i : SessionId) (b : SlotBody) :
    (r.makeSlot n i b).now = r.now ∧ (r.makeSlot n i b).recallLimit = r.recallLimit ∧
      (r.makeSlot n i b).threshold = r.threshold := by
  unfold Run.makeSlot; simp only; split <;> exact ⟨rfl, rfl, rfl⟩

theorem Run.grantNow_to (r : Run) (n : Nat) (l : Lease) (fits : r.tab.Fits n l) (grants : r.tab.Grants l) :
    r.To (r.grantNow n l) := by
  obtain ⟨h1, h2, h3⟩ := r.settings_makeSlot n l.owner (.held l (Tenure.granted r.now l (r.tab.tokenFor l.mode l.volume)))
  refine ⟨.one ?_, h1, h2, h3⟩
  show Move r.tab (((r.makeSlot n l.owner _).tab.drawFor l.mode l.volume).indexAdd l.volume n)
  rw [Run.tab_makeSlot]
  exact Move.grantNew r.tab n l r.now fits grants

theorem Run.parkAcquire_to (r : Run) (n e : Nat) (l : Lease) (d : Option Time) (h : r.tab.Sound) (fits : r.tab.Fits n l)
    (entry : lookupKey e r.tab.pool = none) (place : e < Config.poolEntries) : r.To (r.parkAcquire n e l d) := by
  obtain ⟨h1, h2, h3⟩ := r.settings_makeSlot n l.owner (.pending l d)
  have hm : Move r.tab ((r.makeSlot n l.owner (.pending l d)).tab.addEntry e .acquire n l.volume) := by
    rw [Run.tab_makeSlot]; exact Move.park r.tab n e l d fits entry place
  have hto : r.To ((r.makeSlot n l.owner (.pending l d)).withTab
      ((r.makeSlot n l.owner (.pending l d)).tab.addEntry e .acquire n l.volume)) := ⟨.one hm, h1, h2, h3⟩
  exact hto.trans (Run.applyRecall_to _ e (hm.keeps h))

theorem Run.parkUpgrade_to (r : Run) (n e : Nat) (l : Lease) (ten : Tenure) (u : PendingUpgrade) (h : r.tab.Sound)
    (held : r.tab.body n = .held l ten) (mode : l.mode = .shared) (none : ten.upgrade = none)
    (entry : lookupKey e r.tab.pool = Option.none) (place : e < Config.poolEntries) :
    r.To (r.parkUpgrade n e l ten u) := by
  have hm := Move.parkUpgrade r.tab n e l ten u held mode none entry place
  exact (Run.To.move hm).trans (Run.applyRecall_to _ e (hm.keeps h))

/-! ### Ends of waits (R50, R53) -/

theorem Run.endWait_to (r : Run) (reason : WaitReason) (e : Nat) (h : r.tab.Sound) : r.To (r.endWait reason e) := by
  unfold Run.endWait
  split
  · exact .refl r
  · rename_i we he
    cases hk : we.kind with
    | acquire =>
      cases hb : r.tab.body we.slot with
      | pending l d =>
        exact (((Run.To.move (Move.endPending r.tab e we l d he hb)).notify _ _).conclude _ _).passDue _
      | held l ten => have := (h.entry_held he hb).1; rw [hk] at this; cases this
      | free =>
        have := (h.waitLaw.2.1 e we he).2
        unfold Tables.entryFits at this
        rw [hk] at this
        obtain ⟨_, _, hx, _⟩ := this
        rw [hb] at hx; cases hx
    | upgrade =>
      cases hb : r.tab.body we.slot with
      | pending l d => have := (h.entry_pending he hb).1; rw [hk] at this; cases this
      | held l ten =>
        obtain ⟨u, hu⟩ := (h.entry_held he hb).2.2
        simp only [hu]
        exact (((Run.To.move (Move.endUpgrade r.tab e we l ten he hb)).notify _ _).conclude _ _).passDue _
      | free =>
        have := (h.waitLaw.2.1 e we he).2
        unfold Tables.entryFits at this
        rw [hk] at this
        obtain ⟨_, _, _, hx, _⟩ := this
        rw [hb] at hx; cases hx

theorem Run.endWaitsOf_to (r : Run) (i : SessionId) (reason : WaitReason) (h : r.tab.Sound) :
    r.To (r.endWaitsOf i reason) := by
  unfold Run.endWaitsOf
  exact Run.To.fold _ (fun r v hr => Run.To.fold _ (fun r e hr => Run.endWait_to r reason e hr) _ r hr) _ r h

/-! ### Retirement (R59) -/

theorem Tables.entryFor_some {t : Tables} {k : WaitKind} {v : VolumeId} {n e : Nat} (h : t.entryFor k v n = some e) :
    ∃ we, lookupKey e t.pool = some we ∧ we.kind = k ∧ we.slot = n := by
  have := List.find?_some h
  cases hl : lookupKey e t.pool with
  | none => rw [hl] at this; exact absurd this (by simp)
  | some we => rw [hl] at this; exact ⟨we, rfl, by simpa using this⟩

/-- A slot with a wait has an entry in its volume's list. -/
theorem Tables.Sound.entryFor_held {t : Tables} (h : t.Sound) {n : Nat} {l : Lease} {ten : Tenure} {u : PendingUpgrade}
    (hb : t.body n = .held l ten) (hu : ten.upgrade = some u) : ∃ e, t.entryFor .upgrade l.volume n = some e := by
  obtain ⟨e, we, he, hs⟩ := h.waitLaw.2.2.2.1 n (by rw [hb]; simp [SlotBody.waits, hu])
  subst hs
  obtain ⟨hk, hv, _⟩ := h.entry_held he hb
  have hm : e ∈ t.waitList l.volume := ((h.waitLaw.2.2.2.2 l.volume).2 e).mpr ⟨we, he, hv⟩
  cases hf : t.entryFor .upgrade l.volume we.slot with
  | some d => exact ⟨d, rfl⟩
  | none =>
    have := List.find?_eq_none.mp hf e hm
    simp [he, hk] at this

/-- What ending the upgrade of a lease leaves in its slot (R55, R59). -/
theorem Run.endUpgrade_to (r : Run) (n : Nat) (l : Lease) (ten : Tenure) (h : r.tab.Sound)
    (hb : r.tab.body n = .held l ten) :
    r.To (r.endUpgrade n l ten) ∧ (r.endUpgrade n l ten).tab.body n = .held l { ten with upgrade := none } := by
  unfold Run.endUpgrade
  cases hu : ten.upgrade with
  | none =>
    refine ⟨.refl r, ?_⟩
    rw [hb]
    congr 1
    cases ten
    simp only at hu
    rw [hu]
  | some u =>
    obtain ⟨e, he⟩ := h.entryFor_held hb hu
    simp only [he]
    refine ⟨Run.endWait_to r .leaseGone e h, ?_⟩
    obtain ⟨we, hlk, hk, hs⟩ := Tables.entryFor_some he
    unfold Run.endWait
    simp only [hlk, hk, hs, hb, hu]
    rw [Run.tab_passDue]
    show ((r.tab.removeEntry e we.volume).setBody n (.held l { ten with upgrade := none })).body n = _
    rw [Tables.body_setBody, if_pos rfl]

theorem Run.report_to (r : Run) (c : Cause) (i : SessionId) (h : Handle) : r.To (r.report c i h) := by
  cases c with
  | release => exact .refl r
  | purge => exact .refl r
  | expiry => exact ((Run.To.refl r).notify _ _).alarm _
  | revocation reason => exact ((Run.To.refl r).notify _ _).alarm _

@[simp] theorem Run.tab_report (r : Run) (c : Cause) (i : SessionId) (h : Handle) : (r.report c i h).tab = r.tab := by
  cases c <;> rfl

theorem Run.retire_to (r : Run) (c : Cause) (n : Nat) (h : r.tab.Sound) : r.To (r.retire c n) := by
  unfold Run.retire
  cases hb : r.tab.body n with
  | free => exact .refl r
  | pending l d => exact .refl r
  | held l ten =>
    obtain ⟨h1, h2⟩ := r.endUpgrade_to n l ten h hb
    refine Run.To.passDue ?_ _
    have hm := Move.retire (r.endUpgrade n l ten).tab n l _ h2 rfl
    have hrep := Run.report_to ((r.endUpgrade n l ten).withTab ((r.endUpgrade n l ten).tab.indexRemove l.volume n)) c l.owner
      (((r.endUpgrade n l ten).withTab ((r.endUpgrade n l ten).tab.indexRemove l.volume n)).tab.handle n)
    refine ⟨h1.moves.trans (.one ?_), ?_, ?_, ?_⟩
    · show Move _ ((Run.report _ c l.owner _).tab.freeSlot n l.owner)
      rw [Run.tab_report]
      exact hm
    · exact hrep.now.trans h1.now
    · exact hrep.limit.trans h1.limit
    · exact hrep.threshold.trans h1.threshold

/-! ### The wake pass (R45 to R49) -/

/-- A wake pass grants an entry that is grantable and not refused for exhaustion. -/
theorem Run.grantEntry_to (r : Run) (e : Nat) (we : WaitEntry) (c : Lease) (h : r.tab.Sound)
    (he : lookupKey e r.tab.pool = some we) (hc : r.tab.entryClaim we = some c) (hg : r.tab.grantable e we c = true)
    (hx : r.tab.exhaustedFor c.mode we.volume = false) : r.To (r.grantEntry e we) := by
  have hclear : r.tab.conflictSearch c = [] := by
    unfold Tables.grantable at hg
    exact List.isEmpty_iff.mp (Bool.and_eq_true_iff.mp hg).1
  unfold Run.grantEntry
  cases hb : r.tab.body we.slot with
  | free =>
    unfold Tables.entryClaim at hc
    rw [hb] at hc
    cases hk : we.kind <;> rw [hk] at hc <;> exact absurd hc (by simp)
  | pending l d =>
    obtain ⟨hk, hv⟩ := h.entry_pending he hb
    have hcl : c = l := by
      unfold Tables.entryClaim at hc
      rw [hb, hk] at hc
      exact (Option.some.inj hc).symm
    subst hcl
    have hm := Move.grantParked r.tab e we c d r.now he hb ⟨hclear, hv ▸ hx⟩
    refine Run.To.conclude (Run.To.notify (Run.To.move ?_) _ _) _ _
    have htok : (r.tab.removeEntry e we.volume).tokenFor c.mode c.volume = r.tab.tokenFor c.mode c.volume := rfl
    rw [htok]
    exact hm
  | held l ten =>
    obtain ⟨hk, hv, u, hu⟩ := h.entry_held he hb
    have hcl : c = { l with mode := .exclusive } := by
      unfold Tables.entryClaim at hc
      rw [hb, hk] at hc
      exact (Option.some.inj hc).symm
    subst hcl
    simp only [hu]
    have hm := Move.upgradeParked r.tab e we l ten he hb ⟨hclear, hv ▸ hx⟩
    exact Run.To.conclude (Run.To.notify (Run.To.move hm) _ _) _ _

theorem passExamine_to (acc : Run × Bool) (e : Nat) (h : acc.1.tab.Sound) : acc.1.To (passExamine acc e).1 := by
  unfold passExamine
  split
  · exact .refl _
  · split
    · exact .refl _
    · rename_i we he
      split
      · exact .refl _
      · rename_i c hc
        split
        · rename_i hg
          split
          · exact Run.exhaust_to _ _ h
          · rename_i hx
            exact Run.grantEntry_to _ e we c h he hc hg (by simpa using hx)
        · exact .refl _

theorem passExamine_fold (l : List Nat) : ∀ acc : Run × Bool, acc.1.tab.Sound → acc.1.To (l.foldl passExamine acc).1 := by
  induction l with
  | nil => intro acc _; exact .refl _
  | cons e l ih =>
    intro acc h
    have h1 := passExamine_to acc e h
    exact h1.trans (ih (passExamine acc e) (h1.moves.keeps h))

theorem Run.wakePass_to (r : Run) (v : VolumeId) (h : r.tab.Sound) : r.To (r.wakePass v) := by
  have h1 := passExamine_fold (r.tab.passOrder v) (r, false) h
  unfold Run.wakePass
  simp only
  split
  · exact h1
  · exact h1.trans (Run.To.fold Run.applyRecall Run.applyRecall_to _ _ (h1.moves.keeps h))

theorem Run.runPasses_to (r : Run) (h : r.tab.Sound) : r.To r.runPasses := by
  unfold Run.runPasses
  refine Run.To.fold _ ?_ _ r h
  intro a v ha
  split
  · exact Run.wakePass_to a v ha
  · exact .refl a

end Sys2Proof.Machine
end

