-- ==== Sys2Proof/Laws/State.lean ====
section
/-! SUPPORT. Each field of the state after each of the record updates that the meanings are made of: the fields an update
does not name are as they were. Then the records that `setSession` and `setPort` write, read back. -/

namespace Sys2Proof.Machine

/-! ### `withPending` -/

@[simp] theorem State.resetN_withPending (s : State) (q : List Instr) : (s.withPending q).resetN = s.resetN := rfl
@[simp] theorem State.alertN_withPending (s : State) (q : List Instr) : (s.withPending q).alertN = s.alertN := rfl
@[simp] theorem State.address_withPending (s : State) (q : List Instr) : (s.withPending q).address = s.address := rfl
@[simp] theorem State.clock_withPending (s : State) (q : List Instr) : (s.withPending q).clock = s.clock := rfl
@[simp] theorem State.device_withPending (s : State) (q : List Instr) : (s.withPending q).device = s.device := rfl
@[simp] theorem State.tab_withPending (s : State) (q : List Instr) : (s.withPending q).tab = s.tab := rfl
@[simp] theorem State.engine_withPending (s : State) (q : List Instr) : (s.withPending q).engine = s.engine := rfl
@[simp] theorem State.lastServed_withPending (s : State) (q : List Instr) : (s.withPending q).lastServed = s.lastServed := rfl
@[simp] theorem State.sessions_withPending (s : State) (q : List Instr) : (s.withPending q).sessions = s.sessions := rfl
@[simp] theorem State.nextNumber_withPending (s : State) (q : List Instr) : (s.withPending q).nextNumber = s.nextNumber := rfl
@[simp] theorem State.timersQueue_withPending (s : State) (q : List Instr) : (s.withPending q).timersQueue = s.timersQueue := rfl
@[simp] theorem State.visitPending_withPending (s : State) (q : List Instr) : (s.withPending q).visitPending = s.visitPending := rfl
@[simp] theorem State.sweepPtr_withPending (s : State) (q : List Instr) : (s.withPending q).sweepPtr = s.sweepPtr := rfl
@[simp] theorem State.slips_withPending (s : State) (q : List Instr) : (s.withPending q).slips = s.slips := rfl
@[simp] theorem State.purgeQueue_withPending (s : State) (q : List Instr) : (s.withPending q).purgeQueue = s.purgeQueue := rfl
@[simp] theorem State.purgeSection_withPending (s : State) (q : List Instr) : (s.withPending q).purgeSection = s.purgeSection := rfl
@[simp] theorem State.ports_withPending (s : State) (q : List Instr) : (s.withPending q).ports = s.ports := rfl
@[simp] theorem State.gate_withPending (s : State) (q : List Instr) : (s.withPending q).gate = s.gate := rfl
@[simp] theorem State.config_withPending (s : State) (q : List Instr) : (s.withPending q).config = s.config := rfl
@[simp] theorem State.recallLimit_withPending (s : State) (q : List Instr) : (s.withPending q).recallLimit = s.recallLimit := rfl
@[simp] theorem State.occThreshold_withPending (s : State) (q : List Instr) : (s.withPending q).occThreshold = s.occThreshold := rfl
@[simp] theorem State.itemPtr_withPending (s : State) (q : List Instr) : (s.withPending q).itemPtr = s.itemPtr := rfl
@[simp] theorem State.readLatch_withPending (s : State) (q : List Instr) : (s.withPending q).readLatch = s.readLatch := rfl
@[simp] theorem State.readOut_withPending (s : State) (q : List Instr) : (s.withPending q).readOut = s.readOut := rfl
@[simp] theorem State.openReads_withPending (s : State) (q : List Instr) : (s.withPending q).openReads = s.openReads := rfl
@[simp] theorem State.arg1_withPending (s : State) (q : List Instr) : (s.withPending q).arg1 = s.arg1 := rfl
@[simp] theorem State.arg2_withPending (s : State) (q : List Instr) : (s.withPending q).arg2 = s.arg2 := rfl
@[simp] theorem State.arg3_withPending (s : State) (q : List Instr) : (s.withPending q).arg3 = s.arg3 := rfl
@[simp] theorem State.cmdStatus_withPending (s : State) (q : List Instr) : (s.withPending q).cmdStatus = s.cmdStatus := rfl
@[simp] theorem State.lastCode_withPending (s : State) (q : List Instr) : (s.withPending q).lastCode = s.lastCode := rfl
@[simp] theorem State.overrun_withPending (s : State) (q : List Instr) : (s.withPending q).overrun = s.overrun := rfl
@[simp] theorem State.overrunClears_withPending (s : State) (q : List Instr) : (s.withPending q).overrunClears = s.overrunClears := rfl
@[simp] theorem State.waiting_withPending (s : State) (q : List Instr) : (s.withPending q).waiting = s.waiting := rfl
@[simp] theorem State.alerts_withPending (s : State) (q : List Instr) : (s.withPending q).alerts = s.alerts := rfl
@[simp] theorem State.selKind_withPending (s : State) (q : List Instr) : (s.withPending q).selKind = s.selKind := rfl
@[simp] theorem State.selIndex_withPending (s : State) (q : List Instr) : (s.withPending q).selIndex = s.selIndex := rfl
@[simp] theorem State.window_withPending (s : State) (q : List Instr) : (s.withPending q).window = s.window := rfl

/-! ### `setSession` -/

@[simp] theorem State.resetN_setSession (s : State) (i : SessionId) (x : Session) : (s.setSession i x).resetN = s.resetN := rfl
@[simp] theorem State.alertN_setSession (s : State) (i : SessionId) (x : Session) : (s.setSession i x).alertN = s.alertN := rfl
@[simp] theorem State.address_setSession (s : State) (i : SessionId) (x : Session) : (s.setSession i x).address = s.address := rfl
@[simp] theorem State.clock_setSession (s : State) (i : SessionId) (x : Session) : (s.setSession i x).clock = s.clock := rfl
@[simp] theorem State.device_setSession (s : State) (i : SessionId) (x : Session) : (s.setSession i x).device = s.device := rfl
@[simp] theorem State.tab_setSession (s : State) (i : SessionId) (x : Session) : (s.setSession i x).tab = s.tab := rfl
@[simp] theorem State.engine_setSession (s : State) (i : SessionId) (x : Session) : (s.setSession i x).engine = s.engine := rfl
@[simp] theorem State.lastServed_setSession (s : State) (i : SessionId) (x : Session) : (s.setSession i x).lastServed = s.lastServed := rfl
@[simp] theorem State.nextNumber_setSession (s : State) (i : SessionId) (x : Session) : (s.setSession i x).nextNumber = s.nextNumber := rfl
@[simp] theorem State.timersQueue_setSession (s : State) (i : SessionId) (x : Session) : (s.setSession i x).timersQueue = s.timersQueue := rfl
@[simp] theorem State.visitPending_setSession (s : State) (i : SessionId) (x : Session) : (s.setSession i x).visitPending = s.visitPending := rfl
@[simp] theorem State.sweepPtr_setSession (s : State) (i : SessionId) (x : Session) : (s.setSession i x).sweepPtr = s.sweepPtr := rfl
@[simp] theorem State.slips_setSession (s : State) (i : SessionId) (x : Session) : (s.setSession i x).slips = s.slips := rfl
@[simp] theorem State.purgeQueue_setSession (s : State) (i : SessionId) (x : Session) : (s.setSession i x).purgeQueue = s.purgeQueue := rfl
@[simp] theorem State.purgeSection_setSession (s : State) (i : SessionId) (x : Session) : (s.setSession i x).purgeSection = s.purgeSection := rfl
@[simp] theorem State.ports_setSession (s : State) (i : SessionId) (x : Session) : (s.setSession i x).ports = s.ports := rfl
@[simp] theorem State.gate_setSession (s : State) (i : SessionId) (x : Session) : (s.setSession i x).gate = s.gate := rfl
@[simp] theorem State.config_setSession (s : State) (i : SessionId) (x : Session) : (s.setSession i x).config = s.config := rfl
@[simp] theorem State.recallLimit_setSession (s : State) (i : SessionId) (x : Session) : (s.setSession i x).recallLimit = s.recallLimit := rfl
@[simp] theorem State.occThreshold_setSession (s : State) (i : SessionId) (x : Session) : (s.setSession i x).occThreshold = s.occThreshold := rfl
@[simp] theorem State.itemPtr_setSession (s : State) (i : SessionId) (x : Session) : (s.setSession i x).itemPtr = s.itemPtr := rfl
@[simp] theorem State.readLatch_setSession (s : State) (i : SessionId) (x : Session) : (s.setSession i x).readLatch = s.readLatch := rfl
@[simp] theorem State.readOut_setSession (s : State) (i : SessionId) (x : Session) : (s.setSession i x).readOut = s.readOut := rfl
@[simp] theorem State.openReads_setSession (s : State) (i : SessionId) (x : Session) : (s.setSession i x).openReads = s.openReads := rfl
@[simp] theorem State.arg1_setSession (s : State) (i : SessionId) (x : Session) : (s.setSession i x).arg1 = s.arg1 := rfl
@[simp] theorem State.arg2_setSession (s : State) (i : SessionId) (x : Session) : (s.setSession i x).arg2 = s.arg2 := rfl
@[simp] theorem State.arg3_setSession (s : State) (i : SessionId) (x : Session) : (s.setSession i x).arg3 = s.arg3 := rfl
@[simp] theorem State.cmdStatus_setSession (s : State) (i : SessionId) (x : Session) : (s.setSession i x).cmdStatus = s.cmdStatus := rfl
@[simp] theorem State.lastCode_setSession (s : State) (i : SessionId) (x : Session) : (s.setSession i x).lastCode = s.lastCode := rfl
@[simp] theorem State.overrun_setSession (s : State) (i : SessionId) (x : Session) : (s.setSession i x).overrun = s.overrun := rfl
@[simp] theorem State.overrunClears_setSession (s : State) (i : SessionId) (x : Session) : (s.setSession i x).overrunClears = s.overrunClears := rfl
@[simp] theorem State.waiting_setSession (s : State) (i : SessionId) (x : Session) : (s.setSession i x).waiting = s.waiting := rfl
@[simp] theorem State.alerts_setSession (s : State) (i : SessionId) (x : Session) : (s.setSession i x).alerts = s.alerts := rfl
@[simp] theorem State.selKind_setSession (s : State) (i : SessionId) (x : Session) : (s.setSession i x).selKind = s.selKind := rfl
@[simp] theorem State.selIndex_setSession (s : State) (i : SessionId) (x : Session) : (s.setSession i x).selIndex = s.selIndex := rfl
@[simp] theorem State.window_setSession (s : State) (i : SessionId) (x : Session) : (s.setSession i x).window = s.window := rfl
@[simp] theorem State.pending_setSession (s : State) (i : SessionId) (x : Session) : (s.setSession i x).pending = s.pending := rfl

/-! ### `setPort` -/

@[simp] theorem State.resetN_setPort (s : State) (p : PortId) (x : Port) : (s.setPort p x).resetN = s.resetN := rfl
@[simp] theorem State.alertN_setPort (s : State) (p : PortId) (x : Port) : (s.setPort p x).alertN = s.alertN := rfl
@[simp] theorem State.address_setPort (s : State) (p : PortId) (x : Port) : (s.setPort p x).address = s.address := rfl
@[simp] theorem State.clock_setPort (s : State) (p : PortId) (x : Port) : (s.setPort p x).clock = s.clock := rfl
@[simp] theorem State.device_setPort (s : State) (p : PortId) (x : Port) : (s.setPort p x).device = s.device := rfl
@[simp] theorem State.tab_setPort (s : State) (p : PortId) (x : Port) : (s.setPort p x).tab = s.tab := rfl
@[simp] theorem State.engine_setPort (s : State) (p : PortId) (x : Port) : (s.setPort p x).engine = s.engine := rfl
@[simp] theorem State.lastServed_setPort (s : State) (p : PortId) (x : Port) : (s.setPort p x).lastServed = s.lastServed := rfl
@[simp] theorem State.sessions_setPort (s : State) (p : PortId) (x : Port) : (s.setPort p x).sessions = s.sessions := rfl
@[simp] theorem State.nextNumber_setPort (s : State) (p : PortId) (x : Port) : (s.setPort p x).nextNumber = s.nextNumber := rfl
@[simp] theorem State.timersQueue_setPort (s : State) (p : PortId) (x : Port) : (s.setPort p x).timersQueue = s.timersQueue := rfl
@[simp] theorem State.visitPending_setPort (s : State) (p : PortId) (x : Port) : (s.setPort p x).visitPending = s.visitPending := rfl
@[simp] theorem State.sweepPtr_setPort (s : State) (p : PortId) (x : Port) : (s.setPort p x).sweepPtr = s.sweepPtr := rfl
@[simp] theorem State.slips_setPort (s : State) (p : PortId) (x : Port) : (s.setPort p x).slips = s.slips := rfl
@[simp] theorem State.purgeQueue_setPort (s : State) (p : PortId) (x : Port) : (s.setPort p x).purgeQueue = s.purgeQueue := rfl
@[simp] theorem State.purgeSection_setPort (s : State) (p : PortId) (x : Port) : (s.setPort p x).purgeSection = s.purgeSection := rfl
@[simp] theorem State.gate_setPort (s : State) (p : PortId) (x : Port) : (s.setPort p x).gate = s.gate := rfl
@[simp] theorem State.config_setPort (s : State) (p : PortId) (x : Port) : (s.setPort p x).config = s.config := rfl
@[simp] theorem State.recallLimit_setPort (s : State) (p : PortId) (x : Port) : (s.setPort p x).recallLimit = s.recallLimit := rfl
@[simp] theorem State.occThreshold_setPort (s : State) (p : PortId) (x : Port) : (s.setPort p x).occThreshold = s.occThreshold := rfl
@[simp] theorem State.itemPtr_setPort (s : State) (p : PortId) (x : Port) : (s.setPort p x).itemPtr = s.itemPtr := rfl
@[simp] theorem State.readLatch_setPort (s : State) (p : PortId) (x : Port) : (s.setPort p x).readLatch = s.readLatch := rfl
@[simp] theorem State.readOut_setPort (s : State) (p : PortId) (x : Port) : (s.setPort p x).readOut = s.readOut := rfl
@[simp] theorem State.openReads_setPort (s : State) (p : PortId) (x : Port) : (s.setPort p x).openReads = s.openReads := rfl
@[simp] theorem State.arg1_setPort (s : State) (p : PortId) (x : Port) : (s.setPort p x).arg1 = s.arg1 := rfl
@[simp] theorem State.arg2_setPort (s : State) (p : PortId) (x : Port) : (s.setPort p x).arg2 = s.arg2 := rfl
@[simp] theorem State.arg3_setPort (s : State) (p : PortId) (x : Port) : (s.setPort p x).arg3 = s.arg3 := rfl
@[simp] theorem State.cmdStatus_setPort (s : State) (p : PortId) (x : Port) : (s.setPort p x).cmdStatus = s.cmdStatus := rfl
@[simp] theorem State.lastCode_setPort (s : State) (p : PortId) (x : Port) : (s.setPort p x).lastCode = s.lastCode := rfl
@[simp] theorem State.overrun_setPort (s : State) (p : PortId) (x : Port) : (s.setPort p x).overrun = s.overrun := rfl
@[simp] theorem State.overrunClears_setPort (s : State) (p : PortId) (x : Port) : (s.setPort p x).overrunClears = s.overrunClears := rfl
@[simp] theorem State.waiting_setPort (s : State) (p : PortId) (x : Port) : (s.setPort p x).waiting = s.waiting := rfl
@[simp] theorem State.alerts_setPort (s : State) (p : PortId) (x : Port) : (s.setPort p x).alerts = s.alerts := rfl
@[simp] theorem State.selKind_setPort (s : State) (p : PortId) (x : Port) : (s.setPort p x).selKind = s.selKind := rfl
@[simp] theorem State.selIndex_setPort (s : State) (p : PortId) (x : Port) : (s.setPort p x).selIndex = s.selIndex := rfl
@[simp] theorem State.window_setPort (s : State) (p : PortId) (x : Port) : (s.setPort p x).window = s.window := rfl
@[simp] theorem State.pending_setPort (s : State) (p : PortId) (x : Port) : (s.setPort p x).pending = s.pending := rfl

/-! ### `claim` -/

@[simp] theorem State.resetN_claim (s : State) (c : TimerClaim) : (s.claim c).resetN = s.resetN := rfl
@[simp] theorem State.alertN_claim (s : State) (c : TimerClaim) : (s.claim c).alertN = s.alertN := rfl
@[simp] theorem State.address_claim (s : State) (c : TimerClaim) : (s.claim c).address = s.address := rfl
@[simp] theorem State.clock_claim (s : State) (c : TimerClaim) : (s.claim c).clock = s.clock := rfl
@[simp] theorem State.device_claim (s : State) (c : TimerClaim) : (s.claim c).device = s.device := rfl
@[simp] theorem State.tab_claim (s : State) (c : TimerClaim) : (s.claim c).tab = s.tab := rfl
@[simp] theorem State.engine_claim (s : State) (c : TimerClaim) : (s.claim c).engine = s.engine := rfl
@[simp] theorem State.lastServed_claim (s : State) (c : TimerClaim) : (s.claim c).lastServed = s.lastServed := rfl
@[simp] theorem State.sessions_claim (s : State) (c : TimerClaim) : (s.claim c).sessions = s.sessions := rfl
@[simp] theorem State.nextNumber_claim (s : State) (c : TimerClaim) : (s.claim c).nextNumber = s.nextNumber := rfl
@[simp] theorem State.visitPending_claim (s : State) (c : TimerClaim) : (s.claim c).visitPending = s.visitPending := rfl
@[simp] theorem State.sweepPtr_claim (s : State) (c : TimerClaim) : (s.claim c).sweepPtr = s.sweepPtr := rfl
@[simp] theorem State.slips_claim (s : State) (c : TimerClaim) : (s.claim c).slips = s.slips := rfl
@[simp] theorem State.purgeQueue_claim (s : State) (c : TimerClaim) : (s.claim c).purgeQueue = s.purgeQueue := rfl
@[simp] theorem State.purgeSection_claim (s : State) (c : TimerClaim) : (s.claim c).purgeSection = s.purgeSection := rfl
@[simp] theorem State.ports_claim (s : State) (c : TimerClaim) : (s.claim c).ports = s.ports := rfl
@[simp] theorem State.gate_claim (s : State) (c : TimerClaim) : (s.claim c).gate = s.gate := rfl
@[simp] theorem State.config_claim (s : State) (c : TimerClaim) : (s.claim c).config = s.config := rfl
@[simp] theorem State.recallLimit_claim (s : State) (c : TimerClaim) : (s.claim c).recallLimit = s.recallLimit := rfl
@[simp] theorem State.occThreshold_claim (s : State) (c : TimerClaim) : (s.claim c).occThreshold = s.occThreshold := rfl
@[simp] theorem State.itemPtr_claim (s : State) (c : TimerClaim) : (s.claim c).itemPtr = s.itemPtr := rfl
@[simp] theorem State.readLatch_claim (s : State) (c : TimerClaim) : (s.claim c).readLatch = s.readLatch := rfl
@[simp] theorem State.readOut_claim (s : State) (c : TimerClaim) : (s.claim c).readOut = s.readOut := rfl
@[simp] theorem State.openReads_claim (s : State) (c : TimerClaim) : (s.claim c).openReads = s.openReads := rfl
@[simp] theorem State.arg1_claim (s : State) (c : TimerClaim) : (s.claim c).arg1 = s.arg1 := rfl
@[simp] theorem State.arg2_claim (s : State) (c : TimerClaim) : (s.claim c).arg2 = s.arg2 := rfl
@[simp] theorem State.arg3_claim (s : State) (c : TimerClaim) : (s.claim c).arg3 = s.arg3 := rfl
@[simp] theorem State.cmdStatus_claim (s : State) (c : TimerClaim) : (s.claim c).cmdStatus = s.cmdStatus := rfl
@[simp] theorem State.lastCode_claim (s : State) (c : TimerClaim) : (s.claim c).lastCode = s.lastCode := rfl
@[simp] theorem State.overrun_claim (s : State) (c : TimerClaim) : (s.claim c).overrun = s.overrun := rfl
@[simp] theorem State.overrunClears_claim (s : State) (c : TimerClaim) : (s.claim c).overrunClears = s.overrunClears := rfl
@[simp] theorem State.waiting_claim (s : State) (c : TimerClaim) : (s.claim c).waiting = s.waiting := rfl
@[simp] theorem State.alerts_claim (s : State) (c : TimerClaim) : (s.claim c).alerts = s.alerts := rfl
@[simp] theorem State.selKind_claim (s : State) (c : TimerClaim) : (s.claim c).selKind = s.selKind := rfl
@[simp] theorem State.selIndex_claim (s : State) (c : TimerClaim) : (s.claim c).selIndex = s.selIndex := rfl
@[simp] theorem State.window_claim (s : State) (c : TimerClaim) : (s.claim c).window = s.window := rfl
@[simp] theorem State.pending_claim (s : State) (c : TimerClaim) : (s.claim c).pending = s.pending := rfl

/-! ### `raise` -/

@[simp] theorem State.resetN_raise (s : State) (as : List Alert) : (s.raise as).resetN = s.resetN := rfl
@[simp] theorem State.address_raise (s : State) (as : List Alert) : (s.raise as).address = s.address := rfl
@[simp] theorem State.clock_raise (s : State) (as : List Alert) : (s.raise as).clock = s.clock := rfl
@[simp] theorem State.device_raise (s : State) (as : List Alert) : (s.raise as).device = s.device := rfl
@[simp] theorem State.tab_raise (s : State) (as : List Alert) : (s.raise as).tab = s.tab := rfl
@[simp] theorem State.engine_raise (s : State) (as : List Alert) : (s.raise as).engine = s.engine := rfl
@[simp] theorem State.lastServed_raise (s : State) (as : List Alert) : (s.raise as).lastServed = s.lastServed := rfl
@[simp] theorem State.sessions_raise (s : State) (as : List Alert) : (s.raise as).sessions = s.sessions := rfl
@[simp] theorem State.nextNumber_raise (s : State) (as : List Alert) : (s.raise as).nextNumber = s.nextNumber := rfl
@[simp] theorem State.timersQueue_raise (s : State) (as : List Alert) : (s.raise as).timersQueue = s.timersQueue := rfl
@[simp] theorem State.visitPending_raise (s : State) (as : List Alert) : (s.raise as).visitPending = s.visitPending := rfl
@[simp] theorem State.sweepPtr_raise (s : State) (as : List Alert) : (s.raise as).sweepPtr = s.sweepPtr := rfl
@[simp] theorem State.slips_raise (s : State) (as : List Alert) : (s.raise as).slips = s.slips := rfl
@[simp] theorem State.purgeQueue_raise (s : State) (as : List Alert) : (s.raise as).purgeQueue = s.purgeQueue := rfl
@[simp] theorem State.purgeSection_raise (s : State) (as : List Alert) : (s.raise as).purgeSection = s.purgeSection := rfl
@[simp] theorem State.ports_raise (s : State) (as : List Alert) : (s.raise as).ports = s.ports := rfl
@[simp] theorem State.gate_raise (s : State) (as : List Alert) : (s.raise as).gate = s.gate := rfl
@[simp] theorem State.config_raise (s : State) (as : List Alert) : (s.raise as).config = s.config := rfl
@[simp] theorem State.recallLimit_raise (s : State) (as : List Alert) : (s.raise as).recallLimit = s.recallLimit := rfl
@[simp] theorem State.occThreshold_raise (s : State) (as : List Alert) : (s.raise as).occThreshold = s.occThreshold := rfl
@[simp] theorem State.itemPtr_raise (s : State) (as : List Alert) : (s.raise as).itemPtr = s.itemPtr := rfl
@[simp] theorem State.readLatch_raise (s : State) (as : List Alert) : (s.raise as).readLatch = s.readLatch := rfl
@[simp] theorem State.readOut_raise (s : State) (as : List Alert) : (s.raise as).readOut = s.readOut := rfl
@[simp] theorem State.openReads_raise (s : State) (as : List Alert) : (s.raise as).openReads = s.openReads := rfl
@[simp] theorem State.arg1_raise (s : State) (as : List Alert) : (s.raise as).arg1 = s.arg1 := rfl
@[simp] theorem State.arg2_raise (s : State) (as : List Alert) : (s.raise as).arg2 = s.arg2 := rfl
@[simp] theorem State.arg3_raise (s : State) (as : List Alert) : (s.raise as).arg3 = s.arg3 := rfl
@[simp] theorem State.cmdStatus_raise (s : State) (as : List Alert) : (s.raise as).cmdStatus = s.cmdStatus := rfl
@[simp] theorem State.lastCode_raise (s : State) (as : List Alert) : (s.raise as).lastCode = s.lastCode := rfl
@[simp] theorem State.overrun_raise (s : State) (as : List Alert) : (s.raise as).overrun = s.overrun := rfl
@[simp] theorem State.overrunClears_raise (s : State) (as : List Alert) : (s.raise as).overrunClears = s.overrunClears := rfl
@[simp] theorem State.waiting_raise (s : State) (as : List Alert) : (s.raise as).waiting = s.waiting := rfl
@[simp] theorem State.selKind_raise (s : State) (as : List Alert) : (s.raise as).selKind = s.selKind := rfl
@[simp] theorem State.selIndex_raise (s : State) (as : List Alert) : (s.raise as).selIndex = s.selIndex := rfl
@[simp] theorem State.window_raise (s : State) (as : List Alert) : (s.raise as).window = s.window := rfl
@[simp] theorem State.pending_raise (s : State) (as : List Alert) : (s.raise as).pending = s.pending := rfl

/-! ### `settle` -/

@[simp] theorem State.resetN_settle (s : State) : (s.settle).resetN = s.resetN := rfl
@[simp] theorem State.alertN_settle (s : State) : (s.settle).alertN = s.alertN := rfl
@[simp] theorem State.address_settle (s : State) : (s.settle).address = s.address := rfl
@[simp] theorem State.clock_settle (s : State) : (s.settle).clock = s.clock := rfl
@[simp] theorem State.device_settle (s : State) : (s.settle).device = s.device := rfl
@[simp] theorem State.tab_settle (s : State) : (s.settle).tab = s.tab := rfl
@[simp] theorem State.engine_settle (s : State) : (s.settle).engine = s.engine := rfl
@[simp] theorem State.lastServed_settle (s : State) : (s.settle).lastServed = s.lastServed := rfl
@[simp] theorem State.sessions_settle (s : State) : (s.settle).sessions = s.sessions := rfl
@[simp] theorem State.nextNumber_settle (s : State) : (s.settle).nextNumber = s.nextNumber := rfl
@[simp] theorem State.timersQueue_settle (s : State) : (s.settle).timersQueue = s.timersQueue := rfl
@[simp] theorem State.visitPending_settle (s : State) : (s.settle).visitPending = s.visitPending := rfl
@[simp] theorem State.sweepPtr_settle (s : State) : (s.settle).sweepPtr = s.sweepPtr := rfl
@[simp] theorem State.slips_settle (s : State) : (s.settle).slips = s.slips := rfl
@[simp] theorem State.purgeQueue_settle (s : State) : (s.settle).purgeQueue = s.purgeQueue := rfl
@[simp] theorem State.purgeSection_settle (s : State) : (s.settle).purgeSection = s.purgeSection := rfl
@[simp] theorem State.gate_settle (s : State) : (s.settle).gate = s.gate := rfl
@[simp] theorem State.config_settle (s : State) : (s.settle).config = s.config := rfl
@[simp] theorem State.recallLimit_settle (s : State) : (s.settle).recallLimit = s.recallLimit := rfl
@[simp] theorem State.occThreshold_settle (s : State) : (s.settle).occThreshold = s.occThreshold := rfl
@[simp] theorem State.itemPtr_settle (s : State) : (s.settle).itemPtr = s.itemPtr := rfl
@[simp] theorem State.readLatch_settle (s : State) : (s.settle).readLatch = s.readLatch := rfl
@[simp] theorem State.readOut_settle (s : State) : (s.settle).readOut = s.readOut := rfl
@[simp] theorem State.openReads_settle (s : State) : (s.settle).openReads = s.openReads := rfl
@[simp] theorem State.arg1_settle (s : State) : (s.settle).arg1 = s.arg1 := rfl
@[simp] theorem State.arg2_settle (s : State) : (s.settle).arg2 = s.arg2 := rfl
@[simp] theorem State.arg3_settle (s : State) : (s.settle).arg3 = s.arg3 := rfl
@[simp] theorem State.cmdStatus_settle (s : State) : (s.settle).cmdStatus = s.cmdStatus := rfl
@[simp] theorem State.lastCode_settle (s : State) : (s.settle).lastCode = s.lastCode := rfl
@[simp] theorem State.overrun_settle (s : State) : (s.settle).overrun = s.overrun := rfl
@[simp] theorem State.overrunClears_settle (s : State) : (s.settle).overrunClears = s.overrunClears := rfl
@[simp] theorem State.waiting_settle (s : State) : (s.settle).waiting = s.waiting := rfl
@[simp] theorem State.alerts_settle (s : State) : (s.settle).alerts = s.alerts := rfl
@[simp] theorem State.selKind_settle (s : State) : (s.settle).selKind = s.selKind := rfl
@[simp] theorem State.selIndex_settle (s : State) : (s.settle).selIndex = s.selIndex := rfl
@[simp] theorem State.window_settle (s : State) : (s.settle).window = s.window := rfl
@[simp] theorem State.pending_settle (s : State) : (s.settle).pending = s.pending := rfl

/-! ### `finishStatus` -/

@[simp] theorem State.resetN_finishStatus (s : State) (r : Option Reason) : (s.finishStatus r).resetN = s.resetN := rfl
@[simp] theorem State.alertN_finishStatus (s : State) (r : Option Reason) : (s.finishStatus r).alertN = s.alertN := rfl
@[simp] theorem State.address_finishStatus (s : State) (r : Option Reason) : (s.finishStatus r).address = s.address := rfl
@[simp] theorem State.clock_finishStatus (s : State) (r : Option Reason) : (s.finishStatus r).clock = s.clock := rfl
@[simp] theorem State.device_finishStatus (s : State) (r : Option Reason) : (s.finishStatus r).device = s.device := rfl
@[simp] theorem State.tab_finishStatus (s : State) (r : Option Reason) : (s.finishStatus r).tab = s.tab := rfl
@[simp] theorem State.engine_finishStatus (s : State) (r : Option Reason) : (s.finishStatus r).engine = s.engine := rfl
@[simp] theorem State.lastServed_finishStatus (s : State) (r : Option Reason) : (s.finishStatus r).lastServed = s.lastServed := rfl
@[simp] theorem State.sessions_finishStatus (s : State) (r : Option Reason) : (s.finishStatus r).sessions = s.sessions := rfl
@[simp] theorem State.nextNumber_finishStatus (s : State) (r : Option Reason) : (s.finishStatus r).nextNumber = s.nextNumber := rfl
@[simp] theorem State.timersQueue_finishStatus (s : State) (r : Option Reason) : (s.finishStatus r).timersQueue = s.timersQueue := rfl
@[simp] theorem State.visitPending_finishStatus (s : State) (r : Option Reason) : (s.finishStatus r).visitPending = s.visitPending := rfl
@[simp] theorem State.sweepPtr_finishStatus (s : State) (r : Option Reason) : (s.finishStatus r).sweepPtr = s.sweepPtr := rfl
@[simp] theorem State.slips_finishStatus (s : State) (r : Option Reason) : (s.finishStatus r).slips = s.slips := rfl
@[simp] theorem State.purgeQueue_finishStatus (s : State) (r : Option Reason) : (s.finishStatus r).purgeQueue = s.purgeQueue := rfl
@[simp] theorem State.purgeSection_finishStatus (s : State) (r : Option Reason) : (s.finishStatus r).purgeSection = s.purgeSection := rfl
@[simp] theorem State.ports_finishStatus (s : State) (r : Option Reason) : (s.finishStatus r).ports = s.ports := rfl
@[simp] theorem State.gate_finishStatus (s : State) (r : Option Reason) : (s.finishStatus r).gate = s.gate := rfl
@[simp] theorem State.config_finishStatus (s : State) (r : Option Reason) : (s.finishStatus r).config = s.config := rfl
@[simp] theorem State.recallLimit_finishStatus (s : State) (r : Option Reason) : (s.finishStatus r).recallLimit = s.recallLimit := rfl
@[simp] theorem State.occThreshold_finishStatus (s : State) (r : Option Reason) : (s.finishStatus r).occThreshold = s.occThreshold := rfl
@[simp] theorem State.itemPtr_finishStatus (s : State) (r : Option Reason) : (s.finishStatus r).itemPtr = s.itemPtr := rfl
@[simp] theorem State.readLatch_finishStatus (s : State) (r : Option Reason) : (s.finishStatus r).readLatch = s.readLatch := rfl
@[simp] theorem State.readOut_finishStatus (s : State) (r : Option Reason) : (s.finishStatus r).readOut = s.readOut := rfl
@[simp] theorem State.openReads_finishStatus (s : State) (r : Option Reason) : (s.finishStatus r).openReads = s.openReads := rfl
@[simp] theorem State.arg1_finishStatus (s : State) (r : Option Reason) : (s.finishStatus r).arg1 = s.arg1 := rfl
@[simp] theorem State.arg2_finishStatus (s : State) (r : Option Reason) : (s.finishStatus r).arg2 = s.arg2 := rfl
@[simp] theorem State.arg3_finishStatus (s : State) (r : Option Reason) : (s.finishStatus r).arg3 = s.arg3 := rfl
@[simp] theorem State.lastCode_finishStatus (s : State) (r : Option Reason) : (s.finishStatus r).lastCode = s.lastCode := rfl
@[simp] theorem State.alerts_finishStatus (s : State) (r : Option Reason) : (s.finishStatus r).alerts = s.alerts := rfl
@[simp] theorem State.selKind_finishStatus (s : State) (r : Option Reason) : (s.finishStatus r).selKind = s.selKind := rfl
@[simp] theorem State.selIndex_finishStatus (s : State) (r : Option Reason) : (s.finishStatus r).selIndex = s.selIndex := rfl
@[simp] theorem State.window_finishStatus (s : State) (r : Option Reason) : (s.finishStatus r).window = s.window := rfl
@[simp] theorem State.pending_finishStatus (s : State) (r : Option Reason) : (s.finishStatus r).pending = s.pending := rfl

/-! ### `setGate` -/

@[simp] theorem State.resetN_setGate (s : State) (g : Gate) : (s.setGate g).resetN = s.resetN := rfl
@[simp] theorem State.alertN_setGate (s : State) (g : Gate) : (s.setGate g).alertN = s.alertN := rfl
@[simp] theorem State.address_setGate (s : State) (g : Gate) : (s.setGate g).address = s.address := rfl
@[simp] theorem State.clock_setGate (s : State) (g : Gate) : (s.setGate g).clock = s.clock := rfl
@[simp] theorem State.device_setGate (s : State) (g : Gate) : (s.setGate g).device = s.device := rfl
@[simp] theorem State.tab_setGate (s : State) (g : Gate) : (s.setGate g).tab = s.tab := rfl
@[simp] theorem State.engine_setGate (s : State) (g : Gate) : (s.setGate g).engine = s.engine := rfl
@[simp] theorem State.lastServed_setGate (s : State) (g : Gate) : (s.setGate g).lastServed = s.lastServed := rfl
@[simp] theorem State.sessions_setGate (s : State) (g : Gate) : (s.setGate g).sessions = s.sessions := rfl
@[simp] theorem State.nextNumber_setGate (s : State) (g : Gate) : (s.setGate g).nextNumber = s.nextNumber := rfl
@[simp] theorem State.timersQueue_setGate (s : State) (g : Gate) : (s.setGate g).timersQueue = s.timersQueue := rfl
@[simp] theorem State.visitPending_setGate (s : State) (g : Gate) : (s.setGate g).visitPending = s.visitPending := rfl
@[simp] theorem State.sweepPtr_setGate (s : State) (g : Gate) : (s.setGate g).sweepPtr = s.sweepPtr := rfl
@[simp] theorem State.slips_setGate (s : State) (g : Gate) : (s.setGate g).slips = s.slips := rfl
@[simp] theorem State.purgeQueue_setGate (s : State) (g : Gate) : (s.setGate g).purgeQueue = s.purgeQueue := rfl
@[simp] theorem State.purgeSection_setGate (s : State) (g : Gate) : (s.setGate g).purgeSection = s.purgeSection := rfl
@[simp] theorem State.ports_setGate (s : State) (g : Gate) : (s.setGate g).ports = s.ports := rfl
@[simp] theorem State.config_setGate (s : State) (g : Gate) : (s.setGate g).config = s.config := rfl
@[simp] theorem State.recallLimit_setGate (s : State) (g : Gate) : (s.setGate g).recallLimit = s.recallLimit := rfl
@[simp] theorem State.occThreshold_setGate (s : State) (g : Gate) : (s.setGate g).occThreshold = s.occThreshold := rfl
@[simp] theorem State.itemPtr_setGate (s : State) (g : Gate) : (s.setGate g).itemPtr = s.itemPtr := rfl
@[simp] theorem State.readLatch_setGate (s : State) (g : Gate) : (s.setGate g).readLatch = s.readLatch := rfl
@[simp] theorem State.readOut_setGate (s : State) (g : Gate) : (s.setGate g).readOut = s.readOut := rfl
@[simp] theorem State.openReads_setGate (s : State) (g : Gate) : (s.setGate g).openReads = s.openReads := rfl
@[simp] theorem State.arg1_setGate (s : State) (g : Gate) : (s.setGate g).arg1 = s.arg1 := rfl
@[simp] theorem State.arg2_setGate (s : State) (g : Gate) : (s.setGate g).arg2 = s.arg2 := rfl
@[simp] theorem State.arg3_setGate (s : State) (g : Gate) : (s.setGate g).arg3 = s.arg3 := rfl
@[simp] theorem State.cmdStatus_setGate (s : State) (g : Gate) : (s.setGate g).cmdStatus = s.cmdStatus := rfl
@[simp] theorem State.lastCode_setGate (s : State) (g : Gate) : (s.setGate g).lastCode = s.lastCode := rfl
@[simp] theorem State.overrun_setGate (s : State) (g : Gate) : (s.setGate g).overrun = s.overrun := rfl
@[simp] theorem State.overrunClears_setGate (s : State) (g : Gate) : (s.setGate g).overrunClears = s.overrunClears := rfl
@[simp] theorem State.waiting_setGate (s : State) (g : Gate) : (s.setGate g).waiting = s.waiting := rfl
@[simp] theorem State.alerts_setGate (s : State) (g : Gate) : (s.setGate g).alerts = s.alerts := rfl
@[simp] theorem State.selKind_setGate (s : State) (g : Gate) : (s.setGate g).selKind = s.selKind := rfl
@[simp] theorem State.selIndex_setGate (s : State) (g : Gate) : (s.setGate g).selIndex = s.selIndex := rfl
@[simp] theorem State.window_setGate (s : State) (g : Gate) : (s.setGate g).window = s.window := rfl
@[simp] theorem State.pending_setGate (s : State) (g : Gate) : (s.setGate g).pending = s.pending := rfl

/-! ### `enqueuePurge` -/

@[simp] theorem State.resetN_enqueuePurge (s : State) (i : SessionId) : (s.enqueuePurge i).resetN = s.resetN := rfl
@[simp] theorem State.alertN_enqueuePurge (s : State) (i : SessionId) : (s.enqueuePurge i).alertN = s.alertN := rfl
@[simp] theorem State.address_enqueuePurge (s : State) (i : SessionId) : (s.enqueuePurge i).address = s.address := rfl
@[simp] theorem State.clock_enqueuePurge (s : State) (i : SessionId) : (s.enqueuePurge i).clock = s.clock := rfl
@[simp] theorem State.device_enqueuePurge (s : State) (i : SessionId) : (s.enqueuePurge i).device = s.device := rfl
@[simp] theorem State.tab_enqueuePurge (s : State) (i : SessionId) : (s.enqueuePurge i).tab = s.tab := rfl
@[simp] theorem State.engine_enqueuePurge (s : State) (i : SessionId) : (s.enqueuePurge i).engine = s.engine := rfl
@[simp] theorem State.lastServed_enqueuePurge (s : State) (i : SessionId) : (s.enqueuePurge i).lastServed = s.lastServed := rfl
@[simp] theorem State.sessions_enqueuePurge (s : State) (i : SessionId) : (s.enqueuePurge i).sessions = s.sessions := rfl
@[simp] theorem State.nextNumber_enqueuePurge (s : State) (i : SessionId) : (s.enqueuePurge i).nextNumber = s.nextNumber := rfl
@[simp] theorem State.timersQueue_enqueuePurge (s : State) (i : SessionId) : (s.enqueuePurge i).timersQueue = s.timersQueue := rfl
@[simp] theorem State.visitPending_enqueuePurge (s : State) (i : SessionId) : (s.enqueuePurge i).visitPending = s.visitPending := rfl
@[simp] theorem State.sweepPtr_enqueuePurge (s : State) (i : SessionId) : (s.enqueuePurge i).sweepPtr = s.sweepPtr := rfl
@[simp] theorem State.slips_enqueuePurge (s : State) (i : SessionId) : (s.enqueuePurge i).slips = s.slips := rfl
@[simp] theorem State.ports_enqueuePurge (s : State) (i : SessionId) : (s.enqueuePurge i).ports = s.ports := rfl
@[simp] theorem State.gate_enqueuePurge (s : State) (i : SessionId) : (s.enqueuePurge i).gate = s.gate := rfl
@[simp] theorem State.config_enqueuePurge (s : State) (i : SessionId) : (s.enqueuePurge i).config = s.config := rfl
@[simp] theorem State.recallLimit_enqueuePurge (s : State) (i : SessionId) : (s.enqueuePurge i).recallLimit = s.recallLimit := rfl
@[simp] theorem State.occThreshold_enqueuePurge (s : State) (i : SessionId) : (s.enqueuePurge i).occThreshold = s.occThreshold := rfl
@[simp] theorem State.itemPtr_enqueuePurge (s : State) (i : SessionId) : (s.enqueuePurge i).itemPtr = s.itemPtr := rfl
@[simp] theorem State.readLatch_enqueuePurge (s : State) (i : SessionId) : (s.enqueuePurge i).readLatch = s.readLatch := rfl
@[simp] theorem State.readOut_enqueuePurge (s : State) (i : SessionId) : (s.enqueuePurge i).readOut = s.readOut := rfl
@[simp] theorem State.openReads_enqueuePurge (s : State) (i : SessionId) : (s.enqueuePurge i).openReads = s.openReads := rfl
@[simp] theorem State.arg1_enqueuePurge (s : State) (i : SessionId) : (s.enqueuePurge i).arg1 = s.arg1 := rfl
@[simp] theorem State.arg2_enqueuePurge (s : State) (i : SessionId) : (s.enqueuePurge i).arg2 = s.arg2 := rfl
@[simp] theorem State.arg3_enqueuePurge (s : State) (i : SessionId) : (s.enqueuePurge i).arg3 = s.arg3 := rfl
@[simp] theorem State.cmdStatus_enqueuePurge (s : State) (i : SessionId) : (s.enqueuePurge i).cmdStatus = s.cmdStatus := rfl
@[simp] theorem State.lastCode_enqueuePurge (s : State) (i : SessionId) : (s.enqueuePurge i).lastCode = s.lastCode := rfl
@[simp] theorem State.overrun_enqueuePurge (s : State) (i : SessionId) : (s.enqueuePurge i).overrun = s.overrun := rfl
@[simp] theorem State.overrunClears_enqueuePurge (s : State) (i : SessionId) : (s.enqueuePurge i).overrunClears = s.overrunClears := rfl
@[simp] theorem State.waiting_enqueuePurge (s : State) (i : SessionId) : (s.enqueuePurge i).waiting = s.waiting := rfl
@[simp] theorem State.alerts_enqueuePurge (s : State) (i : SessionId) : (s.enqueuePurge i).alerts = s.alerts := rfl
@[simp] theorem State.selKind_enqueuePurge (s : State) (i : SessionId) : (s.enqueuePurge i).selKind = s.selKind := rfl
@[simp] theorem State.selIndex_enqueuePurge (s : State) (i : SessionId) : (s.enqueuePurge i).selIndex = s.selIndex := rfl
@[simp] theorem State.window_enqueuePurge (s : State) (i : SessionId) : (s.enqueuePurge i).window = s.window := rfl
@[simp] theorem State.pending_enqueuePurge (s : State) (i : SessionId) : (s.enqueuePurge i).pending = s.pending := rfl

/-! ### `handOver` -/

@[simp] theorem State.resetN_handOver (s : State) (r : Run) : (r.handOver s).resetN = s.resetN := rfl
@[simp] theorem State.address_handOver (s : State) (r : Run) : (r.handOver s).address = s.address := rfl
@[simp] theorem State.clock_handOver (s : State) (r : Run) : (r.handOver s).clock = s.clock := rfl
@[simp] theorem State.device_handOver (s : State) (r : Run) : (r.handOver s).device = s.device := rfl
@[simp] theorem State.engine_handOver (s : State) (r : Run) : (r.handOver s).engine = s.engine := rfl
@[simp] theorem State.lastServed_handOver (s : State) (r : Run) : (r.handOver s).lastServed = s.lastServed := rfl
@[simp] theorem State.nextNumber_handOver (s : State) (r : Run) : (r.handOver s).nextNumber = s.nextNumber := rfl
@[simp] theorem State.timersQueue_handOver (s : State) (r : Run) : (r.handOver s).timersQueue = s.timersQueue := rfl
@[simp] theorem State.visitPending_handOver (s : State) (r : Run) : (r.handOver s).visitPending = s.visitPending := rfl
@[simp] theorem State.sweepPtr_handOver (s : State) (r : Run) : (r.handOver s).sweepPtr = s.sweepPtr := rfl
@[simp] theorem State.slips_handOver (s : State) (r : Run) : (r.handOver s).slips = s.slips := rfl
@[simp] theorem State.purgeQueue_handOver (s : State) (r : Run) : (r.handOver s).purgeQueue = s.purgeQueue := rfl
@[simp] theorem State.purgeSection_handOver (s : State) (r : Run) : (r.handOver s).purgeSection = s.purgeSection := rfl
@[simp] theorem State.ports_handOver (s : State) (r : Run) : (r.handOver s).ports = s.ports := rfl
@[simp] theorem State.gate_handOver (s : State) (r : Run) : (r.handOver s).gate = s.gate := rfl
@[simp] theorem State.config_handOver (s : State) (r : Run) : (r.handOver s).config = s.config := rfl
@[simp] theorem State.recallLimit_handOver (s : State) (r : Run) : (r.handOver s).recallLimit = s.recallLimit := rfl
@[simp] theorem State.occThreshold_handOver (s : State) (r : Run) : (r.handOver s).occThreshold = s.occThreshold := rfl
@[simp] theorem State.itemPtr_handOver (s : State) (r : Run) : (r.handOver s).itemPtr = s.itemPtr := rfl
@[simp] theorem State.readLatch_handOver (s : State) (r : Run) : (r.handOver s).readLatch = s.readLatch := rfl
@[simp] theorem State.readOut_handOver (s : State) (r : Run) : (r.handOver s).readOut = s.readOut := rfl
@[simp] theorem State.openReads_handOver (s : State) (r : Run) : (r.handOver s).openReads = s.openReads := rfl
@[simp] theorem State.arg1_handOver (s : State) (r : Run) : (r.handOver s).arg1 = s.arg1 := rfl
@[simp] theorem State.arg2_handOver (s : State) (r : Run) : (r.handOver s).arg2 = s.arg2 := rfl
@[simp] theorem State.arg3_handOver (s : State) (r : Run) : (r.handOver s).arg3 = s.arg3 := rfl
@[simp] theorem State.cmdStatus_handOver (s : State) (r : Run) : (r.handOver s).cmdStatus = s.cmdStatus := rfl
@[simp] theorem State.lastCode_handOver (s : State) (r : Run) : (r.handOver s).lastCode = s.lastCode := rfl
@[simp] theorem State.overrun_handOver (s : State) (r : Run) : (r.handOver s).overrun = s.overrun := rfl
@[simp] theorem State.overrunClears_handOver (s : State) (r : Run) : (r.handOver s).overrunClears = s.overrunClears := rfl
@[simp] theorem State.waiting_handOver (s : State) (r : Run) : (r.handOver s).waiting = s.waiting := rfl
@[simp] theorem State.selKind_handOver (s : State) (r : Run) : (r.handOver s).selKind = s.selKind := rfl
@[simp] theorem State.selIndex_handOver (s : State) (r : Run) : (r.handOver s).selIndex = s.selIndex := rfl
@[simp] theorem State.window_handOver (s : State) (r : Run) : (r.handOver s).window = s.window := rfl
@[simp] theorem State.pending_handOver (s : State) (r : Run) : (r.handOver s).pending = s.pending := rfl

@[simp] theorem State.pending_withPending (s : State) (q : List Instr) : (s.withPending q).pending = q := rfl
@[simp] theorem State.gate_setGate (s : State) (g : Gate) : (s.setGate g).gate = g := rfl
@[simp] theorem State.timersQueue_claim (s : State) (c : TimerClaim) :
    (s.claim c).timersQueue = raiseClaim s.timersQueue c := rfl
@[simp] theorem State.tab_handOver (s : State) (r : Run) : (r.handOver s).tab = r.tab := rfl

/-! ### Records read back -/

@[simp] theorem State.session_setSession_self (s : State) (i : SessionId) (x : Session) :
    (s.setSession i x).session i = x := upd_same s.sessions i x

theorem State.session_setSession (s : State) (i j : SessionId) (x : Session) :
    (s.setSession i x).session j = if i = j then x else s.session j := upd_get s.sessions i j x

theorem State.session_setSession_other (s : State) (i j : SessionId) (x : Session) (h : i ≠ j) :
    (s.setSession i x).session j = s.session j := upd_other s.sessions i j x h

@[simp] theorem State.port_setPort_self (s : State) (p : PortId) (x : Port) : (s.setPort p x).port p = x :=
  upd_same s.ports p x

theorem State.port_setPort (s : State) (p q : PortId) (x : Port) :
    (s.setPort p x).port q = if p = q then x else s.port q := upd_get s.ports p q x

theorem State.port_setPort_other (s : State) (p q : PortId) (x : Port) (h : p ≠ q) :
    (s.setPort p x).port q = s.port q := upd_other s.ports p q x h

@[simp] theorem State.session_setPort (s : State) (p : PortId) (x : Port) (i : SessionId) :
    (s.setPort p x).session i = s.session i := rfl
@[simp] theorem State.port_setSession (s : State) (i : SessionId) (x : Session) (p : PortId) :
    (s.setSession i x).port p = s.port p := rfl
@[simp] theorem State.boundSession_setPort (s : State) (p q : PortId) (x : Port) :
    (s.setPort p x).boundSession q = s.boundSession q := rfl
@[simp] theorem State.cfg_setPort (s : State) (p q : PortId) (x : Port) : (s.setPort p x).cfg q = s.cfg q := rfl
@[simp] theorem State.cfg_setSession (s : State) (i : SessionId) (x : Session) (q : PortId) :
    (s.setSession i x).cfg q = s.cfg q := rfl
@[simp] theorem State.session_settle (s : State) (i : SessionId) : s.settle.session i = s.session i := rfl
@[simp] theorem State.session_raise (s : State) (as : List Alert) (i : SessionId) :
    (s.raise as).session i = s.session i := rfl
@[simp] theorem State.port_raise (s : State) (as : List Alert) (p : PortId) : (s.raise as).port p = s.port p := rfl
@[simp] theorem State.session_claim (s : State) (c : TimerClaim) (i : SessionId) :
    (s.claim c).session i = s.session i := rfl
@[simp] theorem State.port_claim (s : State) (c : TimerClaim) (p : PortId) : (s.claim c).port p = s.port p := rfl
@[simp] theorem State.port_handOver (s : State) (r : Run) (p : PortId) : (r.handOver s).port p = s.port p := rfl

theorem mapPorts_get (f : PortId → Port → Port) (ps : Vector Port 6) (p : PortId) : (mapPorts f ps)[p] = f p ps[p] := by
  match p with
  | 0 => rfl
  | 1 => rfl
  | 2 => rfl
  | 3 => rfl
  | 4 => rfl
  | 5 => rfl

/-- Each port after `settle`: its transmitter has begun the next frame where it can (R160). -/
@[simp] theorem State.port_settle (s : State) (p : PortId) :
    s.settle.port p = pumpPort s.sessions p (s.port p) := mapPorts_get (pumpPort s.sessions) s.ports p

end Sys2Proof.Machine
end

