-- ==== Sys2Proof/Laws/Steps.lean ====
section
/-! SUPPORT. What the shared operations on the whole state do: the fields each can change, the taking of a claim, the
handing over of a step's results, and an answer's way to its port. -/

namespace Sys2Proof.Machine

/-! ### Frames: the fields that an operation can change -/

theorem State.retrain_frame (s : State) (p : PortId) : s.retrain p = { s with ports := (s.retrain p).ports } := by
  unfold State.retrain; split <;> rfl

theorem State.discardInbox_frame (s : State) (p : PortId) :
    s.discardInbox p = { s with sessions := (s.discardInbox p).sessions, ports := (s.discardInbox p).ports } := by
  unfold State.discardInbox; simp only; split <;> rfl

theorem State.unbind_frame (s : State) (i : SessionId) :
    s.unbind i = { s with sessions := (s.unbind i).sessions, ports := (s.unbind i).ports } := by
  unfold State.unbind
  split
  · simp only; rw [State.discardInbox_frame]; rfl
  · rfl

theorem State.portDown_frame (s : State) (p : PortId) :
    s.portDown p = { s with sessions := (s.portDown p).sessions, ports := (s.portDown p).ports,
                            timersQueue := (s.portDown p).timersQueue, alerts := (s.portDown p).alerts,
                            alertN := (s.portDown p).alertN } := by
  unfold State.portDown
  split
  · rfl
  · simp only
    split
    · rw [State.discardInbox_frame]; rfl
    · rw [State.discardInbox_frame]; rfl

theorem State.gateRetrain_frame (s : State) : s.gateRetrain = { s with gate := s.gateRetrain.gate } := by
  unfold State.gateRetrain; split <;> rfl

theorem State.giveReply_frame (s : State) (p : PortId) (tag : Tag) (k : ReqKind) (i : Option SessionId) (r : Reply) :
    s.giveReply p tag k i r = { s with sessions := (s.giveReply p tag k i r).sessions,
                                       ports := (s.giveReply p tag k i r).ports } := by
  cases r <;> cases i <;> rfl

theorem Run.complete_frame (r : Run) (s : State) :
    r.complete s = { s with tab := r.runPasses.tab, sessions := (r.complete s).sessions, ports := (r.complete s).ports,
                            alerts := (r.complete s).alerts, alertN := (r.complete s).alertN } := rfl

/-! ### Alerts -/

theorem State.raise_nil (s : State) : s.raise [] = s := by
  cases s
  simp [State.raise, mergeAlerts]

/-! ### Taking a claim -/

theorem posPort_portPos (p : PortId) : posPort (portPos p) = some p := by
  unfold posPort portPos
  simp

/-- A request that the arbiter presents is taken from its inbox, and the step of its kind runs (R21, R158). -/
theorem State.takeRequest_eq {s : State} {p : PortId} {rq : Request} {rest : List Request} {k : ReqKind}
    (h : s.takesRequest p rq rest) (hk : rq.body.kind? = some k) (step : PortId → Request → State → State) :
    s.takeRequest k step = step p rq (s.takeInbox p rest) := by
  obtain ⟨⟨_, hp⟩, hi⟩ := h
  unfold State.takeRequest State.presentedRequest
  rw [hp]
  simp only [Option.bind_some, posPort_portPos, hi, hk, if_true]

/-- The work of a request of an ACTIVE session (R26, R57). -/
theorem State.sessionRequest_eq {s : State} {p : PortId} {i : SessionId} {rq : Request} {rest : List Request} {k : ReqKind}
    (h : s.takesFor p i rq rest) (hk : rq.body.kind? = some k) (work : SessionId → Request → State → Run × Reply) :
    s.sessionRequest k work = (s.takeInbox p rest).answerRequest p rq.tag k (some i) (work i rq (s.takeInbox p rest)).2
      (work i rq (s.takeInbox p rest)).1 := by
  obtain ⟨h1, h2, h3⟩ := h
  unfold State.sessionRequest
  rw [State.takeRequest_eq h1 hk]
  have hb : (s.takeInbox p rest).boundSession p = some i := h2
  have hs : ((s.takeInbox p rest).session i).state = .active := h3
  simp only [hb, hs, if_true]

theorem State.takeTimer_eq {s : State} {c : TimerClaim} {rest : List TimerClaim} {k : TimerKind} (h : s.takesTimer c rest)
    (hk : c.kind = k) (step : TimerClaim → State → State) :
    s.takeTimer k step = step c { s with lastServed := 7, timersQueue := rest } := by
  obtain ⟨⟨_, hp⟩, hq⟩ := h
  unfold State.takeTimer
  rw [if_pos hp, hq]
  simp only [hk, if_true]

theorem State.takeCommand_eq {s : State} {c : Command} {isCode : Byte → Bool} (h : s.takesCommand c)
    (hc : isCode c.code = true) (step : Command → State → State) :
    s.takeCommand isCode step = step c { s with lastServed := 9 } := by
  obtain ⟨⟨_, hp⟩, hw⟩ := h
  unfold State.takeCommand State.presentedCommand
  rw [if_pos hp, hw]
  simp only [hc, if_true]

theorem State.takeCode_eq {s : State} {c : Command} {code : Byte} (h : s.takesCommand c) (hc : c.code = code)
    (step : Command → State → State) : s.takeCode code step = step c { s with lastServed := 9 } :=
  State.takeCommand_eq h (by simp [hc]) step

theorem State.takeVisit_eq {s : State} (h : s.serves 6) (step : State → State) :
    s.takeVisit step = step { s with lastServed := 6, visitPending := false } := by
  unfold State.takeVisit
  rw [if_pos h.2]

theorem State.takePurge_eq {s : State} {i : SessionId} {rest : List SessionId} (h : s.serves 8)
    (hq : s.purgeQueue = i :: rest) (step : SessionId → State → State) :
    s.takePurge step = step i { s with lastServed := 8 } := by
  unfold State.takePurge
  rw [if_pos h.2, hq]

/-- A command of the block runs while RESET_N is high (R189). -/
theorem event_high {s : State} (h : s.resetN = true) (f : State → State) : event f s = .next (f s) := by
  unfold event; rw [if_pos h]

/-! ### A step's completion -/

/-- A step with no pass due and nothing to hand over leaves sessions and alerts alone. -/
theorem Run.runPasses_none {r : Run} (h : r.due = []) : r.runPasses = r := by
  have hf : ∀ l : List VolumeId, l.foldl (fun acc v =>
      if r.due.contains v && decide ((acc.tab.volume v).state = .online) then acc.wakePass v else acc) r = r := by
    intro l
    induction l with
    | nil => rfl
    | cons v l ih => simp only [List.foldl_cons, h]; simpa [h] using ih
  exact hf _

theorem Run.handOver_quiet {r : Run} {s : State} (hc : r.cache = []) (hn : r.notices = []) (ha : r.alerts = []) :
    r.handOver s = { s with tab := r.tab } := by
  unfold Run.handOver
  simp only [hc, hn, ha, List.foldl_nil, List.append_nil]
  exact State.raise_nil _

/-- The completion of a step that has only changed the tables. -/
theorem Run.complete_quiet {r : Run} {s : State} (hd : r.due = []) (hc : r.cache = []) (hn : r.notices = [])
    (ha : r.alerts = []) : r.complete s = State.settle { s with tab := r.tab } := by
  unfold Run.complete
  rw [Run.runPasses_none hd, Run.handOver_quiet hc hn ha]

theorem Run.complete_start (s u : State) : (Run.start u).complete s = State.settle { s with tab := u.tab } :=
  Run.complete_quiet rfl rfl rfl rfl

/-! ### Transmitters and answers -/

@[simp] theorem pumpPort_link (ss : Vector Session 12) (p : PortId) (x : Port) : (pumpPort ss p x).link = x.link := by
  unfold pumpPort; split
  · split <;> rfl
  · rfl
@[simp] theorem pumpPort_inbox (ss : Vector Session 12) (p : PortId) (x : Port) : (pumpPort ss p x).inbox = x.inbox := by
  unfold pumpPort; split
  · split <;> rfl
  · rfl
@[simp] theorem pumpPort_answers (ss : Vector Session 12) (p : PortId) (x : Port) :
    (pumpPort ss p x).answers = x.answers := by
  unfold pumpPort; split
  · split <;> rfl
  · rfl
@[simp] theorem pumpPort_helloCount (ss : Vector Session 12) (p : PortId) (x : Port) :
    (pumpPort ss p x).helloCount = x.helloCount := by
  unfold pumpPort; split
  · split <;> rfl
  · rfl
@[simp] theorem pumpPort_silence (ss : Vector Session 12) (p : PortId) (x : Port) :
    (pumpPort ss p x).silence = x.silence := by
  unfold pumpPort; split
  · split <;> rfl
  · rfl
@[simp] theorem pumpPort_errorRun (ss : Vector Session 12) (p : PortId) (x : Port) :
    (pumpPort ss p x).errorRun = x.errorRun := by
  unfold pumpPort; split
  · split <;> rfl
  · rfl
@[simp] theorem pumpPort_badFrames (ss : Vector Session 12) (p : PortId) (x : Port) :
    (pumpPort ss p x).badFrames = x.badFrames := by
  unfold pumpPort; split
  · split <;> rfl
  · rfl

/-- A port that is not UP, or is sending, begins nothing. -/
theorem pumpPort_idle (ss : Vector Session 12) (p : PortId) (x : Port) (h : x.link ≠ .up ∨ x.tx ≠ none) :
    pumpPort ss p x = x := by
  unfold pumpPort
  rw [if_neg]
  rintro ⟨h1, h2⟩
  rcases h with h | h
  · exact h h1
  · exact h h2

@[simp] theorem handAnswer_link (x : Port) (a : Answer) : (x.handAnswer a).link = x.link := by
  unfold Port.handAnswer; split <;> rfl
@[simp] theorem handAnswer_inbox (x : Port) (a : Answer) : (x.handAnswer a).inbox = x.inbox := by
  unfold Port.handAnswer; split <;> rfl
theorem handAnswer_answers (x : Port) (a : Answer) :
    (x.handAnswer a).answers = if x.link = .up then x.answers ++ [a] else x.answers := by
  unfold Port.handAnswer; split <;> rfl

end Sys2Proof.Machine
end

