-- ==== Sys2Proof/Laws/Answers.lean ====
section
/-! SUPPORT. What the completion of a request's step leaves, for each reply, and of a command's step: the ports, the
session records, the alerts and the tables, each said once. -/

namespace Sys2Proof.Machine

theorem upd_upd {α : Type} {n : Nat} (v : Vector α n) (i : Fin n) (x y : α) : upd (upd v i x) i y = upd v i y := by
  unfold upd; simp [Vector.set_set]

/-- Writing a port twice keeps the second value. -/
theorem State.setPort_setPort (s : State) (p : PortId) (x y : Port) : (s.setPort p x).setPort p y = s.setPort p y := by
  unfold State.setPort; simp [upd_upd]

/-- Writing a session twice keeps the second value. -/
theorem State.setSession_setSession (s : State) (i : SessionId) (x y : Session) :
    (s.setSession i x).setSession i y = s.setSession i y := by
  unfold State.setSession; simp [upd_upd]

/-- The answer that a reply hands to the port, if any. -/
def Reply.answer? (tag : Tag) (k : ReqKind) : Reply → Option Answer
  | .final st res => some (stepAnswer tag k st res)
  | .parked => some (stepAnswer tag k .parked .empty)
  | .silent => none

/-- What a reply does to the record of the session that asked. -/
def Reply.onSession (tag : Tag) (k : ReqKind) (x : Session) : Reply → Session
  | .final st res => x.conclude { tag := tag, kind := k, status := st, result := res }
  | .parked => x.parkTag tag
  | .silent => x.parkTag tag

/-- The port when its oldest request has been taken, and answered if there is an answer. -/
def State.replying (s : State) (p : PortId) (rest : List Request) (a : Option Answer) (q : PortId) : Port :=
  if q = p then
    match a with
    | some a => ({ s.port p with inbox := rest } : Port).handAnswer a
    | none => { s.port p with inbox := rest }
  else s.port q

theorem State.replying_some (s : State) (p : PortId) (rest : List Request) (a : Answer) :
    s.replying p rest (some a) = s.answering p rest a := rfl

/-- The sessions after a reply to session `i`, before the rest of the step's results. -/
theorem State.sessions_giveReply (s : State) (p : PortId) (rest : List Request) (tag : Tag) (k : ReqKind) (i : SessionId)
    (r : Reply) :
    ((s.takeInbox p rest).giveReply p tag k (some i) r).sessions = upd s.sessions i (r.onSession tag k (s.session i)) := by
  cases r <;> rfl

/-- The ports after a reply. -/
theorem State.port_giveReply (s : State) (p q : PortId) (rest : List Request) (tag : Tag) (k : ReqKind)
    (i : Option SessionId) (r : Reply) :
    ((s.takeInbox p rest).giveReply p tag k i r).port q = s.replying p rest (r.answer? tag k) q := by
  have h0 : ∀ x, ((s.takeInbox p rest).setPort p x).port q = if q = p then x else s.port q := by
    intro x
    rw [State.port_setPort]
    by_cases h : p = q
    · subst h; simp
    · rw [if_neg h, if_neg (Ne.symm h)]
      show (State.setPort _ p _).port q = _
      rw [State.port_setPort, if_neg h]; rfl
  have h1 : (s.takeInbox p rest).port p = { s.port p with inbox := rest } := State.port_setPort_self _ _ _
  cases r with
  | final st res =>
    cases i with
    | none => show ((s.takeInbox p rest).setPort p _).port q = _; rw [h0, h1]; rfl
    | some i =>
      show ((s.takeInbox p rest).setPort p (((s.takeInbox p rest).port p).handAnswer _)).port q = _
      rw [h0, h1]; rfl
  | parked =>
    cases i with
    | none => show ((s.takeInbox p rest).setPort p _).port q = _; rw [h0, h1]; rfl
    | some i =>
      show ((s.takeInbox p rest).setPort p (((s.takeInbox p rest).port p).handAnswer _)).port q = _
      rw [h0, h1]; rfl
  | silent =>
    have h2 : (s.takeInbox p rest).port q = s.replying p rest none q := by
      show (State.setPort _ p _).port q = _
      rw [State.port_setPort]
      unfold State.replying
      by_cases h : p = q
      · subst h; simp
      · rw [if_neg h, if_neg (Ne.symm h)]; rfl
    cases i <;> exact h2

/-- The whole of a request's step for session `i`, with the results of its work and of the passes after it. -/
theorem State.answerRequest_parts (s : State) (p : PortId) (rest : List Request) (tag : Tag) (k : ReqKind) (i : SessionId)
    (reply : Reply) (r : Run) :
    let t := (s.takeInbox p rest).answerRequest p tag k (some i) reply r
    let o := r.runPasses.notices.foldl offerIn
      (r.runPasses.cache.foldl concludeIn (upd s.sessions i (reply.onSession tag k (s.session i))), [])
    s.engineOnly t ∧ t.lastServed = portPos p ∧ t.tab = r.runPasses.tab ∧ t.sessions = o.1 ∧
      t.alerts = mergeAlerts s.alerts (r.runPasses.alerts ++ o.2) ∧
      t.alertN = (s.alertN && (r.runPasses.alerts ++ o.2).isEmpty) ∧
      t.portsAre (s.replying p rest (reply.answer? tag k)) := by
  intro t o
  have hs := s.sessions_giveReply p rest tag k i reply
  have hg := (s.takeInbox p rest).giveReply_frame p tag k (some i) reply
  have ht : t = r.complete ((s.takeInbox p rest).giveReply p tag k (some i) reply) := rfl
  have hsess : t.sessions = o.1 := by
    rw [ht]
    show (r.runPasses.notices.foldl offerIn (r.runPasses.cache.foldl concludeIn
      ((s.takeInbox p rest).giveReply p tag k (some i) reply).sessions, [])).1 = _
    rw [hs]
  have halerts : t.alerts = mergeAlerts s.alerts (r.runPasses.alerts ++ o.2) := by
    rw [ht]
    show mergeAlerts ((s.takeInbox p rest).giveReply p tag k (some i) reply).alerts
      (r.runPasses.alerts ++ (r.runPasses.notices.foldl offerIn (r.runPasses.cache.foldl concludeIn
        ((s.takeInbox p rest).giveReply p tag k (some i) reply).sessions, [])).2) = _
    rw [hs, hg]; rfl
  have halertN : t.alertN = (s.alertN && (r.runPasses.alerts ++ o.2).isEmpty) := by
    rw [ht]
    show (((s.takeInbox p rest).giveReply p tag k (some i) reply).alertN &&
      (r.runPasses.alerts ++ (r.runPasses.notices.foldl offerIn (r.runPasses.cache.foldl concludeIn
        ((s.takeInbox p rest).giveReply p tag k (some i) reply).sessions, [])).2).isEmpty) = _
    rw [hs, hg]; rfl
  refine ⟨?_, ?_, rfl, hsess, halerts, halertN, ?_⟩
  · show t = _
    have : t = { ((s.takeInbox p rest).giveReply p tag k (some i) reply) with
        tab := t.tab, sessions := t.sessions, ports := t.ports, alerts := t.alerts, alertN := t.alertN } := rfl
    rw [this, hg]; rfl
  · rw [ht]
    show ((s.takeInbox p rest).giveReply p tag k (some i) reply).lastServed = _
    rw [hg]; rfl
  · intro q
    rw [← State.port_giveReply s p q rest tag k (some i) reply]
    exact State.port_settle _ q

/-- A step with a final answer and no notices. -/
theorem State.final_step {s : State} {p : PortId} {i : SessionId} {rq : Request} (rest : List Request) (k : ReqKind)
    (st : Status) (res : Result) {r : Run} (hc : r.runPasses.cache = []) (hn : r.runPasses.notices = []) :
    s.finalAnswer ((s.takeInbox p rest).answerRequest p rq.tag k (some i) (.final st res) r) p i rq rest k st res
      r.runPasses.alerts := by
  obtain ⟨h1, h2, h3, h4, h5, h6, h7⟩ := s.answerRequest_parts p rest rq.tag k i (.final st res) r
  rw [hc, hn] at h4 h5 h6
  refine ⟨h1, h2, ?_, h7, ?_, ?_⟩
  · intro j
    show (State.sessions _)[j] = _
    rw [h4]
    show (upd s.sessions i _)[j] = _
    rw [upd_get]
    by_cases h : i = j
    · subst h; simp [Reply.onSession]
    · rw [if_neg h, if_neg (Ne.symm h)]; rfl
  · rw [h5]; simp
  · rw [h6]; simp

/-- A refusal: the final answer and nothing else. -/
theorem State.refusal_step {s : State} {p : PortId} {i : SessionId} {rq : Request} (rest : List Request) (k : ReqKind)
    (st : Status) :
    s.turnedDown ((s.takeInbox p rest).answerRequest p rq.tag k (some i) (.final st .empty)
      (Run.start (s.takeInbox p rest))) p i rq rest k st := by
  have hr : (Run.start (s.takeInbox p rest)).runPasses = Run.start (s.takeInbox p rest) := Run.runPasses_none rfl
  have h := State.final_step (s := s) (p := p) (i := i) (rq := rq) rest k st .empty
    (r := Run.start (s.takeInbox p rest)) (by rw [hr]; rfl) (by rw [hr]; rfl)
  rw [hr] at h
  refine ⟨h, ?_⟩
  obtain ⟨_, _, h3, _⟩ := s.answerRequest_parts p rest rq.tag k i (.final st .empty) (Run.start (s.takeInbox p rest))
  rw [h3, hr]; rfl

theorem State.sessions_giveReply_none (s : State) (p : PortId) (rest : List Request) (tag : Tag) (k : ReqKind) (r : Reply) :
   ((s.takeInbox p rest).giveReply p tag k none r).sessions = s.sessions := by cases r <;> rfl

/-- A JOIN's step: the records changed as `s'` says, then the answer (R81 to R84). -/
theorem State.answer_only (s s' u : State) (p : PortId) (rest : List Request) (tag : Tag) (k : ReqKind) (i : Option SessionId) (st : Status) (res : Result)
   (h : s' = { s with sessions := s'.sessions, nextNumber := s'.nextNumber, purgeQueue := s'.purgeQueue, purgeSection := s'.purgeSection }) (hu : u.tab = s.tab) :
   let t := (s'.takeInbox p rest).answerRequest p tag k i (.final st res) (Run.start u)
   t = { s with lastServed := portPos p, sessions := t.sessions, ports := t.ports, nextNumber := s'.nextNumber, purgeQueue := s'.purgeQueue, purgeSection := s'.purgeSection } ∧
   (∀ j, t.session j = if i = some j then (s'.session j).conclude { tag := tag, kind := k, status := st, result := res } else s'.session j) ∧
   t.portsAre (s.answering p rest (stepAnswer tag k st res)) := by
  intro t
  have ht : t = State.settle { ((s'.takeInbox p rest).giveReply p tag k i (.final st res)) with tab := u.tab } := Run.complete_start _ u
  have hg := (s'.takeInbox p rest).giveReply_frame p tag k i (.final st res)
  refine ⟨?_, ?_, ?_⟩
  · have : t = { ((s'.takeInbox p rest).giveReply p tag k i (.final st res)) with tab := u.tab, ports := t.ports, sessions := t.sessions } := by rw [ht]; rfl
    rw [this, hg, hu]
    have h2 : s'.takeInbox p rest = { s with sessions := s'.sessions, nextNumber := s'.nextNumber, purgeQueue := s'.purgeQueue, purgeSection := s'.purgeSection, lastServed := portPos p, ports := (s'.takeInbox p rest).ports } := by
      have : s'.takeInbox p rest = { s' with lastServed := portPos p, ports := (s'.takeInbox p rest).ports } := rfl
      rw [this]; generalize (s'.takeInbox p rest).ports = x
      rw [h]
    generalize (s'.takeInbox p rest) = w at *
    rw [h2]
  · intro j
    rw [ht]
    show (State.sessions _)[j] = _
    cases i with
    | none =>
      show ((s'.takeInbox p rest).giveReply p tag k none (.final st res)).sessions[j] = _
      rw [State.sessions_giveReply_none]; simp; rfl
    | some i =>
      show ((s'.takeInbox p rest).giveReply p tag k (some i) (.final st res)).sessions[j] = _
      rw [State.sessions_giveReply, upd_get]
      by_cases hj : i = j
      · subst hj; simp [Reply.onSession]
      · simp [hj]; rfl
  · intro q
    have h1 := State.port_giveReply s' p q rest tag k i (.final st res)
    have h2 : s'.replying p rest (some (stepAnswer tag k st res)) q = s.answering p rest (stepAnswer tag k st res) q := by
      have : s'.ports = s.ports := by rw [h]
      unfold State.replying State.answering State.port; rw [this]
    rw [← h2]
    show t.port q = _
    rw [ht, State.port_settle]
    show pumpPort _ q (((s'.takeInbox p rest).giveReply p tag k i (.final st res)).port q) = _
    rw [h1]; rfl

end Sys2Proof.Machine
end

