-- ==== Sys2Proof/Laws/Frames.lean ====
section
/-! SUPPORT. Links that train: what `retrain` and its fold over the ports leave. -/

namespace Sys2Proof.Machine

/-- Each port after `retrain` of one (R146). -/
theorem State.port_retrain (s : State) (p q : PortId) : (s.retrain p).port q =
    if p = q ∧ (s.port q).link = .down ∧ (s.cfg q).enable = true ∧ s.device = .ready then (s.port q).train else s.port q := by
  unfold State.retrain
  by_cases h : (s.port p).link = .down ∧ (s.cfg p).enable = true ∧ s.device = .ready
  · rw [if_pos h, State.port_setPort]
    by_cases hp : p = q
    · subst hp; simp [h]
    · simp [hp]
  · rw [if_neg h]
    by_cases hp : p = q
    · subst hp; simp only [true_and, if_neg h]
    · simp [hp]

theorem State.retrainFold_frame (l : List PortId) : ∀ s : State, l.foldl State.retrain s = { s with ports := (l.foldl State.retrain s).ports } := by
  induction l with
  | nil => intro s; rfl
  | cons a l ih => intro s; simp only [List.foldl]; rw [ih, State.retrain_frame]

theorem State.port_retrainFold (l : List PortId) (q : PortId) : ∀ s : State, (l.foldl State.retrain s).port q =
    if q ∈ l ∧ (s.port q).link = .down ∧ (s.cfg q).enable = true ∧ s.device = .ready then (s.port q).train else s.port q := by
  induction l with
  | nil => intro s; simp
  | cons a l ih =>
    intro s
    simp only [List.foldl]
    rw [ih, State.port_retrain]
    have hc : (s.retrain a).cfg q = s.cfg q := by rw [State.retrain_frame]; rfl
    have hd : (s.retrain a).device = s.device := by rw [State.retrain_frame]
    rw [hc, hd]
    by_cases h : (s.port q).link = .down ∧ (s.cfg q).enable = true ∧ s.device = .ready
    · by_cases ha : a = q
      · subst ha; simp [h, Port.train]
      · by_cases hl : q ∈ l
        · simp [h, ha, hl]
        · simp [ha, hl, Ne.symm ha]
    · have : ¬ (a = q ∧ (s.port q).link = .down ∧ (s.cfg q).enable = true ∧ s.device = .ready) := fun x => h x.2
      rw [if_neg this]
      rw [if_neg (fun x => h x.2), if_neg (fun x => h x.2)]

theorem State.port_gateRetrain (s : State) (q : PortId) : s.gateRetrain.port q = s.port q := by
  unfold State.gateRetrain; split <;> rfl

end Sys2Proof.Machine
end

