-- ==== Sys2Proof/Laws/Works.lean ====
section
/-! SUPPORT. What the work of each command's step can do to the lease structures: from structures that keep the laws, a
chain of moves. -/

namespace Sys2Proof.Machine

theorem finOf_some {k n : Nat} {i : Fin k} (h : finOf k n = some i) : i.val = n := by
  unfold finOf at h
  split at h
  · cases h; rfl
  · exact absurd h (by simp)

/-! ### ACQUIRE -/

theorem Tables.inService_some {t : Tables} {n : Nat} {v : VolumeId} (h : t.inService n = some v) :
    v.val = n ∧ (t.volume v).state ≠ .offline := by
  unfold Tables.inService at h
  split at h
  · rename_i w hw
    split at h
    · exact absurd h (by simp)
    · rename_i hs
      cases h
      exact ⟨finOf_some hw, hs⟩
  · exact absurd h (by simp)

theorem Tables.selfOverlap_false {t : Tables} (h : t.Sound) {l : Lease} (hs : t.selfOverlap l = false) :
    ∀ m a, (t.body m).lease? = some a → a.owner = l.owner → a.overlaps l = false := by
  intro m a ha ho
  cases hv : a.overlaps l with
  | false => rfl
  | true =>
    have hm : m ∈ t.slotsWhere (fun _ k => decide (k.owner = l.owner) && k.overlaps l) :=
      (Tables.mem_slotsWhere h.wf _ m).mpr ⟨a, ha, by simp [ho, hv]⟩
    unfold Tables.selfOverlap at hs
    cases hl : t.slotsWhere (fun _ k => decide (k.owner = l.owner) && k.overlaps l) with
    | nil => rw [hl] at hm; exact absurd hm (by simp)
    | cons x xs => rw [hl] at hs; exact absurd hs (by simp)

theorem Tables.lowestFreeSlot_some {t : Tables} {n : Nat} (h : t.lowestFreeSlot = some n) :
    t.body n = .free ∧ n < Config.slots := by
  obtain ⟨h1, _, h3⟩ := findFrom_some h
  refine ⟨?_, by omega⟩
  cases hb : t.body n with
  | free => rfl
  | pending l d => rw [hb] at h1; exact absurd h1 (by simp [SlotBody.isFree])
  | held l ten => rw [hb] at h1; exact absurd h1 (by simp [SlotBody.isFree])

theorem Tables.lowestFreeEntry_some {t : Tables} {e : Nat} (h : t.lowestFreeEntry = some e) :
    lookupKey e t.pool = none ∧ e < Config.poolEntries := by
  obtain ⟨h1, _, h3⟩ := findFrom_some h
  exact ⟨by simpa using h1, by omega⟩

theorem acquireIn_to (r : Run) (n : Nat) (l : Lease) (noWait : Bool) (limit : Option Nat) (h : r.tab.Sound)
    (fits : r.tab.Fits n l) : r.To (acquireIn r n l noWait limit).1 := by
  unfold acquireIn
  split
  · rename_i hg
    unfold Tables.grantableNow at hg
    split
    · exact Run.exhaust_to r l.volume h
    · rename_i hx
      simp only [Bool.and_eq_true] at hg
      exact Run.grantNow_to r n l fits ⟨List.isEmpty_iff.mp hg.1.2, by simpa using hx⟩
  · split
    · exact .refl r
    · split
      · exact .refl r
      · rename_i e he
        obtain ⟨h1, h2⟩ := Tables.lowestFreeEntry_some he
        exact Run.parkAcquire_to r n e l _ h fits h1 h2

theorem acquireChecked_to (r : Run) (i : SessionId) (quota : Nat) (tag : Tag) (a : AcquireReq) (h : r.tab.Sound) :
    r.To (acquireChecked r i quota tag a).1 := by
  unfold acquireChecked
  split
  · exact .refl r
  · rename_i hform
    split
    · exact .refl r
    · rename_i v hv
      simp only
      split
      · exact .refl r
      · rename_i hsize
        split
        · exact .refl r
        · rename_i hself
          split
          · exact .refl r
          · split
            · exact .refl r
            · rename_i n hn
              obtain ⟨h1, h2⟩ := Tables.lowestFreeSlot_some hn
              refine acquireIn_to r n _ a.noWait a.waitLimit h ⟨h1, h2, ?_, (Tables.inService_some hv).2, ?_, ?_⟩
              · exact Tables.selfOverlap_false h (by simpa using hself)
              · simp only [leaseOf]; omega
              · simp only [leaseOf]; omega

theorem acquireWork_to (i : SessionId) (rq : Request) (s : State) (h : s.tab.Sound) :
    (Run.start s).To (acquireWork i rq s).1 := by
  unfold acquireWork
  split
  · exact acquireChecked_to _ i _ _ _ h
  · exact .refl _

/-! ### Handles, CONVERT, RENEW, RELEASE, CANCEL -/

theorem Tables.checkHandle_ok {t : Tables} {i : SessionId} {hd : Handle} {l : Lease} {ten : Tenure}
    (h : t.checkHandle i hd = .ok (l, ten)) : t.body hd.slot = .held l ten ∧ l.owner = i := by
  unfold Tables.checkHandle at h
  split at h
  · exact absurd h (by simp)
  · split at h
    · rename_i k tk hb
      split at h
      · exact absurd h (by simp)
      · split at h
        · exact absurd h (by simp)
        · rename_i ho
          cases h
          exact ⟨hb, by simpa using ho⟩
    · exact absurd h (by simp)
    · exact absurd h (by simp)

theorem upgrade_to (r : Run) (n : Nat) (l : Lease) (ten : Tenure) (tag : Tag) (c : ConvertReq) (h : r.tab.Sound)
    (held : r.tab.body n = .held l ten) (mode : l.mode = .shared) : r.To (upgrade r n l ten tag c).1 := by
  unfold upgrade
  split
  · exact .refl r
  · rename_i hup
    have hnone : ten.upgrade = none := by simpa using hup
    split
    · exact .refl r
    · split
      · rename_i hg
        split
        · exact Run.exhaust_to r l.volume h
        · rename_i hx
          exact Run.To.move (Move.upgradeNow r.tab n l ten held hnone ⟨List.isEmpty_iff.mp hg.2, by simpa using hx⟩)
      · split
        · exact .refl r
        · split
          · exact .refl r
          · rename_i e he
            obtain ⟨h1, h2⟩ := Tables.lowestFreeEntry_some he
            exact Run.parkUpgrade_to r n e l ten _ h held mode hnone h1 h2

theorem convertChecked_to (r : Run) (i : SessionId) (tag : Tag) (c : ConvertReq) (h : r.tab.Sound) :
    r.To (convertChecked r i tag c).1 := by
  unfold convertChecked
  split
  · exact .refl r
  · split
    · exact .refl r
    · rename_i l ten hok
      obtain ⟨hb, _⟩ := Tables.checkHandle_ok hok
      split
      · exact .refl r
      · rename_i hne
        split
        · rename_i hm
          have hex : l.mode = .exclusive := by
            cases hl : l.mode with
            | exclusive => rfl
            | shared => exact absurd (hl.trans hm.symm) hne
          exact (Run.To.move (Move.downgrade r.tab c.handle.slot l ten hb hex)).passDue _
        · rename_i hm
          have hsh : l.mode = .shared := by
            cases hl : l.mode with
            | shared => rfl
            | exclusive => exact absurd (hl.trans hm.symm) hne
          exact upgrade_to r c.handle.slot l ten tag c h hb hsh

theorem convertWork_to (i : SessionId) (rq : Request) (s : State) (h : s.tab.Sound) :
    (Run.start s).To (convertWork i rq s).1 := by
  unfold convertWork
  split
  · exact convertChecked_to _ i _ _ h
  · exact .refl _

theorem renewWork_to (i : SessionId) (rq : Request) (s : State) : (Run.start s).To (renewWork i rq s).1 := by
  unfold renewWork
  split
  · unfold renewChecked
    split
    · exact .refl _
    · split
      · exact .refl _
      · rename_i l ten hok
        obtain ⟨hb, _⟩ := Tables.checkHandle_ok hok
        split
        · exact .refl _
        · exact Run.To.move (Move.amend _ _ l ten _ _ hb rfl rfl rfl)
  · exact .refl _

theorem releaseWork_to (i : SessionId) (rq : Request) (s : State) (h : s.tab.Sound) :
    (Run.start s).To (releaseWork i rq s).1 := by
  unfold releaseWork
  split
  · unfold releaseChecked
    split
    · exact .refl _
    · exact Run.retire_to _ _ _ h
  · exact .refl _

theorem cancelWork_to (i : SessionId) (rq : Request) (s : State) (h : s.tab.Sound) :
    (Run.start s).To (cancelWork i rq s).1 := by
  unfold cancelWork
  split
  · unfold cancelChecked
    split
    · exact Run.endWait_to _ _ _ h
    · split
      · split <;> exact .refl _
      · exact .refl _
  · exact .refl _

theorem queryWork_fst (i : SessionId) (rq : Request) (s : State) : (queryWork i rq s).1 = Run.start s := by
  unfold queryWork; split <;> rfl

theorem listWork_fst (i : SessionId) (rq : Request) (s : State) : (listWork i rq s).1 = Run.start s := by
  unfold listWork; split <;> rfl

/-! ### The sweep (R107 to R110) and the purge (R98) -/

theorem Run.visitWait_to (r : Run) (n : Nat) (h : r.tab.Sound) : r.To (r.visitWait n) := by
  have hto : ∀ k v, r.To (r.timeOut k v n) := by
    intro k v
    unfold Run.timeOut
    split
    · exact Run.endWait_to r _ _ h
    · exact .refl r
  unfold Run.visitWait
  split
  · split
    · exact hto _ _
    · exact .refl r
  · split
    · split
      · exact hto _ _
      · exact .refl r
    · exact .refl r
  · exact .refl r

theorem Run.visitHold_to (r : Run) (n : Nat) (h : r.tab.Sound) : r.To (r.visitHold n) := by
  unfold Run.visitHold
  split
  · split
    · exact Run.retire_to r _ n h
    · exact .refl r
  · exact .refl r
  · exact .refl r

theorem Run.clearMark_to (r : Run) (n : Nat) (l : Lease) (ten : Tenure) (h : r.tab.Sound)
    (hb : r.tab.body n = .held l ten) : r.To (r.clearMark n l ten) :=
  Run.To.move (Move.amend r.tab n l ten { ten with recallMark := none } l.holdLength hb rfl rfl (h.fieldLaw n l ten hb).2.1)

theorem Run.visitRecall_to (r : Run) (n : Nat) (h : r.tab.Sound) : r.To (r.visitRecall n) := by
  unfold Run.visitRecall
  split
  · rename_i l ten hb
    split
    · exact .refl r
    · simp only
      split
      · split
        · split
          · exact Run.retire_to r _ n h
          · exact r.clearMark_to n l ten h hb
        · exact .refl r
      · split
        · exact .refl r
        · exact r.clearMark_to n l ten h hb
  · exact .refl r
  · exact .refl r

theorem Run.visit_to (r : Run) (slots : List Nat) (h : r.tab.Sound) : r.To (r.visit slots) := by
  unfold Run.visit
  have h1 := Run.To.fold Run.visitWait Run.visitWait_to slots r h
  have s1 := h1.moves.keeps h
  have h2 := Run.To.fold Run.visitHold Run.visitHold_to slots _ s1
  have s2 := h2.moves.keeps s1
  exact (h1.trans h2).trans (Run.To.fold Run.visitRecall Run.visitRecall_to slots _ s2)

theorem Run.purge_to (r : Run) (i : SessionId) (k : Nat) (h : r.tab.Sound) : r.To (r.purge i k) :=
  Run.To.fold _ (fun r n hr => Run.retire_to r .purge n hr) _ r h

/-! ### OFFLINE-FORCE (R125) -/

/-- The slots that are not FREE afterwards had the same lease before, and were HELD before if they are HELD. -/
def Tables.Shrinks (t u : Tables) : Prop :=
  ∀ m l, (u.body m).lease? = some l → (t.body m).lease? = some l ∧ (t.isHeld m = u.isHeld m)

theorem Tables.Shrinks.refl (t : Tables) : t.Shrinks t := fun _ _ h => ⟨h, rfl⟩

theorem Tables.Shrinks.trans {t u w : Tables} (a : t.Shrinks u) (b : u.Shrinks w) : t.Shrinks w := by
  intro m l h
  obtain ⟨h1, h2⟩ := b m l h
  obtain ⟨h3, h4⟩ := a m l h1
  exact ⟨h3, h4.trans h2⟩

theorem shrinks_free {t u : Tables} {n : Nat} (hb : bodyAt t u n .free) : t.Shrinks u := by
  intro m l h
  by_cases hm : m = n
  · rw [hm, bodyAt_self hb] at h; exact absurd h (by simp [SlotBody.lease?])
  · unfold Tables.isHeld
    rw [bodyAt_other hb hm] at h ⊢
    exact ⟨h, rfl⟩

theorem shrinks_held {t u : Tables} {n : Nat} {l : Lease} {ten ten' : Tenure} (held : t.body n = .held l ten)
    (hb : bodyAt t u n (.held l ten')) : t.Shrinks u := by
  intro m k h
  unfold Tables.isHeld
  by_cases hm : m = n
  · subst hm
    rw [bodyAt_self hb] at h ⊢
    rw [held]
    exact ⟨h, rfl⟩
  · rw [bodyAt_other hb hm] at h ⊢
    exact ⟨h, rfl⟩

/-- What ending a wait does to the tables: one entry leaves its list, and no slot gains a lease. -/
theorem Run.endWait_effect (r : Run) (reason : WaitReason) (e : Nat) (h : r.tab.Sound) :
    r.tab.Shrinks (r.endWait reason e).tab ∧
      ∀ w d, d ∈ (r.endWait reason e).tab.waitList w → d ∈ r.tab.waitList w ∧ d ≠ e := by
  have hlist : ∀ (we : WaitEntry), lookupKey e r.tab.pool = some we → ∀ w d,
      d ∈ (r.tab.removeEntry e we.volume).waitList w → d ∈ r.tab.waitList w ∧ d ≠ e := by
    intro we he w d hd
    rw [Tables.waitList_removeEntry] at hd
    by_cases hv : we.volume = w
    · rw [if_pos hv, hv] at hd
      have := List.mem_filter.mp hd
      exact ⟨this.1, by simpa using this.2⟩
    · rw [if_neg hv] at hd
      refine ⟨hd, fun hde => ?_⟩
      obtain ⟨we', h1, h2⟩ := ((h.waitLaw.2.2.2.2 w).2 d).mp hd
      rw [hde, he] at h1
      cases h1
      exact hv h2
  unfold Run.endWait
  split
  · rename_i hn
    refine ⟨.refl _, fun w d hd => ⟨hd, fun hde => ?_⟩⟩
    obtain ⟨we', h1, _⟩ := ((h.waitLaw.2.2.2.2 w).2 d).mp hd
    rw [hde, hn] at h1
    exact absurd h1 (by simp)
  · rename_i we he
    simp only
    split
    · rename_i l d _ hb
      rw [Run.tab_passDue]
      exact ⟨shrinks_free (bodyAt_freeSlot _ (r.tab.removeEntry e we.volume) we.slot l.owner (fun _ => rfl)), hlist we he⟩
    · rename_i l ten _ hb
      split
      · rw [Run.tab_passDue]
        exact ⟨shrinks_held hb (bodyAt_setBody _ (r.tab.removeEntry e we.volume) we.slot _ (fun _ => rfl)), hlist we he⟩
      · rw [Run.tab_passDue]
        exact ⟨fun m l hl => ⟨hl, rfl⟩, hlist we he⟩
    · rw [Run.tab_passDue]
      exact ⟨fun m l hl => ⟨hl, rfl⟩, hlist we he⟩

/-- What a retirement does to the tables: the slot becomes FREE if it was HELD, and no slot gains a lease. -/
theorem Run.retire_effect (r : Run) (c : Cause) (n : Nat) (h : r.tab.Sound) :
    r.tab.Shrinks (r.retire c n).tab ∧ (r.tab.isHeld n = true → (r.retire c n).tab.body n = .free) := by
  unfold Run.retire
  split
  · rename_i l ten hb
    have hs : r.tab.Shrinks (r.endUpgrade n l ten).tab := by
      unfold Run.endUpgrade
      split
      · exact .refl _
      · split
        · exact (Run.endWait_effect r _ _ h).1
        · exact .refl _
    have hbody : bodyAt (r.endUpgrade n l ten).tab
        (((r.endUpgrade n l ten).tab.indexRemove l.volume n).freeSlot n l.owner) n .free :=
      bodyAt_freeSlot _ _ n l.owner (fun _ => rfl)
    rw [Run.tab_passDue]
    simp only [Run.withTab, Run.tab_report]
    exact ⟨hs.trans (shrinks_free hbody), fun _ => bodyAt_self hbody⟩
  · rename_i hb
    refine ⟨.refl _, fun hh => ?_⟩
    unfold Tables.isHeld at hh
    rw [hb] at hh
    exact absurd hh (by simp)
  · rename_i hb
    refine ⟨.refl _, fun hh => ?_⟩
    unfold Tables.isHeld at hh
    rw [hb] at hh
    exact absurd hh (by simp)

theorem Run.endWaits_fold (reason : WaitReason) : ∀ (l : List Nat) (r : Run), r.tab.Sound →
    let r' := l.foldl (fun r e => r.endWait reason e) r
    r.To r' ∧ r.tab.Shrinks r'.tab ∧ ∀ w d, d ∈ r'.tab.waitList w → d ∈ r.tab.waitList w ∧ d ∉ l
  | [], r, _ => ⟨.refl r, .refl _, fun _ _ hd => ⟨hd, by simp⟩⟩
  | e :: l, r, h => by
    have h1 := Run.endWait_to r reason e h
    obtain ⟨h2, h3⟩ := Run.endWait_effect r reason e h
    obtain ⟨k1, k2, k3⟩ := Run.endWaits_fold reason l (r.endWait reason e) (h1.moves.keeps h)
    refine ⟨h1.trans k1, h2.trans k2, fun w d hd => ?_⟩
    obtain ⟨a, b⟩ := k3 w d hd
    obtain ⟨a', b'⟩ := h3 w d a
    exact ⟨a', by simp [b, b']⟩

theorem Run.retire_fold (c : Cause) : ∀ (l : List Nat) (r : Run), r.tab.Sound →
    let r' := l.foldl (fun r n => r.retire c n) r
    r.To r' ∧ r.tab.Shrinks r'.tab ∧ ∀ n, n ∈ l → r.tab.isHeld n = true → r'.tab.body n = .free
  | [], r, _ => ⟨.refl r, .refl _, fun _ hn => absurd hn (by simp)⟩
  | m :: l, r, h => by
    have h1 := Run.retire_to r c m h
    obtain ⟨h2, h3⟩ := Run.retire_effect r c m h
    have hs := h1.moves.keeps h
    obtain ⟨k1, k2, k3⟩ := Run.retire_fold c l (r.retire c m) hs
    have hfree : ∀ n, (r.retire c m).tab.body n = .free →
        (l.foldl (fun r n => r.retire c n) (r.retire c m)).tab.body n = .free := by
      intro n hn
      cases hb : (l.foldl (fun r n => r.retire c n) (r.retire c m)).tab.body n with
      | free => rfl
      | pending a d =>
        have := (k2 n a (by rw [hb]; rfl)).1
        rw [hn] at this; exact absurd this (by simp [SlotBody.lease?])
      | held a d =>
        have := (k2 n a (by rw [hb]; rfl)).1
        rw [hn] at this; exact absurd this (by simp [SlotBody.lease?])
    refine ⟨h1.trans k1, h2.trans k2, fun n hn hh => ?_⟩
    rcases List.mem_cons.mp hn with rfl | hn
    · exact hfree n (h3 hh)
    · cases hb : (r.retire c m).tab.body n with
      | free => exact hfree n hb
      | pending a d =>
        have := (h2 n a (by rw [hb]; rfl)).2
        rw [hh] at this
        unfold Tables.isHeld at this
        rw [hb] at this
        exact absurd this (by simp)
      | held a d =>
        refine k3 n hn ?_
        unfold Tables.isHeld
        rw [hb]

theorem Run.forceOffline_to (r : Run) (v : VolumeId) (h : r.tab.Sound) : r.To (r.forceOffline v) := by
  unfold Run.forceOffline
  obtain ⟨a1, a2, a3⟩ := Run.endWaits_fold .volumeOffline (r.tab.waitList v) r h
  have s1 := a1.moves.keeps h
  have hempty : ∀ d, d ∉ ((r.tab.waitList v).foldl (fun r e => r.endWait .volumeOffline e) r).tab.waitList v :=
    fun d hd => (a3 v d hd).2 (a3 v d hd).1
  obtain ⟨b1, b2, b3⟩ := Run.retire_fold (.revocation .volumeOffline)
    (((r.tab.waitList v).foldl (fun r e => r.endWait .volumeOffline e) r).tab.slotsWhere
      (fun _ l => decide (l.volume = v))) _ s1
  refine (a1.trans b1).trans (Run.To.move (Move.volume _ v { Tables.volume _ v with state := .offline } rfl ?_))
  intro n l hl hv
  obtain ⟨c1, _⟩ := b2 n l hl
  have hmem := (Tables.mem_slotsWhere s1.wf (fun _ l => decide (l.volume = v)) n).mpr ⟨l, c1, by simp [hv]⟩
  have hheld : ((r.tab.waitList v).foldl (fun r e => r.endWait .volumeOffline e) r).tab.isHeld n = true := by
    unfold Tables.isHeld
    cases hb : ((r.tab.waitList v).foldl (fun r e => r.endWait .volumeOffline e) r).tab.body n with
    | held _ _ => rfl
    | free => rw [hb] at c1; exact absurd c1 (by simp [SlotBody.lease?])
    | pending a d =>
      rw [hb] at c1
      cases c1
      obtain ⟨e, we, he, hs⟩ := s1.waitLaw.2.2.2.1 n (by rw [hb]; rfl)
      subst hs
      have := (s1.entry_pending he hb).2
      exact absurd (((s1.waitLaw.2.2.2.2 v).2 e).mpr ⟨we, he, this.trans hv⟩) (hempty e)
  rw [b3 n hmem hheld] at hl
  exact absurd hl (by simp [SlotBody.lease?])

/-! ### The other volume changes and the gate -/

theorem Run.setVolumeState_to (r : Run) (v : VolumeId) (st : VolumeState) (h : r.tab.Sound)
    (room : st = .offline → r.tab.hasSlots v = false) : r.To (r.withTab (r.tab.setVolumeState v st)) := by
  refine Run.To.move (Move.volume r.tab v { r.tab.volume v with state := st } rfl ?_)
  intro n l hl hv
  refine ⟨fun hst => ?_, by subst hv; exact (h.volumeLaw n l hl).2.2⟩
  have hf := room hst
  have hmem := (Tables.mem_slotsWhere h.wf (fun _ k => decide (k.volume = v)) n).mpr ⟨l, hl, by simp [hv]⟩
  unfold Tables.hasSlots at hf
  cases hs : r.tab.slotsWhere (fun _ k => decide (k.volume = v)) with
  | nil => rw [hs] at hmem; exact absurd hmem (by simp)
  | cons x xs => rw [hs] at hf; exact absurd hf (by simp)

theorem Run.define_to (r : Run) (v : VolumeId) (size : Nat) (h : r.tab.Sound) (off : (r.tab.volume v).state = .offline) :
    r.To (r.withTab { r.tab with volumes := upd r.tab.volumes v { r.tab.volume v with size := size } }) := by
  refine Run.To.move (Move.volume r.tab v { r.tab.volume v with size := size } rfl ?_)
  intro n l hl hv
  subst hv
  exact absurd off (h.volumeLaw n l hl).1

theorem Tables.countUse_moves (t : Tables) (found : GateCode × Option Nat) (h : t.Sound) : Moves t (t.countUse found) := by
  unfold Tables.countUse
  split
  · split
    · rename_i n _ l ten hb
      exact .one (Move.amend t n l ten { ten with gateUse := satCount ten.gateUse } l.holdLength hb rfl rfl
        (h.fieldLaw n l ten hb).2.1)
    · exact .refl t
    · exact .refl t
  · exact .refl t

/-- Structures with every slot FREE and no waiter keep the laws, whatever the volumes. -/
theorem Tables.sound_empty (vols : Vector Volume 32) (hf : ∀ v : VolumeId, vols[v].fence ≤ Config.lastToken) :
    Tables.Sound { Tables.reset with volumes := vols } := by
  have hbody : ∀ n, Tables.body { Tables.reset with volumes := vols } n = .free := fun _ => rfl
  have hvec : ∀ (α : Type) (n : Nat) (a : α) (i : Fin n), (Vector.replicate n a)[i] = a := by
    intro α n a i; simp
  have hidx : ∀ v, Tables.indexOf { Tables.reset with volumes := vols } v = [] := fun v => hvec _ _ _ v
  have hwl : ∀ v, Tables.waitList { Tables.reset with volumes := vols } v = [] := fun v => hvec _ _ _ v
  refine ⟨⟨List.Pairwise.nil, fun p hp => absurd hp (by simp [Tables.reset, SlotTable.cleared])⟩, ?_, ?_, ?_, ?_, ?_,
    ⟨hf, ?_, ?_⟩, ⟨List.Pairwise.nil, ?_, ?_, ?_, ?_⟩, ?_⟩
  · intro m n a ta b tb _ hm; rw [hbody] at hm; cases hm
  · intro m n a b _ hm; rw [hbody] at hm; cases hm
  · intro v
    rw [hidx]
    refine ⟨List.Pairwise.nil, fun n => ⟨fun hn => absurd hn (by simp), ?_⟩⟩
    rintro ⟨l, ten, hn, _⟩
    rw [hbody] at hn; cases hn
  · exact ⟨rfl, fun i => hvec _ _ _ i⟩
  · intro n l ten hn; rw [hbody] at hn; cases hn
  · intro n l ten k hn; rw [hbody] at hn; cases hn
  · intro m n a ta b tb k _ hm; rw [hbody] at hm; cases hm
  · intro e we he; exact absurd he (by simp [Tables.reset, lookupKey])
  · intro d e wd we hd; exact absurd hd (by simp [Tables.reset, lookupKey])
  · intro n hn; rw [hbody] at hn; exact absurd hn (by simp [SlotBody.waits])
  · intro v
    rw [hwl]
    exact ⟨List.Pairwise.nil, fun e => ⟨fun he => absurd he (by simp), fun ⟨we, h, _⟩ =>
      absurd h (by simp [Tables.reset, lookupKey])⟩⟩
  · intro n l hn; rw [hbody] at hn; exact absurd hn (by simp [SlotBody.lease?])

/-- Power-on reset's structures keep the laws. -/
theorem Tables.sound_reset : Tables.reset.Sound :=
  Tables.sound_empty _ (fun v => by simp)

end Sys2Proof.Machine
end

