-- ==== Sys2Proof/Laws/Clearing.lean ====
section
/-! SUPPORT. Table Clear: every slot's generation advances, and the cleared structures keep their laws (R25, R178). -/

namespace Sys2Proof.Machine

/-- Every slot after the clearing (R25). -/
theorem SlotTable.get_clearAll (t : SlotTable) (n : Nat) (hk : keysRise t.entries) :
    t.clearAll.get n = { gen := (t.get n).gen + 1, body := .free } := by
  unfold SlotTable.clearAll SlotTable.get
  simp only
  have : ∀ l : List (Nat × Slot), keysRise l → lookupKey n
      ((l.map (fun p => (p.1, ({ gen := p.2.gen + 1, body := SlotBody.free } : Slot)))).filter
        (fun p => !(p.2.gen == t.freeGen + 1))) =
     match lookupKey n l with
     | some s => if s.gen = t.freeGen then none else some { gen := s.gen + 1, body := .free }
     | none => none := by
    intro l
    induction l with
    | nil => intro _; rfl
    | cons a l ih =>
      intro hr
      obtain ⟨j, w⟩ := a
      obtain ⟨ha, hr⟩ := List.pairwise_cons.mp hr
      have ih := ih hr
      simp only [List.map_cons, lookupKey]
      by_cases hj : j = n
      · subst hj
        rw [if_pos rfl]
        by_cases hg : w.gen = t.freeGen
        · rw [List.filter_cons_of_neg (by simp [hg]), ih]
          have : lookupKey j l = none := by
            cases hl : lookupKey j l with
            | none => rfl
            | some x =>
              have := lookupKey_mem hl
              exact absurd (ha _ this) (by simp)
          rw [this]; simp [hg]
        · rw [List.filter_cons_of_pos (by simpa using hg)]
          simp [lookupKey, hg]
      · rw [if_neg hj]
        by_cases hg : w.gen = t.freeGen
        · rw [List.filter_cons_of_neg (by simp [hg]), ih]
        · rw [List.filter_cons_of_pos (by simpa using hg)]
          show (if j = n then _ else lookupKey n _) = _
          rw [if_neg hj]
          exact ih
  rw [this _ hk]
  cases lookupKey n t.entries with
  | none => rfl
  | some s =>
    by_cases hg : s.gen = t.freeGen
    · simp [hg]
    · simp [hg]


/-- The clearing keeps the canonical form. -/
theorem SlotTable.wf_clearAll {t : SlotTable} (h : t.wf) : t.clearAll.wf := by
  refine ⟨?_, ?_⟩
  · exact ((List.pairwise_map (R := fun a b : Nat × Slot => a.1 < b.1)
      (f := fun p : Nat × Slot => (p.1, ({ gen := p.2.gen + 1, body := .free } : Slot)))).mpr h.1).filter _
  · intro p hp
    obtain ⟨h1, h2⟩ := List.mem_filter.mp hp
    obtain ⟨q, hq, rfl⟩ := List.mem_map.mp h1
    refine ⟨(h.2 q hq).1, ?_⟩
    intro he
    have : q.2.gen + 1 = t.freeGen + 1 := congrArg Slot.gen he
    simp only [this, BEq.rfl, Bool.not_true] at h2
    exact absurd h2 (by simp)

/-- The cleared structures keep the laws (R25, R56). -/
theorem Tables.sound_clear {t : Tables} (h : t.Sound) : t.clear.Sound := by
  have hf : ∀ n, t.clear.body n = .free := by
    intro n
    show (t.slots.clearAll.get n).body = .free
    rw [SlotTable.get_clearAll _ _ h.wf.1]
  have hl : ∀ n l, (t.clear.body n).lease? ≠ some l := by
    intro n l; rw [hf n]; simp [SlotBody.lease?]
  have hh : ∀ n l ten, t.clear.body n ≠ .held l ten := by
    intro n l ten; rw [hf n]; simp
  have hfree : ∀ p ∈ t.clear.slots.entries, p.2.body = .free := by
    intro p hp
    obtain ⟨h1, _⟩ := List.mem_filter.mp hp
    obtain ⟨q, _, rfl⟩ := List.mem_map.mp h1
    rfl
  refine ⟨SlotTable.wf_clearAll h.wf, ?_, ?_, ?_, ?_, ?_, ?_, ?_, ?_⟩
  · intro m n a ta b tb _ hb; exact absurd hb (hh m a ta)
  · intro m n a b _ hb; exact absurd hb (hl m a)
  · intro v
    refine ⟨by rw [show t.clear.indexOf v = [] from by simp [Tables.indexOf, Tables.clear, Tables.reset]]; exact .nil, fun n => ?_⟩
    rw [show t.clear.indexOf v = [] from by simp [Tables.indexOf, Tables.clear, Tables.reset]]
    simp [hh]
  · refine ⟨?_, fun i => ?_⟩
    · show 0 = _
      unfold countKeys
      rw [List.filter_eq_nil_iff.mpr (fun p hp => by simp [hfree p hp, SlotBody.isFree])]
      rfl
    · show (Vector.replicate 12 0)[i] = _
      unfold countKeys
      rw [List.filter_eq_nil_iff.mpr (fun p hp => by simp [Slot.ownedBy, hfree p hp, SlotBody.lease?])]
      simp
  · intro n l ten hb; exact absurd hb (hh n l ten)
  · exact ⟨h.tokenLaw.1, fun n l ten k hb => absurd hb (hh n l ten), fun m n a ta b tb k _ hb => absurd hb (hh m a ta)⟩
  · refine ⟨.nil, fun e we he => absurd he (by simp [Tables.clear, Tables.reset, lookupKey]),
      fun d e wd we he => absurd he (by simp [Tables.clear, Tables.reset, lookupKey]),
      fun n hn => by rw [hf n] at hn; exact absurd hn (by simp [SlotBody.waits]), fun v => ?_⟩
    rw [show t.clear.waitList v = [] from by simp [Tables.waitList, Tables.clear, Tables.reset]]
    exact ⟨.nil, fun e => by simp [Tables.clear, Tables.reset, lookupKey]⟩
  · intro n l hb; exact absurd hb (hl n l)

end Sys2Proof.Machine
end

