-- ==== Sys2Proof/Laws/Readings.lean ====
section
/-! SUPPORT. The model's tests and searches read as statements about slots: what each finds, and what recall leaves. -/

namespace Sys2Proof.Machine

/-! ### Searches -/

theorem Lease.volume_of_overlaps {a b : Lease} (h : a.overlaps b = true) : a.volume = b.volume := by
  unfold Lease.overlaps at h
  simp only [Bool.and_eq_true, decide_eq_true_eq] at h
  exact h.1

theorem Lease.overlaps_of_blocks {a b : Lease} (h : a.blocks b = true) : a.overlaps b = true := by
  unfold Lease.blocks at h
  simp only [Bool.and_eq_true] at h
  exact h.1.2

/-- The conflict search finds exactly the slots of the HELD leases that block the claim (R15). -/
theorem Tables.Sound.mem_conflicts {t : Tables} (h : t.Sound) (c : Lease) (n : Nat) :
    n ∈ t.conflictSearch c ↔ ∃ l ten, t.body n = .held l ten ∧ l.blocks c = true := by
  rw [Tables.mem_conflictSearch]
  constructor
  · exact fun x => x.2
  · rintro ⟨l, ten, hb, hk⟩
    exact ⟨((h.indexLaw c.volume).2 n).mpr ⟨l, ten, hb, Lease.volume_of_overlaps (Lease.overlaps_of_blocks hk)⟩,
      l, ten, hb, hk⟩

/-- The conflict search finds nothing exactly when no HELD lease blocks the claim. -/
theorem Tables.Sound.conflicts_nil {t : Tables} (h : t.Sound) (c : Lease) : t.conflictSearch c = [] ↔ t.unblocked c := by
  constructor
  · intro hn m b ten hb
    cases hk : b.blocks c with
    | false => rfl
    | true =>
      have := (h.mem_conflicts c m).mpr ⟨b, ten, hb, hk⟩
      rw [hn] at this; exact absurd this (by simp)
  · intro hu
    rw [List.eq_nil_iff_forall_not_mem]
    intro m hm
    obtain ⟨l, ten, hb, hk⟩ := (h.mem_conflicts c m).mp hm
    rw [hu m l ten hb] at hk; exact absurd hk (by simp)

theorem Tables.waitersConflict_iff (t : Tables) (es : List Nat) (c : Lease) :
    t.waitersConflict es c = false ↔
      ∀ e w, e ∈ es → t.claimOf e = some w → w.overlaps c = true → conflicting w.mode c.mode = false := by
  unfold Tables.waitersConflict
  rw [List.any_eq_false]
  constructor
  · intro h e w he hw ho
    have := h e he
    rw [hw] at this
    simpa [ho] using this
  · intro h e he
    cases hw : t.claimOf e with
    | none => simp
    | some w =>
      simp only [Bool.and_eq_true, not_and, Bool.not_eq_true]
      exact h e w he hw

/-- The test of R30, read as a statement. -/
theorem Tables.Sound.grantableNow_iff {t : Tables} (h : t.Sound) (l : Lease) :
    t.grantableNow l = true ↔ t.freeFor l := by
  unfold Tables.grantableNow Tables.freeFor
  rw [← h.conflicts_nil, ← t.waitersConflict_iff]
  simp [and_assoc]

/-- The test of R13, read as a statement. -/
theorem Tables.Sound.selfOverlap_iff {t : Tables} (h : t.Sound) (i : SessionId) (v : VolumeId) (tag : Tag)
    (a : AcquireReq) : t.selfOverlap (leaseOf i v tag a) = true ↔ t.ownOverlap i v a.start a.count := by
  constructor
  · intro hs
    unfold Tables.selfOverlap at hs
    simp only [Bool.not_eq_true', List.isEmpty_eq_false_iff] at hs
    obtain ⟨m, hm⟩ := List.exists_mem_of_ne_nil _ hs
    obtain ⟨l, hl, hp⟩ := (Tables.mem_slotsWhere h.wf _ m).mp hm
    simp only [Bool.and_eq_true, Lease.overlaps, leaseOf] at hp
    exact ⟨m, l, hl, of_decide_eq_true hp.1, of_decide_eq_true hp.2.1, hp.2.2⟩
  · rintro ⟨m, l, hl, ho, hv, hx⟩
    cases hs : t.selfOverlap (leaseOf i v tag a) with
    | true => rfl
    | false =>
      have := Tables.selfOverlap_false h hs m l hl ho
      rw [Lease.overlaps] at this
      simp only [leaseOf, hv, hx, decide_true, Bool.and_self] at this
      exact absurd this (by simp)

/-- An index list names no slot twice (R14). -/
theorem Tables.Sound.indexOf_nodup {t : Tables} (h : t.Sound) (v : VolumeId) : (t.indexOf v).Nodup := by
  refine (h.indexLaw v).1.imp ?_
  intro a b hab he
  subst he
  rcases hab with h | ⟨_, h⟩ <;> exact Nat.lt_irrefl _ h

theorem Tables.Sound.conflicts_nodup {t : Tables} (h : t.Sound) (c : Lease) : (t.conflictSearch c).Nodup :=
  (h.indexOf_nodup c.volume).filter _

theorem finOf_val {k : Nat} (i : Fin k) : finOf k i.val = some i := by
  unfold finOf; rw [dif_pos i.isLt]

theorem Tables.inService_eq {t : Tables} {v : VolumeId} {n : Nat} (hv : v.val = n)
    (hs : (t.volume v).state ≠ .offline) : t.inService n = some v := by
  unfold Tables.inService
  rw [← hv, finOf_val]
  simp only [if_neg hs]

theorem Tables.inService_none {t : Tables} {n : Nat} (h : ∀ v : VolumeId, v.val = n → (t.volume v).state = .offline) :
    t.inService n = none := by
  unfold Tables.inService
  cases hf : finOf 32 n with
  | none => rfl
  | some v => simp only [h v (finOf_some hf), if_true]

theorem Tables.lowestFreeSlot_eq {t : Tables} {n : Nat} (h : n < 4096 ∧ t.body n = .free ∧ ∀ m, m < n → t.body m ≠ .free) :
    t.lowestFreeSlot = some n := by
  refine findFrom_eq _ n (by rw [h.2.1]; rfl) _ 0 (Nat.zero_le _) (by simpa using h.1) ?_
  intro m _ hm
  cases hb : t.body m with
  | free => exact absurd hb (h.2.2 m hm)
  | pending l d => rfl
  | held l ten => rfl

theorem Tables.lowestFreeSlot_none {t : Tables} (h : ∀ m, m < 4096 → t.body m ≠ .free) : t.lowestFreeSlot = none := by
  refine findFrom_none _ _ 0 ?_
  intro m _ hm
  cases hb : t.body m with
  | free => exact absurd hb (h m (by simpa using hm))
  | pending l d => rfl
  | held l ten => rfl

theorem Tables.lowestFreeEntry_none {t : Tables} (h : ∀ e, e < 512 → lookupKey e t.pool ≠ none) :
    t.lowestFreeEntry = none := by
  refine findFrom_none _ _ 0 ?_
  intro e _ he
  cases hl : lookupKey e t.pool with
  | none => exact absurd hl (h e (by simpa using he))
  | some we => rfl

/-- The lowest free entry, read as a statement. -/
theorem Tables.lowestFreeEntry_spec {t : Tables} {e : Nat} (h : t.lowestFreeEntry = some e) :
    e < 512 ∧ lookupKey e t.pool = none ∧ ∀ d, d < e → lookupKey d t.pool ≠ none := by
  obtain ⟨h1, h2⟩ := Tables.lowestFreeEntry_some h
  refine ⟨h2, h1, ?_⟩
  intro d hd hn
  have hex : ∀ (p : Nat → Bool) (fuel n k : Nat), findFrom p fuel n = some k → ∀ m, n ≤ m → m < k → p m = false := by
    intro p fuel
    induction fuel with
    | zero => intro n k hk; exact absurd hk (by simp [findFrom])
    | succ f ih =>
      intro n k hk m h1 h2
      unfold findFrom at hk
      cases hp : p n with
      | true => rw [hp] at hk; simp only [if_true, Option.some.injEq] at hk; omega
      | false =>
        rw [hp] at hk; simp only [Bool.false_eq_true, if_false] at hk
        by_cases hm : m = n
        · subst hm; exact hp
        · exact ih (n + 1) k hk m (by omega) h2
  have := hex _ _ _ _ h d (Nat.zero_le _) hd
  simp [hn] at this

/-! ### The form checks -/

theorem holdOk_iff (h : Option Nat) : holdOk h = true ↔ ∀ x, h = some x → 10 ≤ x ∧ x ≤ 3600000 := by
  cases h with
  | none => simp [holdOk]
  | some x => simp [holdOk, Config.minHold, Config.maxHold]

theorem waitLimitOk_iff (w : Option Nat) : waitLimitOk w = true ↔ ∀ x, w = some x → 1 ≤ x ∧ x ≤ 60000 := by
  cases w with
  | none => simp [waitLimitOk]
  | some x => simp [waitLimitOk, Config.maxWait]

theorem AcquireReq.formed_iff (a : AcquireReq) :
    a.formed ↔ ¬ (a.count = 0 ∨ holdOk a.hold = false ∨ waitLimitOk a.waitLimit = false) := by
  unfold AcquireReq.formed
  rw [← holdOk_iff, ← waitLimitOk_iff]
  cases holdOk a.hold <;> cases waitLimitOk a.waitLimit <;> simp <;> omega

/-- An ACQUIRE that passes Table 2-2 goes on to its slot. -/
theorem State.mayAcquire_checked {s : State} {i : SessionId} {a : AcquireReq} {v : VolumeId} {n : Nat} (h : s.tab.Sound)
    (m : s.mayAcquire i a v n) (r : Run) (hr : r.tab = s.tab) (tag : Tag) :
    acquireChecked r i (s.session i).quota tag a = acquireIn r n (leaseOf i v tag a) a.noWait a.waitLimit := by
  unfold acquireChecked
  rw [if_neg ((AcquireReq.formed_iff a).mp m.formed), hr, Tables.inService_eq m.volume m.service]
  have h1 : ¬ (s.tab.volume v).size < a.start + a.count := Nat.not_lt.mpr m.size
  have h2 : ¬ s.tab.selfOverlap (leaseOf i v tag a) = true := fun x => m.own ((h.selfOverlap_iff i v tag a).mp x)
  have h3 : ¬ (s.session i).quota ≤ s.tab.slotCount i := Nat.not_le.mpr m.quota
  simp only [if_neg h1, if_neg h2, if_neg h3, Tables.lowestFreeSlot_eq m.slot]

/-! ### Recall (R64) -/

/-- The tenure that recall leaves. -/
def Run.marked (r : Run) (ten : Tenure) : Tenure :=
  if ten.recallMark = none then { ten with recallMark := some r.newMark } else ten

/-- What recall over a list of slots leaves: marks and notices, and nothing else. -/
structure Run.Recalled (r u : Run) (ns : List Nat) : Prop where
  body : ∀ m, u.tab.body m = match r.tab.body m with
    | .held l ten => .held l (if m ∈ ns then r.marked ten else ten)
    | .pending l d => .pending l d
    | .free => .free
  gen : ∀ m, (u.tab.slots.get m).gen = (r.tab.slots.get m).gen
  rest : u.tab = { r.tab with slots := u.tab.slots }
  notices : u.notices = r.notices ++ r.tab.recallNotices ns
  same : u = { r with tab := u.tab, notices := u.notices }

theorem Run.markRecalled_recalled (r : Run) (n : Nat) : r.Recalled (r.markRecalled n) [n] := by
  unfold Run.markRecalled
  have keep : ∀ m, r.tab.body m = match r.tab.body m with
      | .held l ten => .held l ten
      | .pending l d => .pending l d
      | .free => .free := by
    intro m; cases r.tab.body m <;> rfl
  cases hb : r.tab.body n with
  | free =>
    refine ⟨?_, fun _ => rfl, rfl, ?_, rfl⟩
    · intro m
      by_cases hm : m = n
      · subst hm; rw [hb]
      · rw [keep m]; cases r.tab.body m <;> simp [hm]
    · simp [Tables.recallNotices, hb]
  | pending l d =>
    refine ⟨?_, fun _ => rfl, rfl, ?_, rfl⟩
    · intro m
      by_cases hm : m = n
      · subst hm; rw [hb]
      · rw [keep m]; cases r.tab.body m <;> simp [hm]
    · simp [Tables.recallNotices, hb]
  | held l ten =>
    cases hr : ten.recallMark with
    | some mk =>
      simp only [hr]
      refine ⟨?_, fun _ => rfl, rfl, ?_, rfl⟩
      · intro m
        by_cases hm : m = n
        · subst hm; rw [hb]; simp [Run.marked, hr]
        · rw [keep m]; cases r.tab.body m <;> simp [hm]
      · simp [Tables.recallNotices, hb, hr]
    | none =>
      simp only [hr]
      refine ⟨?_, ?_, rfl, ?_, rfl⟩
      · intro m
        show (r.tab.setBody n _).body m = _
        rw [Tables.body_setBody]
        by_cases hm : m = n
        · subst hm; rw [if_pos rfl, hb]; simp [Run.marked, hr]
        · rw [if_neg hm, keep m]; cases r.tab.body m <;> simp [hm]
      · intro m
        show ((r.tab.slots.set n _).get m).gen = _
        rw [SlotTable.get_set]
        by_cases hm : m = n
        · subst hm; simp
        · simp [hm]
      · show r.notices ++ _ = _
        simp [Tables.recallNotices, hb, hr]

/-- Recall over a list of slots without repetition. -/
theorem Run.recall_fold : ∀ (ns : List Nat) (r : Run), ns.Nodup → r.Recalled (ns.foldl Run.markRecalled r) ns
  | [], r, _ => by
    refine ⟨?_, fun _ => rfl, rfl, ?_, rfl⟩
    · intro m; show r.tab.body m = _; cases r.tab.body m <;> simp
    · simp [Tables.recallNotices]
  | n :: ns, r, hnd => by
    obtain ⟨hn, hnd⟩ := List.nodup_cons.mp hnd
    have h1 := r.markRecalled_recalled n
    have h2 := Run.recall_fold ns (r.markRecalled n) hnd
    have hmark : ∀ ten, (r.markRecalled n).marked ten = r.marked ten := by
      intro ten
      have : (r.markRecalled n).newMark = r.newMark := by rw [h1.same]; rfl
      unfold Run.marked; rw [this]
    rw [List.foldl_cons]
    refine ⟨?_, fun m => (h2.gen m).trans (h1.gen m), ?_, ?_, ?_⟩
    · intro m
      rw [h2.body m, h1.body m]
      cases r.tab.body m with
      | free => rfl
      | pending l d => rfl
      | held l ten =>
        simp only [hmark, List.mem_cons, List.not_mem_nil, or_false]
        by_cases hm : m = n
        · subst hm; simp [hn]
        · simp [hm]
    · rw [h2.rest, h1.rest]
    · rw [h2.notices, h1.notices, List.append_assoc]
      congr 1
      have : (r.markRecalled n).tab.recallNotices ns = r.tab.recallNotices ns := by
        unfold Tables.recallNotices
        have hcongr : ∀ (f g : Nat → Option (SessionId × Notice)) (l : List Nat), (∀ x ∈ l, f x = g x) →
            l.filterMap f = l.filterMap g := by
          intro f g l
          induction l with
          | nil => intro _; rfl
          | cons a l ih =>
            intro h
            rw [List.filterMap_cons, List.filterMap_cons, h a (by simp), ih (fun x hx => h x (by simp [hx]))]
        refine hcongr _ _ ns ?_
        intro m hm
        have hne : m ≠ n := fun h => hn (h ▸ hm)
        have hh : (r.markRecalled n).tab.handle m = r.tab.handle m := by unfold Tables.handle; rw [h1.gen]
        rw [h1.body m]
        cases r.tab.body m <;> simp [hne, hh]
      rw [this]
      show _ = r.tab.recallNotices ([n] ++ ns)
      unfold Tables.recallNotices
      rw [List.filterMap_append]
    · rw [h2.same, h1.same]

end Sys2Proof.Machine
end

