-- ==== Sys2Proof/Laws/Passes.lean ====
section
/-! SUPPORT. What the wake passes of a step can do, and what they leave: nothing grantable waits on a volume that is still
ONLINE, and every lease that blocks a waiter carries a recall mark (R45 to R49). -/

namespace Sys2Proof.Machine

/-! ### The frame of the passes -/

theorem Tables.kept.refl (t : Tables) (w : VolumeId) : t.kept t w := ⟨fun _ _ _ _ => rfl, rfl, rfl, rfl, fun _ _ => rfl⟩

theorem Tables.kept.body {t u : Tables} {w : VolumeId} (h : t.kept u w) {m : Nat} {l : Lease}
    (hl : (t.body m).lease? = some l) (hv : l.volume = w) : u.body m = t.body m := by
  unfold Tables.body; rw [h.slots m l hl hv]

theorem Tables.kept.trans {t u x : Tables} {w : VolumeId} (a : t.kept u w) (b : u.kept x w) : t.kept x w := by
  refine ⟨?_, b.volume.trans a.volume, b.index.trans a.index, b.waits.trans a.waits, ?_⟩
  · intro m l hl hv
    rw [b.slots m l (by rw [a.body hl hv]; exact hl) hv, a.slots m l hl hv]
  · intro e he
    rw [b.entries e (by rw [a.waits]; exact he), a.entries e he]

theorem Tables.passes.refl (t : Tables) (on : VolumeId → Prop) : t.passes t on :=
  ⟨fun _ => rfl, fun _ h => h, fun _ _ _ h => .inl h, fun _ _ ten h => ⟨ten.recallMark, fun _ => rfl, .inl h⟩,
    fun w _ => .refl t w, ⟨rfl, rfl, rfl⟩, fun _ _ h => h, fun _ => ⟨rfl, Nat.le_refl _, .inl rfl⟩⟩

theorem Tables.passes.trans {t u x : Tables} {on : VolumeId → Prop} (a : t.passes u on) (b : u.passes x on) :
    t.passes x on := by
  refine ⟨fun m => (b.gen m).trans (a.gen m), fun m h => b.free m (a.free m h), ?_, ?_, ?_, ?_, ?_, ?_⟩
  · intro m l d h
    rcases a.pending m l d h with h1 | ⟨ten, h0, h1⟩
    · exact b.pending m l d h1
    · obtain ⟨mark, _, h2 | ⟨h2, _⟩⟩ := b.held m l ten h1
      · exact .inr ⟨{ ten with recallMark := mark }, h0, h2⟩
      · exact absurd h0 h2
  · intro m l ten h
    obtain ⟨m1, k1, h1 | ⟨n1, tok, h1⟩⟩ := a.held m l ten h
    · obtain ⟨m2, k2, h2⟩ := b.held m l _ h1
      refine ⟨m2, fun hr => ?_, h2⟩
      rw [k2 (by rw [k1 hr]; exact hr)]
      exact k1 hr
    · obtain ⟨m2, k2, h2 | ⟨n2, _⟩⟩ := b.held m _ _ h1
      · refine ⟨m2, fun hr => ?_, .inr ⟨n1, tok, h2⟩⟩
        rw [k2 (by rw [k1 hr]; exact hr)]
        exact k1 hr
      · exact absurd rfl n2
  · intro w hw
    have k1 := a.kept w hw
    exact k1.trans (b.kept w (hw.imp id (fun h => by rw [k1.waits]; exact h)))
  · exact ⟨b.counts.1.trans a.counts.1, b.counts.2.1.trans a.counts.2.1, b.counts.2.2.trans a.counts.2.2⟩
  · exact fun e we h => a.pool e we (b.pool e we h)
  · intro w
    obtain ⟨a1, a2, a3⟩ := a.volumes w
    obtain ⟨b1, b2, b3⟩ := b.volumes w
    refine ⟨b1.trans a1, Nat.le_trans a2 b2, ?_⟩
    rcases b3 with b3 | b3
    · rw [b3]; exact a3
    · exact .inr b3

theorem Tables.passes.mono {t u : Tables} {on on' : VolumeId → Prop} (a : t.passes u on) (h : ∀ w, on w → on' w) :
    t.passes u on' :=
  ⟨a.gen, a.free, a.pending, a.held, fun w hw => a.kept w (hw.imp (fun n x => n (h w x)) id), a.counts, a.pool,
    a.volumes⟩

/-! ### Entries of a list -/

/-- The entry of a slot on a volume, read from the list. -/
theorem Tables.Sound.entry_of_list {t : Tables} (h : t.Sound) {v : VolumeId} {e : Nat} (he : e ∈ t.waitList v) :
    ∃ we, lookupKey e t.pool = some we ∧ we.volume = v := ((h.waitLaw.2.2.2.2 v).2 e).mp he

/-- The claim of an entry lies on the entry's volume, and its slot carries the claim's extent. -/
theorem Tables.Sound.entryClaim_spec {t : Tables} (h : t.Sound) {e : Nat} {we : WaitEntry} {c : Lease}
    (he : lookupKey e t.pool = some we) (hc : t.entryClaim we = some c) :
    (∃ d, we.kind = .acquire ∧ t.body we.slot = .pending c d ∧ we.volume = c.volume) ∨
    (∃ l ten u, we.kind = .upgrade ∧ t.body we.slot = .held l ten ∧ ten.upgrade = some u ∧
      c = { l with mode := .exclusive } ∧ we.volume = c.volume) := by
  unfold Tables.entryClaim at hc
  cases hb : t.body we.slot with
  | free => rw [hb] at hc; cases hk : we.kind <;> rw [hk] at hc <;> exact absurd hc (by simp)
  | pending l d =>
    obtain ⟨hk, hv⟩ := h.entry_pending he hb
    rw [hb, hk] at hc
    cases hc
    exact .inl ⟨d, hk, rfl, hv⟩
  | held l ten =>
    obtain ⟨hk, hv, u, hu⟩ := h.entry_held he hb
    rw [hb, hk] at hc
    cases hc
    exact .inr ⟨l, ten, u, hk, rfl, hu, rfl, hv⟩

theorem Tables.claimOf_eq {t : Tables} {e : Nat} {we : WaitEntry} (he : lookupKey e t.pool = some we) :
    t.claimOf e = t.entryClaim we := by
  unfold Tables.claimOf; rw [he]; rfl

/-- A blocker of an entry is a HELD lease of the entry's volume. -/
theorem Tables.Sound.blocker_spec {t : Tables} (h : t.Sound) {e m : Nat} (hm : m ∈ t.blockersOf e) :
    ∃ we c l ten, lookupKey e t.pool = some we ∧ t.entryClaim we = some c ∧ t.body m = .held l ten ∧
      l.blocks c = true ∧ l.volume = we.volume := by
  unfold Tables.blockersOf at hm
  cases hl : lookupKey e t.pool with
  | none => unfold Tables.claimOf at hm; rw [hl] at hm; exact absurd hm (by simp)
  | some we =>
    rw [Tables.claimOf_eq hl] at hm
    cases hc : t.entryClaim we with
    | none => rw [hc] at hm; exact absurd hm (by simp)
    | some c =>
      rw [hc] at hm
      obtain ⟨l, ten, hb, hk⟩ := (h.mem_conflicts c m).mp hm
      have hv := Lease.volume_of_overlaps (Lease.overlaps_of_blocks hk)
      refine ⟨we, c, l, ten, rfl, hc, hb, hk, ?_⟩
      rcases h.entryClaim_spec hl hc with ⟨_, _, _, hw⟩ | ⟨_, _, _, _, _, _, _, hw⟩ <;> rw [hv, hw]

/-! ### Recall -/

/-- Recall applied to an entry of volume `v` (R64). -/
theorem Run.applyRecall_passes (r : Run) (e : Nat) (v : VolumeId) (h : r.tab.Sound)
    (hv : ∀ we, lookupKey e r.tab.pool = some we → we.volume = v) : r.tab.passes (r.applyRecall e).tab (fun w => w = v) := by
  unfold Run.applyRecall
  have hrec := Run.recall_fold (r.tab.blockersOf e) r (by
    unfold Tables.blockersOf
    split
    · exact h.conflicts_nodup _
    · exact List.nodup_nil)
  have hlists : ((r.tab.blockersOf e).foldl Run.markRecalled r).tab.waitLists = r.tab.waitLists := by rw [hrec.rest]
  refine ⟨hrec.gen, ?_, ?_, ?_, ?_, ?_, ?_, ?_⟩
  · intro m hm; rw [hrec.body, hm]
  · intro m l d hm; left; rw [hrec.body, hm]
  · intro m l ten hm
    refine ⟨(if m ∈ r.tab.blockersOf e then r.marked ten else ten).recallMark, ?_, .inl ?_⟩
    · intro hr
      by_cases hx : m ∈ r.tab.blockersOf e
      · rw [if_pos hx]; unfold Run.marked; rw [if_neg hr]
      · rw [if_neg hx]
    · rw [hrec.body, hm]
      by_cases hx : m ∈ r.tab.blockersOf e
      · simp only [if_pos hx]; unfold Run.marked; split <;> rfl
      · simp only [if_neg hx]
  · intro w hw
    rw [hrec.rest]
    refine ⟨?_, rfl, rfl, rfl, fun _ _ => rfl⟩
    intro m l hl hlv
    have hb : ∀ l ten, r.tab.body m = .held l ten → m ∉ r.tab.blockersOf e := by
      intro l' ten' hb hm
      obtain ⟨we, c, l2, ten2, he, _, hb2, _, hlw⟩ := h.blocker_spec hm
      rw [hb] at hl hb2; cases hl; cases hb2
      rw [hv we he] at hlw
      rcases hw with hw | hw
      · exact hw (hlv.symm.trans hlw)
      · have := ((h.waitLaw.2.2.2.2 w).2 e).mpr ⟨we, he, (hv we he).trans (hlw.symm.trans hlv)⟩
        rw [hw] at this; exact absurd this (by simp)
    have hg := hrec.gen m
    have hbd := hrec.body m
    show ((r.tab.blockersOf e).foldl Run.markRecalled r).tab.slots.get m = r.tab.slots.get m
    have hbe : ((r.tab.blockersOf e).foldl Run.markRecalled r).tab.body m = r.tab.body m := by
      rw [hbd]
      cases hx : r.tab.body m with
      | free => rfl
      | pending a d => rfl
      | held a d => simp only [if_neg (hb a d hx)]
    unfold Tables.body at hbe
    generalize ((r.tab.blockersOf e).foldl Run.markRecalled r).tab.slots.get m = x at hg hbe
    generalize r.tab.slots.get m = y at hg hbe
    cases x; cases y; simp only at hg hbe; rw [hg, hbe]
  · rw [hrec.rest]; exact ⟨rfl, rfl, rfl⟩
  · intro d we hd; rw [hrec.rest] at hd; exact hd
  · intro w; rw [hrec.rest]; exact ⟨rfl, Nat.le_refl _, .inl rfl⟩

/-! ### Exhaustion and grants -/

theorem Run.exhaust_passes (r : Run) (v : VolumeId) (hw : r.tab.waitList v ≠ []) :
    r.tab.passes (r.exhaust v).tab (fun w => w = v) := by
  have hvol : ∀ w, (r.exhaust v).tab.volume w = if v = w then { r.tab.volume v with state := .frozen } else r.tab.volume w :=
    fun w => upd_get r.tab.volumes v w _
  refine ⟨fun _ => rfl, fun _ h => h, fun _ _ _ h => .inl h, fun _ _ ten h => ⟨ten.recallMark, fun _ => rfl, .inl h⟩, ?_,
    ⟨rfl, rfl, rfl⟩, fun _ _ h => h, ?_⟩
  · intro w hk
    have hne : v ≠ w := by
      rintro rfl
      rcases hk with h | h
      · exact h rfl
      · exact hw h
    exact ⟨fun _ _ _ _ => rfl, by rw [hvol, if_neg hne], rfl, rfl, fun _ _ => rfl⟩
  · intro w
    rw [hvol]
    by_cases h : v = w
    · subst h; rw [if_pos rfl]; exact ⟨rfl, Nat.le_refl _, .inr rfl⟩
    · rw [if_neg h]; exact ⟨rfl, Nat.le_refl _, .inl rfl⟩

/-- What a grant of entry `e` does to the tables. -/
structure Tables.Granted (t u : Tables) (e : Nat) (we : WaitEntry) (c : Lease) : Prop where
  slot : ∃ l ten, u.body we.slot = .held l ten ∧ l.owner = c.owner ∧ l.volume = c.volume ∧ l.start = c.start ∧
    l.count = c.count ∧ l.mode = c.mode
  others : ∀ m, m ≠ we.slot → u.body m = t.body m
  pool : ∀ d, lookupKey d u.pool = if d = e then none else lookupKey d t.pool
  waits : ∀ w, u.waitList w = if we.volume = w then (t.waitList w).filter (fun d => !(d == e)) else t.waitList w

theorem Run.grantEntry_granted (r : Run) (e : Nat) (we : WaitEntry) (c : Lease) (h : r.tab.Sound)
    (he : lookupKey e r.tab.pool = some we) (hc : r.tab.entryClaim we = some c) :
    r.tab.Granted (r.grantEntry e we).tab e we c ∧ r.tab.passes (r.grantEntry e we).tab (fun w => w = we.volume) := by
  have hmem : ∀ w, w = we.volume → e ∈ r.tab.waitList w := fun w hw =>
    ((h.waitLaw.2.2.2.2 w).2 e).mpr ⟨we, he, hw.symm⟩
  have hne : ∀ w, (¬ w = we.volume ∨ r.tab.waitList w = []) → we.volume ≠ w := by
    rintro w hk rfl
    rcases hk with h1 | h1
    · exact h1 rfl
    · have := hmem _ rfl; rw [h1] at this; exact absurd this (by simp)
  have hentry : ∀ w, we.volume ≠ w → ∀ d, d ∈ r.tab.waitList w → d ≠ e := by
    rintro w hw d hd rfl
    obtain ⟨wd, h1, h2⟩ := h.entry_of_list hd
    rw [he] at h1; cases h1
    exact hw h2
  -- the tables that a grant leaves, whichever kind
  have main : ∀ (md : Mode) (b : SlotBody) (u : Tables), we.volume = c.volume →
      (∀ m, u.slots.get m = if m = we.slot then { gen := (r.tab.slots.get we.slot).gen, body := b } else r.tab.slots.get m) →
      u.pool = eraseKey e r.tab.pool → (∀ w, u.waitList w = (r.tab.removeEntry e we.volume).waitList w) →
      (∀ w, u.volume w = (r.tab.drawFor md we.volume).volume w) → (∀ w, w ≠ we.volume → u.indexOf w = r.tab.indexOf w) →
      u.occupancy = r.tab.occupancy → u.slotCounts = r.tab.slotCounts → u.arrival = r.tab.arrival →
      (∃ l ten, b = .held l ten ∧ l.owner = c.owner ∧ l.volume = c.volume ∧ l.start = c.start ∧ l.count = c.count ∧
        l.mode = c.mode) →
      ((∃ d, r.tab.body we.slot = .pending c d ∧ ∃ ten, ten.upgrade = none ∧ b = .held c ten) ∨
        (∃ l ten tok, r.tab.body we.slot = .held l ten ∧ ten.upgrade ≠ none ∧ c = { l with mode := .exclusive } ∧
          b = .held { l with mode := .exclusive } { ten with recallMark := ten.recallMark, token := some tok, upgrade := none })) →
      r.tab.Granted u e we c ∧ r.tab.passes u (fun w => w = we.volume) := by
    intro md b u hvc hs hp hwl hvol hidx ho hsc har hb hcase
    have hbody : ∀ m, u.body m = if m = we.slot then b else r.tab.body m := by
      intro m; unfold Tables.body; rw [hs]; by_cases hm : m = we.slot <;> simp [hm]
    have hslotv : ∀ l, (r.tab.body we.slot).lease? = some l → l.volume = we.volume := by
      intro l hl
      rcases hcase with ⟨d, h1, _⟩ | ⟨l', ten, tok, h1, _, h2, _⟩
      · rw [h1] at hl; cases hl; exact hvc.symm
      · rw [h1] at hl; cases hl; rw [hvc, h2]
    have hwl' : ∀ w, u.waitList w = if we.volume = w then (r.tab.waitList w).filter (fun d => !(d == e)) else r.tab.waitList w := by
      intro w; rw [hwl, Tables.waitList_removeEntry]
      by_cases hw : we.volume = w
      · subst hw; simp
      · simp [hw]
    have hpool : ∀ d, lookupKey d u.pool = if d = e then none else lookupKey d r.tab.pool := by
      intro d; rw [hp]; exact lookupKey_erase e d r.tab.pool
    refine ⟨⟨?_, ?_, hpool, hwl'⟩, ?_, ?_, ?_, ?_, ?_, ⟨ho, hsc, har⟩, ?_, ?_⟩
    · obtain ⟨l, ten, hb, hr⟩ := hb
      exact ⟨l, ten, by rw [hbody, if_pos rfl, hb], hr⟩
    · intro m hm; rw [hbody, if_neg hm]
    · intro m; rw [hs]; by_cases hm : m = we.slot <;> simp [hm]
    · intro m hm
      rw [hbody, if_neg]; exact hm
      rintro rfl
      rcases hcase with ⟨d, h1, _⟩ | ⟨l', ten, tok, h1, _⟩ <;> rw [h1] at hm <;> exact absurd hm (by simp)
    · intro m l d hm
      by_cases hms : m = we.slot
      · subst hms
        rcases hcase with ⟨d', h1, ten, h0, h2⟩ | ⟨l', ten, tok, h1, _⟩
        · rw [h1] at hm; cases hm
          exact .inr ⟨ten, h0, by rw [hbody, if_pos rfl, h2]⟩
        · rw [h1] at hm; exact absurd hm (by simp)
      · exact .inl (by rw [hbody, if_neg hms]; exact hm)
    · intro m l ten hm
      refine ⟨ten.recallMark, fun _ => rfl, ?_⟩
      by_cases hms : m = we.slot
      · subst hms
        rcases hcase with ⟨d', h1, _⟩ | ⟨l', ten', tok, h1, hu, h2, h3⟩
        · rw [h1] at hm; exact absurd hm (by simp)
        · rw [h1] at hm; cases hm
          exact .inr ⟨hu, tok, by rw [hbody, if_pos rfl, h3]⟩
      · exact .inl (by rw [hbody, if_neg hms]; exact hm)
    · intro w hk
      have hw := hne w hk
      refine ⟨?_, ?_, hidx w (Ne.symm hw), by rw [hwl', if_neg hw], ?_⟩
      · intro m l hl hv
        rw [hs, if_neg]
        rintro rfl
        exact hw ((hslotv l hl).symm.trans hv)
      · rw [hvol, Tables.volume_drawFor, if_neg (fun x => hw x.2)]
      · intro d hd; rw [hpool, if_neg (hentry w hw d hd)]
    · intro d wd hd
      rw [hpool] at hd
      by_cases hde : d = e
      · rw [if_pos hde] at hd; exact absurd hd (by simp)
      · rw [if_neg hde] at hd; exact hd
    · intro w
      rw [hvol]
      exact ⟨Tables.size_drawFor _ _ _ _, by rw [Tables.fence_drawFor]; split <;> omega, .inl (Tables.state_drawFor _ _ _ _)⟩
  rcases h.entryClaim_spec he hc with ⟨d, hk, hb, hv⟩ | ⟨l, ten, up, hk, hb, hu, hcl, hv⟩
  · have htab : (r.grantEntry e we).tab = ((((r.tab.removeEntry e we.volume).drawFor c.mode c.volume).setBody we.slot
        (.held c (Tenure.granted r.now c ((r.tab.removeEntry e we.volume).tokenFor c.mode c.volume)))).indexAdd c.volume we.slot) := by
      unfold Run.grantEntry; rw [hb]; rfl
    rw [htab]
    generalize htk : (r.tab.removeEntry e we.volume).tokenFor c.mode c.volume = tok
    refine main c.mode (.held c (Tenure.granted r.now c tok)) _ hv ?_ ?_ ?_ ?_ ?_ ?_ ?_ ?_
      ⟨c, Tenure.granted r.now c tok, rfl, rfl, rfl, rfl, rfl, rfl⟩ (.inl ⟨d, hb, Tenure.granted r.now c tok, rfl, rfl⟩)
    · intro m
      show (SlotTable.set (Tables.slots _) we.slot _).get m = _
      rw [SlotTable.get_set, Tables.slots_drawFor]; rfl
    · show ((r.tab.removeEntry e we.volume).drawFor c.mode c.volume).pool = _
      rw [Tables.pool_drawFor]; rfl
    · intro w
      show ((r.tab.removeEntry e we.volume).drawFor c.mode c.volume).waitList w = _
      rw [Tables.waitList_drawFor]
    · intro w
      show ((r.tab.removeEntry e we.volume).drawFor c.mode c.volume).volume w = _
      rw [hv, Tables.volume_drawFor, Tables.volume_drawFor]; rfl
    · intro w hw
      rw [Tables.indexOf_indexAdd, if_neg (fun x => hw (x.symm.trans hv.symm))]
      show ((r.tab.removeEntry e we.volume).drawFor c.mode c.volume).indexOf w = _
      rw [Tables.indexOf_drawFor]; rfl
    · show ((r.tab.removeEntry e we.volume).drawFor c.mode c.volume).occupancy = _
      rw [Tables.occupancy_drawFor]; rfl
    · show ((r.tab.removeEntry e we.volume).drawFor c.mode c.volume).slotCounts = _
      rw [Tables.slotCounts_drawFor]; rfl
    · show ((r.tab.removeEntry e we.volume).drawFor c.mode c.volume).arrival = _
      cases c.mode <;> rfl
  · have htab : (r.grantEntry e we).tab = (((r.tab.removeEntry e we.volume).drawFor .exclusive l.volume).setBody we.slot
        (.held { l with mode := .exclusive } { ten with token := (r.tab.removeEntry e we.volume).tokenFor .exclusive l.volume, upgrade := none })) := by
      unfold Run.grantEntry; rw [hb]; simp only [hu]; rfl
    have hlv : l.volume = we.volume := by rw [hv, hcl]
    have htk : (r.tab.removeEntry e we.volume).tokenFor .exclusive l.volume = some ((r.tab.volume l.volume).fence + 1) := rfl
    rw [htab, htk]
    generalize (r.tab.volume l.volume).fence + 1 = tok
    refine main .exclusive (.held { l with mode := .exclusive } { ten with token := some tok, upgrade := none }) _ hv ?_ rfl
      (fun _ => rfl) ?_ ?_ rfl rfl rfl ⟨_, _, rfl, by rw [hcl], by rw [hcl], by rw [hcl], by rw [hcl], by rw [hcl]⟩
      (.inr ⟨l, ten, tok, hb, by rw [hu]; simp, hcl, rfl⟩)
    · intro m
      show (SlotTable.set (Tables.slots _) we.slot _).get m = _
      rw [SlotTable.get_set, Tables.slots_drawFor]; rfl
    · intro w
      show ((r.tab.removeEntry e we.volume).drawFor .exclusive l.volume).volume w = _
      rw [hlv, Tables.volume_drawFor, Tables.volume_drawFor]; rfl
    · intro w _
      rfl

/-! ### What a pass leaves -/

/-- The entry is not grantable. -/
def Tables.stuck (t : Tables) (e : Nat) : Prop :=
  ∀ we c, lookupKey e t.pool = some we → t.entryClaim we = some c → t.grantable e we c = false

theorem mem_takeWhile_filter (p q : Nat → Bool) (x : Nat) (hq : q x = true) : ∀ l : List Nat, x ∈ l.takeWhile p →
    x ∈ (l.filter q).takeWhile p
  | [], h => h
  | a :: l, h => by
    cases hp : p a with
    | false => rw [List.takeWhile_cons, hp] at h; exact absurd h (by simp)
    | true =>
      rw [List.takeWhile_cons, hp] at h
      simp only [if_true] at h
      cases hqa : q a with
      | true =>
        rw [List.filter_cons_of_pos hqa, List.takeWhile_cons, hp]
        simp only [if_true]
        rcases List.mem_cons.mp h with rfl | h
        · exact List.mem_cons_self
        · exact List.mem_cons_of_mem _ (mem_takeWhile_filter p q x hq l h)
      | false =>
        rw [List.filter_cons_of_neg (by simp [hqa])]
        rcases List.mem_cons.mp h with rfl | h
        · rw [hq] at hqa; exact absurd hqa (by simp)
        · exact mem_takeWhile_filter p q x hq l h

/-- A lease with a claim's owner, extent and mode blocks what the claim would have stood before. -/
theorem Lease.blocks_of_claim {l w c : Lease} (ho : l.owner = w.owner) (hv : l.volume = w.volume) (hs : l.start = w.start)
    (hn : l.count = w.count) (hm : l.mode = w.mode) (hne : w.owner ≠ c.owner) (hov : w.overlaps c = true)
    (hcf : conflicting w.mode c.mode = true) : l.blocks c = true := by
  have : l.overlaps c = w.overlaps c := by unfold Lease.overlaps; rw [hv, hs, hn]
  unfold Lease.blocks
  rw [this, hov, hm, hcf, ho]
  simp [hne]

theorem Tables.Granted.keeps_stuck {t u : Tables} {e : Nat} {we : WaitEntry} {c : Lease} (g : t.Granted u e we c)
    (ht : t.Sound) (hu : u.Sound) (he : lookupKey e t.pool = some we) (hc : t.entryClaim we = some c) {d : Nat}
    (hd : t.stuck d) : u.stuck d := by
  intro wd cd h1 h2
  rw [g.pool] at h1
  by_cases hde : d = e
  · rw [if_pos hde] at h1; exact absurd h1 (by simp)
  rw [if_neg hde] at h1
  have hslot : wd.slot ≠ we.slot := fun x => hde (ht.waitLaw.2.2.1 d e wd we h1 he x)
  have hbody : u.body wd.slot = t.body wd.slot := g.others _ hslot
  have hcd : t.entryClaim wd = some cd := by
    rw [← h2]; unfold Tables.entryClaim; rw [hbody]
  have hng := hd wd cd h1 hcd
  obtain ⟨l', ten', hl', ho, hv, hs, hn, hm⟩ := g.slot
  -- a blocker found in `u` ends the proof
  have block : ∀ m l ten, u.body m = .held l ten → l.blocks cd = true → u.grantable d wd cd = false := by
    intro m l ten hb hk
    have := (hu.mem_conflicts cd m).mpr ⟨l, ten, hb, hk⟩
    unfold Tables.grantable
    cases hx : u.conflictSearch cd with
    | nil => rw [hx] at this; exact absurd this (by simp)
    | cons a as => rfl
  by_cases hconf : t.conflictSearch cd = []
  · cases hk : wd.kind with
    | upgrade =>
      unfold Tables.grantable at hng
      rw [hconf, hk] at hng; exact absurd hng (by simp)
    | acquire =>
      have hwc : t.waitersConflict ((t.waitList wd.volume).takeWhile (fun x => !(x == d))) cd = true := by
        unfold Tables.grantable at hng
        rw [hconf, hk] at hng; simpa using hng
      unfold Tables.waitersConflict at hwc
      obtain ⟨x, hx, hxc⟩ := List.any_eq_true.mp hwc
      cases hcx : t.claimOf x with
      | none => rw [hcx] at hxc; exact absurd hxc (by simp)
      | some w =>
        rw [hcx] at hxc
        simp only [Bool.and_eq_true] at hxc
        by_cases hxe : x = e
        · subst hxe
          rw [Tables.claimOf_eq he, hc] at hcx
          cases hcx
          refine block _ l' ten' hl' (Lease.blocks_of_claim ho hv hs hn hm ?_ hxc.1 hxc.2)
          intro hown
          have hcl : ∃ a, (t.body we.slot).lease? = some a ∧ a.owner = c.owner ∧ a.overlaps cd = c.overlaps cd := by
            rcases ht.entryClaim_spec he hc with ⟨_, _, hb, _⟩ | ⟨a, _, _, _, hb, _, hcl, _⟩
            · exact ⟨c, by rw [hb]; rfl, rfl, rfl⟩
            · exact ⟨a, by rw [hb]; rfl, by rw [hcl], by rw [hcl]; rfl⟩
          have hdl : ∃ b, (t.body wd.slot).lease? = some b ∧ b.owner = cd.owner ∧ ∀ a : Lease, a.overlaps b = a.overlaps cd := by
            rcases ht.entryClaim_spec h1 hcd with ⟨_, _, hb, _⟩ | ⟨b, _, _, _, hb, _, hcl, _⟩
            · exact ⟨cd, by rw [hb]; rfl, rfl, fun _ => rfl⟩
            · exact ⟨b, by rw [hb]; rfl, by rw [hcl], fun _ => by rw [hcl]; rfl⟩
          obtain ⟨a, ha, hao, hav⟩ := hcl
          obtain ⟨b, hb, hbo, hbv⟩ := hdl
          have := ht.lawTwo we.slot wd.slot a b (Ne.symm hslot) ha hb (hao.trans (hown.trans hbo.symm))
          rw [hbv, hav, hxc.1] at this
          exact absurd this (by simp)
        · have hx' : x ∈ (u.waitList wd.volume).takeWhile (fun y => !(y == d)) := by
            rw [g.waits]
            split
            · exact mem_takeWhile_filter _ _ x (by simp [hxe]) _ hx
            · exact hx
          have hclx : u.claimOf x = some w := by
            cases hlx : lookupKey x t.pool with
            | none => unfold Tables.claimOf at hcx; rw [hlx] at hcx; exact absurd hcx (by simp)
            | some wx =>
              have hlu : lookupKey x u.pool = some wx := by rw [g.pool, if_neg hxe]; exact hlx
              rw [Tables.claimOf_eq hlx] at hcx
              rw [Tables.claimOf_eq hlu, ← hcx]
              have : wx.slot ≠ we.slot := fun y => hxe (ht.waitLaw.2.2.1 x e wx we hlx he y)
              unfold Tables.entryClaim; rw [g.others _ this]
          have : u.waitersConflict ((u.waitList wd.volume).takeWhile (fun y => !(y == d))) cd = true := by
            unfold Tables.waitersConflict
            rw [List.any_eq_true]
            exact ⟨x, hx', by rw [hclx]; simp [hxc]⟩
          unfold Tables.grantable
          rw [hk]; simp only [this]; simp
  · obtain ⟨m, hmem⟩ := List.exists_mem_of_ne_nil _ hconf
    obtain ⟨l, ten, hb, hk⟩ := (ht.mem_conflicts cd m).mp hmem
    by_cases hms : m = we.slot
    · subst hms
      rcases ht.entryClaim_spec he hc with ⟨_, _, hb2, _⟩ | ⟨a, _, _, _, hb2, _, hcl, _⟩
      · rw [hb] at hb2; exact absurd hb2 (by simp)
      · rw [hb] at hb2; cases hb2
        unfold Lease.blocks at hk
        simp only [Bool.and_eq_true, decide_eq_true_eq] at hk
        refine block _ l' ten' hl' (Lease.blocks_of_claim ho hv hs hn hm ?_ ?_ ?_)
        · rw [hcl]; exact hk.1.1
        · rw [hcl]; exact hk.1.2
        · rw [hcl]; unfold conflicting; simp
    · exact block m l ten (by rw [g.others m hms]; exact hb) hk

/-- The state of a pass on volume `v` after some entries: what it has changed, and that those it has examined are not
grantable, unless it has ended on exhaustion. -/
structure PassState (r : Run) (v : VolumeId) (acc : Run × Bool) (done : List Nat) : Prop where
  toRun : r.To acc.1
  passes : r.tab.passes acc.1.tab (fun w => w = v)
  ended : acc.2 = true → (acc.1.tab.volume v).state = .frozen
  stuck : acc.2 = false → ∀ d ∈ done, acc.1.tab.stuck d

theorem PassState.step {r : Run} {v : VolumeId} {acc : Run × Bool} {done : List Nat} (h : r.tab.Sound)
    (p : PassState r v acc done) (e : Nat) (he : e ∈ r.tab.waitList v) : PassState r v (passExamine acc e) (done ++ [e]) := by
  have hs := p.toRun.moves.keeps h
  have hto := passExamine_to acc e hs
  have hto' := p.toRun.trans hto
  unfold passExamine at hto hto' ⊢
  cases hf : acc.2 with
  | true =>
    rw [hf] at hto'
    simp only [if_true] at hto' ⊢
    exact ⟨hto', p.passes, fun _ => p.ended hf, fun x => by rw [hf] at x; exact absurd x (by simp)⟩
  | false =>
    rw [hf] at hto'
    simp only [Bool.false_eq_true, if_false] at hto' ⊢
    have hkeep : (∀ we c, lookupKey e acc.1.tab.pool = some we → acc.1.tab.entryClaim we = some c →
        acc.1.tab.grantable e we c = false) → PassState r v acc (done ++ [e]) := by
      intro hx
      refine ⟨p.toRun, p.passes, p.ended, fun hfl d hd => ?_⟩
      rcases List.mem_append.mp hd with hd | hd
      · exact p.stuck hfl d hd
      · simp only [List.mem_singleton] at hd; subst hd; exact hx
    cases hl : lookupKey e acc.1.tab.pool with
    | none => exact hkeep (fun we c hw => by rw [hl] at hw; exact absurd hw (by simp))
    | some we =>
      rw [hl] at hto'
      simp only at hto' ⊢
      have hev : we.volume = v := by
        obtain ⟨we', h1, h2⟩ := h.entry_of_list he
        have := p.passes.pool e we hl
        rw [h1] at this; cases this; exact h2
      have hmem : e ∈ acc.1.tab.waitList v := ((hs.waitLaw.2.2.2.2 v).2 e).mpr ⟨we, hl, hev⟩
      have hne : acc.1.tab.waitList v ≠ [] := List.ne_nil_of_mem hmem
      cases hc : acc.1.tab.entryClaim we with
      | none => exact hkeep (fun we' c hw hc' => by rw [hl] at hw; cases hw; rw [hc] at hc'; exact absurd hc' (by simp))
      | some c =>
        rw [hc] at hto'
        simp only at hto' ⊢
        cases hg : acc.1.tab.grantable e we c with
        | false =>
          simp only [Bool.false_eq_true, if_false]
          exact hkeep (fun we' c' hw hc' => by rw [hl] at hw; cases hw; rw [hc] at hc'; cases hc'; exact hg)
        | true =>
          rw [hg] at hto'
          simp only [if_true] at hto' ⊢
          cases hx : acc.1.tab.exhaustedFor c.mode we.volume with
          | true =>
            rw [hx] at hto'
            simp only [if_true] at hto' ⊢
            refine ⟨hto', p.passes.trans ?_, fun _ => ?_, fun x => absurd x (by simp)⟩
            · rw [hev]; exact Run.exhaust_passes _ _ hne
            · show ((upd acc.1.tab.volumes we.volume _)[v]).state = _
              rw [hev, upd_get, if_pos rfl]
          | false =>
            rw [hx] at hto'
            simp only [Bool.false_eq_true, if_false] at hto' ⊢
            obtain ⟨g, gp⟩ := Run.grantEntry_granted acc.1 e we c hs hl hc
            have hu := hto'.moves.keeps h
            refine ⟨hto', p.passes.trans (by rw [hev] at gp; exact gp), fun x => absurd x (by simp), fun _ d hd => ?_⟩
            rcases List.mem_append.mp hd with hd | hd
            · exact g.keeps_stuck hs hu hl hc (p.stuck hf d hd)
            · simp only [List.mem_singleton] at hd; subst hd
              intro we' c' hw
              rw [g.pool, if_pos rfl] at hw; exact absurd hw (by simp)

theorem PassState.fold {r : Run} {v : VolumeId} (h : r.tab.Sound) : ∀ (l : List Nat) (acc : Run × Bool) (done : List Nat),
    PassState r v acc done → (∀ e ∈ l, e ∈ r.tab.waitList v) → PassState r v (l.foldl passExamine acc) (done ++ l)
  | [], acc, done, p, _ => by simpa using p
  | e :: l, acc, done, p, hl => by
    have := PassState.fold h l (passExamine acc e) (done ++ [e]) (p.step h e (hl e (by simp))) (fun x hx => hl x (by simp [hx]))
    simpa using this

/-! ### What depends only on a volume's own slots -/

/-- Two tables that agree on what a volume's entries and leases claim. Recall marks, tenures and other volumes may
differ. -/
structure Tables.agree (t u : Tables) (v : VolumeId) : Prop where
  claims : ∀ m l ten, t.body m = .held l ten → l.volume = v → ∃ ten', u.body m = .held l ten'
  pending : ∀ m l d, t.body m = .pending l d → l.volume = v → u.body m = .pending l d
  index : u.indexOf v = t.indexOf v
  waits : u.waitList v = t.waitList v
  entries : ∀ e, e ∈ t.waitList v → lookupKey e u.pool = lookupKey e t.pool

theorem Tables.kept.agree {t u : Tables} {v : VolumeId} (k : t.kept u v) : t.agree u v :=
  ⟨fun m l ten hb hv => ⟨ten, by rw [k.body (by rw [hb]; rfl) hv]; exact hb⟩,
    fun m l d hb hv => by rw [k.body (by rw [hb]; rfl) hv]; exact hb, k.index, k.waits, k.entries⟩

theorem Tables.agree.trans {t u x : Tables} {v : VolumeId} (a : t.agree u v) (b : u.agree x v) : t.agree x v := by
  refine ⟨?_, fun m l d hb hv => b.pending m l d (a.pending m l d hb hv) hv, b.index.trans a.index, b.waits.trans a.waits, ?_⟩
  · intro m l ten hb hv
    obtain ⟨ten', h1⟩ := a.claims m l ten hb hv
    exact b.claims m l ten' h1 hv
  · intro e he
    rw [b.entries e (by rw [a.waits]; exact he), a.entries e he]

theorem Tables.agree.claimOf {t u : Tables} {v : VolumeId} (k : t.agree u v) (h : t.Sound) {e : Nat}
    (he : e ∈ t.waitList v) : u.claimOf e = t.claimOf e := by
  obtain ⟨we, hl, hv⟩ := h.entry_of_list he
  rw [Tables.claimOf_eq hl, Tables.claimOf_eq ((k.entries e he).trans hl)]
  unfold Tables.entryClaim
  cases hb : t.body we.slot with
  | free =>
    have hf := (h.waitLaw.2.1 e we hl).2
    unfold Tables.entryFits at hf
    cases hk : we.kind <;> rw [hk, hb] at hf
    · obtain ⟨_, _, hx, _⟩ := hf; exact absurd hx (by simp)
    · obtain ⟨_, _, _, hx, _⟩ := hf; exact absurd hx (by simp)
  | pending l d => rw [k.pending _ l d hb ((h.entry_pending hl hb).2.symm.trans hv)]
  | held l ten =>
    obtain ⟨ten', hb'⟩ := k.claims _ l ten hb ((h.entry_held hl hb).2.1.symm.trans hv)
    rw [hb']
    cases we.kind <;> rfl

theorem Tables.agree.conflicts {t u : Tables} {v : VolumeId} (k : t.agree u v) (h : t.Sound) (c : Lease)
    (hc : c.volume = v) : u.conflictSearch c = t.conflictSearch c := by
  unfold Tables.conflictSearch Tables.searchHeld
  rw [hc, k.index]
  refine List.filter_congr ?_
  intro m hm
  obtain ⟨l, ten, hb, hv⟩ := ((h.indexLaw v).2 m).mp hm
  obtain ⟨ten', hb'⟩ := k.claims m l ten hb hv
  rw [hb, hb']

theorem Tables.Sound.claim_volume {t : Tables} (h : t.Sound) {v : VolumeId} {e : Nat} (he : e ∈ t.waitList v) {c : Lease}
    (hc : t.claimOf e = some c) : c.volume = v := by
  obtain ⟨we, hl, hv⟩ := h.entry_of_list he
  rw [Tables.claimOf_eq hl] at hc
  rcases h.entryClaim_spec hl hc with ⟨_, _, _, hw⟩ | ⟨_, _, _, _, _, _, _, hw⟩ <;> exact hw.symm.trans hv

theorem Tables.agree.blockers {t u : Tables} {v : VolumeId} (k : t.agree u v) (h : t.Sound) {e : Nat}
    (he : e ∈ t.waitList v) : u.blockersOf e = t.blockersOf e := by
  unfold Tables.blockersOf
  rw [k.claimOf h he]
  cases hc : t.claimOf e with
  | none => rfl
  | some c => exact k.conflicts h c (h.claim_volume he hc)

theorem Tables.agree.stuck {t u : Tables} {v : VolumeId} (k : t.agree u v) (h : t.Sound) {e : Nat}
    (he : e ∈ t.waitList v) (hs : t.stuck e) : u.stuck e := by
  intro we c h1 h2
  have hl : lookupKey e t.pool = some we := (k.entries e he).symm.trans h1
  obtain ⟨we', hl', hv⟩ := h.entry_of_list he
  rw [hl] at hl'; cases hl'
  have hc : t.entryClaim we = some c := by
    rw [← Tables.claimOf_eq hl, ← k.claimOf h he, Tables.claimOf_eq h1]; exact h2
  have := hs we c hl hc
  unfold Tables.grantable at this ⊢
  rw [k.conflicts h c (h.claim_volume he (by rw [Tables.claimOf_eq hl]; exact hc)), hv, k.waits]
  rw [hv] at this
  have hw : u.waitersConflict ((t.waitList v).takeWhile (fun d => !(d == e))) c =
      t.waitersConflict ((t.waitList v).takeWhile (fun d => !(d == e))) c := by
    unfold Tables.waitersConflict
    have : ∀ l : List Nat, (∀ d ∈ l, d ∈ t.waitList v) → (l.any fun e => match u.claimOf e with
        | some w => w.overlaps c && conflicting w.mode c.mode
        | none => false) = (l.any fun e => match t.claimOf e with
        | some w => w.overlaps c && conflicting w.mode c.mode
        | none => false) := by
      intro l
      induction l with
      | nil => intro _; rfl
      | cons a l ih =>
        intro hl
        rw [List.any_cons, List.any_cons, ih (fun d hd => hl d (by simp [hd])), k.claimOf h (hl a (by simp))]
    exact this _ (fun d hd => List.takeWhile_subset _ hd)
  rw [hw]; exact this

theorem Tables.kept.woken {t u : Tables} {v : VolumeId} (k : t.kept u v) (h : t.Sound) (hw : t.woken v) : u.woken v := by
  intro e he
  rw [k.waits] at he
  obtain ⟨h1, h2⟩ := hw e he
  refine ⟨k.agree.stuck h he h1, fun m hm => ?_⟩
  rw [k.agree.blockers h he] at hm
  obtain ⟨l, ten, hb, hr⟩ := h2 m hm
  obtain ⟨we, c, l', ten', hl, _, hb', _, hv⟩ := h.blocker_spec hm
  rw [hb] at hb'; cases hb'
  obtain ⟨we', hl', hv'⟩ := h.entry_of_list he
  rw [hl] at hl'; cases hl'
  exact ⟨l, ten, by rw [k.body (by rw [hb]; rfl) (hv.trans hv')]; exact hb, hr⟩

/-! ### The recall after a pass -/

theorem Run.Recalled.agree {r u : Run} {ns : List Nat} (h : r.Recalled u ns) (v : VolumeId) : r.tab.agree u.tab v := by
  refine ⟨?_, ?_, ?_, ?_, ?_⟩
  · intro m l ten hb _
    exact ⟨_, by rw [h.body, hb]⟩
  · intro m l d hb _; rw [h.body, hb]
  · rw [h.rest]; rfl
  · rw [h.rest]; rfl
  · intro e _; rw [h.rest]

theorem Run.applyRecall_recalled (r : Run) (e : Nat) (h : r.tab.Sound) : r.Recalled (r.applyRecall e) (r.tab.blockersOf e) := by
  unfold Run.applyRecall
  refine Run.recall_fold _ r ?_
  unfold Tables.blockersOf
  split
  · exact h.conflicts_nodup _
  · exact List.nodup_nil

/-- What recall for a list of a volume's entries leaves. -/
structure RecallState (r : Run) (v : VolumeId) (u : Run) (done : List Nat) : Prop where
  toRun : r.To u
  passes : r.tab.passes u.tab (fun w => w = v)
  agree : r.tab.agree u.tab v
  volume : u.tab.volume v = r.tab.volume v
  marked : ∀ e ∈ done, ∀ m ∈ r.tab.blockersOf e, ∃ l ten, u.tab.body m = .held l ten ∧ ten.recallMark ≠ none

theorem RecallState.fold {r : Run} {v : VolumeId} (h : r.tab.Sound) : ∀ (l : List Nat) (u : Run) (done : List Nat),
    RecallState r v u done → (∀ e ∈ l, e ∈ r.tab.waitList v) →
    RecallState r v (l.foldl Run.applyRecall u) (done ++ l)
  | [], u, done, p, _ => by simpa using p
  | e :: l, u, done, p, hl => by
    have he := hl e (by simp)
    have hu := p.toRun.moves.keeps h
    have hrec := u.applyRecall_recalled e hu
    have hstep : RecallState r v (u.applyRecall e) (done ++ [e]) := by
      refine ⟨p.toRun.trans (Run.applyRecall_to u e hu), p.passes.trans (Run.applyRecall_passes u e v hu ?_),
        p.agree.trans (hrec.agree v), ?_, ?_⟩
      · intro we hw
        obtain ⟨we', h1, h2⟩ := h.entry_of_list he
        rw [p.agree.entries e he, h1] at hw; cases hw; exact h2
      · rw [hrec.rest]; exact p.volume
      · intro d hd m hm
        have keep : (∃ l ten, u.tab.body m = .held l ten ∧ ten.recallMark ≠ none) →
            ∃ l ten, (u.applyRecall e).tab.body m = .held l ten ∧ ten.recallMark ≠ none := by
          rintro ⟨l, ten, hb, hr⟩
          refine ⟨l, _, by rw [hrec.body, hb], ?_⟩
          split
          · unfold Run.marked; rw [if_neg hr]; exact hr
          · exact hr
        rcases List.mem_append.mp hd with hd | hd
        · exact keep (p.marked d hd m hm)
        · simp only [List.mem_singleton] at hd; subst hd
          rw [← p.agree.blockers h he] at hm
          obtain ⟨_, _, l, ten, _, _, hb, _⟩ := hu.blocker_spec hm
          refine ⟨l, _, by rw [hrec.body, hb], ?_⟩
          rw [if_pos hm]
          unfold Run.marked
          split
          · simp
          · assumption
    have := RecallState.fold h l (u.applyRecall e) (done ++ [e]) hstep (fun x hx => hl x (by simp [hx]))
    simpa using this

/-! ### Wake passes -/

theorem Tables.mem_passOrder {t : Tables} {v : VolumeId} {e : Nat} (h : e ∈ t.passOrder v) : e ∈ t.waitList v := by
  unfold Tables.passOrder at h
  rcases List.mem_append.mp h with h | h <;> exact (List.mem_filter.mp h).1

theorem Tables.Sound.passOrder_all {t : Tables} (h : t.Sound) {v : VolumeId} {e : Nat} (he : e ∈ t.waitList v) :
    e ∈ t.passOrder v := by
  obtain ⟨we, hl, _⟩ := h.entry_of_list he
  unfold Tables.passOrder
  rw [List.mem_append]
  cases hk : we.kind with
  | acquire => exact .inr (List.mem_filter.mpr ⟨he, by unfold Tables.entryIs; rw [hl]; simp [hk]⟩)
  | upgrade => exact .inl (List.mem_filter.mpr ⟨he, by unfold Tables.entryIs; rw [hl]; simp [hk]⟩)

/-- A wake pass does only what passes may do, and a volume that is ONLINE after it is woken (R46, R47). -/
theorem Run.wakePass_spec (r : Run) (v : VolumeId) (h : r.tab.Sound) :
    r.tab.passes (r.wakePass v).tab (fun w => w = v) ∧
      (((r.wakePass v).tab.volume v).state = .online → (r.wakePass v).tab.woken v) := by
  have p := PassState.fold h (r.tab.passOrder v) (r, false) []
    ⟨.refl r, .refl _ _, fun x => absurd x (by simp), fun _ d hd => absurd hd (by simp)⟩
    (fun e he => Tables.mem_passOrder he)
  rw [List.nil_append] at p
  unfold Run.wakePass
  simp only
  generalize (r.tab.passOrder v).foldl passExamine (r, false) = acc at p ⊢
  have hs := p.toRun.moves.keeps h
  cases hf : acc.2 with
  | true =>
    simp only [if_true]
    exact ⟨p.passes, fun hx => by rw [p.ended hf] at hx; exact absurd hx (by simp)⟩
  | false =>
    simp only [Bool.false_eq_true, if_false]
    have q := RecallState.fold hs (acc.1.tab.passOrder v) acc.1 []
      ⟨.refl _, .refl _ _, ⟨fun m l ten hb _ => ⟨ten, hb⟩, fun _ _ _ hb _ => hb, rfl, rfl, fun _ _ => rfl⟩, rfl,
        fun e he => absurd he (by simp)⟩ (fun e he => Tables.mem_passOrder he)
    rw [List.nil_append] at q
    refine ⟨p.passes.trans q.passes, fun _ e he => ?_⟩
    rw [q.agree.waits] at he
    refine ⟨q.agree.stuck hs he (p.stuck hf e ?_), fun m hm => ?_⟩
    · obtain ⟨we, hl, hv⟩ := hs.entry_of_list he
      exact h.passOrder_all (((h.waitLaw.2.2.2.2 v).2 e).mpr ⟨we, p.passes.pool e we hl, hv⟩)
    · rw [q.agree.blockers hs he] at hm
      exact q.marked e (hs.passOrder_all he) m hm

/-- What the due passes of a step may do, and what they leave (R45). -/
theorem Run.runPasses_frame (r : Run) (h : r.tab.Sound) :
    r.tab.passes r.runPasses.tab (fun w => w ∈ r.due ∧ (r.tab.volume w).state = .online) ∧
      ∀ v, v ∈ r.due → (r.runPasses.tab.volume v).state = .online → r.runPasses.tab.woken v := by
  have key : ∀ (l : List VolumeId) (a : Run) (done : List VolumeId), r.To a →
      r.tab.passes a.tab (fun w => w ∈ r.due ∧ (r.tab.volume w).state = .online) →
      (∀ w, w ∉ done → a.tab.volume w = r.tab.volume w) →
      (∀ w ∈ done, w ∈ r.due → (a.tab.volume w).state = .online → a.tab.woken w) →
      l.Nodup → (∀ w ∈ l, w ∉ done) →
      let z := l.foldl (fun acc v => if r.due.contains v && decide ((acc.tab.volume v).state = .online) then acc.wakePass v
        else acc) a
      r.tab.passes z.tab (fun w => w ∈ r.due ∧ (r.tab.volume w).state = .online) ∧
        ∀ w, w ∈ done ∨ w ∈ l → w ∈ r.due → (z.tab.volume w).state = .online → z.tab.woken w := by
    intro l
    induction l with
    | nil => intro a done _ h2 _ h4 _ _; exact ⟨h2, fun w hw => h4 w (by simpa using hw)⟩
    | cons v l ih =>
      intro a done h1 h2 h3 h4 h5 h6
      have ha := h1.moves.keeps h
      obtain ⟨hvl, hnd⟩ := List.nodup_cons.mp h5
      have hvd : v ∉ done := h6 v (by simp)
      rw [List.foldl_cons]
      have next : ∀ b : Run, r.To b → a.tab.passes b.tab (fun w => w = v ∧ v ∈ r.due ∧ (a.tab.volume v).state = .online) →
          (v ∈ r.due → (b.tab.volume v).state = .online → b.tab.woken v) →
          r.tab.passes b.tab (fun w => w ∈ r.due ∧ (r.tab.volume w).state = .online) ∧
          (∀ w, w ∉ done ++ [v] → b.tab.volume w = r.tab.volume w) ∧
          (∀ w ∈ done ++ [v], w ∈ r.due → (b.tab.volume w).state = .online → b.tab.woken w) := by
        intro b hb hp hw
        refine ⟨h2.trans (hp.mono ?_), ?_, ?_⟩
        · rintro w ⟨rfl, hd, ho⟩; rw [← h3 w hvd]; exact ⟨hd, ho⟩
        · intro w hwd
          simp only [List.mem_append, List.mem_singleton, not_or] at hwd
          rw [(hp.kept w (.inl (fun x => hwd.2 x.1))).volume, h3 w hwd.1]
        · intro w hwd hdue hon
          by_cases hwv : w = v
          · subst hwv; exact hw hdue hon
          · have hk := hp.kept w (.inl (fun x => hwv x.1))
            have hd : w ∈ done := by simpa [hwv] using hwd
            exact hk.woken ha (h4 w hd hdue (by rw [← hk.volume]; exact hon))
      have goal : ∀ b : Run, r.To b → a.tab.passes b.tab (fun w => w = v ∧ v ∈ r.due ∧ (a.tab.volume v).state = .online) →
          (v ∈ r.due → (b.tab.volume v).state = .online → b.tab.woken v) → _ := fun b hb hp hw => by
        obtain ⟨n1, n2, n3⟩ := next b hb hp hw
        exact ih b (done ++ [v]) hb n1 n2 n3 hnd (fun w hw => by
          simp only [List.mem_append, List.mem_singleton, not_or]
          exact ⟨h6 w (by simp [hw]), fun x => hvl (x ▸ hw)⟩)
      have fin : ∀ z : Run, (r.tab.passes z.tab (fun w => w ∈ r.due ∧ (r.tab.volume w).state = .online) ∧
          ∀ w, w ∈ done ++ [v] ∨ w ∈ l → w ∈ r.due → (z.tab.volume w).state = .online → z.tab.woken w) →
          r.tab.passes z.tab (fun w => w ∈ r.due ∧ (r.tab.volume w).state = .online) ∧
          ∀ w, w ∈ done ∨ w ∈ v :: l → w ∈ r.due → (z.tab.volume w).state = .online → z.tab.woken w := by
        rintro z ⟨z1, z2⟩
        refine ⟨z1, fun w hw => z2 w ?_⟩
        simp only [List.mem_append, List.mem_cons] at hw ⊢
        rcases hw with h | h | h
        · exact .inl (.inl h)
        · exact .inl (.inr (.inl h))
        · exact .inr h
      by_cases hc : (r.due.contains v && decide ((a.tab.volume v).state = .online)) = true
      · rw [if_pos hc]
        simp only [Bool.and_eq_true, List.contains_iff_mem, decide_eq_true_eq] at hc
        obtain ⟨w1, w2⟩ := a.wakePass_spec v ha
        exact fin _ (goal (a.wakePass v) (h1.trans (Run.wakePass_to a v ha)) (w1.mono (fun w hw => ⟨hw, hc⟩)) (fun _ => w2))
      · rw [if_neg hc]
        refine fin _ (goal a h1 (.refl _ _) ?_)
        intro hd ho
        exact absurd (by simp [hd, ho]) hc
  obtain ⟨k1, k2⟩ := key (List.finRange 32) r [] (.refl r) (.refl _ _) (fun _ _ => rfl) (fun w hw => absurd hw (by simp))
    (List.nodup_finRange 32) (fun _ _ => by simp)
  exact ⟨k1, fun v hv ho => k2 v (.inr (List.mem_finRange v)) hv ho⟩

/-! ### Results -/

/-- Results are only added, and the due volumes stay. -/
structure Run.Adds (r u : Run) : Prop where
  cache : ∃ cs, u.cache = r.cache ++ cs
  notices : ∃ ns, u.notices = r.notices ++ ns
  alerts : ∃ as, u.alerts = r.alerts ++ as

theorem Run.Adds.refl (r : Run) : r.Adds r := ⟨⟨[], by simp⟩, ⟨[], by simp⟩, ⟨[], by simp⟩⟩

theorem Run.Adds.trans {a b c : Run} (h : a.Adds b) (k : b.Adds c) : a.Adds c := by
  obtain ⟨⟨x1, h1⟩, ⟨x2, h2⟩, ⟨x3, h3⟩⟩ := h
  obtain ⟨⟨y1, k1⟩, ⟨y2, k2⟩, ⟨y3, k3⟩⟩ := k
  exact ⟨⟨x1 ++ y1, by rw [k1, h1, List.append_assoc]⟩, ⟨x2 ++ y2, by rw [k2, h2, List.append_assoc]⟩,
    ⟨x3 ++ y3, by rw [k3, h3, List.append_assoc]⟩⟩

theorem Run.Adds.fold {α : Type} (f : Run → α → Run) (hf : ∀ (r : Run) (a : α), r.Adds (f r a)) :
    ∀ (l : List α) (r : Run), r.Adds (l.foldl f r)
  | [], r => .refl r
  | a :: l, r => (hf r a).trans (Run.Adds.fold f hf l (f r a))

theorem Run.markRecalled_adds (r : Run) (n : Nat) : r.Adds (r.markRecalled n) := by
  unfold Run.markRecalled
  split
  · split
    · exact .refl r
    · exact ⟨⟨[], by simp [Run.notify, Run.withTab]⟩, ⟨[_], rfl⟩, ⟨[], by simp [Run.notify, Run.withTab]⟩⟩
  · exact .refl r
  · exact .refl r

theorem Run.grantEntry_adds (r : Run) (e : Nat) (we : WaitEntry) : r.Adds (r.grantEntry e we) := by
  unfold Run.grantEntry
  simp only
  split
  · exact ⟨⟨[_], rfl⟩, ⟨[_], rfl⟩, ⟨[], by simp [Run.notify, Run.withTab, Run.conclude]⟩⟩
  · split
    · exact ⟨⟨[_], rfl⟩, ⟨[_], rfl⟩, ⟨[], by simp [Run.notify, Run.withTab, Run.conclude]⟩⟩
    · exact .refl r
  · exact .refl r

theorem passExamine_adds (acc : Run × Bool) (e : Nat) : acc.1.Adds (passExamine acc e).1 := by
  unfold passExamine
  split
  · exact .refl _
  · split
    · exact .refl _
    · split
      · exact .refl _
      · split
        · split
          · exact ⟨⟨[], by simp [Run.exhaust, Run.withTab, Run.alarm]⟩, ⟨[], by simp [Run.exhaust, Run.withTab, Run.alarm]⟩, ⟨[_], rfl⟩⟩
          · exact Run.grantEntry_adds _ _ _
        · exact .refl _

theorem passExamine_fold_adds : ∀ (l : List Nat) (acc : Run × Bool), acc.1.Adds (l.foldl passExamine acc).1
  | [], acc => .refl acc.1
  | e :: l, acc => (passExamine_adds acc e).trans (passExamine_fold_adds l (passExamine acc e))

theorem Run.wakePass_adds (r : Run) (v : VolumeId) : r.Adds (r.wakePass v) := by
  unfold Run.wakePass
  simp only
  have h := passExamine_fold_adds (r.tab.passOrder v) (r, false)
  split
  · exact h
  · refine h.trans (Run.Adds.fold Run.applyRecall (fun r e => ?_) _ _)
    exact Run.Adds.fold Run.markRecalled Run.markRecalled_adds _ _

theorem Run.runPasses_adds (r : Run) : r.Adds r.runPasses := by
  unfold Run.runPasses
  refine Run.Adds.fold _ (fun a v => ?_) _ _
  split
  · exact Run.wakePass_adds a v
  · exact .refl a

end Sys2Proof.Machine
end

