-- ==== Sys2Proof/Laws/Ends.lean ====
section
/-! SUPPORT. Ends of waits and retirements, one and many: what they do to the tables and the results they produce, in
order (R50, R53, R55, R59, R60). -/

namespace Sys2Proof.Machine

/-! ### One wait (R50) -/

theorem Tables.waitsEnded.refl (t : Tables) : t.waitsEnded t (fun _ => False) :=
  ⟨fun _ _ _ _ _ h => h.elim, fun _ _ _ _ _ h => h.elim, fun _ _ => rfl, fun _ _ => by simp,
    fun _ => ⟨List.Sublist.refl _, fun _ => by simp⟩, rfl, rfl, rfl⟩

/-- What the end of one wait does to the tables, and the results it produces. -/
theorem Run.endWait_spec (r : Run) (reason : WaitReason) (e : Nat) (we : WaitEntry) (h : r.tab.Sound)
    (he : lookupKey e r.tab.pool = some we) :
    r.tab.waitsEnded (r.endWait reason e).tab (fun d => d = e) ∧
      (r.endWait reason e).cache = r.cache ++ r.tab.endAnswers reason [e] ∧
      (r.endWait reason e).notices = r.notices ++ r.tab.endNotices reason [e] ∧
      (r.endWait reason e).alerts = r.alerts ∧
      (∀ v, v ∈ (r.endWait reason e).due ↔ v ∈ r.due ∨ v = we.volume) := by
  have hdue : ∀ (x : Run), x.due = r.due → ∀ v, v ∈ (x.passDue we.volume).due ↔ v ∈ r.due ∨ v = we.volume := by
    intro x hx v
    unfold Run.passDue
    by_cases hc : x.due.contains we.volume = true
    · rw [if_pos hc, hx]
      rw [hx, List.contains_iff_mem] at hc
      constructor
      · exact .inl
      · rintro (h | rfl)
        · exact h
        · exact hc
    · rw [if_neg hc]
      show v ∈ x.due ++ [we.volume] ↔ _
      rw [hx]; simp
  have hres : ∀ (x : Run), (x.passDue we.volume).cache = x.cache ∧ (x.passDue we.volume).notices = x.notices ∧
      (x.passDue we.volume).alerts = x.alerts := by
    intro x; unfold Run.passDue; split <;> exact ⟨rfl, rfl, rfl⟩
  -- the tables, whatever the slot's new content
  have main : ∀ (u : Tables) (x : Slot), (∀ m, u.slots.get m = if m = we.slot then x else r.tab.slots.get m) →
      (∀ l d, r.tab.body we.slot = .pending l d → x = { gen := (r.tab.slots.get we.slot).gen + 1, body := .free }) →
      (∀ l ten, r.tab.body we.slot = .held l ten →
        x = { gen := (r.tab.slots.get we.slot).gen, body := .held l { ten with upgrade := none } }) →
      u.pool = eraseKey e r.tab.pool → (∀ w, u.waitList w = (r.tab.removeEntry e we.volume).waitList w) →
      u.index = r.tab.index → u.volumes = r.tab.volumes → u.arrival = r.tab.arrival →
      r.tab.waitsEnded u (fun d => d = e) := by
    intro u x hs hp hh hpool hwl hi hv ha
    refine ⟨?_, ?_, ?_, ?_, ?_, hi, hv, ha⟩
    · rintro d wd l dd hd rfl hb
      rw [he] at hd; cases hd
      rw [hs, if_pos rfl]; exact hp l dd hb
    · rintro d wd l ten hd rfl hb
      rw [he] at hd; cases hd
      rw [hs, if_pos rfl]; exact hh l ten hb
    · intro m hm
      rw [hs, if_neg (fun x => hm e we he rfl x.symm)]
    · intro d wd
      rw [hpool, lookupKey_erase]
      by_cases hd : d = e
      · rw [if_pos hd]; simp [hd]
      · rw [if_neg hd]; simp [hd]
    · intro v
      rw [hwl, Tables.waitList_removeEntry]
      by_cases hw : we.volume = v
      · subst hw; rw [if_pos rfl]
        exact ⟨List.filter_sublist, fun d => by simp⟩
      · rw [if_neg hw]
        refine ⟨List.Sublist.refl _, fun d => ⟨fun hd => ⟨hd, ?_⟩, fun x => x.1⟩⟩
        rintro rfl
        obtain ⟨w', a, b⟩ := ((h.waitLaw.2.2.2.2 v).2 d).mp hd
        rw [he] at a; cases a; exact hw b
  unfold Run.endWait Tables.endAnswers Tables.endNotices Tables.waiter
  rw [List.filterMap_cons, List.filterMap_cons, he]
  simp only [List.filterMap_nil]
  cases hb : r.tab.body we.slot with
  | free =>
    have hf := (h.waitLaw.2.1 e we he).2
    unfold Tables.entryFits at hf
    cases hk : we.kind <;> rw [hk, hb] at hf
    · obtain ⟨_, _, hx, _⟩ := hf; exact absurd hx (by simp)
    · obtain ⟨_, _, _, hx, _⟩ := hf; exact absurd hx (by simp)
  | pending l d =>
    have hk := (h.entry_pending he hb).1
    rw [hk]
    simp only [Option.map_some]
    obtain ⟨h1, h2, h3⟩ := hres (((r.withTab ((r.tab.removeEntry e we.volume).freeSlot we.slot l.owner)).notify l.owner
      (.waitEnded l.originTag reason)).conclude l.owner
      { tag := l.originTag, kind := .acquire, status := .cancelled, result := .waitEnd reason })
    refine ⟨?_, h1, h2, h3, hdue _ rfl⟩
    rw [Run.tab_passDue]
    refine main _ { gen := (r.tab.slots.get we.slot).gen + 1, body := .free } ?_ (fun _ _ _ => rfl) ?_ rfl (fun _ => rfl) rfl rfl rfl
    · intro m; exact SlotTable.get_set _ _ _ _
    · intro l' ten' hx; rw [hb] at hx; exact absurd hx (by simp)
  | held l ten =>
    obtain ⟨hk, _, u, hu⟩ := h.entry_held he hb
    rw [hk]
    simp only [hu, Option.map_some]
    obtain ⟨h1, h2, h3⟩ := hres (((r.withTab ((r.tab.removeEntry e we.volume).setBody we.slot
      (.held l { ten with upgrade := none }))).notify l.owner (.waitEnded u.tag reason)).conclude l.owner
      { tag := u.tag, kind := .convert, status := .cancelled, result := .waitEnd reason })
    refine ⟨?_, h1, h2, h3, hdue _ rfl⟩
    rw [Run.tab_passDue]
    refine main _ { gen := (r.tab.slots.get we.slot).gen, body := .held l { ten with upgrade := none } } ?_ ?_ ?_ rfl (fun _ => rfl) rfl rfl rfl
    · intro m; exact SlotTable.get_set _ _ _ _
    · intro l' ten' hx; rw [hb] at hx; exact absurd hx (by simp)
    · intro l' ten' hx; rw [hb] at hx; cases hx; rfl

theorem Tables.waitsEnded.congr {t u : Tables} {g g' : Nat → Prop} (h : t.waitsEnded u g)
    (hg : ∀ e we, lookupKey e t.pool = some we → (g e ↔ g' e)) (ht : t.Sound) : t.waitsEnded u g' := by
  refine ⟨?_, ?_, ?_, ?_, ?_, h.index, h.volumes, h.arrival⟩
  · intro e we l d he hge; exact h.pending e we l d he ((hg e we he).mpr hge)
  · intro e we l d he hge; exact h.held e we l d he ((hg e we he).mpr hge)
  · intro m hm; exact h.others m (fun e we he hge => hm e we he ((hg e we he).mp hge))
  · intro e we; rw [h.pool]
    constructor
    · rintro ⟨a, b⟩; exact ⟨a, fun x => b ((hg e we a).mpr x)⟩
    · rintro ⟨a, b⟩; exact ⟨a, fun x => b ((hg e we a).mp x)⟩
  · intro v
    refine ⟨(h.lists v).1, fun e => ?_⟩
    rw [(h.lists v).2]
    constructor
    · rintro ⟨a, b⟩
      obtain ⟨we, he, _⟩ := ht.entry_of_list a
      exact ⟨a, fun x => b ((hg e we he).mpr x)⟩
    · rintro ⟨a, b⟩
      obtain ⟨we, he, _⟩ := ht.entry_of_list a
      exact ⟨a, fun x => b ((hg e we he).mp x)⟩

/-- An entry that is still in use has its slot as it was. -/
theorem Tables.waitsEnded.slot_same {t u : Tables} {g : Nat → Prop} (h : t.waitsEnded u g) (ht : t.Sound) {e : Nat}
    {we : WaitEntry} (he : lookupKey e u.pool = some we) : u.slots.get we.slot = t.slots.get we.slot := by
  obtain ⟨h1, h2⟩ := (h.pool e we).mp he
  refine h.others _ (fun d wd hd hg hs => h2 ?_)
  have := ht.waitLaw.2.2.1 d e wd we hd h1 hs
  rwa [← this]

theorem Tables.waitsEnded.trans {t u x : Tables} {g1 g2 : Nat → Prop} (a : t.waitsEnded u g1) (b : u.waitsEnded x g2)
    (ht : t.Sound) : t.waitsEnded x (fun e => g1 e ∨ g2 e) := by
  have hsame : ∀ e we, lookupKey e u.pool = some we → u.body we.slot = t.body we.slot := by
    intro e we he; unfold Tables.body; rw [a.slot_same ht he]
  -- a slot that the first part changed has no entry any more
  have hgone : ∀ e we, lookupKey e t.pool = some we → g1 e → x.slots.get we.slot = u.slots.get we.slot := by
    intro e we he hg
    refine b.others _ (fun d wd hd _ hs => ?_)
    obtain ⟨h1, h2⟩ := (a.pool d wd).mp hd
    have := ht.waitLaw.2.2.1 e d we wd he h1 hs.symm
    rw [← this] at h2; exact h2 hg
  refine ⟨?_, ?_, ?_, ?_, ?_, b.index.trans a.index, b.volumes.trans a.volumes, b.arrival.trans a.arrival⟩
  · intro e we l d he hg hb
    by_cases h1 : g1 e
    · rw [hgone e we he h1]; exact a.pending e we l d he h1 hb
    · have hu := (a.pool e we).mpr ⟨he, h1⟩
      rw [b.pending e we l d hu (hg.resolve_left h1) (by rw [hsame e we hu]; exact hb), a.slot_same ht hu]
  · intro e we l d he hg hb
    by_cases h1 : g1 e
    · rw [hgone e we he h1]; exact a.held e we l d he h1 hb
    · have hu := (a.pool e we).mpr ⟨he, h1⟩
      rw [b.held e we l d hu (hg.resolve_left h1) (by rw [hsame e we hu]; exact hb), a.slot_same ht hu]
  · intro m hm
    rw [b.others m (fun e we he hg => hm e we ((a.pool e we).mp he).1 (.inr hg)),
      a.others m (fun e we he hg => hm e we he (.inl hg))]
  · intro e we
    rw [b.pool, a.pool, not_or, and_assoc]
  · intro v
    refine ⟨(b.lists v).1.trans (a.lists v).1, fun e => ?_⟩
    rw [(b.lists v).2, (a.lists v).2, not_or, and_assoc]

/-- Who waits by an entry that is still in use is unchanged. -/
theorem Tables.waitsEnded.waiter {t u : Tables} {g : Nat → Prop} (h : t.waitsEnded u g) (ht : t.Sound) {e : Nat}
    (hg : ¬ g e) : u.waiter e = t.waiter e := by
  unfold Tables.waiter
  cases hl : lookupKey e t.pool with
  | none =>
    cases hu : lookupKey e u.pool with
    | none => rfl
    | some we => rw [((h.pool e we).mp hu).1] at hl; exact absurd hl (by simp)
  | some we =>
    have hu := (h.pool e we).mpr ⟨hl, hg⟩
    rw [hu]
    dsimp only
    unfold Tables.body
    rw [h.slot_same ht hu]

theorem Tables.waitsEnded.entryOwner {t u : Tables} {g : Nat → Prop} (h : t.waitsEnded u g) (ht : t.Sound) {e : Nat}
    (hg : ¬ g e) : u.entryOwner e = t.entryOwner e := by
  unfold Tables.entryOwner Tables.claimOf
  cases hl : lookupKey e t.pool with
  | none =>
    cases hu : lookupKey e u.pool with
    | none => rfl
    | some we => rw [((h.pool e we).mp hu).1] at hl; exact absurd hl (by simp)
  | some we =>
    have hu := (h.pool e we).mpr ⟨hl, hg⟩
    rw [hu]
    show Option.map _ (u.entryClaim we) = Option.map _ (t.entryClaim we)
    unfold Tables.entryClaim Tables.body
    rw [h.slot_same ht hu]

/-- A sublist of a list without repetition that has all its members is the list. -/
theorem sublist_full {a b : List Nat} (h : a.Sublist b) : b.Nodup → (∀ x ∈ b, x ∈ a) → a = b := by
  induction h with
  | slnil => intro _ _; rfl
  | cons x hs ih =>
    intro hn hb
    exact absurd (hs.subset (hb x (by simp))) (List.nodup_cons.mp hn).1
  | cons_cons x hs ih =>
    intro hn hb
    obtain ⟨h1, h2⟩ := List.nodup_cons.mp hn
    rw [ih h2 (fun y hy => by
      rcases List.mem_cons.mp (hb y (by simp [hy])) with rfl | h
      · exact absurd hy h1
      · exact h)]

/-! ### Many waits -/

/-- What the ends of the waits of a list of entries do. -/
structure Run.Ended (r u : Run) (reason : WaitReason) (es : List Nat) : Prop where
  toRun : r.To u
  tab : r.tab.waitsEnded u.tab (fun e => e ∈ es)
  cache : u.cache = r.cache ++ r.tab.endAnswers reason es
  notices : u.notices = r.notices ++ r.tab.endNotices reason es
  alerts : u.alerts = r.alerts
  due : ∀ v, v ∈ u.due ↔ v ∈ r.due ∨ r.tab.endsOn (fun e => e ∈ es) v

theorem Run.Ended.refl (r : Run) (reason : WaitReason) : r.Ended r reason [] :=
  ⟨.refl r, by simpa using Tables.waitsEnded.refl r.tab, by simp [Tables.endAnswers], by simp [Tables.endNotices], rfl,
    fun v => by simp [Tables.endsOn]⟩

theorem endResults_congr {t u : Tables} {reason : WaitReason} {es : List Nat} (h : ∀ e ∈ es, u.waiter e = t.waiter e) :
    u.endAnswers reason es = t.endAnswers reason es ∧ u.endNotices reason es = t.endNotices reason es := by
  induction es with
  | nil => exact ⟨rfl, rfl⟩
  | cons a es ih =>
    obtain ⟨h1, h2⟩ := ih (fun e he => h e (by simp [he]))
    unfold Tables.endAnswers at h1 ⊢
    unfold Tables.endNotices at h2 ⊢
    rw [List.filterMap_cons, List.filterMap_cons, List.filterMap_cons, List.filterMap_cons, h a (by simp), h1, h2]
    exact ⟨rfl, rfl⟩

theorem Run.Ended.trans {r u x : Run} {reason : WaitReason} {es ds : List Nat} (h : r.tab.Sound) (a : r.Ended u reason es)
    (b : u.Ended x reason ds) (hd : ∀ e ∈ ds, e ∉ es) : r.Ended x reason (es ++ ds) := by
  obtain ⟨h1, h2⟩ := endResults_congr (reason := reason) (fun e he => a.tab.waiter h (hd e he))
  refine ⟨a.toRun.trans b.toRun, ?_, ?_, ?_, b.alerts.trans a.alerts, ?_⟩
  · refine (a.tab.trans b.tab h).congr ?_ h
    intro e we _; simp
  · rw [b.cache, a.cache, h1, List.append_assoc]; unfold Tables.endAnswers; rw [List.filterMap_append]
  · rw [b.notices, a.notices, h2, List.append_assoc]; unfold Tables.endNotices; rw [List.filterMap_append]
  · intro v
    rw [b.due, a.due, or_assoc]
    refine or_congr_right ?_
    unfold Tables.endsOn
    constructor
    · rintro (⟨e, we, he, hm, hv⟩ | ⟨e, we, he, hm, hv⟩)
      · exact ⟨e, we, he, by simp [hm], hv⟩
      · exact ⟨e, we, ((a.tab.pool e we).mp he).1, by simp [hm], hv⟩
    · rintro ⟨e, we, he, hm, hv⟩
      by_cases hes : e ∈ es
      · exact .inl ⟨e, we, he, hes, hv⟩
      · have : e ∈ ds := by simpa [hes] using hm
        exact .inr ⟨e, we, (a.tab.pool e we).mpr ⟨he, hes⟩, this, hv⟩

theorem Run.endWait_ended (r : Run) (reason : WaitReason) (e : Nat) (we : WaitEntry) (h : r.tab.Sound)
    (he : lookupKey e r.tab.pool = some we) : r.Ended (r.endWait reason e) reason [e] := by
  obtain ⟨h1, h2, h3, h4, h5⟩ := r.endWait_spec reason e we h he
  refine ⟨r.endWait_to reason e h, by simpa using h1, h2, h3, h4, fun v => ?_⟩
  rw [h5]
  refine or_congr_right ⟨?_, ?_⟩
  · rintro rfl; exact ⟨e, we, he, by simp, rfl⟩
  · rintro ⟨d, wd, hd, hm, hv⟩
    simp only [List.mem_singleton] at hm
    subst hm; rw [he] at hd; cases hd; exact hv.symm

theorem Run.endWaits_ended (reason : WaitReason) : ∀ (es : List Nat) (r : Run), r.tab.Sound → es.Nodup →
    (∀ e ∈ es, ∃ we, lookupKey e r.tab.pool = some we) → r.Ended (es.foldl (fun r e => r.endWait reason e) r) reason es
  | [], r, _, _, _ => .refl r reason
  | e :: es, r, h, hnd, hin => by
    obtain ⟨hn, hnd⟩ := List.nodup_cons.mp hnd
    obtain ⟨we, he⟩ := hin e (by simp)
    have a := r.endWait_ended reason e we h he
    have hin' : ∀ d ∈ es, ∃ wd, lookupKey d (r.endWait reason e).tab.pool = some wd := by
      intro d hd
      obtain ⟨wd, hl⟩ := hin d (by simp [hd])
      refine ⟨wd, (a.tab.pool d wd).mpr ⟨hl, ?_⟩⟩
      simp only [List.mem_singleton]
      rintro rfl; exact hn hd
    have b := Run.endWaits_ended reason es (r.endWait reason e) (a.toRun.moves.keeps h) hnd hin'
    have := a.trans h b (fun d hd => by simp only [List.mem_singleton]; rintro rfl; exact hn hd)
    simpa using this

/-- The ends of all of a session's waits (R53). -/
theorem Run.endWaitsOf_ended (r : Run) (i : SessionId) (reason : WaitReason) (h : r.tab.Sound) :
    r.Ended (r.endWaitsOf i reason) reason (r.tab.waitsOf i) := by
  have key : ∀ (vs : List VolumeId) (u : Run) (done : List Nat), r.Ended u reason done → vs.Nodup →
      (∀ v ∈ vs, ∀ e ∈ r.tab.waitList v, e ∉ done) →
      r.Ended (vs.foldl (fun r v => ((r.tab.waitList v).filter (fun e => decide (r.tab.entryOwner e = some i))).foldl
        (fun r e => r.endWait reason e) r) u) reason
        (done ++ vs.flatMap (fun v => (r.tab.waitList v).filter (fun e => decide (r.tab.entryOwner e = some i)))) := by
    intro vs
    induction vs with
    | nil => intro u done hu _ _; simpa using hu
    | cons v vs ih =>
      intro u done hu hnd hd
      obtain ⟨hn, hnd⟩ := List.nodup_cons.mp hnd
      have hs := hu.toRun.moves.keeps h
      have hlist : (u.tab.waitList v).filter (fun e => decide (u.tab.entryOwner e = some i)) =
          (r.tab.waitList v).filter (fun e => decide (r.tab.entryOwner e = some i)) := by
        have hall : u.tab.waitList v = r.tab.waitList v := by
          refine sublist_full (hu.tab.lists v).1 (h.waitLaw.2.2.2.2 v).1 (fun e he => ?_)
          exact ((hu.tab.lists v).2 e).mpr ⟨he, hd v (by simp) e he⟩
        rw [hall]
        refine List.filter_congr ?_
        intro e he
        rw [hu.tab.entryOwner h (hd v (by simp) e he)]
      rw [List.foldl_cons, hlist]
      have hstep := Run.endWaits_ended reason ((r.tab.waitList v).filter (fun e => decide (r.tab.entryOwner e = some i))) u hs
        ((h.waitLaw.2.2.2.2 v).1.filter _) (fun e he => by
          have hm := (List.mem_filter.mp he).1
          obtain ⟨we, hl, _⟩ := h.entry_of_list hm
          exact ⟨we, (hu.tab.pool e we).mpr ⟨hl, hd v (by simp) e hm⟩⟩)
      have hnext := hu.trans h hstep (fun e he => hd v (by simp) e (List.mem_filter.mp he).1)
      have := ih _ _ hnext hnd (fun w hw e he => by
        rw [List.mem_append, not_or]
        refine ⟨hd w (by simp [hw]) e he, fun hm => ?_⟩
        obtain ⟨we, h1, h2⟩ := h.entry_of_list he
        obtain ⟨we', h3, h4⟩ := h.entry_of_list (List.mem_filter.mp hm).1
        rw [h1] at h3; cases h3
        exact hn ((h4.symm.trans h2) ▸ hw))
      simpa [List.append_assoc] using this
  have := key (List.finRange 32) r [] (.refl r reason) (List.nodup_finRange 32) (fun _ _ _ _ => by simp)
  simpa [Tables.waitsOf, Run.endWaitsOf] using this

theorem Tables.Sound.mem_waitsOf {t : Tables} (h : t.Sound) (i : SessionId) (e : Nat) :
    e ∈ t.waitsOf i ↔ t.entryOwner e = some i := by
  unfold Tables.waitsOf
  simp only [List.mem_flatMap, List.mem_finRange, true_and, List.mem_filter, decide_eq_true_eq]
  constructor
  · rintro ⟨v, _, h⟩; exact h
  · intro ho
    cases hl : lookupKey e t.pool with
    | none => unfold Tables.entryOwner Tables.claimOf at ho; rw [hl] at ho; exact absurd ho (by simp)
    | some we => exact ⟨we.volume, ((h.waitLaw.2.2.2.2 we.volume).2 e).mpr ⟨we, hl, rfl⟩, ho⟩

/-! ### Retirement (R59, R60) -/

theorem Tables.retired.refl (t : Tables) : t.retired t (fun _ => False) :=
  ⟨fun _ _ _ _ h => h.elim, fun _ _ => rfl, fun _ _ => by simp, fun _ _ => by simp,
    fun _ => ⟨List.Sublist.refl _, fun _ => by simp⟩, rfl, rfl⟩

theorem Tables.retired.congr {t u : Tables} {g g' : Nat → Prop} (h : t.retired u g)
    (hg : ∀ m l ten, t.body m = .held l ten → (g m ↔ g' m)) (ht : t.Sound) : t.retired u g' := by
  have hup : ∀ e we, lookupKey e t.pool = some we → we.kind = .upgrade → (g we.slot ↔ g' we.slot) := by
    intro e we he hk
    have hf := (ht.waitLaw.2.1 e we he).2
    unfold Tables.entryFits at hf
    rw [hk] at hf
    obtain ⟨l, ten, _, hb, _⟩ := hf
    exact hg _ l ten hb
  refine ⟨?_, ?_, ?_, ?_, ?_, h.volumes, h.arrival⟩
  · intro m l ten hb hm; exact h.freed m l ten hb ((hg m l ten hb).mpr hm)
  · intro m hm; exact h.others m (fun l ten hb x => hm l ten hb ((hg m l ten hb).mp x))
  · intro v m
    rw [h.index]
    refine and_congr_right (fun hm => ?_)
    obtain ⟨l, ten, hb, _⟩ := ((ht.indexLaw v).2 m).mp hm
    rw [hg m l ten hb]
  · intro e we
    rw [h.pool]
    refine and_congr_right (fun he => ?_)
    constructor
    · intro x hk; rw [← hup e we he hk]; exact x hk
    · intro x hk; rw [hup e we he hk]; exact x hk
  · intro v
    refine ⟨(h.lists v).1, fun e => ?_⟩
    rw [(h.lists v).2]
    refine and_congr_right (fun _ => ?_)
    constructor
    · intro x we he hk; rw [← hup e we he hk]; exact x we he hk
    · intro x we he hk; rw [hup e we he hk]; exact x we he hk

theorem Tables.retired.trans {t u x : Tables} {g1 g2 : Nat → Prop} (a : t.retired u g1) (b : u.retired x g2) :
    t.retired x (fun m => g1 m ∨ g2 m) := by
  have same : ∀ m, (∀ l ten, t.body m = .held l ten → ¬ g1 m) → u.body m = t.body m := by
    intro m hm; unfold Tables.body; rw [a.others m hm]
  refine ⟨?_, ?_, ?_, ?_, ?_, b.volumes.trans a.volumes, b.arrival.trans a.arrival⟩
  · intro m l ten hb hm
    by_cases h1 : g1 m
    · have hu := a.freed m l ten hb h1
      rw [b.others m (fun l' ten' hb' => by unfold Tables.body at hb'; rw [hu] at hb'; exact absurd hb' (by simp)), hu]
    · have hs := a.others m (fun _ _ _ => h1)
      rw [b.freed m l ten (by rw [same m (fun _ _ _ => h1)]; exact hb) (hm.resolve_left h1), hs]
  · intro m hm
    have h1 : ∀ l ten, t.body m = .held l ten → ¬ g1 m := fun l ten hb x => hm l ten hb (.inl x)
    rw [b.others m (fun l ten hb x => hm l ten (by rw [← same m h1]; exact hb) (.inr x)), a.others m h1]
  · intro v m; rw [b.index, a.index, not_or, and_assoc]
  · intro e we
    rw [b.pool, a.pool, and_assoc]
    refine and_congr_right (fun _ => ?_)
    constructor
    · rintro ⟨p, q⟩ hk; rw [not_or]; exact ⟨p hk, q hk⟩
    · intro p; exact ⟨fun hk x => p hk (.inl x), fun hk x => p hk (.inr x)⟩
  · intro v
    refine ⟨(b.lists v).1.trans (a.lists v).1, fun e => ?_⟩
    rw [(b.lists v).2, (a.lists v).2, and_assoc]
    refine and_congr_right (fun _ => ?_)
    constructor
    · rintro ⟨p, q⟩ we he hk
      have h1 := p we he hk
      rw [not_or]
      exact ⟨h1, q we ((a.pool e we).mpr ⟨he, fun _ => h1⟩) hk⟩
    · intro p
      refine ⟨fun we he hk x => p we he hk (.inl x), fun we he hk x => p we ((a.pool e we).mp he).1 hk (.inr x)⟩

/-- What the retirement of the leases in a list of slots does. -/
structure Run.Retired (r u : Run) (c : Cause) (ns : List Nat) : Prop where
  toRun : r.To u
  tab : r.tab.retired u.tab (fun m => m ∈ ns)
  cache : u.cache = r.cache ++ r.tab.goneAnswers ns
  notices : u.notices = r.notices ++ r.tab.goneNotices c ns
  alerts : u.alerts = r.alerts ++ r.tab.goneAlerts c ns
  due : ∀ v, v ∈ u.due ↔ v ∈ r.due ∨ r.tab.retiresOn (fun m => m ∈ ns) v

theorem Run.Retired.refl (r : Run) (c : Cause) : r.Retired r c [] :=
  ⟨.refl r, by simpa using Tables.retired.refl r.tab, by simp [Tables.goneAnswers], by simp [Tables.goneNotices],
    by simp [Tables.goneAlerts], fun v => by simp [Tables.retiresOn]⟩

theorem goneResults_congr {t u : Tables} {c : Cause} {ns : List Nat} (h : ∀ n ∈ ns, u.slots.get n = t.slots.get n) :
    u.goneAnswers ns = t.goneAnswers ns ∧ u.goneNotices c ns = t.goneNotices c ns ∧
      u.goneAlerts c ns = t.goneAlerts c ns := by
  unfold Tables.goneAnswers Tables.goneNotices Tables.goneAlerts Tables.handle Tables.body
  induction ns with
  | nil => exact ⟨rfl, rfl, rfl⟩
  | cons a ns ih =>
    obtain ⟨h1, h2, h3⟩ := ih (fun n hn => h n (by simp [hn]))
    simp only [List.flatMap_cons, h1, h2, h3, h a (by simp), and_self]

theorem Run.Retired.trans {r u x : Run} {c : Cause} {ns ks : List Nat} (h : r.tab.Sound) (a : r.Retired u c ns)
    (b : u.Retired x c ks) (hd : ∀ n ∈ ks, n ∉ ns) : r.Retired x c (ns ++ ks) := by
  have hsame : ∀ n, n ∉ ns → u.tab.slots.get n = r.tab.slots.get n := fun n hn => a.tab.others n (fun _ _ _ => hn)
  obtain ⟨h1, h2, h3⟩ := goneResults_congr (c := c) (fun n hn => hsame n (hd n hn))
  refine ⟨a.toRun.trans b.toRun, (a.tab.trans b.tab).congr (fun _ _ _ _ => by simp) h, ?_, ?_, ?_, ?_⟩
  · rw [b.cache, a.cache, h1, List.append_assoc]; unfold Tables.goneAnswers; rw [List.flatMap_append]
  · rw [b.notices, a.notices, h2, List.append_assoc]; unfold Tables.goneNotices; rw [List.flatMap_append]
  · rw [b.alerts, a.alerts, h3, List.append_assoc]; unfold Tables.goneAlerts; rw [List.flatMap_append]
  · intro v
    rw [b.due, a.due, or_assoc]
    refine or_congr_right ?_
    unfold Tables.retiresOn
    have hb : ∀ n, n ∉ ns → u.tab.body n = r.tab.body n := fun n hn => by unfold Tables.body; rw [hsame n hn]
    constructor
    · rintro (⟨m, l, ten, hb', hm, hv⟩ | ⟨m, l, ten, hb', hm, hv⟩)
      · exact ⟨m, l, ten, hb', by simp [hm], hv⟩
      · exact ⟨m, l, ten, by rw [← hb m (hd m hm)]; exact hb', by simp [hm], hv⟩
    · rintro ⟨m, l, ten, hb', hm, hv⟩
      by_cases hn : m ∈ ns
      · exact .inl ⟨m, l, ten, hb', hn, hv⟩
      · exact .inr ⟨m, l, ten, by rw [hb m hn]; exact hb', by simpa [hn] using hm, hv⟩

theorem Run.retire_retired (r : Run) (c : Cause) (n : Nat) (h : r.tab.Sound) : r.Retired (r.retire c n) c [n] := by
  have hto := r.retire_to c n h
  cases hb : r.tab.body n with
  | free =>
    have : r.retire c n = r := by unfold Run.retire; rw [hb]
    rw [this]
    refine ⟨.refl r, (Tables.retired.refl r.tab).congr (fun m l ten hm => ?_) h, ?_, ?_, ?_, ?_⟩
    · simp only [false_iff, List.mem_singleton]; rintro rfl; rw [hb] at hm; exact absurd hm (by simp)
    · simp [Tables.goneAnswers, hb]
    · simp [Tables.goneNotices, hb]
    · simp [Tables.goneAlerts, hb]
    · intro v
      simp only [Tables.retiresOn, List.mem_singleton, iff_self_or]
      rintro ⟨m, l', ten', hm, rfl, _⟩
      rw [hb] at hm; exact absurd hm (by simp)
  | pending l d =>
    have : r.retire c n = r := by unfold Run.retire; rw [hb]
    rw [this]
    refine ⟨.refl r, (Tables.retired.refl r.tab).congr (fun m l ten hm => ?_) h, ?_, ?_, ?_, ?_⟩
    · simp only [false_iff, List.mem_singleton]; rintro rfl; rw [hb] at hm; exact absurd hm (by simp)
    · simp [Tables.goneAnswers, hb]
    · simp [Tables.goneNotices, hb]
    · simp [Tables.goneAlerts, hb]
    · intro v
      simp only [Tables.retiresOn, List.mem_singleton, iff_self_or]
      rintro ⟨m, l', ten', hm, rfl, _⟩
      rw [hb] at hm; exact absurd hm (by simp)
  | held l ten =>
    -- the end of the upgrade, as a run with known results
    have hup : ∃ es : List Nat, r.Ended (r.endUpgrade n l ten) .leaseGone es ∧
        (∀ e we, lookupKey e r.tab.pool = some we → (e ∈ es ↔ we.kind = .upgrade ∧ we.slot = n)) ∧
        r.tab.endAnswers .leaseGone es = ten.upgrade.toList.map (fun x =>
          (l.owner, { tag := x.tag, kind := .convert, status := .cancelled, result := .waitEnd .leaseGone })) ∧
        r.tab.endNotices .leaseGone es = ten.upgrade.toList.map (fun x => (l.owner, .waitEnded x.tag .leaseGone)) := by
      cases hu : ten.upgrade with
      | none =>
        have hr : r.endUpgrade n l ten = r := by unfold Run.endUpgrade; rw [hu]
        rw [hr]
        refine ⟨[], .refl r _, ?_, rfl, rfl⟩
        intro e we he
        simp only [List.not_mem_nil, false_iff]
        rintro ⟨_, hs⟩
        obtain ⟨_, _, u, hx⟩ := h.entry_held he (by rw [hs]; exact hb)
        rw [hu] at hx; exact absurd hx (by simp)
      | some u =>
        obtain ⟨e, he⟩ := h.entryFor_held hb hu
        obtain ⟨we, hl, hk, hs⟩ := Tables.entryFor_some he
        have hr : r.endUpgrade n l ten = r.endWait .leaseGone e := by unfold Run.endUpgrade; rw [hu]; simp only [he]
        rw [hr]
        refine ⟨[e], r.endWait_ended .leaseGone e we h hl, ?_, ?_, ?_⟩
        · intro d wd hd
          simp only [List.mem_singleton]
          constructor
          · rintro rfl; rw [hl] at hd; cases hd; exact ⟨hk, hs⟩
          · rintro ⟨_, hds⟩; exact h.waitLaw.2.2.1 d e wd we hd hl (by rw [hds, hs])
        · simp [Tables.endAnswers, Tables.waiter, hl, hk, hs, hb, hu]
        · simp [Tables.endNotices, Tables.waiter, hl, hk, hs, hb, hu]
    obtain ⟨es, he, hes, ha, hn⟩ := hup
    have hbu := (r.endUpgrade_to n l ten h hb).2
    have hgen : ((r.endUpgrade n l ten).tab.slots.get n).gen = (r.tab.slots.get n).gen := by
      cases hx : ten.upgrade with
      | none => unfold Run.endUpgrade; rw [hx]
      | some u =>
        obtain ⟨e, hef⟩ := h.entryFor_held hb hx
        obtain ⟨we, hl, hk, hs⟩ := Tables.entryFor_some hef
        have hb' : r.tab.body we.slot = .held l ten := by rw [hs]; exact hb
        have := he.tab.held e we l ten hl ((hes e we hl).mpr ⟨hk, hs⟩) hb'
        rw [hs] at this; rw [this]
    have hoth : ∀ m, m ≠ n → (r.endUpgrade n l ten).tab.slots.get m = r.tab.slots.get m := by
      intro m hm
      refine he.tab.others m (fun e we hl hin => ?_)
      rw [((hes e we hl).mp hin).2]; exact Ne.symm hm
    have hret : r.retire c n = ((((r.endUpgrade n l ten).withTab ((r.endUpgrade n l ten).tab.indexRemove l.volume n)).report c
        l.owner ((r.endUpgrade n l ten).tab.handle n)).withTab
        (((r.endUpgrade n l ten).tab.indexRemove l.volume n).freeSlot n l.owner)).passDue l.volume := by
      unfold Run.retire; rw [hb]; simp only [Run.tab_report]; rfl
    generalize r.endUpgrade n l ten = w at *
    have hhand : w.tab.handle n = r.tab.handle n := by unfold Tables.handle; rw [hgen]
    have hres : (r.retire c n).cache = w.cache ∧ (r.retire c n).notices = w.notices ++ (c.notice (r.tab.handle n)).toList.map (fun x => (l.owner, x)) ∧
        (r.retire c n).alerts = w.alerts ++ c.alert.toList.map (fun k => (k, .session l.owner)) ∧
        (∀ v, v ∈ (r.retire c n).due ↔ v ∈ w.due ∨ v = l.volume) := by
      rw [hret, hhand]
      unfold Run.passDue
      cases c <;> by_cases hc : w.due.contains l.volume = true <;>
        simp_all [Run.report, Run.withTab, Run.notify, Run.alarm, Cause.notice, Cause.alert]
    obtain ⟨r1, r2, r3, r4⟩ := hres
    have htab : (r.retire c n).tab = (w.tab.indexRemove l.volume n).freeSlot n l.owner := by rw [hret]; simp; rfl
    refine ⟨hto, ?_, ?_, ?_, ?_, ?_⟩
    · rw [htab]
      have hslots : ∀ m, ((w.tab.indexRemove l.volume n).freeSlot n l.owner).slots.get m =
          if m = n then { gen := (r.tab.slots.get n).gen + 1, body := .free } else r.tab.slots.get m := by
        intro m
        show (w.tab.slots.set n _).get m = _
        rw [SlotTable.get_set]
        by_cases hm : m = n
        · rw [if_pos hm, if_pos hm]
          show ({ gen := (w.tab.slots.get n).gen + 1, body := .free } : Slot) = _
          rw [hgen]
        · rw [if_neg hm, if_neg hm, hoth m hm]
      refine ⟨?_, ?_, ?_, ?_, ?_, he.tab.volumes, he.tab.arrival⟩
      · intro m l' ten' _ hm
        simp only [List.mem_singleton] at hm
        subst hm; rw [hslots, if_pos rfl]
      · intro m hm
        rw [hslots, if_neg]
        rintro rfl; exact hm l ten hb (by simp)
      · intro v m
        show m ∈ (w.tab.indexRemove l.volume n).indexOf v ↔ _
        have hwi : ∀ v, w.tab.indexOf v = r.tab.indexOf v := by intro v; unfold Tables.indexOf; rw [he.tab.index]
        rw [Tables.indexOf_indexRemove, hwi, hwi]
        simp only [List.mem_singleton]
        by_cases hv : l.volume = v
        · subst hv; rw [if_pos rfl, List.mem_filter]; simp
        · rw [if_neg hv]
          refine ⟨fun hm => ⟨hm, ?_⟩, fun x => x.1⟩
          rintro rfl
          obtain ⟨l', t', hb', hv'⟩ := ((h.indexLaw v).2 m).mp hm
          rw [hb] at hb'; cases hb'; exact hv hv'
      · intro e we
        show lookupKey e w.tab.pool = some we ↔ _
        rw [he.tab.pool]
        refine and_congr_right (fun hl => ?_)
        rw [hes e we hl]; simp
      · intro v
        refine ⟨(he.tab.lists v).1, fun e => ?_⟩
        show e ∈ w.tab.waitList v ↔ _
        rw [(he.tab.lists v).2]
        refine and_congr_right (fun hm => ?_)
        obtain ⟨we, hl, _⟩ := h.entry_of_list hm
        rw [hes e we hl]
        constructor
        · intro x we' hl' hk
          rw [hl] at hl'; cases hl'
          simp only [List.mem_singleton]; exact fun y => x ⟨hk, y⟩
        · intro x y; exact x we hl y.1 (by simp [y.2])
    · rw [r1, he.cache, ha]; simp [Tables.goneAnswers, hb]
    · rw [r2, he.notices, hn, List.append_assoc]; simp [Tables.goneNotices, hb]
    · rw [r3, he.alerts]; simp [Tables.goneAlerts, hb]
    · intro v
      rw [r4, he.due, or_assoc]
      refine or_congr_right ?_
      constructor
      · rintro (⟨e, we, hl, hin, hv⟩ | rfl)
        · refine ⟨n, l, ten, hb, by simp, ?_⟩
          have := h.entry_held hl (by rw [((hes e we hl).mp hin).2]; exact hb)
          exact this.2.1.symm.trans hv
        · exact ⟨n, l, ten, hb, by simp, rfl⟩
      · rintro ⟨m, l', ten', hb', hm, hv⟩
        simp only [List.mem_singleton] at hm
        subst hm; rw [hb] at hb'; cases hb'
        exact .inr hv.symm

theorem Run.retires_retired (c : Cause) : ∀ (ns : List Nat) (r : Run), r.tab.Sound → ns.Nodup →
    r.Retired (ns.foldl (fun r n => r.retire c n) r) c ns
  | [], r, _, _ => .refl r c
  | n :: ns, r, h, hnd => by
    obtain ⟨hn, hnd⟩ := List.nodup_cons.mp hnd
    have a := r.retire_retired c n h
    have b := Run.retires_retired c ns (r.retire c n) (a.toRun.moves.keeps h) hnd
    have := a.trans h b (fun m hm => by simp only [List.mem_singleton]; rintro rfl; exact hn hm)
    simpa using this

end Sys2Proof.Machine
end

