-- ==== Sys2Proof/Laws/Grants.lean ====
section
/-! SUPPORT. What the wake passes of a step make and hand over, as Safety.lean states it: which entries they grant, in which
order, with which token, notice and cache entry; the exhaustion; and the recall that follows (R39, R43 to R49, R64). -/

namespace Sys2Proof.Machine

/-! ### The order and the test -/

theorem Tables.examineOrder_eq (t : Tables) (v : VolumeId) : t.examineOrder v = t.passOrder v := by
  have : ∀ k, (fun e => (lookupKey e t.pool).any (fun we => decide (we.kind = k))) = t.entryIs k := by
    intro k
    funext e
    unfold Tables.entryIs
    cases lookupKey e t.pool <;> rfl
  unfold Tables.examineOrder Tables.passOrder
  simp only [this]

/-- The model's test of an entry says what R43 and R44 say. -/
theorem Tables.Sound.grantable_iff {t : Tables} (h : t.Sound) (e : Nat) (we : WaitEntry) (c : Lease) :
    t.grantable e we c = true ↔ t.eligible e we c := by
  unfold Tables.grantable Tables.eligible
  rw [Bool.and_eq_true, List.isEmpty_iff, h.conflicts_nil c]
  refine and_congr_right (fun _ => ?_)
  cases hk : we.kind with
  | upgrade => simp
  | acquire =>
    simp only [Bool.not_eq_true', Tables.waitersConflict_iff, forall_const]
    exact ⟨fun x d hd w => x d w hd, fun x d w hd => x d hd w⟩

theorem Tables.exhaustedFor_iff (t : Tables) (c : Lease) : t.exhaustedFor c.mode c.volume = true ↔ t.outOfTokens c := by
  unfold Tables.exhaustedFor Tables.outOfTokens
  simp

/-! ### One grant -/

/-- A grant of an entry makes what R48 and R49 say. -/
theorem Run.grantEntry_made (r : Run) (e : Nat) (we : WaitEntry) (c : Lease) (h : r.tab.Sound)
    (he : lookupKey e r.tab.pool = some we) (hc : r.tab.entryClaim we = some c) :
    ∃ x y, r.tab.grantMade r.now (r.grantEntry e we).tab e we x y ∧ (r.grantEntry e we).cache = r.cache ++ [x] ∧
      (r.grantEntry e we).notices = r.notices ++ [y] ∧ (r.grantEntry e we).alerts = r.alerts := by
  have gone : ∀ u : Tables, u.pool = eraseKey e r.tab.pool →
      (∀ w, u.waitList w = (r.tab.removeEntry e we.volume).waitList w) → u.arrival = r.tab.arrival →
      r.tab.entryGone u e we.volume := by
    intro u h1 h2 h3
    refine ⟨fun d => by rw [h1]; exact lookupKey_erase e d r.tab.pool, fun w => ?_, h3⟩
    rw [h2, Tables.waitList_removeEntry]
    by_cases hw : w = we.volume
    · subst hw; simp
    · rw [if_neg hw, if_neg (Ne.symm hw)]
  have only : ∀ (u : Tables) (b : SlotBody),
      u.slots = r.tab.slots.set we.slot { gen := (r.tab.slots.get we.slot).gen, body := b } →
      u.occupancy = r.tab.occupancy → u.slotCounts = r.tab.slotCounts → r.tab.slotOnly u we.slot b := by
    intro u b h1 h2 h3
    refine ⟨by rw [h1, SlotTable.get_set, if_pos rfl], fun m hm => by rw [h1, SlotTable.get_set, if_neg hm], h2, h3⟩
  rcases h.entryClaim_spec he hc with ⟨d, hk, hb, hv⟩ | ⟨l, ten, up, hk, hb, hu, hcl, hv⟩
  · refine ⟨_, _, .acquire c d ((r.tab.removeEntry e we.volume).tokenFor c.mode c.volume) hb ?_, ?_, ?_, ?_⟩
    · have htab : (r.grantEntry e we).tab = ((((r.tab.removeEntry e we.volume).drawFor c.mode c.volume).setBody we.slot
          (.held c (Tenure.granted r.now c ((r.tab.removeEntry e we.volume).tokenFor c.mode c.volume)))).indexAdd c.volume
          we.slot) := by
        unfold Run.grantEntry; rw [hb]; rfl
      rw [htab]
      refine ⟨by cases c.mode <;> rfl, only _ _ ?_ ?_ ?_, ?_, gone _ ?_ ?_ ?_, ?_⟩
      · show SlotTable.set (Tables.slots _) we.slot _ = _
        rw [Tables.slots_drawFor]; rfl
      · show ((r.tab.removeEntry e we.volume).drawFor c.mode c.volume).occupancy = _
        rw [Tables.occupancy_drawFor]; rfl
      · show ((r.tab.removeEntry e we.volume).drawFor c.mode c.volume).slotCounts = _
        rw [Tables.slotCounts_drawFor]; rfl
      · intro w m
        rw [Tables.indexOf_indexAdd]
        by_cases hw : c.volume = w
        · subst hw
          rw [if_pos rfl, mem_indexInsert]
          show _ ∨ m ∈ ((r.tab.removeEntry e we.volume).drawFor c.mode c.volume).indexOf c.volume ↔ _
          rw [Tables.indexOf_drawFor]
          show _ ∨ m ∈ r.tab.indexOf c.volume ↔ _
          simp [or_comm]
        · rw [if_neg hw]
          show m ∈ ((r.tab.removeEntry e we.volume).drawFor c.mode c.volume).indexOf w ↔ _
          rw [Tables.indexOf_drawFor]
          show m ∈ r.tab.indexOf w ↔ _
          simp [Ne.symm hw]
      · show ((r.tab.removeEntry e we.volume).drawFor c.mode c.volume).pool = _
        rw [Tables.pool_drawFor]; rfl
      · intro w
        show ((r.tab.removeEntry e we.volume).drawFor c.mode c.volume).waitList w = _
        rw [Tables.waitList_drawFor]
      · show ((r.tab.removeEntry e we.volume).drawFor c.mode c.volume).arrival = _
        cases c.mode <;> rfl
      · cases hm : c.mode with
        | shared => rfl
        | exclusive =>
          intro w
          show (upd r.tab.volumes c.volume _)[w] = _
          rw [upd_get]
          by_cases hw : w = c.volume
          · subst hw; rw [if_pos rfl, if_pos rfl]; rfl
          · rw [if_neg hw, if_neg (Ne.symm hw)]; rfl
    all_goals unfold Run.grantEntry; rw [hb]; rfl
  · have hlv : l.volume = we.volume := by rw [hv, hcl]
    refine ⟨_, _, .upgrade l ten up ((r.tab.volume l.volume).fence + 1) hb hu ?_, ?_, ?_, ?_⟩
    · have htab : (r.grantEntry e we).tab = (((r.tab.removeEntry e we.volume).drawFor .exclusive l.volume).setBody we.slot
          (.held { l with mode := .exclusive }
            { ten with token := some ((r.tab.volume l.volume).fence + 1), upgrade := none })) := by
        unfold Run.grantEntry; rw [hb]; simp only [hu]; rfl
      rw [htab]
      refine ⟨rfl, only _ _ ?_ rfl rfl, rfl, gone _ rfl (fun _ => rfl) rfl, ?_⟩
      · show SlotTable.set (Tables.slots _) we.slot _ = _
        rw [Tables.slots_drawFor]; rfl
      · intro w
        show (upd r.tab.volumes l.volume _)[w] = _
        rw [upd_get]
        by_cases hw : w = l.volume
        · subst hw; rw [if_pos rfl, if_pos rfl]; rfl
        · rw [if_neg hw, if_neg (Ne.symm hw)]; rfl
    all_goals unfold Run.grantEntry; rw [hb]; simp only [hu]; rfl

/-! ### The examination -/

theorem passExamine_ended (r : Run) : ∀ l : List Nat, l.foldl passExamine (r, true) = (r, true)
  | [] => rfl
  | e :: l => by
    rw [List.foldl_cons, show passExamine (r, true) e = (r, true) from rfl]
    exact passExamine_ended r l

/-- The examination of a list of entries, as the pass makes it. -/
theorem Run.examine_made : ∀ (l : List Nat) (r : Run), r.tab.Sound →
    ∃ cs ns as, Tables.examines r.now r.tab l (l.foldl passExamine (r, false)).1.tab (l.foldl passExamine (r, false)).2 cs ns as ∧
      (l.foldl passExamine (r, false)).1.cache = r.cache ++ cs ∧
      (l.foldl passExamine (r, false)).1.notices = r.notices ++ ns ∧
      (l.foldl passExamine (r, false)).1.alerts = r.alerts ++ as
  | [], r, _ => ⟨[], [], [], .done r.tab, by simp, by simp, by simp⟩
  | e :: l, r, h => by
    rw [List.foldl_cons]
    have leave : (∀ we c, lookupKey e r.tab.pool = some we → r.tab.entryClaim we = some c → ¬ r.tab.eligible e we c) →
        passExamine (r, false) e = (r, false) →
        let z := l.foldl passExamine (passExamine (r, false) e)
        ∃ cs ns as, Tables.examines r.now r.tab (e :: l) z.1.tab z.2 cs ns as ∧ z.1.cache = r.cache ++ cs ∧
          z.1.notices = r.notices ++ ns ∧ z.1.alerts = r.alerts ++ as := fun hx heq => by
      obtain ⟨cs, ns, as, h1, h2⟩ := Run.examine_made l r h
      dsimp only
      rw [heq]
      exact ⟨cs, ns, as, .leave hx h1, h2⟩
    cases hl : lookupKey e r.tab.pool with
    | none =>
      refine leave (fun we c hw => by rw [hl] at hw; cases hw) ?_
      unfold passExamine; simp only [hl]; rfl
    | some we =>
      cases hc : r.tab.entryClaim we with
      | none =>
        refine leave (fun we' c hw hc' => by rw [hl] at hw; cases hw; rw [hc] at hc'; cases hc') ?_
        unfold passExamine; simp only [hl, hc]; rfl
      | some c =>
        have hvc : we.volume = c.volume := by
          rcases h.entryClaim_spec hl hc with ⟨_, _, _, hv⟩ | ⟨_, _, _, _, _, _, _, hv⟩ <;> exact hv
        cases hg : r.tab.grantable e we c with
        | false =>
          refine leave (fun we' c' hw hc' hx => ?_) ?_
          · rw [hl] at hw; cases hw; rw [hc] at hc'; cases hc'
            rw [(h.grantable_iff e we c).mpr hx] at hg; cases hg
          · unfold passExamine; simp only [hl, hc, hg]; rfl
        | true =>
          have hel := (h.grantable_iff e we c).mp hg
          cases hx : r.tab.exhaustedFor c.mode we.volume with
          | true =>
            have heq : passExamine (r, false) e = (r.exhaust we.volume, true) := by
              unfold passExamine; simp only [hl, hc, hg, hx]; rfl
            rw [heq, passExamine_ended]
            refine ⟨[], [], [(.fenceExhausted, .volume c.volume)], ?_, by simp [Run.exhaust, Run.withTab, Run.alarm],
              by simp [Run.exhaust, Run.withTab, Run.alarm], by simp [Run.exhaust, Run.withTab, Run.alarm, hvc]⟩
            rw [hvc] at hx ⊢
            refine .exhaust hl hc hel ((Tables.exhaustedFor_iff _ _).mp hx) ?_ rfl
            intro w
            show (upd r.tab.volumes c.volume _)[w] = _
            rw [upd_get]
            by_cases hw : w = c.volume
            · subst hw; simp
            · rw [if_neg hw, if_neg (Ne.symm hw)]; rfl
          | false =>
            have heq : passExamine (r, false) e = (r.grantEntry e we, false) := by
              unfold passExamine; simp only [hl, hc, hg, hx]; rfl
            have hto := passExamine_to (r, false) e h
            rw [heq] at hto ⊢
            obtain ⟨x, y, g1, g2, g3, g4⟩ := r.grantEntry_made e we c h hl hc
            obtain ⟨cs, ns, as, h1, h2, h3, h4⟩ := Run.examine_made l (r.grantEntry e we) (hto.moves.keeps h)
            rw [hto.now] at h1
            refine ⟨x :: cs, y :: ns, as, .grant hl hc hel ?_ g1 h1, ?_, ?_, ?_⟩
            · intro ho
              rw [hvc] at hx
              rw [(Tables.exhaustedFor_iff _ _).mpr ho] at hx; cases hx
            · rw [h2, g2, List.append_assoc]; rfl
            · rw [h3, g3, List.append_assoc]; rfl
            · rw [h4, g4]

/-! ### The recall after it -/

/-- Recall passes over the slot: it holds no unmarked lease. -/
def Run.settledAt (r : Run) (m : Nat) : Prop := ∀ l ten, r.tab.body m = .held l ten → ten.recallMark ≠ none

theorem Run.markRecalled_settled {r : Run} {m : Nat} (h : r.settledAt m) : r.markRecalled m = r := by
  unfold Run.markRecalled
  cases hb : r.tab.body m with
  | free => rfl
  | pending l d => rfl
  | held l ten =>
    cases hr : ten.recallMark with
    | some mk => simp only [hr]
    | none => exact absurd hr (h l ten hb)

theorem Run.settledAt_mark (r : Run) (n m : Nat) (h : r.settledAt m ∨ m = n) : (r.markRecalled n).settledAt m := by
  intro l ten hb
  rw [(r.markRecalled_recalled n).body m] at hb
  cases hx : r.tab.body m with
  | free => rw [hx] at hb; cases hb
  | pending a d => rw [hx] at hb; cases hb
  | held a at' =>
    rw [hx] at hb
    simp only [SlotBody.held.injEq] at hb
    obtain ⟨rfl, rfl⟩ := hb
    unfold Run.marked
    rcases h with h | h
    · have := h _ _ hx
      by_cases hm : m ∈ [n]
      · rw [if_pos hm, if_neg this]; exact this
      · rw [if_neg hm]; exact this
    · rw [if_pos (by simp [h])]
      split
      · simp
      · assumption

/-- Recall over a list marks each slot at its first place. -/
theorem Run.mark_filter (p : Nat → Bool) : ∀ (l : List Nat) (r : Run), (∀ m, p m = false → r.settledAt m) →
    l.foldl Run.markRecalled r = (l.filter p).foldl Run.markRecalled r
  | [], _, _ => rfl
  | a :: l, r, h => by
    cases hp : p a with
    | false =>
      rw [List.filter_cons_of_neg (by simp [hp]), List.foldl_cons, Run.markRecalled_settled (h a hp)]
      exact Run.mark_filter p l r h
    | true =>
      rw [List.filter_cons_of_pos hp, List.foldl_cons, List.foldl_cons]
      exact Run.mark_filter p l _ (fun m hm => r.settledAt_mark a m (.inl (h m hm)))

theorem Run.mark_eraseDups (l : List Nat) (r : Run) :
    l.foldl Run.markRecalled r = l.eraseDups.foldl Run.markRecalled r := by
  match l with
  | [] => simp
  | a :: l =>
    rw [List.eraseDups_cons, List.foldl_cons, List.foldl_cons]
    rw [Run.mark_filter (fun b => !(b == a)) l _ (fun m hm => r.settledAt_mark a m (.inr (by simpa using hm)))]
    exact Run.mark_eraseDups _ _
  termination_by l.length
  decreasing_by
    simp only [List.length_cons]
    exact Nat.lt_succ_of_le (List.length_filter_le _ _)

theorem nodup_eraseDups (l : List Nat) : l.eraseDups.Nodup := by
  match l with
  | [] => simp
  | a :: l =>
    rw [List.eraseDups_cons, List.nodup_cons]
    refine ⟨?_, nodup_eraseDups _⟩
    rw [List.mem_eraseDups]
    simp
  termination_by l.length
  decreasing_by
    simp only [List.length_cons]
    exact Nat.lt_succ_of_le (List.length_filter_le _ _)

/-- Recall for a list of entries is recall over all the leases that block them. -/
theorem Run.recall_entries {r : Run} {v : VolumeId} (h : r.tab.Sound) : ∀ (l : List Nat) (u : Run), u.tab.Sound →
    r.tab.agree u.tab v → (∀ e ∈ l, e ∈ r.tab.waitList v) →
    l.foldl Run.applyRecall u = (l.flatMap r.tab.blockersOf).foldl Run.markRecalled u
  | [], _, _, _, _ => rfl
  | e :: l, u, hu, ha, hl => by
    rw [List.foldl_cons, List.flatMap_cons, List.foldl_append]
    have hb : u.tab.blockersOf e = r.tab.blockersOf e := ha.blockers h (hl e (by simp))
    have heq : (r.tab.blockersOf e).foldl Run.markRecalled u = u.applyRecall e := by unfold Run.applyRecall; rw [hb]
    rw [heq]
    exact Run.recall_entries h l (u.applyRecall e) ((Run.applyRecall_to u e hu).moves.keeps hu)
      (ha.trans ((u.applyRecall_recalled e hu).agree v)) (fun d hd => hl d (by simp [hd]))

theorem Run.recall_left (r : Run) (v : VolumeId) (h : r.tab.Sound) :
    ∃ ns, r.tab.recallsLeft r.newMark ((r.tab.passOrder v).foldl Run.applyRecall r).tab v ns ∧
      ((r.tab.passOrder v).foldl Run.applyRecall r).notices = r.notices ++ ns ∧
      (r.tab.passOrder v).foldl Run.applyRecall r = { r with
        tab := ((r.tab.passOrder v).foldl Run.applyRecall r).tab
        notices := ((r.tab.passOrder v).foldl Run.applyRecall r).notices } := by
  rw [Run.recall_entries (v := v) h (r.tab.passOrder v) r h
    ⟨fun m l ten hb _ => ⟨ten, hb⟩, fun _ _ _ hb _ => hb, rfl, rfl, fun _ _ => rfl⟩
    (fun e he => Tables.mem_passOrder he), Run.mark_eraseDups]
  have hrec := Run.recall_fold ((r.tab.passOrder v).flatMap r.tab.blockersOf).eraseDups r (nodup_eraseDups _)
  refine ⟨_, ⟨by rw [Tables.examineOrder_eq], ?_, hrec.gen, hrec.rest⟩, hrec.notices, hrec.same⟩
  intro m
  rw [hrec.body m, Tables.examineOrder_eq]
  cases r.tab.body m with
  | free => rfl
  | pending l d => rfl
  | held l ten =>
    simp only [List.mem_eraseDups]
    unfold Run.marked
    by_cases h1 : m ∈ (r.tab.passOrder v).flatMap r.tab.blockersOf
    · by_cases h2 : ten.recallMark = none
      · rw [if_pos h1, if_pos h2, if_pos ⟨h1, h2⟩]
      · rw [if_pos h1, if_neg h2, if_neg (fun x => h2 x.2)]
    · rw [if_neg h1, if_neg (fun x => h1 x.1)]

/-! ### Whole passes -/

theorem Run.wakePass_made (r : Run) (v : VolumeId) (h : r.tab.Sound) :
    ∃ cs ns as, r.tab.passMade r.now r.newMark (r.wakePass v).tab v cs ns as ∧ (r.wakePass v).cache = r.cache ++ cs ∧
      (r.wakePass v).notices = r.notices ++ ns ∧ (r.wakePass v).alerts = r.alerts ++ as := by
  obtain ⟨cs, ns, as, h1, h2, h3, h4⟩ := Run.examine_made (r.tab.passOrder v) r h
  have hto : r.To ((r.tab.passOrder v).foldl passExamine (r, false)).1 :=
    (PassState.fold (v := v) h (r.tab.passOrder v) (r, false) []
      ⟨.refl r, .refl _ _, fun x => absurd x (by simp), fun _ d hd => absurd hd (by simp)⟩
      (fun e he => Tables.mem_passOrder he)).toRun
  unfold Run.wakePass
  simp only
  generalize (r.tab.passOrder v).foldl passExamine (r, false) = acc at h1 h2 h3 h4 hto ⊢
  rw [← Tables.examineOrder_eq] at h1
  cases hf : acc.2 with
  | true =>
    simp only [if_true]
    rw [hf] at h1
    exact ⟨cs, ns, as, ⟨acc.1.tab, true, ns, [], h1, by simp, fun _ => ⟨rfl, rfl⟩, fun x => absurd x (by simp)⟩, h2, h3, h4⟩
  | false =>
    simp only [Bool.false_eq_true, if_false]
    rw [hf] at h1
    obtain ⟨ms, k1, k2, k3⟩ := acc.1.recall_left v (hto.moves.keeps h)
    have hmark : acc.1.newMark = r.newMark := by unfold Run.newMark; rw [hto.now, hto.limit]
    rw [hmark] at k1
    refine ⟨cs, ns ++ ms, as, ⟨acc.1.tab, false, ns, ms, h1, rfl, fun x => absurd x (by simp), fun _ => k1⟩, ?_, ?_, ?_⟩
    · rw [k3]; exact h2
    · rw [k2, h3, List.append_assoc]
    · rw [k3]; exact h4

/-- What the due passes of a step make and hand over (R45 to R49): the one lemma about the passes that the statements
need. -/
theorem Run.runPasses_wakes (r : Run) (s : State) (h : r.tab.Sound) (hn : r.now = s.clock)
    (hl : r.recallLimit = s.recallLimit) : ∃ cs ns as, s.wakes r.tab r.runPasses.tab (fun w => w ∈ r.due) cs ns as ∧
      r.runPasses.cache = r.cache ++ cs ∧ r.runPasses.notices = r.notices ++ ns ∧ r.runPasses.alerts = r.alerts ++ as := by
  have hmark : s.markNow = r.newMark := by unfold State.markNow Run.newMark; rw [hn, hl]
  obtain ⟨f1, f2⟩ := r.runPasses_frame h
  have key : ∀ (l : List VolumeId) (a : Run), r.To a →
      let z := l.foldl (fun acc v => if r.due.contains v && decide ((acc.tab.volume v).state = .online) then acc.wakePass v
        else acc) a
      ∃ cs ns as, a.tab.passesMade r.now r.newMark (fun w => w ∈ r.due) l z.tab cs ns as ∧ z.cache = a.cache ++ cs ∧
        z.notices = a.notices ++ ns ∧ z.alerts = a.alerts ++ as := by
    intro l
    induction l with
    | nil => intro a _; exact ⟨[], [], [], .done a.tab, by simp, by simp, by simp⟩
    | cons v l ih =>
      intro a ha
      rw [List.foldl_cons]
      have hs := ha.moves.keeps h
      by_cases hc : (r.due.contains v && decide ((a.tab.volume v).state = .online)) = true
      · rw [if_pos hc]
        obtain ⟨cs, ns, as, h1, h2, h3, h4⟩ := a.wakePass_made v hs
        obtain ⟨cs', ns', as', k1, k2, k3, k4⟩ := ih (a.wakePass v) (ha.trans (Run.wakePass_to a v hs))
        have hm : a.newMark = r.newMark := by unfold Run.newMark; rw [ha.now, ha.limit]
        rw [ha.now, hm] at h1
        refine ⟨cs ++ cs', ns ++ ns', as ++ as', .pass ?_ h1 k1, by rw [k2, h2, List.append_assoc],
          by rw [k3, h3, List.append_assoc], by rw [k4, h4, List.append_assoc]⟩
        simpa using hc
      · rw [if_neg hc]
        obtain ⟨cs', ns', as', k1, k2⟩ := ih a ha
        exact ⟨cs', ns', as', .skip (fun x => hc (by simp [x.1, x.2])) k1, k2⟩
  obtain ⟨cs, ns, as, k1, k2, k3, k4⟩ := key (List.finRange 32) r (.refl r)
  refine ⟨cs, ns, as, ⟨f1, f2, ?_⟩, k2, k3, k4⟩
  rw [← hn, hmark]
  exact k1

end Sys2Proof.Machine
end

