-- ==== Sys2Proof/Laws/Completions.lean ====
section
/-! SUPPORT. How a step ends, in the words of the statements: a request that is turned down, answered alone, or answered
with other results after it, and the completion of a step that answers no request. Also the handle's check and the slot
updates as Safety.lean states them. -/

namespace Sys2Proof.Machine

/-! ### Steps of requests -/

/-- A request whose work refuses it. -/
theorem State.turnedDown_step {s : State} {p : PortId} {i : SessionId} {rq : Request} {rest : List Request} {k : ReqKind}
    {w : Run × Reply} {st : Status} (h : w = refusal (Run.start s) st) :
    s.turnedDown ((s.takeInbox p rest).answerRequest p rq.tag k (some i) w.2 w.1) p i rq rest k st := by
  rw [h]; exact State.refusal_step rest k st

/-- A request whose work changes the tables and produces nothing but its final answer. -/
theorem State.finalAnswer_step {s : State} {p : PortId} {i : SessionId} {rq : Request} {rest : List Request} {k : ReqKind}
    {st : Status} {res : Result} {r : Run} {w : Run × Reply} (hw : w = (r, .final st res)) (hd : r.due = [])
    (hc : r.cache = []) (hn : r.notices = []) (ha : r.alerts = []) :
    let t := (s.takeInbox p rest).answerRequest p rq.tag k (some i) w.2 w.1
    s.finalAnswer t p i rq rest k st res [] ∧ t.tab = r.tab := by
  subst hw
  intro t
  have hp := Run.runPasses_none hd
  have h := State.final_step (s := s) (p := p) (i := i) (rq := rq) rest k st res (r := r) (by rw [hp]; exact hc)
    (by rw [hp]; exact hn)
  rw [hp, ha] at h
  obtain ⟨_, _, h3, _⟩ := s.answerRequest_parts p rest rq.tag k i (.final st res) r
  rw [hp] at h3
  exact ⟨h, h3⟩

/-- A request whose final answer other results follow, those of the passes included. -/
theorem State.answersFirst_step {s : State} {p : PortId} {i : SessionId} {rq : Request} {rest : List Request} {k : ReqKind}
    {st : Status} {res : Result} {r : Run} {w : Run × Reply} (hw : w = (r, .final st res)) (hs : r.tab.Sound)
    (hn : r.now = s.clock) (hl : r.recallLimit = s.recallLimit) (ha : r.alerts = []) :
    s.answersFirst ((s.takeInbox p rest).answerRequest p rq.tag k (some i) w.2 w.1) p i rq rest k st res r.cache r.notices
      r.tab (fun v => v ∈ r.due) := by
  subst hw
  obtain ⟨h1, h2, h3, h4, h5, h6, h7⟩ := s.answerRequest_parts p rest rq.tag k i (.final st res) r
  obtain ⟨cs, ns, as, hwk, hc, hno, hal⟩ := r.runPasses_wakes s hs hn hl
  rw [ha, List.nil_append] at hal
  rw [hc, hno] at h4
  rw [hc, hno, hal] at h5 h6
  refine ⟨h1, h2, h7, cs, ns, as, ?_, h4, h5, h6⟩
  rw [h3]
  exact hwk

/-! ### Steps that answer no request -/

/-- The completion of a step: the results of its own work come first, then those of the passes. -/
theorem Run.complete_completes (r : Run) (s : State) (h : r.tab.Sound) (hn : r.now = s.clock)
    (hl : r.recallLimit = s.recallLimit) :
    s.completes (r.complete s) r.tab (fun v => v ∈ r.due) r.cache r.notices r.alerts := by
  obtain ⟨cs, ns, as, hw, hc, hno, ha⟩ := r.runPasses_wakes s h hn hl
  refine ⟨cs, ns, as, hw, ⟨rfl, fun q => State.port_settle _ q, ?_⟩⟩
  rw [← hc, ← hno, ← ha]
  exact ⟨rfl, rfl, rfl⟩

/-- The completion of a step whose passes do nothing. -/
theorem Run.complete_still (r : Run) (s : State) (hp : r.runPasses = r) :
    s.completesWith (r.complete s) r.cache r.notices r.alerts ∧ (r.complete s).tab = r.tab := by
  have h : r.complete s = (r.handOver s).settle := by unfold Run.complete; rw [hp]
  rw [h]
  exact ⟨⟨rfl, fun q => State.port_settle _ q, rfl, rfl, rfl⟩, rfl⟩

/-- The completion of a step with no pass due. -/
theorem Run.complete_plain (r : Run) (s : State) (hd : r.due = []) :
    s.completesWith (r.complete s) r.cache r.notices r.alerts ∧ (r.complete s).tab = r.tab :=
  r.complete_still s (Run.runPasses_none hd)

/-- A command's status may be set before its step completes or after. -/
theorem State.finishCommand_eq (s : State) (refusal : Option Reason) (r : Run) :
    s.finishCommand refusal r = r.complete (s.finishStatus refusal) := rfl

/-- The pointer may advance before the visit's step completes or after. -/
theorem State.visitStep_eq (s : State) : s.visitStep =
    ((Run.start s).visit (s.tab.examined s.sweepPtr.val)).complete { s with sweepPtr := s.sweepPtr + 1 } := rfl

/-- The state of a command that has been carried out, before its results are handed over (R174). -/
theorem State.finishStatus_none (s : State) : State.finishStatus { s with lastServed := 9 } none = s.finished .done := rfl

/-- A command is refused (R175). -/
theorem State.refuseCommand_eq (s : State) (reason : Reason) :
    State.refuseCommand { s with lastServed := 9 } reason = s.finished (.refused reason) := rfl

/-- A step whose own work ended the waits of the entries `es`, and raises the alerts `as` itself (R50). -/
theorem Run.Ended.completes {r u : Run} {reason : WaitReason} {es : List Nat} (e : r.Ended u reason es) (h : r.tab.Sound)
    (hc : r.cache = []) (hn : r.notices = []) (ha : r.alerts = []) (hd : r.due = []) (s : State) (hk : r.now = s.clock)
    (hl : r.recallLimit = s.recallLimit) (as : List Alert) :
    s.completes (({ u with alerts := u.alerts ++ as } : Run).complete s) u.tab (r.tab.endsOn (fun d => d ∈ es))
        (r.tab.endAnswers reason es) (r.tab.endNotices reason es) as := by
  have h1 := ({ u with alerts := u.alerts ++ as } : Run).complete_completes s (e.toRun.moves.keeps h)
    (e.toRun.now.trans hk) (e.toRun.limit.trans hl)
  have hdue : (fun v => v ∈ u.due) = r.tab.endsOn (fun d => d ∈ es) := by
    funext v
    apply propext
    rw [e.due v, hd]
    simp
  have h3 : u.cache = r.tab.endAnswers reason es := by rw [e.cache, hc, List.nil_append]
  have h4 : u.notices = r.tab.endNotices reason es := by rw [e.notices, hn, List.nil_append]
  have h5 : u.alerts ++ as = as := by rw [e.alerts, ha, List.nil_append]
  dsimp only at h1
  rw [hdue] at h1
  rw [← h3, ← h4]
  conv => arg 7; rw [← h5]
  exact h1

/-- A step whose own work retired the leases in the slots `ns` for the cause `c`, and raises the alerts `as` after
theirs (R59, R60). -/
theorem Run.Retired.completes {r u : Run} {c : Cause} {ns : List Nat} (e : r.Retired u c ns) (h : r.tab.Sound)
    (hc : r.cache = []) (hn : r.notices = []) (ha : r.alerts = []) (hd : r.due = []) (s : State) (hk : r.now = s.clock)
    (hl : r.recallLimit = s.recallLimit) (as : List Alert) :
    s.completes (({ u with alerts := u.alerts ++ as } : Run).complete s) u.tab (r.tab.retiresOn (fun m => m ∈ ns))
        (r.tab.goneAnswers ns) (r.tab.goneNotices c ns) (r.tab.goneAlerts c ns ++ as) := by
  have h1 := ({ u with alerts := u.alerts ++ as } : Run).complete_completes s (e.toRun.moves.keeps h)
    (e.toRun.now.trans hk) (e.toRun.limit.trans hl)
  have hdue : (fun v => v ∈ u.due) = r.tab.retiresOn (fun m => m ∈ ns) := by
    funext v
    apply propext
    rw [e.due v, hd]
    simp
  have h3 : u.cache = r.tab.goneAnswers ns := by rw [e.cache, hc, List.nil_append]
  have h4 : u.notices = r.tab.goneNotices c ns := by rw [e.notices, hn, List.nil_append]
  have h5 : u.alerts ++ as = r.tab.goneAlerts c ns ++ as := by rw [e.alerts, ha, List.nil_append]
  dsimp only at h1
  rw [hdue] at h1
  rw [← h3, ← h4]
  conv => arg 7; rw [← h5]
  exact h1

/-- A step that ends every wait of session `i` (R53). -/
theorem Run.endWaitsOf_completes (r s : State) (i : SessionId) (h : r.tab.Sound) (hk : r.clock = s.clock)
    (hl : r.recallLimit = s.recallLimit) (as : List Alert) (u : Run)
    (hu : u = (Run.start r).endWaitsOf i .sessionEnded) :
    s.completes (({ u with alerts := u.alerts ++ as } : Run).complete s) u.tab
        (r.tab.endsOn (fun e => r.tab.entryOwner e = some i))
        (r.tab.endAnswers .sessionEnded (r.tab.waitsOf i)) (r.tab.endNotices .sessionEnded (r.tab.waitsOf i)) as ∧
      r.tab.waitsEnded u.tab (fun e => r.tab.entryOwner e = some i) := by
  have e := (Run.start r).endWaitsOf_ended i .sessionEnded h
  rw [← hu] at e
  have h1 := e.completes h rfl rfl rfl rfl s hk hl as
  refine ⟨?_, e.tab.congr (fun e _ _ => h.mem_waitsOf i e) h⟩
  have : (Run.start r).tab.endsOn (fun d => d ∈ (Run.start r).tab.waitsOf i) =
      r.tab.endsOn (fun e => r.tab.entryOwner e = some i) := by
    funext v
    apply propext
    unfold Tables.endsOn
    constructor
    · rintro ⟨d, we, h3, h4, h5⟩; exact ⟨d, we, h3, (h.mem_waitsOf i d).mp h4, h5⟩
    · rintro ⟨d, we, h3, h4, h5⟩; exact ⟨d, we, h3, (h.mem_waitsOf i d).mpr h4, h5⟩
  rw [← this]
  exact h1

/-! ### Deadlines and claims -/

theorem passed_iff (now d : Time) : passed now d = true ↔ (now - d).toNat < 2147483648 := by
  unfold passed; exact decide_eq_true_iff

/-- A claim is raised as R21 says. -/
theorem raiseClaim_raised (q : List TimerClaim) (c : TimerClaim) : claimRaised q (raiseClaim q c) c := by
  have meets : ∀ d : TimerClaim, d.meets c = true ↔ d.kind = c.kind ∧ d.session = c.session := by
    intro d; simp [TimerClaim.meets]
  unfold claimRaised raiseClaim
  constructor
  · intro h
    rw [if_neg]
    simp only [List.any_eq_true, not_exists, meets]
    intro d ⟨hd, h1, h2⟩
    exact h d hd h1 h2
  · rintro ⟨d, hd, h1, h2⟩
    rw [if_pos (by simp only [List.any_eq_true, meets]; exact ⟨d, hd, h1, h2⟩)]
    refine ⟨by simp, ?_⟩
    intro k d hk
    rw [List.getElem?_map, hk]
    simp only [Option.map_some, meets, TimerClaim.merge, List.contains_eq_mem, decide_not]

/-! ### Handles and slots -/

/-- `slotsWhere` lists slots in rising order. -/
theorem Tables.slotsWhere_rises {t : Tables} (h : t.slots.wf) (p : Nat → Lease → Bool) :
    (t.slotsWhere p).Pairwise (· < ·) := by
  unfold Tables.slotsWhere
  rw [List.pairwise_map]
  exact h.1.filter _

/-- A handle that passes its check (R6). -/
theorem State.checkHandle_holds {s : State} {i : SessionId} {h : Handle} {l : Lease} {ten : Tenure}
    (hh : s.holds i h l ten) : s.tab.checkHandle i h = .ok (l, ten) := by
  obtain ⟨h1, h2, h3⟩ := hh
  unfold Tables.checkHandle
  rw [if_neg (by simp only [Config.slots]; omega)]
  have hb : s.tab.body h.slot = .held l ten := by unfold Tables.body; rw [h2]
  rw [hb]; simp [h2, h3]

/-- A handle that fails its check (R6). -/
theorem State.checkHandle_fault {s : State} {i : SessionId} {h : Handle} {st : Status} (hh : s.handleFault i h st) :
    s.tab.checkHandle i h = .error st := by
  unfold Tables.checkHandle
  rcases hh with ⟨h1, rfl⟩ | ⟨h1, h2, rfl⟩ | ⟨h1, ⟨l, ten, h2, h3⟩, rfl⟩
  · rw [if_pos (by simp only [Config.slots]; omega)]
  · rw [if_neg (by simp only [Config.slots]; omega)]
    cases hb : s.tab.body h.slot with
    | free => rfl
    | pending l d => rfl
    | held l ten =>
      dsimp only
      rw [if_pos]
      intro hg
      refine h2 ⟨l, ten, ?_⟩
      unfold Tables.body at hb
      generalize s.tab.slots.get h.slot = x at *
      cases x; simp only at hb hg; rw [hb, hg]
  · rw [if_neg (by simp only [Config.slots]; omega)]
    have hb : s.tab.body h.slot = .held l ten := by unfold Tables.body; rw [h2]
    rw [hb]; simp [h2, h3]

/-- A slot's new body changes that slot alone. -/
theorem Tables.slotOnly_setBody (t : Tables) (n : Nat) (b : SlotBody) : t.slotOnly (t.setBody n b) n b := by
  refine ⟨?_, ?_, rfl, rfl⟩
  · show (t.slots.set n _).get n = _; rw [SlotTable.get_set, if_pos rfl]
  · intro m hm; show (t.slots.set n _).get m = _; rw [SlotTable.get_set, if_neg hm]

/-- A slot that becomes FREE, when nothing but its body had changed before. -/
theorem Tables.freedOnly_freeSlot (t u : Tables) (n : Nat) (i : SessionId) (hg : (u.slots.get n).gen = (t.slots.get n).gen)
    (ho : ∀ m, m ≠ n → u.slots.get m = t.slots.get m) (hoc : u.occupancy = t.occupancy)
    (hsc : u.slotCounts = t.slotCounts) : t.freedOnly (u.freeSlot n i) n i := by
  refine ⟨?_, ?_, by rw [← hoc]; rfl, ?_⟩
  · show (u.slots.set n _).get n = _; rw [SlotTable.get_set, if_pos rfl, hg]
  · intro m hm; show (u.slots.set n _).get m = _; rw [SlotTable.get_set, if_neg hm, ho m hm]
  · intro j; rw [Tables.slotCount_freeSlot]
    have : ∀ j, u.slotCount j = t.slotCount j := by intro j; unfold Tables.slotCount; rw [hsc]
    rw [this, this]
    by_cases h : i = j
    · subst h; simp
    · simp [h, Ne.symm h]

end Sys2Proof.Machine
end

