-- ==== Sys2Proof/Laws/Effects.lean ====
section
/-! SUPPORT. What each command does to the state while RESET_N is high, as one function, so that a law of every command is
a case split over `effect`. -/

namespace Sys2Proof.Machine

/-- The effect of a command while RESET_N is high. -/
def effect : Instr → State → State
  | .powerOnReset, s => s.powerOn
  | .resetRelease _, s => s
  | .startupComplete, s => if s.device = .starting then s.startUp else s
  | .requestIntake p tag body, s => s.requestFrame p tag body
  | .keepalive p tag, s => s.requestFrame p tag [ReqKind.keepalive.code]
  | .noticeAck p tag seq, s => s.requestFrame p tag (ReqKind.noticeAck.code :: beBytes 2 seq.toNat)
  | .join, s => s.takeRequest .join (fun p rq s => s.joinStep p rq)
  | .acquire, s => s.sessionRequest .acquire acquireWork
  | .convert, s => s.sessionRequest .convert convertWork
  | .renew, s => s.sessionRequest .renew renewWork
  | .release, s => s.sessionRequest .release releaseWork
  | .cancel, s => s.sessionRequest .cancel cancelWork
  | .query, s => s.sessionRequest .query queryWork
  | .list, s => s.sessionRequest .list listWork
  | .depart, s => s.takeRequest .depart (fun p rq s => s.departStep p rq)
  | .sweepTimerExpiry, s => s.advanceClock.sweepTimer.judgeTimers
  | .sweepVisit, s => s.takeVisit State.visitStep
  | .termTimerExpiry i, s => s.judgeTerm i
  | .graceTimerExpiry i, s => s.judgeGrace i
  | .lossClaim, s => s.takeTimer .loss State.lossStep
  | .linkLostClaim, s => s.takeTimer .linkLost State.linkLostStep
  | .graceClaim, s => s.takeTimer .grace State.graceStep
  | .purgeSection, s => s.takePurge State.purgeStep
  | .define, s => s.takeCode 0x01 State.defineStep
  | .online, s => s.takeCode 0x02 State.onlineStep
  | .freeze, s => s.takeCode 0x03 State.freezeStep
  | .thaw, s => s.takeCode 0x04 State.thawStep
  | .offline, s => s.takeCode 0x05 State.offlineStep
  | .offlineForce, s => s.takeCode 0x06 State.offlineForceStep
  | .revoke, s => s.takeCode 0x07 State.revokeStep
  | .closeSession, s => s.takeCode 0x08 State.closeSessionStep
  | .portReset, s => s.takeCode 0x09 State.portResetStep
  | .tableClear, s => s.takeCode 0x0A State.tableClearStep
  | .setConfig, s => s.takeCode 0x0B State.setConfigStep
  | .registerWrite item data, s => (s.point item).writeItem item data
  | .alertRead transfer, s => State.readBytes transfer.bytes (s.openRead transfer.goesOn)
  | .recordWindowSelect kind index, s => (s.point 0x68).select kind index
  | .helloReceive p, s => s.helloFrame p
  | .badFrame p, s => s.rpBadFrame p
  | .discardedFrame p kind, s => s.discardFrame p kind
  | .linkSilenceTimeout p, s => s.silenceTimeout p
  | .helloTransmit l, s => s.helloDue l
  | .frameTransmitComplete p, s => s.transmitted p
  | .gateHelloReceive, s => s.setGate s.gate.helloFrame
  | .gateQuery tag body, s => s.queryFrame tag body
  | .gateLookup, s => s.lookupOldest
  | .gateAnswerSent, s => s.setGate s.gate.answerSent
  | .gateBadFrame, s => s.gateBad
  | .gateLinkSilenceTimeout, s => s.gateSilence
  | .gateDiscardedFrame kind, s => s.setGate (s.gate.discardFrame kind)
  | .badCommand, s => s.takeCommand namesNoCommand (fun _ s => s.refuseCommand .badCommand)

/-- Every command but POWER_ON_RESET and RESET_RELEASE is an event that waits for RESET_N. -/
theorem exec_effect {c : Instr} (h1 : c ≠ .powerOnReset) (h2 : ∀ straps, c ≠ .resetRelease straps) (s : State) :
    exec c s = event (effect c) s := by
  cases c
  case powerOnReset => exact absurd rfl h1
  case resetRelease st => exact absurd rfl (h2 st)
  all_goals rfl

/-- With RESET_N high a command does its effect. -/
theorem exec_high {s : State} (h : s.resetN = true) (c : Instr) : exec c s = .next (effect c s) := by
  by_cases h1 : c = .powerOnReset
  · subst h1; rfl
  · by_cases h2 : ∃ straps, c = .resetRelease straps
    · obtain ⟨st, rfl⟩ := h2
      simp only [exec, execResetRelease, effect, h, if_true]
    · rw [exec_effect h1 (fun st hc => h2 ⟨st, hc⟩)]
      exact event_high h _

/-- With RESET_N low only POWER_ON_RESET and RESET_RELEASE do anything. -/
theorem exec_low {s : State} (h : s.resetN = false) {c : Instr} (h1 : c ≠ .powerOnReset)
    (h2 : ∀ straps, c ≠ .resetRelease straps) : exec c s = .next s := by
  rw [exec_effect h1 h2]; simp [event, h]

end Sys2Proof.Machine
end

