-- ==== Sys2Proof/Laws/Commands.lean ====
section
/-! SUPPORT. The steps of the Maintenance Port's commands, case by case: which check refuses, and what is carried out
(chapters 6.3, 10.4). -/

namespace Sys2Proof.Machine

/-- The waiting command is taken and its step runs (R21, R174). -/
theorem exec_command {s : State} {c : Command} (ht : s.takesCommand c) {code : Byte} (hc : c.code = code) (i : Instr)
    (f : Command → State → State) (h : effect i s = s.takeCode code f) :
    exec i s = .next (f c { s with lastServed := 9 }) := by
  rw [exec_high ht.1.1, h]
  exact congrArg _ (State.takeCode_eq ht hc f)

theorem State.onVolume_eq (s : State) {c : Command} {v : VolumeId} (h : c.arg1.toNat = v.val) (w : VolumeId → State) :
    s.onVolume c w = w v := by
  unfold State.onVolume; rw [h, finOf_val]

theorem State.onVolume_big (s : State) {c : Command} (h : 31 < c.arg1.toNat) (w : VolumeId → State) :
    s.onVolume c w = s.refuseCommand .badArgument := by
  unfold State.onVolume finOf; rw [dif_neg (by omega)]

/-- A command that changes the tables and produces nothing (R174). -/
theorem State.finishCommand_plain (s : State) (t : Tables) :
    let u := State.finishCommand { s with lastServed := 9 } none ((Run.start { s with lastServed := 9 }).withTab t)
    (s.finished .done).completesWith u [] [] [] ∧ u.tab = t := by
  intro u
  obtain ⟨a, b⟩ := Run.complete_plain ((Run.start { s with lastServed := 9 }).withTab t) (s.finished .done) rfl
  exact ⟨a, b⟩

/-- A volume has slots when some slot on it is not FREE (R124). -/
theorem Tables.Sound.hasSlots_iff {t : Tables} (h : t.Sound) (v : VolumeId) :
    t.hasSlots v = true ↔ ∃ n l, (t.body n).lease? = some l ∧ l.volume = v := by
  unfold Tables.hasSlots
  rw [Bool.not_eq_true', List.isEmpty_eq_false_iff]
  constructor
  · intro hn
    obtain ⟨n, hn⟩ := List.exists_mem_of_ne_nil _ hn
    obtain ⟨l, a, b⟩ := (Tables.mem_slotsWhere h.wf _ n).mp hn
    exact ⟨n, l, a, of_decide_eq_true b⟩
  · rintro ⟨n, l, a, b⟩ hn
    have : n ∈ t.slotsWhere (fun _ l => decide (l.volume = v)) :=
      (Tables.mem_slotsWhere h.wf _ n).mpr ⟨l, a, decide_eq_true b⟩
    rw [hn] at this; exact absurd this (by simp)

/-! ### Volume commands -/

theorem State.defineStep_cases (s : State) {c : Command} {v : VolumeId} (hv : c.arg1.toNat = v.val) :
    (1099511627776 < c.arg3.toNat → s.defineStep c = s.refuseCommand .badArgument) ∧
    (c.arg3.toNat ≤ 1099511627776 → (s.volume v).state ≠ .offline → s.defineStep c = s.refuseCommand .badState) ∧
    (c.arg3.toNat ≤ 1099511627776 → (s.volume v).state = .offline →
      s.defineStep c = s.finishCommand none ((Run.start s).withTab
        { s.tab with volumes := upd s.tab.volumes v { s.volume v with size := c.arg3.toNat } })) := by
  unfold State.defineStep
  rw [s.onVolume_eq hv]
  simp only [Config.maxSize]
  refine ⟨fun h => by rw [if_pos h], fun h1 h2 => by rw [if_neg (by omega), if_pos h2], fun h1 h2 => ?_⟩
  rw [if_neg (by omega), if_neg (fun x => x h2)]

theorem State.onlineStep_cases (s : State) {c : Command} {v : VolumeId} (hv : c.arg1.toNat = v.val) :
    ((s.volume v).state ≠ .offline → s.onlineStep c = s.refuseCommand .badState) ∧
    ((s.volume v).state = .offline → (s.volume v).size = 0 → s.onlineStep c = s.refuseCommand .noSize) ∧
    ((s.volume v).state = .offline → (s.volume v).size ≠ 0 →
      (4294967295 ≤ (s.volume v).fence → s.onlineStep c = s.refuseCommand .exhausted) ∧
      ((s.volume v).fence < 4294967295 →
        s.onlineStep c = s.finishCommand none ((Run.start s).withTab (s.tab.setVolumeState v .online)))) := by
  unfold State.onlineStep
  rw [s.onVolume_eq hv]
  simp only [Config.lastToken]
  refine ⟨fun h => by rw [if_pos h], fun h1 h2 => by rw [if_neg (fun x => x h1), if_pos h2], fun h1 h2 => ⟨fun h3 => ?_, fun h3 => ?_⟩⟩
  · rw [if_neg (fun x => x h1), if_neg h2, if_pos h3]
  · rw [if_neg (fun x => x h1), if_neg h2, if_neg (by omega)]; rfl

theorem State.freezeStep_cases (s : State) {c : Command} {v : VolumeId} (hv : c.arg1.toNat = v.val) :
    ((s.volume v).state ≠ .online → s.freezeStep c = s.refuseCommand .badState) ∧
    ((s.volume v).state = .online →
      s.freezeStep c = s.finishCommand none ((Run.start s).withTab (s.tab.setVolumeState v .frozen))) := by
  unfold State.freezeStep
  rw [s.onVolume_eq hv]
  exact ⟨fun h => by rw [if_pos h], fun h => by rw [if_neg (fun x => x h)]; rfl⟩

theorem State.thawStep_cases (s : State) {c : Command} {v : VolumeId} (hv : c.arg1.toNat = v.val) :
    ((s.volume v).state ≠ .frozen → s.thawStep c = s.refuseCommand .badState) ∧
    ((s.volume v).state = .frozen →
      (4294967295 ≤ (s.volume v).fence → s.thawStep c = s.refuseCommand .exhausted) ∧
      ((s.volume v).fence < 4294967295 → s.thawStep c = s.finishCommand none
        (((Run.start s).withTab (s.tab.setVolumeState v .online)).passDue v))) := by
  unfold State.thawStep
  rw [s.onVolume_eq hv]
  simp only [Config.lastToken]
  refine ⟨fun h => by rw [if_pos h], fun h1 => ⟨fun h2 => ?_, fun h2 => ?_⟩⟩
  · rw [if_neg (fun x => x h1), if_pos h2]
  · rw [if_neg (fun x => x h1), if_neg (by omega)]

theorem State.offlineStep_cases (s : State) {c : Command} {v : VolumeId} (hv : c.arg1.toNat = v.val) (h : s.tab.Sound) :
    ((∃ n l, (s.tab.body n).lease? = some l ∧ l.volume = v) → s.offlineStep c = s.refuseCommand .slotsPresent) ∧
    ((∀ n l, (s.tab.body n).lease? = some l → l.volume ≠ v) →
      s.offlineStep c = s.finishCommand none ((Run.start s).withTab (s.tab.setVolumeState v .offline))) := by
  unfold State.offlineStep
  rw [s.onVolume_eq hv]
  refine ⟨fun hx => by rw [if_pos ((h.hasSlots_iff v).mpr hx)], fun hx => ?_⟩
  rw [if_neg]
  · rfl
  · rw [h.hasSlots_iff v]
    rintro ⟨n, l, a, b⟩; exact hx n l a b

/-- OFFLINE-FORCE's work: the waits of the volume's list end, its leases are revoked, and it goes OFFLINE (R125). -/
theorem State.offlineForceStep_cases (s : State) {c : Command} {v : VolumeId} (hv : c.arg1.toNat = v.val) :
    ((s.volume v).state = .offline → s.offlineForceStep c = s.finishCommand none (Run.start s)) ∧
    ((s.volume v).state ≠ .offline → s.offlineForceStep c = s.finishCommand none ((Run.start s).forceOffline v)) := by
  unfold State.offlineForceStep
  rw [s.onVolume_eq hv]
  exact ⟨fun h => by rw [if_pos h], fun h => by rw [if_neg h]⟩

/-! ### The other commands -/

theorem State.revokeStep_cases (s : State) (c : Command) :
    (4095 < c.arg1.toNat → s.revokeStep c = s.refuseCommand .badArgument) ∧
    (c.arg1.toNat ≤ 4095 →
      ((∀ l ten, s.tab.body c.arg1.toNat ≠ .held l ten) → s.revokeStep c = s.refuseCommand .notHeld) ∧
      (∀ l ten, s.tab.body c.arg1.toNat = .held l ten → s.revokeStep c =
        s.finishCommand none ((Run.start s).retire (.revocation .maintenance) c.arg1.toNat))) := by
  unfold State.revokeStep Tables.isHeld
  simp only [Config.slots]
  refine ⟨fun h => by rw [if_pos (by omega)], fun h => ⟨fun hn => ?_, fun l ten hb => ?_⟩⟩
  · rw [if_neg (by omega)]
    cases hb : s.tab.body c.arg1.toNat with
    | free => rfl
    | pending l d => rfl
    | held l ten => exact absurd hb (hn l ten)
  · rw [if_neg (by omega), hb]; rfl

theorem State.closeSessionStep_cases (s : State) (c : Command) :
    (11 < c.arg1.toNat → s.closeSessionStep c = s.refuseCommand .badArgument) ∧
    ∀ i : SessionId, c.arg1.toNat = i.val →
      ((s.session i).state = .free ∨ (s.session i).state = .closing → s.closeSessionStep c = s.refuseCommand .badState) ∧
      ((s.session i).state = .active ∨ (s.session i).state = .orphaned → s.closeSessionStep c = s.closeSession i) := by
  unfold State.closeSessionStep
  refine ⟨fun h => by unfold finOf; rw [dif_neg (by omega)], fun i hi => ⟨fun h => ?_, fun h => ?_⟩⟩
  · rw [hi, finOf_val]
    rcases h with h | h <;> simp only [h]
  · rw [hi, finOf_val]
    rcases h with h | h <;> simp only [h]

theorem State.portResetStep_cases (s : State) (c : Command) :
    (5 < c.arg1.toNat → s.portResetStep c = s.refuseCommand .badArgument) ∧
    ∀ p : PortId, c.arg1.toNat = p.val → s.portResetStep c = (s.resetPort p).finishCommand none (Run.start s) := by
  unfold State.portResetStep
  refine ⟨fun h => by unfold finOf; rw [dif_neg (by omega)], fun p hp => by rw [hp, finOf_val]⟩

end Sys2Proof.Machine
end

