-- ==== Sys2Proof/Laws/LinkLaws.lean ====
section
/-! SUPPORT. A Requester Port that goes DOWN, and one that trains again (R146, R149). -/

namespace Sys2Proof.Machine

/-- The port in DOWN trains when it may (R146). -/
theorem State.port_retrain_self (s : State) (p : PortId) (h : (s.port p).link = .down) :
    (s.retrain p).port p = s.trains p (s.port p) := by
  rw [State.port_retrain]
  unfold State.trains Port.train
  by_cases hc : (s.cfg p).enable = true ∧ s.device = .ready
  · rw [if_pos ⟨rfl, h, hc⟩, if_pos hc]
  · rw [if_neg (fun x => hc x.2.2), if_neg hc]

/-- A port that is DOWN stays as it is. -/
theorem State.portDown_down (s : State) (p : PortId) (h : (s.port p).link = .down) : s.portDown p = s := by
  unfold State.portDown; rw [if_pos h]

/-- A port that is TRAINING or UP does not train again. -/
theorem State.retrain_up (s : State) (p : PortId) (h : (s.port p).link ≠ .down) : s.retrain p = s := by
  unfold State.retrain; rw [if_neg (fun x => h x.1)]

/-- A port that goes DOWN (R149). -/
theorem State.portDown_drops (s : State) (p : PortId) (h : (s.port p).link ≠ .down) :
    s.drops (s.portDown p) p (s.port p).dropped := by
  unfold State.portDown
  rw [if_neg h]
  unfold State.discardInbox
  cases hb : s.boundSession p with
  | none =>
    refine ⟨?_, ?_, ?_, ?_, rfl⟩
    · simp [State.raise, State.setPort]
    · intro j; rw [hb, if_neg (by simp)]; rfl
    · intro q
      simp only [State.port_raise, State.port_setPort]
      by_cases hq : q = p
      · subst hq; simp [Port.dropped]
      · rw [if_neg (Ne.symm hq), if_neg hq, if_neg (Ne.symm hq)]
    · rw [hb]; rfl
  | some i =>
    refine ⟨?_, ?_, ?_, ?_, rfl⟩
    · simp [State.raise, State.setPort, State.setSession, State.claim]
    · intro j
      rw [hb]
      simp only [State.session_raise, State.session_claim, State.session_setPort, State.session_setSession, Option.some.injEq]
      by_cases hj : i = j
      · subst hj; simp [Session.without]
      · rw [if_neg hj, if_neg hj]
    · intro q
      simp only [State.port_raise, State.port_claim, State.port_setPort, State.port_setSession]
      by_cases hq : q = p
      · subst hq; simp [Port.dropped]
      · rw [if_neg (Ne.symm hq), if_neg hq, if_neg (Ne.symm hq)]
    · rw [hb]
      exact raiseClaim_raised _ _

/-- A port that went DOWN is given another record. -/
theorem State.drops.setPort {s t : State} {p : PortId} {x : Port} (h : s.drops t p x) (y : Port) :
    s.drops (t.setPort p y) p y := by
  refine ⟨?_, h.sessions, ?_, h.claim, h.alert⟩
  · rw [h.only]; rfl
  · intro q
    rw [State.port_setPort]
    by_cases hq : q = p
    · rw [if_pos hq.symm, if_pos hq]
    · rw [if_neg (Ne.symm hq), if_neg hq, h.ports q, if_neg hq]

/-- A port that went DOWN trains again if it may (R146). -/
theorem State.drops.retrain {s t : State} {p : PortId} {x : Port} (h : s.drops t p x) (hx : x.link = .down) :
    s.drops (t.retrain p) p (s.trains p x) := by
  have hp : t.port p = x := by rw [h.ports p, if_pos rfl]
  have hc : t.cfg p = s.cfg p := by rw [h.only]; rfl
  have hd : t.device = s.device := by rw [h.only]
  have hr : t.retrain p = t.setPort p (s.trains p x) := by
    unfold State.retrain State.trains
    rw [hp, hc, hd]
    by_cases hb : (s.cfg p).enable = true ∧ s.device = .ready
    · rw [if_pos ⟨hx, hb⟩, if_pos hb]; rfl
    · rw [if_neg (fun y => hb y.2), if_neg hb]
      unfold State.setPort
      have : upd t.ports p x = t.ports := by
        rw [← hp]
        unfold upd State.port
        simp
      rw [this]
  rw [hr]
  exact h.setPort _

end Sys2Proof.Machine
end

