-- ==== Sys2Proof/Laws/Sessions.lean ====
section
/-! SUPPORT. Session records through a step's results: answers and notices change a record's own lists and counters, and
nothing that binds, names or times it; who is bound to a port; the queue and cache laws. -/

namespace Sys2Proof.Machine

/-! ### What results change -/

/-- `y` is `x` with other outstanding tags, cache, notice queue, next number and overflow mark. -/
def Session.results (x y : Session) : Prop :=
  y = { x with outstanding := y.outstanding, cache := y.cache, queue := y.queue, nextSeq := y.nextSeq,
               overflow := y.overflow }

theorem Session.results.refl (x : Session) : x.results x := rfl

theorem Session.results.trans {x y z : Session} (a : x.results y) (b : y.results z) : x.results z := by
  unfold Session.results at *
  cases x; cases y; cases z
  simp only [Session.mk.injEq] at *
  simp [a, b]

theorem Session.conclude_results (x : Session) (e : CacheEntry) : x.results (x.conclude e) := by
  unfold Session.results Session.conclude Session.dropTag
  rfl

theorem Session.offer_results (x : Session) (n : Notice) : x.results (x.offer n).1 := by
  unfold Session.offer
  split
  · rfl
  · split <;> rfl

theorem concludeIn_results (ss : Vector Session 12) (c : SessionId × CacheEntry) (j : SessionId) :
    ss[j].results (concludeIn ss c)[j] := by
  unfold concludeIn
  rw [upd_get]
  split
  · next h => subst h; exact Session.conclude_results _ _
  · exact .refl _

theorem offerIn_results (acc : Vector Session 12 × List Alert) (n : SessionId × Notice) (j : SessionId) :
    acc.1[j].results (offerIn acc n).1[j] := by
  unfold offerIn
  simp only
  rw [upd_get]
  split
  · next h => subst h; exact Session.offer_results _ _
  · exact .refl _

theorem concludes_results (j : SessionId) : ∀ (cs : List (SessionId × CacheEntry)) (ss : Vector Session 12),
    ss[j].results (cs.foldl concludeIn ss)[j]
  | [], _ => .refl _
  | c :: cs, ss => (concludeIn_results ss c j).trans (concludes_results j cs (concludeIn ss c))

theorem offers_results (j : SessionId) : ∀ (ns : List (SessionId × Notice)) (acc : Vector Session 12 × List Alert),
    acc.1[j].results (ns.foldl offerIn acc).1[j]
  | [], _ => .refl _
  | n :: ns, acc => (offerIn_results acc n j).trans (offers_results j ns (offerIn acc n))

/-- The completion of a step changes nothing in a record but what answers and notices change. -/
theorem Run.complete_results (r : Run) (s : State) (j : SessionId) : (s.session j).results ((r.complete s).session j) :=
  (concludes_results j r.runPasses.cache s.sessions).trans
    (offers_results j r.runPasses.notices (r.runPasses.cache.foldl concludeIn s.sessions, []))

/-! ### Who is bound to a port (R79) -/

theorem boundTo_some {ss : Vector Session 12} {p : PortId} {i : SessionId} (h : boundTo ss p = some i) :
    ss[i].port = some p := by
  unfold boundTo at h
  have := List.find?_some h
  simpa using this

theorem boundTo_none {ss : Vector Session 12} {p : PortId} (h : boundTo ss p = none) (i : SessionId) :
    ss[i].port ≠ some p := by
  unfold boundTo at h
  have := List.find?_eq_none.mp h i (List.mem_finRange i)
  simpa using this

/-- A port is bound to the one session that names it. -/
theorem boundTo_eq {ss : Vector Session 12} {next : Nat} (h : SessionLaw ss next) {p : PortId} {i : SessionId}
    (hp : ss[i].port = some p) : boundTo ss p = some i := by
  cases hb : boundTo ss p with
  | none => exact absurd hp (boundTo_none hb i)
  | some j =>
    have hj := boundTo_some hb
    rw [h.ports j i (by rw [hj]; rfl) (by rw [hj, hp])]

/-- Who is bound depends only on the ports that the records name. -/
theorem boundTo_congr {ss tt : Vector Session 12} (p : PortId) (h : ∀ i : SessionId, tt[i].port = ss[i].port) :
    boundTo tt p = boundTo ss p := by
  unfold boundTo
  congr 1
  funext i
  rw [h i]

/-! ### The laws of one record (R27, R164) -/

theorem pushCache_length (c : List CacheEntry) (e : CacheEntry) : (pushCache c e).length ≤ 16 := by
  unfold pushCache
  simp only [List.length_drop, Config.cacheEntries]
  omega

theorem Session.cacheLaw_conclude (x : Session) (e : CacheEntry) : (x.conclude e).cacheLaw := pushCache_length x.cache e

theorem seq_back (seq : BitVec 16) (a : Nat) : seq - BitVec.ofNat 16 a = seq + 1 - BitVec.ofNat 16 (a + 1) := by
  apply BitVec.eq_of_toNat_eq
  have := seq.isLt
  have h1 : BitVec.toNat (1 : BitVec 16) = 1 := rfl
  simp only [BitVec.toNat_sub, BitVec.toNat_add, BitVec.toNat_ofNat, h1]
  omega

/-- A notice that joins the queue keeps the numbering. -/
theorem Session.noticeLaw_enqueue {x : Session} (h : x.noticeLaw) (n : Notice) (hl : x.queue.length < 16) :
    (x.enqueue n).noticeLaw := by
  obtain ⟨h1, h2⟩ := h
  unfold Session.noticeLaw Session.enqueue
  refine ⟨by simp only [List.length_append, List.length_singleton, Config.noticePlaces]; omega, ?_⟩
  intro k hk
  have hk' : k < x.queue.length + 1 := by simpa using hk
  simp only [List.length_append, List.length_singleton]
  by_cases hx : k < x.queue.length
  · rw [List.getElem_append_left hx, h2 k hx, seq_back]
    congr 2
    omega
  · have he : k = x.queue.length := by omega
    subst he
    rw [List.getElem_append_right (Nat.le_refl _)]
    simp only [Nat.sub_self, List.getElem_cons_zero]
    rw [show x.queue.length + 1 - x.queue.length = 0 + 1 by omega, ← seq_back]
    simp

theorem Session.noticeLaw_offer {x : Session} (h : x.noticeLaw) (n : Notice) : (x.offer n).1.noticeLaw := by
  unfold Session.offer
  split
  · exact h
  · split
    · exact h
    · next hl => exact x.noticeLaw_enqueue h n (by simpa [Config.noticePlaces] using hl)

/-- The laws of a record, together. -/
def Session.lawful (x : Session) : Prop := x.noticeLaw ∧ x.cacheLaw

theorem Session.lawful_conclude {x : Session} (h : x.lawful) (e : CacheEntry) : (x.conclude e).lawful :=
  ⟨h.1, x.cacheLaw_conclude e⟩

theorem Session.lawful_offer {x : Session} (h : x.lawful) (n : Notice) : (x.offer n).1.lawful := by
  refine ⟨x.noticeLaw_offer h.1 n, ?_⟩
  have := h.2
  unfold Session.offer Session.cacheLaw at *
  split
  · exact this
  · split <;> exact this

theorem Session.lawful_freed : Session.freed.lawful := by
  refine ⟨⟨Nat.zero_le _, ?_⟩, Nat.zero_le _⟩
  intro k h
  exact absurd h (by simp [Session.freed])

/-- Records with the same queue, next number and cache keep the same laws. -/
theorem Session.lawful_congr {x y : Session} (h : x.lawful) (hq : y.queue = x.queue) (hn : y.nextSeq = x.nextSeq)
    (hc : y.cache = x.cache) : y.lawful := by
  unfold Session.lawful Session.noticeLaw Session.cacheLaw at *
  rw [hq, hn, hc]
  exact h

/-- Marking notices sent or waiting keeps the numbering. -/
theorem Session.lawful_marks {x : Session} (h : x.lawful) (f : QueuedNotice → QueuedNotice)
    (hf : ∀ q, (f q).seq = q.seq) : Session.lawful { x with queue := x.queue.map f } := by
  refine ⟨⟨by simpa using h.1.1, ?_⟩, h.2⟩
  intro k hk
  simp only [List.length_map] at hk ⊢
  rw [List.getElem_map, hf, h.1.2 k hk]

/-- The newest part of a queue keeps the numbering. -/
theorem Session.noticeLaw_drop {x : Session} (h : x.noticeLaw) (d : Nat) :
    Session.noticeLaw { x with queue := x.queue.drop d } := by
  obtain ⟨h1, h2⟩ := h
  refine ⟨by simp only [List.length_drop]; omega, ?_⟩
  intro k hk
  simp only [List.length_drop] at hk ⊢
  rw [List.getElem_drop, h2 (d + k) (by omega)]
  congr 2
  omega

theorem ackQueue_drop (q : List QueuedNotice) (n : BitVec 16) : ∃ d, ackQueue q n = q.drop d := by
  unfold ackQueue
  cases q with
  | nil => exact ⟨0, rfl⟩
  | cons a q =>
    simp only
    split
    · exact ⟨_, rfl⟩
    · exact ⟨0, rfl⟩

theorem Session.lawful_acknowledge {x : Session} (h : x.lawful) (n : BitVec 16) : (x.acknowledge n).lawful := by
  unfold Session.acknowledge
  simp only
  split
  · have h0 : Session.lawful { x with queue := [], overflow := false } :=
      ⟨⟨Nat.zero_le _, fun k hk => absurd hk (by simp)⟩, h.2⟩
    exact ⟨Session.noticeLaw_enqueue h0.1 .resync (Nat.zero_lt_succ 15), h0.2⟩
  · obtain ⟨d, hd⟩ := ackQueue_drop x.queue n
    rw [hd]
    exact ⟨x.noticeLaw_drop h.1 d, h.2⟩

/-! ### Orphaning (R90) -/

/-- The orphaning step of a session that is bound to port `p` (R90). -/
theorem State.orphan_orphaned {s : State} {i : SessionId} {p : PortId} (hp : (s.session i).port = some p) (hs : s.tab.Sound)
    (hl : SessionLaw s.sessions s.nextNumber) (hc : s.configLaw) : s.orphaned (s.orphan i) i p := by
  let s' : State := { s with
        sessions := upd s.sessions i { (s.session i).without (s.port p).inbox with
          state := .orphaned, port := none, term := .stopped,
          grace := .running (s.clock + BitVec.ofNat 32 (s.cfg p).orphanGrace) }
        ports := upd s.ports p { s.port p with inbox := [] } }
  have hb : s.boundSession p = some i := boundTo_eq hl hp
  have hmk : s.makeOrphan i = s' := by
    unfold State.makeOrphan State.unbind; rw [hp]; dsimp only
    unfold State.discardInbox; rw [hb]; dsimp only
    unfold State.graceOf; rw [hp]; dsimp only
    simp only [s', State.setSession, State.setPort, upd_upd, State.session, State.port, Session.without, deadlineAt,
      Fin.getElem_fin, upd_same_val, State.cfg]
  obtain ⟨a, b⟩ := Run.endWaitsOf_completes s s' i hs rfl rfl [(.sessionOrphaned, .session i)] _ rfl
  let r := (Run.start s).endWaitsOf i .sessionEnded
  have hr : ((Run.start s).endWaitsOf i .sessionEnded).alarm (.sessionOrphaned, .session i) =
      ({ r with alerts := r.alerts ++ [(.sessionOrphaned, .session i)] } : Run) := rfl
  have hor : s.orphan i =
      (({ r with alerts := r.alerts ++ [(.sessionOrphaned, .session i)] } : Run).complete s').judgeGrace i := by
    unfold State.orphan; simp only; rw [hr, hmk]
  rw [hor]
  generalize ht1 : (({ r with alerts := r.alerts ++ [(.sessionOrphaned, .session i)] } : Run).complete s') = t1
  have ha' : s'.completes t1 r.tab (s.tab.endsOn (fun e => s.tab.entryOwner e = some i))
      (s.tab.endAnswers .sessionEnded (s.tab.waitsOf i)) (s.tab.endNotices .sessionEnded (s.tab.waitsOf i))
      [(.sessionOrphaned, .session i)] := by rw [← ht1]; exact a
  have hres : (s'.session i).results (t1.session i) := by rw [← ht1]; exact Run.complete_results _ s' i
  have hsi : s'.session i = { (s.session i).without (s.port p).inbox with
          state := .orphaned, port := none, term := .stopped,
          grace := .running (s.clock + BitVec.ofNat 32 (s.cfg p).orphanGrace) } := upd_same _ _ _
  have hgr : (t1.session i).grace = .running (s.clock + BitVec.ofNat 32 (s.cfg p).orphanGrace) := by
    unfold Session.results at hres; rw [hres, hsi]
  have hnu : (t1.session i).number = (s.session i).number := by
    unfold Session.results at hres; rw [hres, hsi]; rfl
  have hclk : t1.clock = s.clock := by rw [← ht1]; rfl
  have htq : t1.timersQueue = s.timersQueue := by rw [← ht1]; rfl
  have hcfg := (hc.1 p).2.2.2.2.2.2
  refine ⟨t1, r.tab, ha', b, ?_, ?_⟩
  · intro h0
    unfold State.judgeGrace; rw [hgr]; dsimp only
    rw [if_neg]
    rw [passed_iff, hclk]
    have := s.clock.isLt
    simp only [BitVec.toNat_sub, BitVec.toNat_add, BitVec.toNat_ofNat]
    omega
  · intro h0
    have : t1.judgeGrace i = (t1.setSession i { t1.session i with grace := .expired s.clock }).claim
        { kind := .grace, session := i, number := (s.session i).number, ports := [] } := by
      unfold State.judgeGrace; rw [hgr]; dsimp only
      rw [h0, if_pos, hnu]
      · simp
      · rw [passed_iff, hclk]; simp
    rw [this]
    refine ⟨rfl, rfl, ?_⟩
    show claimRaised s.timersQueue (raiseClaim t1.timersQueue _) _
    rw [htq]
    exact raiseClaim_raised _ _

end Sys2Proof.Machine
end

