-- ==== Sys2Proof/Laws/Keeping.lean ====
section
/-! SUPPORT. One relation between a state and a later one that carries every law along: the lease structures move, each
record keeps its identity or is given up, numbers go up, and the alert and configuration laws are kept. Every shared
operation on the whole state is onward. -/

namespace Sys2Proof.Machine

/-- What may become of a record: it keeps its name and number while it is not FREE, it keeps its port or loses it, and its
queue and cache keep their laws. -/
structure Session.Onward (x y : Session) : Prop where
  kept : y.state ≠ .free → x.state ≠ .free ∧ y.name = x.name ∧ y.number = x.number
  port : y.port = none ∨ y.port = x.port
  lawful : x.lawful → y.lawful

theorem Session.Onward.refl (x : Session) : x.Onward x := ⟨fun h => ⟨h, rfl, rfl⟩, .inr rfl, id⟩

theorem Session.Onward.trans {x y z : Session} (a : x.Onward y) (b : y.Onward z) : x.Onward z := by
  refine ⟨fun h => ?_, ?_, fun h => b.lawful (a.lawful h)⟩
  · obtain ⟨h1, h2, h3⟩ := b.kept h
    obtain ⟨k1, k2, k3⟩ := a.kept h1
    exact ⟨k1, h2.trans k2, h3.trans k3⟩
  · rcases b.port with h | h
    · exact .inl h
    · rcases a.port with k | k
      · exact .inl (h.trans k)
      · exact .inr (h.trans k)

/-- A record with the same identity, queue, next number and cache. -/
theorem Session.Onward.same {x y : Session} (hs : y.state ≠ .free → x.state ≠ .free) (hn : y.name = x.name)
    (hm : y.number = x.number) (hp : y.port = none ∨ y.port = x.port) (hq : y.queue = x.queue) (hx : y.nextSeq = x.nextSeq)
    (hc : y.cache = x.cache) : x.Onward y :=
  ⟨fun h => ⟨hs h, hn, hm⟩, hp, fun h => Session.lawful_congr h hq hx hc⟩

theorem Session.Onward.freed (x : Session) : x.Onward Session.freed :=
  ⟨fun h => absurd rfl h, .inl rfl, fun _ => Session.lawful_freed⟩

theorem Session.conclude_onward (x : Session) (e : CacheEntry) : x.Onward (x.conclude e) :=
  ⟨fun h => ⟨h, rfl, rfl⟩, .inr rfl, fun h => x.lawful_conclude h e⟩

theorem Session.offer_onward (x : Session) (n : Notice) : x.Onward (x.offer n).1 := by
  have hr := x.offer_results n
  have hl : x.lawful → (x.offer n).1.lawful := fun h => x.lawful_offer h n
  generalize (x.offer n).1 = y at *
  unfold Session.results at hr
  refine ⟨fun h => ?_, .inr ?_, hl⟩
  · rw [hr] at h ⊢; exact ⟨h, rfl, rfl⟩
  · rw [hr]

theorem Session.acknowledge_onward (x : Session) (n : BitVec 16) : x.Onward (x.acknowledge n) := by
  have hl : x.lawful → (x.acknowledge n).lawful := fun h => x.lawful_acknowledge h n
  have hp : (x.acknowledge n).state = x.state ∧ (x.acknowledge n).name = x.name ∧ (x.acknowledge n).number = x.number ∧
      (x.acknowledge n).port = x.port := by
    unfold Session.acknowledge; simp only
    split <;> exact ⟨rfl, rfl, rfl, rfl⟩
  obtain ⟨h1, h2, h3, h4⟩ := hp
  exact ⟨fun h => ⟨h1 ▸ h, h2, h3⟩, .inr h4, hl⟩

theorem Session.restartTerm_onward (x : Session) (d : Time) : x.Onward (x.restartTerm d) := by
  unfold Session.restartTerm
  split
  · exact .same id rfl rfl (.inr rfl) rfl rfl rfl
  · exact .refl x

theorem Session.parkTag_onward (x : Session) (tag : Tag) : x.Onward (x.parkTag tag) :=
  .same id rfl rfl (.inr rfl) rfl rfl rfl

theorem Session.resetSend_onward (x : Session) : x.Onward x.resetSend :=
  ⟨fun h => ⟨h, rfl, rfl⟩, .inr rfl, fun h => Session.lawful_marks h _ (fun _ => rfl)⟩

theorem Session.markSent_onward (x : Session) (seq : BitVec 16) : x.Onward (x.markSent seq) :=
  ⟨fun h => ⟨h, rfl, rfl⟩, .inr rfl, fun h => Session.lawful_marks h _ (fun q => by split <;> rfl)⟩

/-! ### Session tables -/

theorem upd_onward (ss : Vector Session 12) (i : SessionId) (y : Session) (h : ss[i].Onward y) (j : SessionId) :
    ss[j].Onward (upd ss i y)[j] := by
  rw [upd_get]
  split
  · next e => subst e; exact h
  · exact .refl _

/-- Records that are given up or kept break no binding and no name. -/
theorem SessionLaw.onward {ss tt : Vector Session 12} {m n : Nat} (h : SessionLaw ss m) (hr : ∀ i : SessionId, ss[i].Onward tt[i])
    (hm : m ≤ n) : SessionLaw tt n := by
  refine ⟨Nat.le_trans h.counter hm, fun i j hi hij => ?_, fun i j hi hj hn => ?_, fun i j hi hj hn => ?_, fun i hi => ?_⟩
  · have a : tt[i].port = ss[i].port := (hr i).port.resolve_left (fun e => by rw [e] at hi; exact absurd hi (by simp))
    have b : tt[j].port = ss[j].port := (hr j).port.resolve_left (fun e => by rw [hij, e] at hi; exact absurd hi (by simp))
    exact h.ports i j (a ▸ hi) (by rw [← a, ← b]; exact hij)
  · obtain ⟨a1, a2, _⟩ := (hr i).kept hi
    obtain ⟨b1, b2, _⟩ := (hr j).kept hj
    exact h.names i j a1 b1 (by rw [← a2, ← b2]; exact hn)
  · obtain ⟨a1, _, a3⟩ := (hr i).kept hi
    obtain ⟨b1, _, b3⟩ := (hr j).kept hj
    exact h.numbers i j a1 b1 (by rw [← a3, ← b3]; exact hn)
  · obtain ⟨a1, _, a3⟩ := (hr i).kept hi
    have := h.issued i a1
    rw [a3]
    omega

/-! ### Alerts (R179, R181) -/

/-- The records of an alert set differ in kind or source. -/
def distinctAlerts (set : List AlertRecord) : Prop := set.Pairwise (fun a b => ¬(a.kind = b.kind ∧ a.source = b.source))

theorem mergeAlert_distinct {set : List AlertRecord} (h : distinctAlerts set) (a : Alert) :
    distinctAlerts (mergeAlert set a) := by
  unfold mergeAlert distinctAlerts at *
  split
  · rw [List.pairwise_map]
    refine h.imp ?_
    intro x y hxy
    split <;> split <;> exact hxy
  · next hn =>
    rw [List.pairwise_append]
    refine ⟨h, List.pairwise_singleton _ _, ?_⟩
    intro x hx y hy
    rw [List.mem_singleton.mp hy]
    intro e
    exact hn (List.any_eq_true.mpr ⟨x, hx, by simp [e.1, e.2]⟩)

theorem mergeAlert_filled (set : List AlertRecord) (a : Alert) : mergeAlert set a ≠ [] := by
  unfold mergeAlert
  split
  · next h =>
    cases set with
    | nil => exact absurd h (by simp)
    | cons x xs => simp
  · simp

theorem mergeAlerts_distinct : ∀ (as : List Alert) {set : List AlertRecord}, distinctAlerts set →
    distinctAlerts (mergeAlerts set as)
  | [], _, h => h
  | a :: as, _, h => mergeAlerts_distinct as (mergeAlert_distinct h a)

theorem mergeAlerts_filled : ∀ (as : List Alert) {set : List AlertRecord}, set ≠ [] → mergeAlerts set as ≠ []
  | [], _, h => h
  | a :: as, set, _ => mergeAlerts_filled as (mergeAlert_filled set a)

theorem State.alertLaw_raise {s : State} (h : s.alertLaw) (as : List Alert) : (s.raise as).alertLaw := by
  refine ⟨?_, mergeAlerts_distinct as h.2⟩
  show (s.alertN && as.isEmpty) = (mergeAlerts s.alerts as).isEmpty
  cases as with
  | nil => rw [h.1]; simp [mergeAlerts]
  | cons a as =>
    have := mergeAlerts_filled as (mergeAlert_filled s.alerts a)
    have : (mergeAlerts s.alerts (a :: as)).isEmpty = false := by
      cases hm : mergeAlerts s.alerts (a :: as) with
      | nil => exact absurd hm this
      | cons _ _ => rfl
    rw [this]; simp

/-! ### States -/

/-- What may become of a state while the laws are kept. -/
structure State.Onward (s t : State) : Prop where
  tab : s.tab.Sound → Moves s.tab t.tab
  sessions : ∀ i, (s.session i).Onward (t.session i)
  number : s.nextNumber ≤ t.nextNumber
  alerts : s.alertLaw → t.alertLaw
  config : s.configLaw → t.configLaw

theorem State.Onward.refl (s : State) : s.Onward s := ⟨fun _ => .refl _, fun _ => .refl _, Nat.le_refl _, id, id⟩

theorem State.Onward.trans {s t u : State} (a : s.Onward t) (b : t.Onward u) : s.Onward u :=
  ⟨fun h => (a.tab h).trans (b.tab ((a.tab h).keeps h)), fun i => (a.sessions i).trans (b.sessions i),
    Nat.le_trans a.number b.number, fun h => b.alerts (a.alerts h), fun h => b.config (a.config h)⟩

/-- A state with the same tables, records, alerts and configuration. -/
theorem State.Onward.same {s t : State} (ht : t.tab = s.tab) (hs : t.sessions = s.sessions) (hn : t.nextNumber = s.nextNumber)
    (ha : t.alerts = s.alerts) (hx : t.alertN = s.alertN) (hc : t.config = s.config) (hl : t.recallLimit = s.recallLimit)
    (ho : t.occThreshold = s.occThreshold) : s.Onward t := by
  refine ⟨fun _ => ht ▸ .refl _, fun i => ?_, hn ▸ Nat.le_refl _, ?_, ?_⟩
  · unfold State.session; rw [hs]; exact .refl _
  · unfold State.alertLaw; rw [ha, hx]; exact id
  · unfold State.configLaw State.cfg; rw [hc, hl, ho]; exact id

/-- A state whose records went onward and that is otherwise the same. -/
theorem State.Onward.records {s : State} {ss : Vector Session 12} (h : ∀ i : SessionId, (s.session i).Onward ss[i]) :
    s.Onward { s with sessions := ss } :=
  ⟨fun _ => .refl _, h, Nat.le_refl _, id, id⟩

theorem State.Onward.setSession {s : State} {i : SessionId} {y : Session} (h : (s.session i).Onward y) :
    s.Onward (s.setSession i y) :=
  .records (upd_onward s.sessions i y h)

theorem State.Onward.setPort (s : State) (p : PortId) (x : Port) : s.Onward (s.setPort p x) :=
  .same rfl rfl rfl rfl rfl rfl rfl rfl

theorem State.Onward.settle (s : State) : s.Onward s.settle := .same rfl rfl rfl rfl rfl rfl rfl rfl

theorem State.Onward.claim (s : State) (c : TimerClaim) : s.Onward (s.claim c) := .same rfl rfl rfl rfl rfl rfl rfl rfl

theorem State.Onward.raise (s : State) (as : List Alert) : s.Onward (s.raise as) :=
  ⟨fun _ => .refl _, fun _ => .refl _, Nat.le_refl _, fun h => State.alertLaw_raise h as, id⟩

theorem State.Onward.retrain (s : State) (p : PortId) : s.Onward (s.retrain p) := by
  rw [State.retrain_frame]; exact .same rfl rfl rfl rfl rfl rfl rfl rfl

theorem State.Onward.retrainFold (l : List PortId) (s : State) : s.Onward (l.foldl State.retrain s) := by
  rw [State.retrainFold_frame]; exact .same rfl rfl rfl rfl rfl rfl rfl rfl

theorem State.Onward.gateRetrain (s : State) : s.Onward s.gateRetrain := by
  rw [State.gateRetrain_frame]; exact .same rfl rfl rfl rfl rfl rfl rfl rfl

theorem State.Onward.discardInbox (s : State) (p : PortId) : s.Onward (s.discardInbox p) := by
  unfold State.discardInbox
  simp only
  refine .trans ?_ (.setPort _ _ _)
  split
  · exact .setSession (.same id rfl rfl (.inr rfl) rfl rfl rfl)
  · exact .refl s

theorem State.Onward.portDown (s : State) (p : PortId) : s.Onward (s.portDown p) := by
  unfold State.portDown
  split
  · exact .refl s
  · simp only
    refine .trans ?_ (.raise _ _)
    split
    · exact .trans (.trans (.discardInbox s p) (.setPort _ _ _)) (.claim _ _)
    · exact .trans (.discardInbox s p) (.setPort _ _ _)

theorem State.Onward.unbind (s : State) (i : SessionId) : s.Onward (s.unbind i) := by
  unfold State.unbind
  split
  · exact .trans (.discardInbox s _) (.setSession (.same id rfl rfl (.inl rfl) rfl rfl rfl))
  · exact .setSession (.same id rfl rfl (.inr rfl) rfl rfl rfl)

theorem State.Onward.closeAs {s : State} {i : SessionId} (k : CloseKind) (h : (s.session i).state ≠ .free) :
    s.Onward (s.closeAs i k) := by
  have hs : s.Onward (s.setSession i ((s.session i).closing k)) := .setSession (.same (fun _ => h) rfl rfl (.inr rfl) rfl rfl rfl)
  exact hs.trans (.same rfl rfl rfl rfl rfl rfl rfl rfl)

theorem State.Onward.finishStatus (s : State) (r : Option Reason) : s.Onward (s.finishStatus r) :=
  .same rfl rfl rfl rfl rfl rfl rfl rfl

theorem State.Onward.setGate (s : State) (g : Gate) : s.Onward (s.setGate g) := .same rfl rfl rfl rfl rfl rfl rfl rfl

theorem concludes_onward (j : SessionId) : ∀ (cs : List (SessionId × CacheEntry)) (ss : Vector Session 12),
    ss[j].Onward (cs.foldl concludeIn ss)[j]
  | [], _ => .refl _
  | c :: cs, ss => (upd_onward ss c.1 _ (Session.conclude_onward _ _) j).trans (concludes_onward j cs (concludeIn ss c))

theorem offers_onward (j : SessionId) : ∀ (ns : List (SessionId × Notice)) (acc : Vector Session 12 × List Alert),
    acc.1[j].Onward (ns.foldl offerIn acc).1[j]
  | [], _ => .refl _
  | n :: ns, acc => (upd_onward acc.1 n.1 _ (Session.offer_onward _ _) j).trans (offers_onward j ns (offerIn acc n))

/-- The completion of a step whose work moved the tables. -/
theorem State.Onward.complete {s : State} {r : Run} (h : s.tab.Sound → Moves s.tab r.tab) : s.Onward (r.complete s) := by
  refine ⟨fun hs => (h hs).trans (Run.runPasses_to r ((h hs).keeps hs)).moves, fun i => ?_, Nat.le_refl _, fun ha => ?_,
    fun hc => hc⟩
  · exact (concludes_onward i r.runPasses.cache s.sessions).trans
      (offers_onward i r.runPasses.notices (r.runPasses.cache.foldl concludeIn s.sessions, []))
  · exact State.alertLaw_raise ha _

/-- A completion with nothing but the tables' own work. -/
theorem State.Onward.completeStart {s u : State} (h : u.tab = s.tab) : s.Onward ((Run.start u).complete s) :=
  .complete (fun _ => by show Moves s.tab u.tab; rw [h]; exact .refl _)

theorem State.Onward.giveReply (s : State) (p : PortId) (tag : Tag) (k : ReqKind) (i : Option SessionId) (r : Reply) :
    s.Onward (s.giveReply p tag k i r) := by
  cases r with
  | final st res =>
    cases i with
    | none => exact .setPort _ _ _
    | some i => exact .trans (.records (upd_onward s.sessions i _ (Session.conclude_onward _ _))) (.setPort _ _ _)
  | parked =>
    cases i with
    | none => exact .setPort _ _ _
    | some i => exact .trans (.setSession (Session.parkTag_onward _ _)) (.setPort _ _ _)
  | silent =>
    cases i with
    | none => exact .refl s
    | some i => exact .setSession (Session.parkTag_onward _ _)

/-- The completion of a request's step. -/
theorem State.Onward.answerRequest {s : State} {r : Run} (p : PortId) (tag : Tag) (k : ReqKind) (i : Option SessionId)
    (reply : Reply) (h : s.tab.Sound → Moves s.tab r.tab) : s.Onward (s.answerRequest p tag k i reply r) := by
  have ht : (s.giveReply p tag k i reply).tab = s.tab := by rw [State.giveReply_frame]
  refine .trans (.giveReply s p tag k i reply) (.complete ?_)
  rw [ht]
  exact h

/-- The completion of a command's step. -/
theorem State.Onward.finishCommand {s : State} {r : Run} (c : Option Reason) (h : s.tab.Sound → Moves s.tab r.tab) :
    s.Onward (s.finishCommand c r) :=
  .trans (.complete h) (.finishStatus _ _)

end Sys2Proof.Machine
end

