-- ==== Sys2Proof/Laws/Reads.lean ====
section
/-! SUPPORT. What a read transfer does: how it goes through one item, how it goes on, and what it leaves alone (R172, R181,
R182). -/

namespace Sys2Proof.Machine

/-- A byte of a read changes only the transfer, the item pointer, and what the alert item and the write-only item move. -/
theorem State.readByte_frame (s : State) :
    s.readByte = { s with itemPtr := s.readByte.itemPtr, readLatch := s.readByte.readLatch,
                          readOut := s.readByte.readOut, openReads := s.readByte.openReads,
                          alerts := s.readByte.alerts, alertN := s.readByte.alertN } := by
  unfold State.readByte State.shiftOut State.latch
  repeat' split
  all_goals rfl

/-- The same of a whole read. -/
theorem State.readBytes_frame : ∀ (k : Nat) (s : State), ∃ ptr latch out opens alerts alertN,
    State.readBytes k s = { s with itemPtr := ptr, readLatch := latch, readOut := out, openReads := opens,
                                   alerts := alerts, alertN := alertN }
  | 0, s => ⟨s.itemPtr, s.readLatch, s.readOut, s.openReads, s.alerts, s.alertN, rfl⟩
  | k + 1, s => by
    obtain ⟨ptr, latch, out, opens, alerts, alertN, h⟩ := State.readBytes_frame k s.readByte
    refine ⟨ptr, latch, out, opens, alerts, alertN, ?_⟩
    show State.readBytes k s.readByte = _
    rw [h]
    generalize hx : s.readByte = x
    have h1 := s.readByte_frame
    rw [hx] at h1
    rw [h1]

theorem State.readBytes_add : ∀ (m n : Nat) (s : State),
    State.readBytes (m + n) s = State.readBytes n (State.readBytes m s)
  | 0, n, s => by rw [Nat.zero_add]; rfl
  | m + 1, n, s => by
    rw [show m + 1 + n = m + n + 1 by omega]
    exact State.readBytes_add m n s.readByte

/-- What has been returned before stands in front of what a byte returns. -/
theorem State.readByte_prefix (s : State) (o : List Byte) :
    State.readByte { s with readOut := o ++ s.readOut } = { s.readByte with readOut := o ++ s.readByte.readOut } := by
  have h : ∀ x : State, State.shiftOut { x with readOut := o ++ x.readOut } =
      { x.shiftOut with readOut := o ++ x.shiftOut.readOut } := by
    intro x
    unfold State.shiftOut
    cases hx : x.readLatch <;> simp
  unfold State.readByte
  cases hl : s.readLatch.isEmpty with
  | false => simp only [Bool.false_eq_true, if_false]; exact h s
  | true =>
    simp only [if_true]
    have : State.latch { s with readOut := o ++ s.readOut } = { s.latch with readOut := o ++ s.latch.readOut } := by
      unfold State.latch
      simp only
      split
      · rfl
      · split <;> rfl
    rw [this]; exact h s.latch

theorem State.readBytes_prefix : ∀ (k : Nat) (s : State) (o : List Byte),
    State.readBytes k { s with readOut := o ++ s.readOut } =
      { State.readBytes k s with readOut := o ++ (State.readBytes k s).readOut }
  | 0, _, _ => rfl
  | k + 1, s, o => by
    show State.readBytes k (State.readByte _) = _
    rw [State.readByte_prefix]
    exact State.readBytes_prefix k s.readByte o

/-- A transfer that goes on returns what one longer transfer would have returned after the first bytes. -/
theorem State.readBytes_goesOn (s : State) (g : Bool) (m n : Nat) :
    State.readBytes (m + n) (s.openRead g) =
      let u := State.readBytes m (s.openRead g)
      let t := State.readBytes n (u.openRead true)
      { t with readOut := u.readOut ++ t.readOut } := by
  rw [State.readBytes_add]
  generalize State.readBytes m (s.openRead g) = u
  have := State.readBytes_prefix n (u.openRead true) u.readOut
  rw [← this]
  unfold State.openRead
  simp

/-- The bytes of a latched item are returned in order, whatever has become of the item, and the pointer advances with the
last of them. -/
theorem State.readBytes_latched : ∀ (k : Nat) (s : State), s.readLatch ≠ [] → k ≤ s.readLatch.length →
    State.readBytes k s = { s with
      readOut := s.readOut ++ s.readLatch.take k, readLatch := s.readLatch.drop k,
      itemPtr := if k = s.readLatch.length then s.itemPtr + 1 else s.itemPtr }
  | 0, s, h, _ => by
    have : 0 ≠ s.readLatch.length := fun x => h (List.length_eq_zero_iff.mp x.symm)
    simp [State.readBytes, this]
  | k + 1, s, h, hk => by
    show State.readBytes k s.readByte = _
    cases hl : s.readLatch with
    | nil => exact absurd hl h
    | cons b rest =>
      have hb : s.readByte = { s with readOut := s.readOut ++ [b], readLatch := rest,
                                      itemPtr := if rest.isEmpty then s.itemPtr + 1 else s.itemPtr } := by
        unfold State.readByte State.shiftOut; rw [hl]; rfl
      rw [hl] at hk
      simp only [List.length_cons] at hk ⊢
      rw [hb]
      cases hr : rest with
      | nil =>
        rw [hr] at hk
        have : k = 0 := by simpa using hk
        subst this
        simp [State.readBytes]
      | cons b2 more =>
        rw [State.readBytes_latched k _ (by simp) (by rw [hr] at hk; exact Nat.le_of_succ_le_succ hk)]
        simp

/-- The first bytes of an item: it is latched as it stands, and its bytes are returned in order. -/
theorem State.readBytes_item (k : Nat) (s : State) (hl : s.readLatch = []) (hi : s.itemBytes s.itemPtr.toNat ≠ [])
    (hk : k + 1 ≤ (s.itemBytes s.itemPtr.toNat).length) :
    State.readBytes (k + 1) s = { s with
      readOut := s.readOut ++ (s.itemBytes s.itemPtr.toNat).take (k + 1)
      readLatch := (s.itemBytes s.itemPtr.toNat).drop (k + 1)
      itemPtr := if k + 1 = (s.itemBytes s.itemPtr.toNat).length then s.itemPtr + 1 else s.itemPtr
      alerts := if s.itemPtr = 0x60 then s.alerts.tail else s.alerts
      alertN := if s.itemPtr = 0x60 then s.alerts.tail.isEmpty else s.alertN
      openReads := if s.itemPtr = 0x5B then s.openReads + 1 else s.openReads } := by
  have hlatch : s.latch = { s with
      readLatch := s.itemBytes s.itemPtr.toNat
      alerts := if s.itemPtr = 0x60 then s.alerts.tail else s.alerts
      alertN := if s.itemPtr = 0x60 then s.alerts.tail.isEmpty else s.alertN
      openReads := if s.itemPtr = 0x5B then s.openReads + 1 else s.openReads } := by
    unfold State.latch
    by_cases h1 : s.itemPtr = 0x60
    · have h2 : s.itemPtr ≠ 0x5B := by rw [h1]; decide
      simp only [if_pos h1, if_neg h2]
    · by_cases h2 : s.itemPtr = 0x5B
      · simp only [if_neg h1, if_pos h2]
      · simp only [if_neg h1, if_neg h2]
  have hne : s.latch.readLatch ≠ [] := by rw [hlatch]; exact hi
  have hb : State.readBytes (k + 1) s = State.readBytes (k + 1) s.latch := by
    show State.readBytes k s.readByte = State.readBytes k s.latch.readByte
    have h1 : s.readByte = s.latch.shiftOut := by unfold State.readByte; rw [hl]; rfl
    have h2 : s.latch.readByte = s.latch.shiftOut := by
      unfold State.readByte
      rw [if_neg (by rw [List.isEmpty_iff]; exact hne)]
    rw [h1, h2]
  rw [hb, State.readBytes_latched (k + 1) s.latch hne (by rw [hlatch]; exact hk), hlatch]

/-- A number that names no item returns 0 in every byte, and the pointer stays. -/
theorem State.readBytes_none : ∀ (k : Nat) (s : State), s.readLatch = [] → s.itemBytes s.itemPtr.toNat = [] →
    s.itemPtr ≠ 0x60 → s.itemPtr ≠ 0x5B → State.readBytes k s = { s with readOut := s.readOut ++ List.replicate k 0 }
  | 0, s, _, _, _, _ => by simp [State.readBytes]
  | k + 1, s, hl, hi, h1, h2 => by
    have hlatch : s.latch = s := by
      unfold State.latch
      simp only [if_neg h1, if_neg h2]
      rw [hi, ← hl]
    have hb : s.readByte = { s with readOut := s.readOut ++ [0] } := by
      unfold State.readByte
      rw [hl]
      simp only [List.isEmpty_nil, if_true]
      rw [hlatch]
      unfold State.shiftOut
      rw [hl]
    show State.readBytes k s.readByte = _
    rw [hb, State.readBytes_none k { s with readOut := s.readOut ++ [0] } hl hi h1 h2]
    simp [List.replicate_succ]

end Sys2Proof.Machine
end

