-- ==== Sys2Proof/Laws/Onward.lean ====
section
/-! SUPPORT. Every command but POWER_ON_RESET, STARTUP_COMPLETE and TABLE_CLEAR moves the lease structures and keeps the laws of sessions,
alerts and configuration; those three start them anew. -/

namespace Sys2Proof.Machine

/-! ### Taking a claim -/

theorem takeInbox_onward {s : State} {p rest} : s.Onward (s.takeInbox p rest) := .same rfl rfl rfl rfl rfl rfl rfl rfl

theorem takeRequest_onward (s : State) (k) (step : PortId → Request → State → State)
    (h : ∀ p rq (t : State), t.Onward (step p rq t)) : s.Onward (s.takeRequest k step) := by
  unfold State.takeRequest
  split
  · split
    · exact .trans takeInbox_onward (h _ _ _)
    · exact .refl s
  · exact .refl s

theorem sessionRequest_onward (s : State) (k) (work : SessionId → Request → State → Run × Reply)
    (h : ∀ i rq (t : State), t.tab.Sound → Moves t.tab (work i rq t).1.tab) : s.Onward (s.sessionRequest k work) := by
  unfold State.sessionRequest
  refine takeRequest_onward s k _ ?_
  intro p rq t
  dsimp only
  split
  · exact .answerRequest _ _ _ _ _ (fun _ => .refl _)
  · split
    · exact .answerRequest _ _ _ _ _ (h _ _ _)
    · exact .answerRequest _ _ _ _ _ (fun _ => .refl _)

theorem takeCommand_onward (s : State) (f) (step : Command → State → State)
    (h : ∀ c (t : State), t.Onward (step c t)) : s.Onward (s.takeCommand f step) := by
  unfold State.takeCommand
  split
  · split
    · refine .trans ?_ (h _ _); exact .same rfl rfl rfl rfl rfl rfl rfl rfl
    · exact .refl s
  · exact .refl s

theorem refuse_onward (s : State) (r) : s.Onward (s.refuseCommand r) := .finishStatus _ _

theorem onVolume_onward (s : State) (c) (w : VolumeId → State) (h : ∀ v, s.Onward (w v)) : s.Onward (s.onVolume c w) := by
  unfold State.onVolume; split
  · exact h _
  · exact refuse_onward _ _

theorem endWaitsOf_moves (s : State) (i : SessionId) (h : s.tab.Sound) : Moves s.tab ((Run.start s).endWaitsOf i .sessionEnded).tab :=
  (Run.endWaitsOf_to (Run.start s) i .sessionEnded h).moves

theorem depart_onward (p rq) (t : State) : t.Onward (t.departStep p rq) := by
  unfold State.departStep
  split
  · exact .answerRequest _ _ _ _ _ (fun _ => .refl _)
  · next i _ =>
    split
    · next ha =>
      split
      · refine .trans (State.Onward.closeAs .depart (by rw [ha]; simp)) ?_
        exact .answerRequest _ _ _ _ _ (endWaitsOf_moves t i)
      · exact .answerRequest _ _ _ _ _ (fun _ => .refl _)
    · exact .answerRequest _ _ _ _ _ (fun _ => .refl _)

/-! ### Maintenance commands -/

theorem moveVolume_onward (s : State) (v st) (h : st = .offline → s.tab.hasSlots v = false) : s.Onward (s.moveVolume v st) :=
  .finishCommand none (fun hs => (Run.setVolumeState_to (Run.start s) v st hs h).moves)

theorem define_onward (c) (t : State) : t.Onward (t.defineStep c) := by
  unfold State.defineStep
  refine onVolume_onward _ _ _ (fun v => ?_)
  split
  · exact refuse_onward _ _
  · split
    · exact refuse_onward _ _
    · next h =>
      exact .finishCommand none (fun hs => (Run.define_to (Run.start t) v _ hs (Classical.not_not.mp h)).moves)

theorem online_onward (c) (t : State) : t.Onward (t.onlineStep c) := by
  unfold State.onlineStep
  refine onVolume_onward _ _ _ (fun v => ?_)
  split
  · exact refuse_onward _ _
  · split
    · exact refuse_onward _ _
    · split
      · exact refuse_onward _ _
      · exact moveVolume_onward _ _ _ (by simp)

theorem freeze_onward (c) (t : State) : t.Onward (t.freezeStep c) := by
  unfold State.freezeStep
  refine onVolume_onward _ _ _ (fun v => ?_)
  split
  · exact refuse_onward _ _
  · exact moveVolume_onward _ _ _ (by simp)

theorem thaw_onward (c) (t : State) : t.Onward (t.thawStep c) := by
  unfold State.thawStep
  refine onVolume_onward _ _ _ (fun v => ?_)
  split
  · exact refuse_onward _ _
  · split
    · exact refuse_onward _ _
    · refine .finishCommand none (fun hs => ?_)
      rw [Run.tab_passDue]
      exact (Run.setVolumeState_to (Run.start t) v .online hs (by simp)).moves

theorem offline_onward (c) (t : State) : t.Onward (t.offlineStep c) := by
  unfold State.offlineStep
  refine onVolume_onward _ _ _ (fun v => ?_)
  split
  · exact refuse_onward _ _
  · next h => exact moveVolume_onward _ _ _ (fun _ => by simpa using h)

theorem offlineForce_onward (c) (t : State) : t.Onward (t.offlineForceStep c) := by
  unfold State.offlineForceStep
  refine onVolume_onward _ _ _ (fun v => ?_)
  split
  · exact .finishCommand none (fun _ => .refl _)
  · exact .finishCommand none (fun hs => (Run.forceOffline_to (Run.start t) v hs).moves)

theorem revoke_onward (c) (t : State) : t.Onward (t.revokeStep c) := by
  unfold State.revokeStep
  split
  · exact refuse_onward _ _
  · split
    · exact .finishCommand none (fun hs => (Run.retire_to (Run.start t) _ _ hs).moves)
    · exact refuse_onward _ _

theorem unbind_state (s : State) (i) : ((s.unbind i).session i).state = (s.session i).state := by
  unfold State.unbind
  split
  · simp only [State.session_setSession_self]
    unfold State.discardInbox; simp only
    split
    · next j _ =>
      simp only [State.session_setPort, State.session_setSession]
      split
      · next h => subst h; rfl
      · rfl
    · rfl
  · simp

theorem unbind_tab (s : State) (i) : (s.unbind i).tab = s.tab := by rw [State.unbind_frame]

theorem closeSession_onward (s : State) (i) (h : (s.session i).state ≠ .free) : s.Onward (s.closeSession i) := by
  unfold State.closeSession
  refine (State.Onward.unbind s i).trans ((State.Onward.closeAs .purge (by rw [unbind_state]; exact h)).trans ?_)
  refine .finishCommand none (fun hs => ?_)
  have : ((s.unbind i).closeAs i .purge).tab = s.tab := unbind_tab s i
  rw [this] at hs ⊢
  exact endWaitsOf_moves s i hs

theorem closeSessionStep_onward (c) (t : State) : t.Onward (t.closeSessionStep c) := by
  unfold State.closeSessionStep
  split
  · exact refuse_onward _ _
  · split
    · exact refuse_onward _ _
    · exact refuse_onward _ _
    · next h => exact closeSession_onward _ _ (by rw [h]; simp)
    · next h => exact closeSession_onward _ _ (by rw [h]; simp)

theorem resetPort_onward (s : State) (p) : s.Onward (s.resetPort p) := by
  unfold State.resetPort
  exact (State.Onward.portDown s p).trans ((State.Onward.setPort _ _ _).trans (State.Onward.retrain _ _))

theorem portReset_onward (c) (t : State) : t.Onward (t.portResetStep c) := by
  unfold State.portResetStep
  split
  · exact refuse_onward _ _
  · next p _ =>
    refine .trans (resetPort_onward t p) (.finishCommand none (fun hs => ?_))
    have : (t.resetPort p).tab = t.tab := by
      unfold State.resetPort; simp only; rw [State.retrain_frame]
      have h2 : (t.portDown p).tab = t.tab := by rw [State.portDown_frame]
      exact h2
    show Moves _ t.tab
    rw [this]; exact .refl _

theorem setItem_ok {c d : PortConfig} {i v : Nat} (h : c.setItem i v = some d)
  (hc : 1 ≤ c.windowMax ∧ c.windowMax ≤ 32 ∧ 1 ≤ c.quota ∧ c.quota ≤ 4096 ∧
    10 ≤ c.sessionTerm ∧ c.sessionTerm ≤ 60000 ∧ c.orphanGrace ≤ 30000) :
  1 ≤ d.windowMax ∧ d.windowMax ≤ 32 ∧ 1 ≤ d.quota ∧ d.quota ≤ 4096 ∧
    10 ≤ d.sessionTerm ∧ d.sessionTerm ≤ 60000 ∧ d.orphanGrace ≤ 30000 := by
  unfold PortConfig.setItem inRange at h
  split at h
  all_goals first
    | (split at h
       · next hv => cases h; simp only [Bool.and_eq_true, decide_eq_true_eq] at hv; simp only; omega
       · exact absurd h (by simp))
    | exact absurd h (by simp)

theorem setCfg_onward (s : State) (p) (d : PortConfig) (i v) (h : (s.cfg p).setItem i v = some d) : s.Onward (s.setCfg p d) := by
  refine ⟨fun _ => .refl _, fun _ => .refl _, Nat.le_refl _, id, ?_⟩
  rintro ⟨h1, h2⟩
  refine ⟨fun q => ?_, h2⟩
  have : (s.setCfg p d).cfg q = if p = q then d else s.cfg q := upd_get _ _ _ _
  rw [this]
  split
  · exact setItem_ok h (h1 p)
  · exact h1 q

theorem followEnable_onward (s : State) (p a b) : s.Onward (s.followEnable p a b) := by
  unfold State.followEnable
  split
  · exact .refl _
  · split
    · exact .retrain _ _
    · exact .portDown _ _

theorem followEnable_tab (s : State) (p a b) : (s.followEnable p a b).tab = s.tab := by
  unfold State.followEnable
  split
  · rfl
  · split
    · rw [State.retrain_frame]
    · rw [State.portDown_frame]

theorem setConfig_onward (c) (t : State) : t.Onward (t.setConfigStep c) := by
  unfold State.setConfigStep
  split
  · next p _ =>
    unfold State.setPortItem
    split
    · exact refuse_onward _ _
    · next d hd =>
      refine (setCfg_onward t p d _ _ hd).trans ((followEnable_onward _ _ _ _).trans (.finishCommand none (fun hs => ?_)))
      show Moves _ t.tab
      rw [followEnable_tab]; exact .refl _
  · split
    · unfold State.setDeviceItem
      split
      · split
        · next h =>
          refine State.Onward.trans (t := { t with recallLimit := c.value 2 }) ?_ (.finishCommand none (fun _ => .refl _))
          refine ⟨fun _ => .refl _, fun _ => .refl _, Nat.le_refl _, id, fun hc => ⟨hc.1, ?_, hc.2.2⟩⟩
          rcases h with h | h
          · exact .inl h
          · unfold inRange at h; simp only [Bool.and_eq_true, decide_eq_true_eq] at h; exact .inr h
        · exact refuse_onward _ _
      · split
        · next h =>
          refine State.Onward.trans (t := { t with occThreshold := c.value 2 }) ?_ (.finishCommand none (fun _ => .refl _))
          refine ⟨fun _ => .refl _, fun _ => .refl _, Nat.le_refl _, id, fun hc => ⟨hc.1, hc.2.1, ?_⟩⟩
          unfold inRange at h; simp only [Bool.and_eq_true, decide_eq_true_eq] at h; exact h
        · exact refuse_onward _ _
      · exact refuse_onward _ _
    · exact refuse_onward _ _

/-! ### Timers, purge and sweep -/

theorem judgeTerm_onward (s : State) (i) : s.Onward (s.judgeTerm i) := by
  unfold State.judgeTerm
  split
  · split
    · refine State.Onward.trans (State.Onward.setSession ?_) (.claim _ _)
      exact .same id rfl rfl (.inr rfl) rfl rfl rfl
    · exact .refl _
  · exact .refl _
  · exact .refl _

theorem judgeGrace_onward (s : State) (i) : s.Onward (s.judgeGrace i) := by
  unfold State.judgeGrace
  split
  · split
    · refine State.Onward.trans (State.Onward.setSession ?_) (.claim _ _)
      exact .same id rfl rfl (.inr rfl) rfl rfl rfl
    · exact .refl _
  · exact .refl _
  · exact .refl _

theorem judgeTimers_onward (s : State) : s.Onward s.judgeTimers := by
  unfold State.judgeTimers
  generalize List.finRange 12 = l
  induction l generalizing s with
  | nil => exact .refl s
  | cons i l ih => exact (judgeTerm_onward s i).trans ((judgeGrace_onward _ i).trans (ih _))

theorem makeOrphan_onward (s : State) (i) (h : (s.session i).state ≠ .free) : s.Onward (s.makeOrphan i) := by
  unfold State.makeOrphan
  refine (State.Onward.unbind s i).trans (.setSession (.same ?_ rfl rfl (.inr rfl) rfl rfl rfl))
  intro _; rw [unbind_state]; exact h

theorem orphan_onward (s : State) (i) (h : (s.session i).state ≠ .free) : s.Onward (s.orphan i) := by
  unfold State.orphan
  have : (s.makeOrphan i).tab = s.tab := unbind_tab s i
  have h1 := makeOrphan_onward s i h
  dsimp only
  generalize s.makeOrphan i = u at this h1 ⊢
  have h2 := endWaitsOf_moves s i
  generalize hr : ((Run.start s).endWaitsOf i .sessionEnded) = r at h2 ⊢
  refine h1.trans (.trans (.complete (fun hs => ?_)) (judgeGrace_onward _ _))
  rw [this] at hs ⊢
  exact h2 hs

theorem lossStep_onward (c) (s : State) : s.Onward (s.lossStep c) := by
  unfold State.lossStep
  split
  · next h =>
    refine orphan_onward _ _ ?_
    unfold State.lossHolds at h; simp only [Bool.and_eq_true, decide_eq_true_eq] at h
    rw [h.1.1]; simp
  · exact .refl _

theorem linkLost_onward (c) (s : State) : s.Onward (s.linkLostStep c) := by
  unfold State.linkLostStep
  dsimp only
  split
  · split
    · next h => exact orphan_onward _ _ (by rw [h]; simp)
    · exact .setSession (.same id rfl rfl (.inl rfl) rfl rfl rfl)
    · exact .refl _
  · exact .refl _

theorem graceStep_onward (c) (s : State) : s.Onward (s.graceStep c) := by
  unfold State.graceStep
  split
  · next h =>
    refine State.Onward.closeAs .purge ?_
    unfold State.graceHolds at h; simp only [Bool.and_eq_true, decide_eq_true_eq] at h
    rw [h.1.1]; simp
  · exact .refl _

theorem answerDepart_onward (s : State) (i) : s.Onward (s.answerDepart i) := by
  unfold State.answerDepart
  split
  · exact State.Onward.trans (.discardInbox _ _) (.setPort _ _ _)
  · exact .discardInbox _ _
  · exact .refl _

theorem answerDepart_tab (s : State) (i) : (s.answerDepart i).tab = s.tab := by
  unfold State.answerDepart
  split
  · show (s.discardInbox _).tab = _; rw [State.discardInbox_frame]
  · rw [State.discardInbox_frame]
  · rfl

theorem purgeStep_onward (i) (s : State) : s.Onward (s.purgeStep i) := by
  unfold State.purgeStep
  dsimp only
  split
  · refine State.Onward.trans (t := { s with purgeSection := s.purgeSection + 1 }) (.same rfl rfl rfl rfl rfl rfl rfl rfl) (.complete (fun hs => ?_))
    exact (Run.purge_to (Run.start s) i _ hs).moves
  · have hf : (s.answerDepart i).Onward ((s.answerDepart i).freeSession i) := by
      have hs : (s.answerDepart i).Onward ((s.answerDepart i).setSession i Session.freed) := .setSession (.freed _)
      exact hs.trans (.same rfl rfl rfl rfl rfl rfl rfl rfl)
    refine (answerDepart_onward s i).trans (hf.trans (.complete (fun hs => ?_)))
    have : ((s.answerDepart i).freeSession i).tab = s.tab := answerDepart_tab s i
    rw [this] at hs ⊢
    have : (((Run.start s).purge i s.purgeSection).closedAlert i (s.session i).closeKind).tab = ((Run.start s).purge i s.purgeSection).tab := by
      unfold Run.closedAlert; split <;> rfl
    rw [this]
    exact (Run.purge_to (Run.start s) i _ hs).moves

theorem visitStep_onward (s : State) : s.Onward s.visitStep := by
  unfold State.visitStep
  dsimp only
  refine State.Onward.trans (t := ((Run.start s).visit (s.tab.examined s.sweepPtr.val)).complete s) (.complete (fun hs => ?_)) (.same rfl rfl rfl rfl rfl rfl rfl rfl)
  exact (Run.visit_to (Run.start s) _ hs).moves

theorem takeTimer_onward (s : State) (k) (step : TimerClaim → State → State) (h : ∀ c t, State.Onward t (step c t)) : s.Onward (s.takeTimer k step) := by
  unfold State.takeTimer
  split
  · split
    · split
      · refine .trans ?_ (h _ _); exact .same rfl rfl rfl rfl rfl rfl rfl rfl
      · exact .refl _
    · exact .refl _
  · exact .refl _

/-! ### Frames -/

theorem intakeReply_onward (s s' : State) (p a) (h : s.Onward s') : s.Onward (s.intakeReply s' p a) := by
  unfold State.intakeReply
  split
  · exact h.trans (.setPort _ _ _)
  · exact .refl _

theorem restartTermOf_onward (s : State) (p i) : s.Onward (s.restartTermOf p i) := .setSession (Session.restartTerm_onward _ _)

theorem accept_onward (s : State) (p i rq) : s.Onward (s.accept p i rq) := by
  unfold State.accept
  dsimp only
  refine State.Onward.trans (State.Onward.setSession ?_) (.setPort _ _ _)
  have h0 := Session.restartTerm_onward (s.session i) (deadlineAt s.clock (s.cfg p).sessionTerm)
  generalize (s.session i).restartTerm (deadlineAt s.clock (s.cfg p).sessionTerm) = x at h0 ⊢
  exact h0.trans (.same id rfl rfl (.inr rfl) rfl rfl rfl)

theorem judgeNew_onward (s : State) (p i rq) : s.Onward (s.judgeNew p i rq) := by
  obtain ⟨tag, body⟩ := rq
  have rest : ∀ rq : Request, s.Onward (if (s.session i).window ≤ (s.session i).outstanding.length then
      s.intakeReply s p (intakeAnswer rq.tag rq.body .noCredit)
    else if s.hasRoom p then s.accept p i rq else s) := by
    intro rq
    split
    · exact intakeReply_onward _ _ _ _ (.refl _)
    · split
      · exact accept_onward _ _ _ _
      · exact .refl _
  cases body
  case keepalive => exact intakeReply_onward _ _ _ _ (restartTermOf_onward _ _ _)
  case noticeAck n =>
    unfold State.judgeNew; dsimp only
    have h0 := restartTermOf_onward s p i
    generalize s.restartTermOf p i = u at h0 ⊢
    refine intakeReply_onward _ _ _ _ (h0.trans (State.Onward.setSession ?_))
    exact Session.acknowledge_onward _ _
  case malformed k =>
    cases k
    case keepalive => exact intakeReply_onward _ _ _ _ (.refl _)
    case noticeAck => exact intakeReply_onward _ _ _ _ (.refl _)
    all_goals exact rest _
  all_goals exact rest _

theorem judgeBound_onward (s : State) (p i rq) : s.Onward (s.judgeBound p i rq) := by
  unfold State.judgeBound
  dsimp only
  split
  · exact intakeReply_onward _ _ _ _ (.refl _)
  · split
    · exact intakeReply_onward _ _ _ _ (.refl _)
    · split
      · exact intakeReply_onward _ _ _ _ (.refl _)
      · split
        · exact intakeReply_onward _ _ _ _ (.refl _)
        · exact .refl _
        · exact judgeNew_onward _ _ _ _

theorem judgeUnbound_onward (s : State) (p rq) : s.Onward (s.judgeUnbound p rq) := by
  unfold State.judgeUnbound
  split
  · split
    · exact .refl _
    · split
      · split
        · exact .setPort _ _ _
        · exact .refl _
      · exact intakeReply_onward _ _ _ _ (.refl _)
  · exact intakeReply_onward _ _ _ _ (.refl _)

theorem rpBadFrame_onward (s : State) (p) : s.Onward (s.rpBadFrame p) := by
  unfold State.rpBadFrame
  dsimp only
  split
  · exact .refl _
  · exact .setPort _ _ _
  · split
    · exact .trans (.setPort _ _ _) (.trans (.portDown _ _) (.retrain _ _))
    · exact .setPort _ _ _

theorem requestFrame_onward (s : State) (p tag body) : s.Onward (s.requestFrame p tag body) := by
  unfold State.requestFrame
  split
  · split
    · exact .refl _
    · exact .refl _
    · have h0 := State.Onward.setPort s p (s.port p).goodFrame
      generalize s.setPort p (s.port p).goodFrame = u at h0 ⊢
      refine h0.trans (.trans ?_ (.settle _))
      unfold State.intake
      split
      · exact judgeUnbound_onward _ _ _
      · exact judgeBound_onward _ _ _ _
  · exact rpBadFrame_onward _ _

theorem gateDown_onward (s : State) : s.Onward s.gateDown := .trans (.setGate _ _) (.trans (.raise _ _) (.gateRetrain _))
theorem gateBad_onward (s : State) : s.Onward s.gateBad := by
  unfold State.gateBad
  split
  · exact .refl _
  · dsimp only
    split
    · exact .trans (.setGate _ _) (gateDown_onward _)
    · exact .setGate _ _

/-! ### JOIN -/

theorem findSession_some {s : State} {f} {j} (h : s.findSession f = some j) : f (s.session j) = true := by
  unfold State.findSession at h; exact List.find?_some (p := fun i => f (s.session i)) h
theorem findSession_none {s : State} {f} (h : s.findSession f = none) (j) : f (s.session j) = false := by
  have := List.find?_eq_none.mp h j (List.mem_finRange j); simpa using this

/-- The laws of sessions, queues, caches, alerts and configuration. -/
def State.Lawful (s : State) : Prop := SessionLaw s.sessions s.nextNumber ∧ (∀ i, (s.session i).lawful) ∧ s.alertLaw ∧ s.configLaw

theorem State.Lawful.onward {s t : State} (h : State.Lawful s) (o : s.Onward t) : State.Lawful t :=
  ⟨h.1.onward o.sessions o.number, fun i => (o.sessions i).lawful (h.2.1 i), o.alerts h.2.2.1, o.config h.2.2.2⟩

/-- From lawful states a chain of moves and lawful states: onward, or a JOIN that gives a record a port or a name. -/
def State.Keeps (s t : State) : Prop := (s.tab.Sound → Moves s.tab t.tab) ∧ (State.Lawful s → State.Lawful t)
theorem State.Onward.keeps {s t : State} (o : s.Onward t) : State.Keeps s t := ⟨o.tab, fun h => h.onward o⟩
theorem State.Keeps.trans {s t u : State} (a : State.Keeps s t) (b : State.Keeps t u) : State.Keeps s u :=
  ⟨fun h => (a.1 h).trans (b.1 ((a.1 h).keeps h)), fun h => b.2 (a.2 h)⟩

theorem joinNew_keeps (s : State) (p tag name window) (hb : s.boundSession p = none) : State.Keeps s (s.joinNew p tag name window) := by
  unfold State.joinNew
  have ref : ∀ st, State.Keeps s (s.answerRequest p tag .join none (.final st .empty) (Run.start s)) :=
    fun st => State.Onward.keeps (.answerRequest _ _ _ _ _ (fun _ => .refl _))
  dsimp only
  split
  · next j hj =>
    split
    · exact ref _
    · next h => exact State.Onward.keeps (.trans (State.Onward.closeAs .purge (by rw [h]; simp)) (.answerRequest _ _ _ _ _ (fun _ => .refl _)))
    · exact ref _
    · exact ref _
  · next hno =>
    split
    · exact ref _
    · next k hk =>
      split
      · exact ref _
      · refine State.Keeps.trans (t := { s.setSession k (Session.created p (s.cfg p) name window s.nextNumber s.clock) with nextNumber := s.nextNumber + 1 }) ?_ (State.Onward.keeps (.answerRequest _ _ _ _ _ (fun _ => .refl _)))
        refine ⟨fun _ => .refl _, fun ⟨h1, h2, h3, h4⟩ => ⟨?_, fun i => ?_, h3, h4⟩⟩
        · have get : ∀ j : SessionId, (upd s.sessions k (Session.created p (s.cfg p) name window s.nextNumber s.clock))[j] = if k = j then (Session.created p (s.cfg p) name window s.nextNumber s.clock) else s.session j := fun j => upd_get _ _ _ _
          show SessionLaw (upd s.sessions k _) (s.nextNumber + 1)
          have hn1 := h1.counter
          have hne : ∀ j, (s.session j).state ≠ .free → (s.session j).name ≠ name := by
            intro j hj hn
            have := findSession_none hno j
            unfold holdsName at this; simp [hj, hn] at this
          refine ⟨by omega, fun i j hi hij => ?_, fun i j hi hj hn => ?_, fun i j hi hj hn => ?_, fun i hi => ?_⟩
          · rw [get] at hi; rw [get, get] at hij
            by_cases h : k = i <;> by_cases h' : k = j
            · exact h.symm.trans h'
            · rw [if_pos h, if_neg h'] at hij; exact absurd hij.symm (boundTo_none hb j)
            · rw [if_neg h, if_pos h'] at hij; exact absurd hij (boundTo_none hb i)
            · rw [if_neg h] at hi; rw [if_neg h, if_neg h'] at hij; exact h1.ports i j hi hij
          · rw [get] at hi; rw [get] at hj; rw [get, get] at hn
            by_cases h : k = i <;> by_cases h' : k = j
            · exact h.symm.trans h'
            · rw [if_neg h'] at hj; rw [if_pos h, if_neg h'] at hn; exact absurd hn.symm (hne j hj)
            · rw [if_neg h] at hi; rw [if_neg h, if_pos h'] at hn; exact absurd hn (hne i hi)
            · rw [if_neg h] at hi; rw [if_neg h'] at hj; rw [if_neg h, if_neg h'] at hn; exact h1.names i j hi hj hn
          · rw [get] at hi; rw [get] at hj; rw [get, get] at hn
            by_cases h : k = i <;> by_cases h' : k = j
            · exact h.symm.trans h'
            · rw [if_neg h'] at hj; rw [if_pos h, if_neg h'] at hn
              have := (h1.issued j hj).2; have hn : s.nextNumber = (s.session j).number := hn
              unfold State.session at hn; omega
            · rw [if_neg h] at hi; rw [if_neg h, if_pos h'] at hn
              have := (h1.issued i hi).2; have hn : (s.session i).number = s.nextNumber := hn
              unfold State.session at hn; omega
            · rw [if_neg h] at hi; rw [if_neg h'] at hj; rw [if_neg h, if_neg h'] at hn; exact h1.numbers i j hi hj hn
          · rw [get] at hi; rw [get]
            by_cases h : k = i
            · rw [if_pos h]; show 1 ≤ s.nextNumber ∧ s.nextNumber < _; omega
            · rw [if_neg h] at hi ⊢; have := h1.issued i hi; unfold State.session; omega
        · show Session.lawful (upd s.sessions k _)[i]
          rw [upd_get]; split
          · exact Session.lawful_congr Session.lawful_freed rfl rfl rfl
          · exact h2 i

theorem joinReclaim_keeps (s : State) (p tag name window number) (hb : s.boundSession p = none) : State.Keeps s (s.joinReclaim p tag name window number) := by
  unfold State.joinReclaim
  have ref : ∀ st, State.Keeps s (s.answerRequest p tag .join none (.final st .empty) (Run.start s)) :=
    fun st => State.Onward.keeps (.answerRequest _ _ _ _ _ (fun _ => .refl _))
  dsimp only
  split
  · exact ref _
  · next j hj =>
    split
    · next ho =>
      refine State.Keeps.trans (t := s.setSession j ((s.session j).reclaimed p (s.cfg p) window s.clock)) ?_ (State.Onward.keeps (.answerRequest _ _ _ _ _ (fun _ => .refl _)))
      refine ⟨fun _ => .refl _, fun ⟨h1, h2, h3, h4⟩ => ⟨?_, fun i => ?_, h3, h4⟩⟩
      · have get : ∀ i : SessionId, (upd s.sessions j ((s.session j).reclaimed p (s.cfg p) window s.clock))[i] = if j = i then (s.session j).reclaimed p (s.cfg p) window s.clock else s.session i := fun j => upd_get _ _ _ _
        have same : ∀ i : SessionId, (upd s.sessions j ((s.session j).reclaimed p (s.cfg p) window s.clock))[i].name = (s.session i).name ∧ (upd s.sessions j ((s.session j).reclaimed p (s.cfg p) window s.clock))[i].number = (s.session i).number ∧ ((s.session i).state = .free → (upd s.sessions j ((s.session j).reclaimed p (s.cfg p) window s.clock))[i].state = .free) := by
          intro i; rw [get]; split
          · next h => subst h; exact ⟨rfl, rfl, fun h => by rw [ho] at h; exact absurd h (by simp)⟩
          · exact ⟨rfl, rfl, id⟩
        show SessionLaw (upd s.sessions j _) s.nextNumber
        refine ⟨h1.counter, fun i k hi hij => ?_, fun i k hi hk hn => ?_, fun i k hi hk hn => ?_, fun i hi => ?_⟩
        · rw [get] at hi; rw [get, get] at hij
          by_cases h : j = i <;> by_cases h' : j = k
          · exact h.symm.trans h'
          · rw [if_pos h, if_neg h'] at hij; exact absurd hij.symm (boundTo_none hb k)
          · rw [if_neg h, if_pos h'] at hij; exact absurd hij (boundTo_none hb i)
          · rw [if_neg h] at hi; rw [if_neg h, if_neg h'] at hij; exact h1.ports i k hi hij
        · rw [(same i).1, (same k).1] at hn
          exact h1.names i k (fun h => hi ((same i).2.2 h)) (fun h => hk ((same k).2.2 h)) hn
        · rw [(same i).2.1, (same k).2.1] at hn
          exact h1.numbers i k (fun h => hi ((same i).2.2 h)) (fun h => hk ((same k).2.2 h)) hn
        · rw [(same i).2.1]; exact h1.issued i (fun h => hi ((same i).2.2 h))
      · show Session.lawful (upd s.sessions j _)[i]
        rw [upd_get]; split
        · exact Session.lawful_congr ((Session.resetSend_onward _).lawful (h2 j)) rfl rfl rfl
        · exact h2 i
    · exact ref _
    · exact ref _
    · exact ref _

theorem join_keeps (s : State) (p rq) : State.Keeps s (s.joinStep p rq) := by
  unfold State.joinStep
  have ref : ∀ st, State.Keeps s (s.answerRequest p rq.tag .join (s.boundSession p) (.final st .empty) (Run.start s)) :=
    fun st => State.Onward.keeps (.answerRequest _ _ _ _ _ (fun _ => .refl _))
  dsimp only
  split
  · split
    · exact ref _
    · split
      · split
        · exact ref _
        · exact ref _
      · next hb =>
        split
        · exact joinNew_keeps _ _ _ _ _ hb
        · exact joinReclaim_keeps _ _ _ _ _ _ hb
  · exact ref _

/-! ### Reset, start-up and Table Clear -/

theorem readByte_onward (s : State) : s.Onward s.readByte := by
  refine ⟨fun _ => by rw [s.readByte_frame]; exact .refl _, fun i => ?_, ?_, fun h => ?_, fun h => ?_⟩
  · have : s.readByte.session i = s.session i := by rw [s.readByte_frame]; rfl
    exact this.symm ▸ .refl _
  · exact Nat.le_of_eq (congrArg State.nextNumber s.readByte_frame).symm
  · have out : ∀ x : State, x.alertLaw → x.shiftOut.alertLaw := by
      intro x hx
      unfold State.shiftOut
      split <;> exact hx
    unfold State.readByte
    split
    · refine out _ ?_
      unfold State.latch
      dsimp only
      split
      · exact ⟨rfl, h.2.sublist (List.tail_sublist _)⟩
      · split <;> exact h
    · exact out _ h
  · rw [s.readByte_frame]; exact h

theorem readBytes_onward : ∀ (k : Nat) (s : State), s.Onward (State.readBytes k s)
  | 0, s => .refl s
  | k + 1, s => (readByte_onward s).trans (readBytes_onward k s.readByte)

theorem retrainAll_onward (s : State) : s.Onward s.retrainAll := .trans (.retrainFold _ _) (.gateRetrain _)

theorem sessionLaw_freedAll (n : Nat) (h : 1 ≤ n) : SessionLaw (Vector.replicate 12 Session.freed) n := by
  have : ∀ i : SessionId, (Vector.replicate 12 Session.freed)[i] = Session.freed := by intro i; simp
  refine ⟨h, fun i j hi => ?_, fun i j hi => ?_, fun i j hi => ?_, fun i hi => ?_⟩ <;> rw [this] at hi <;> first | exact absurd rfl hi | exact absurd hi (by simp [Session.freed])

theorem lawful_freedAll : ∀ i : SessionId, ((Vector.replicate 12 Session.freed)[i]).lawful := by
  intro i; have : (Vector.replicate 12 Session.freed)[i] = Session.freed := by simp
  rw [this]; exact Session.lawful_freed

theorem startUp_lawful (s : State) : (State.Lawful s → State.Lawful s.startUp) ∧ s.startUp.tab.Sound := by
  have o := retrainAll_onward (s.clearEngine.setDevice .ready)
  refine ⟨fun h => State.Lawful.onward (s := s.clearEngine.setDevice .ready) ⟨sessionLaw_freedAll 1 (Nat.le_refl _), lawful_freedAll, h.2.2.1, h.2.2.2⟩ o, ?_⟩
  exact (o.tab Tables.sound_reset).keeps Tables.sound_reset

theorem tableClear_keeps (c) (s : State) : (State.Lawful s → State.Lawful (s.tableClearStep c)) ∧ (s.tab.Sound → (s.tableClearStep c).tab.Sound ∧ ∀ v, (s.tab.volume v).fence ≤ ((s.tableClearStep c).tab.volume v).fence) := by
  have o := retrainAll_onward ((s.clearTables.finishStatus none).setDevice .ready)
  refine ⟨fun h => State.Lawful.onward (s := (s.clearTables.finishStatus none).setDevice .ready) ⟨sessionLaw_freedAll _ h.1.counter, lawful_freedAll, h.2.2.1, h.2.2.2⟩ o, fun h => ?_⟩
  have hc : ((s.clearTables.finishStatus none).setDevice .ready).tab.Sound := Tables.sound_clear h
  have m := o.tab hc
  exact ⟨m.keeps hc, fun v => m.fence v⟩

theorem lawful_reset : State.Lawful State.reset := by
  refine ⟨sessionLaw_freedAll 1 (Nat.le_refl _), lawful_freedAll, ⟨rfl, List.Pairwise.nil⟩, ?_⟩
  refine ⟨?_, ?_⟩
  · decide +revert
  · decide

/-! ### Every command -/

theorem writeItem_onward (s : State) (i d) : s.Onward (s.writeItem i d) := by
  unfold State.writeItem
  split
  · exact .same rfl rfl rfl rfl rfl rfl rfl rfl
  · split
    · exact .same rfl rfl rfl rfl rfl rfl rfl rfl
    · split
      · exact .same rfl rfl rfl rfl rfl rfl rfl rfl
      · split
        · unfold State.writeCode
          split
          · exact .same rfl rfl rfl rfl rfl rfl rfl rfl
          · split
            · exact .same rfl rfl rfl rfl rfl rfl rfl rfl
            · split
              · exact .same rfl rfl rfl rfl rfl rfl rfl rfl
              · exact .refl _
        · split
          · exact .same rfl rfl rfl rfl rfl rfl rfl rfl
          · exact .refl _

theorem helloFrame_onward (s : State) (p) : s.Onward (s.helloFrame p) := by
  unfold State.helloFrame
  dsimp only
  split
  · exact .refl _
  · split
    · refine State.Onward.trans (.setPort s p (s.port p).enterUp) (.trans ?_ (.settle _))
      generalize s.setPort p (s.port p).enterUp = u
      unfold State.resetSendOf
      split
      · exact .setSession (Session.resetSend_onward _)
      · exact .refl _
    · exact .setPort _ _ _
  · exact .setPort _ _ _

theorem transmitted_onward (s : State) (p) : s.Onward (s.transmitted p) := by
  unfold State.transmitted
  split
  · next f _ =>
    have h1 : s.Onward (s.frameSent p f) := by
      unfold State.frameSent; dsimp only
      split
      · exact .setPort _ _ _
      · exact .setPort _ _ _
      · split
        · refine .trans (.setPort _ _ _) (State.Onward.setSession ?_)
          exact Session.markSent_onward _ _
        · exact .setPort _ _ _
    refine h1.trans ?_
    generalize s.frameSent p f = u
    unfold State.chooseNext; dsimp only
    split
    · exact .trans (.settle _) (.setPort _ _ _)
    · exact .settle _
  · exact .refl _

theorem takeCode_onward (s : State) (b) (step : Command → State → State)
    (h : ∀ c (t : State), t.Onward (step c t)) : s.Onward (s.takeCode b step) := takeCommand_onward s _ step h

/-- What every command but three does to the laws. -/
theorem effect_keeps (c : Instr) (s : State) (h1 : c ≠ .powerOnReset) (h2 : c ≠ .startupComplete) (h3 : c ≠ .tableClear) : State.Keeps s (effect c s) := by
  cases c
  case powerOnReset => exact absurd rfl h1
  case startupComplete => exact absurd rfl h2
  case tableClear => exact absurd rfl h3
  case join =>
    show State.Keeps s (s.takeRequest .join _)
    unfold State.takeRequest
    split
    · split
      · exact State.Keeps.trans (State.Onward.keeps takeInbox_onward) (join_keeps _ _ _)
      · exact State.Onward.keeps (.refl s)
    · exact State.Onward.keeps (.refl s)
  all_goals refine State.Onward.keeps ?_
  case resetRelease => exact .refl _
  case requestIntake => exact requestFrame_onward _ _ _ _
  case keepalive => exact requestFrame_onward _ _ _ _
  case noticeAck => exact requestFrame_onward _ _ _ _
  case acquire => exact sessionRequest_onward _ _ _ (fun i rq t h => (acquireWork_to i rq t h).moves)
  case convert => exact sessionRequest_onward _ _ _ (fun i rq t h => (convertWork_to i rq t h).moves)
  case renew => exact sessionRequest_onward _ _ _ (fun i rq t h => (renewWork_to i rq t).moves)
  case release => exact sessionRequest_onward _ _ _ (fun i rq t h => (releaseWork_to i rq t h).moves)
  case cancel => exact sessionRequest_onward _ _ _ (fun i rq t h => (cancelWork_to i rq t h).moves)
  case query => exact sessionRequest_onward _ _ _ (fun i rq t h => by rw [queryWork_fst]; exact .refl _)
  case list => exact sessionRequest_onward _ _ _ (fun i rq t h => by rw [listWork_fst]; exact .refl _)
  case depart => exact takeRequest_onward _ _ _ depart_onward
  case sweepTimerExpiry =>
    show s.Onward s.advanceClock.sweepTimer.judgeTimers
    refine .trans ?_ (judgeTimers_onward _)
    unfold State.sweepTimer; split <;> exact .same rfl rfl rfl rfl rfl rfl rfl rfl
  case sweepVisit =>
    show s.Onward (s.takeVisit _); unfold State.takeVisit; split
    · refine .trans ?_ (visitStep_onward _); exact .same rfl rfl rfl rfl rfl rfl rfl rfl
    · exact .refl _
  case termTimerExpiry => exact judgeTerm_onward _ _
  case graceTimerExpiry => exact judgeGrace_onward _ _
  case lossClaim => exact takeTimer_onward _ _ _ lossStep_onward
  case linkLostClaim => exact takeTimer_onward _ _ _ linkLost_onward
  case graceClaim => exact takeTimer_onward _ _ _ graceStep_onward
  case purgeSection =>
    show s.Onward (s.takePurge _); unfold State.takePurge; split
    · split
      · refine .trans ?_ (purgeStep_onward _ _); exact .same rfl rfl rfl rfl rfl rfl rfl rfl
      · exact .refl _
    · exact .refl _
  case define => exact takeCode_onward _ _ _ define_onward
  case online => exact takeCode_onward _ _ _ online_onward
  case freeze => exact takeCode_onward _ _ _ freeze_onward
  case thaw => exact takeCode_onward _ _ _ thaw_onward
  case offline => exact takeCode_onward _ _ _ offline_onward
  case offlineForce => exact takeCode_onward _ _ _ offlineForce_onward
  case revoke => exact takeCode_onward _ _ _ revoke_onward
  case closeSession => exact takeCode_onward _ _ _ closeSessionStep_onward
  case portReset => exact takeCode_onward _ _ _ portReset_onward
  case setConfig => exact takeCode_onward _ _ _ setConfig_onward
  case badCommand => exact takeCommand_onward _ _ _ (fun _ t => refuse_onward t _)
  case registerWrite item data => exact State.Onward.trans (t := s.point item) (.same rfl rfl rfl rfl rfl rfl rfl rfl) (writeItem_onward _ _ _)
  case alertRead transfer =>
    exact State.Onward.trans (t := s.openRead transfer.goesOn) (.same rfl rfl rfl rfl rfl rfl rfl rfl)
      (readBytes_onward transfer.bytes _)
  case recordWindowSelect => exact .same rfl rfl rfl rfl rfl rfl rfl rfl
  case helloReceive => exact helloFrame_onward _ _
  case badFrame => exact rpBadFrame_onward _ _
  case discardedFrame p k =>
    show s.Onward (s.discardFrame p k); unfold State.discardFrame; dsimp only; split
    · exact .setPort _ _ _
    · exact .setPort _ _ _
    · exact .refl _
  case linkSilenceTimeout p =>
    show s.Onward (s.silenceTimeout p); unfold State.silenceTimeout; dsimp only; split
    · exact .trans (.setPort _ _ _) (.trans (.portDown _ _) (.retrain _ _))
    · exact .refl _
  case helloTransmit l => cases l <;> exact .same rfl rfl rfl rfl rfl rfl rfl rfl
  case frameTransmitComplete => exact transmitted_onward _ _
  case gateHelloReceive => exact .setGate _ _
  case gateQuery tag body =>
    show s.Onward (s.queryFrame tag body); unfold State.queryFrame; split
    · split
      · exact .refl _
      · exact .setGate _ _
      · exact .setGate _ _
    · exact gateBad_onward _
  case gateLookup =>
    show s.Onward s.lookupOldest; unfold State.lookupOldest; split
    · split
      · exact .refl _
      · next q _ _ _ => exact ⟨fun h => Tables.countUse_moves s.tab (s.lookup q) h, fun _ => .refl _, Nat.le_refl _, id, id⟩
    · exact .refl _
  case gateAnswerSent => exact .setGate _ _
  case gateBadFrame => exact gateBad_onward _
  case gateLinkSilenceTimeout =>
    show s.Onward s.gateSilence; unfold State.gateSilence; split
    · exact .refl _
    · exact .trans (.setGate _ _) (gateDown_onward _)
  case gateDiscardedFrame => exact .setGate _ _

end Sys2Proof.Machine
end

