-- ==== Sys2Proof/Laws/Lessens.lean ====
section
/-! SUPPORT. What the work of a step that makes no lease and parks no request can do to slots and waits: each slot keeps
its generation and claims or becomes FREE with its generation advanced (R3, R5), and a wait goes on or is concluded by a
final answer of its parked request (R27, R48 to R50). -/

namespace Sys2Proof.Machine

/-! ### Slots -/

theorem SlotBody.claims_free {b : SlotBody} : b.claims = none ↔ b = .free := by
  cases b <;> simp [SlotBody.claims, SlotBody.lease?]

theorem Tables.slotsOnward.refl (t : Tables) (makes : Prop) : t.slotsOnward t makes := fun _ => .inl ⟨rfl, .inl rfl⟩

theorem Tables.slotsOnward.mono {t u : Tables} {makes : Prop} (h : t.slotsOnward u False) : t.slotsOnward u makes :=
  fun n => (h n).imp (fun ⟨a, b⟩ => ⟨a, b.imp id (fun k => k.1.elim)⟩) id

theorem Tables.slotsOnward.trans {t u w : Tables} (a : t.slotsOnward u False) (b : u.slotsOnward w False) :
    t.slotsOnward w False := by
  intro n
  rcases a n with ⟨a1, a2 | ⟨hf, _⟩⟩ | ⟨a1, a2, a3⟩
  · rcases b n with ⟨b1, b2 | ⟨hf, _⟩⟩ | ⟨b1, b2, b3⟩
    · exact .inl ⟨b1.trans a1, .inl (b2.trans a2)⟩
    · exact hf.elim
    · refine .inr ⟨fun h => b1 ?_, b2, by rw [b3, a1]⟩
      rw [← SlotBody.claims_free, a2, SlotBody.claims_free]; exact h
  · exact hf.elim
  · rcases b n with ⟨b1, b2 | ⟨hf, _⟩⟩ | ⟨b1, _, _⟩
    · refine .inr ⟨a1, ?_, by rw [b1, a3]⟩
      rw [← SlotBody.claims_free, b2, SlotBody.claims_free]; exact a2
    · exact hf.elim
    · exact absurd a2 b1

/-- A slot that is not FREE afterwards had a lease of the same owner before. -/
theorem Tables.slotsOnward.owner {t u : Tables} (h : t.slotsOnward u False) {n : Nat} {l : Lease}
    (hl : (u.body n).lease? = some l) : ∃ k, (t.body n).lease? = some k ∧ k.owner = l.owner := by
  rcases h n with ⟨_, h2 | ⟨hf, _⟩⟩ | ⟨_, h2, _⟩
  · unfold SlotBody.claims at h2
    rw [hl] at h2
    cases hk : (t.body n).lease? with
    | none => rw [hk] at h2; cases h2
    | some k =>
      rw [hk] at h2
      simp only [Option.map_some, Option.some.injEq, Prod.mk.injEq] at h2
      exact ⟨k, rfl, h2.1.symm⟩
  · exact hf.elim
  · rw [h2] at hl; cases hl

/-! ### Slot counts -/

theorem Tables.Sound.slotCount_eq {t : Tables} (h : t.Sound) (i : SessionId) :
    t.slotCount i = (t.slotsWhere (fun _ l => decide (l.owner = i))).length := by
  rw [h.countLaw.2 i]
  unfold countKeys Tables.slotsWhere
  rw [List.length_map]
  exact congrArg List.length (List.filter_congr fun e _ => by unfold Slot.ownedBy; cases e.2.body.lease? <;> rfl)

theorem Tables.slotsWhere_nodup {t : Tables} (h : t.slots.wf) (p : Nat → Lease → Bool) : (t.slotsWhere p).Nodup := by
  have : (t.slotsWhere p).Pairwise (· < ·) := by
    unfold Tables.slotsWhere
    rw [List.pairwise_map]
    exact h.1.filter _
  exact this.imp (fun hlt he => by omega)

/-- Where every lease of a session was its lease before, its slot count is not above what it was. -/
theorem Tables.Sound.slotCount_le {t u : Tables} (h : t.Sound) (hu : u.Sound) (k : t.slotsOnward u False) (i : SessionId) :
    u.slotCount i ≤ t.slotCount i := by
  rw [h.slotCount_eq, hu.slotCount_eq]
  refine (Tables.slotsWhere_nodup hu.wf _).length_le_of_subset ?_
  intro n hn
  rw [Tables.mem_slotsWhere hu.wf] at hn
  rw [Tables.mem_slotsWhere h.wf]
  obtain ⟨l, h1, h2⟩ := hn
  obtain ⟨m, h3, h4⟩ := k.owner h1
  exact ⟨m, h3, by simpa [h4] using h2⟩

/-- A session with no slot has slot count 0. -/
theorem Tables.Sound.slotCount_zero {t : Tables} (h : t.Sound) {i : SessionId}
    (hn : ∀ n l, (t.body n).lease? = some l → l.owner ≠ i) : t.slotCount i = 0 := by
  rw [h.slotCount_eq, List.length_eq_zero_iff, List.eq_nil_iff_forall_not_mem]
  intro n hm
  rw [Tables.mem_slotsWhere h.wf] at hm
  obtain ⟨l, h1, h2⟩ := hm
  exact hn n l h1 (by simpa using h2)

/-! ### Waits -/

/-- The final answer of a parked request of session `i` with the tag is among the results. -/
def concluded (cs : List (SessionId × CacheEntry)) (i : SessionId) (tag : Tag) : Prop := ∃ c ∈ cs, c.1 = i ∧ c.2.tag = tag

theorem concluded_append {cs ds : List (SessionId × CacheEntry)} {i : SessionId} {tag : Tag} :
    concluded (cs ++ ds) i tag ↔ concluded cs i tag ∨ concluded ds i tag := by
  unfold concluded
  simp only [List.mem_append]
  constructor
  · rintro ⟨c, h | h, k⟩
    · exact .inl ⟨c, h, k⟩
    · exact .inr ⟨c, h, k⟩
  · rintro (⟨c, h, k⟩ | ⟨c, h, k⟩)
    · exact ⟨c, .inl h, k⟩
    · exact ⟨c, .inr h, k⟩

/-- Slots go on or become FREE, no wait is new, and a wait that is gone has its final answer among `cs`. -/
structure Tables.Lessens (t u : Tables) (cs : List (SessionId × CacheEntry)) : Prop where
  slots : t.slotsOnward u False
  waits : ∀ i tag, u.waitsFor i tag → t.waitsFor i tag
  gone : ∀ i tag, t.waitsFor i tag → u.waitsFor i tag ∨ concluded cs i tag

theorem Tables.Lessens.refl (t : Tables) : t.Lessens t [] := ⟨.refl t _, fun _ _ h => h, fun _ _ h => .inl h⟩

theorem Tables.Lessens.trans {t u w : Tables} {cs ds : List (SessionId × CacheEntry)} (a : t.Lessens u cs)
    (b : u.Lessens w ds) : t.Lessens w (cs ++ ds) := by
  refine ⟨a.slots.trans b.slots, fun i tag h => a.waits i tag (b.waits i tag h), fun i tag h => ?_⟩
  rw [concluded_append]
  rcases a.gone i tag h with h | h
  · rcases b.gone i tag h with h | h
    · exact .inl h
    · exact .inr (.inr h)
  · exact .inr (.inl h)

/-- The slots are as they were. -/
theorem Tables.Lessens.same {t u : Tables} (h : u.slots = t.slots) : t.Lessens u [] := by
  have hb : ∀ n, u.body n = t.body n := fun n => by unfold Tables.body; rw [h]
  have hw : ∀ i tag, u.waitsFor i tag ↔ t.waitsFor i tag := fun i tag => by unfold Tables.waitsFor; simp only [hb]
  exact ⟨fun n => .inl ⟨by rw [h], .inl (by rw [hb])⟩, fun i tag k => (hw i tag).mp k, fun i tag k => .inl ((hw i tag).mpr k)⟩

/-- One slot changed, and its claims go on or it became FREE. -/
theorem Tables.slotsOnward.one {t u : Tables} {n : Nat} {x : Slot} (h : u.slots = t.slots.set n x)
    (hx : (x.gen = (t.slots.get n).gen ∧ x.body.claims = (t.body n).claims) ∨
      (t.body n ≠ .free ∧ x.body = .free ∧ x.gen = (t.slots.get n).gen + 1)) : t.slotsOnward u False := by
  intro m
  have hb : u.body m = if m = n then x.body else t.body m := by
    unfold Tables.body; rw [h, SlotTable.get_set]; split <;> rfl
  rw [h, SlotTable.get_set, hb]
  by_cases hm : m = n
  · rw [if_pos hm, if_pos hm, hm]
    exact hx.imp (fun ⟨a, b⟩ => ⟨a, .inl b⟩) id
  · rw [if_neg hm, if_neg hm]; exact .inl ⟨rfl, .inl rfl⟩

/-- One slot changed. -/
theorem Tables.Lessens.one {t u : Tables} {cs : List (SessionId × CacheEntry)} {n : Nat} {x : Slot}
    (h : u.slots = t.slots.set n x)
    (hx : (x.gen = (t.slots.get n).gen ∧ x.body.claims = (t.body n).claims) ∨
      (t.body n ≠ .free ∧ x.body = .free ∧ x.gen = (t.slots.get n).gen + 1))
    (hw : ∀ i tag, x.body.waitsFor i tag → (t.body n).waitsFor i tag)
    (hc : ∀ i tag, (t.body n).waitsFor i tag → x.body.waitsFor i tag ∨ concluded cs i tag) : t.Lessens u cs := by
  have hg : ∀ m, u.slots.get m = if m = n then x else t.slots.get m := fun m => by rw [h, SlotTable.get_set]
  have hb : ∀ m, u.body m = if m = n then x.body else t.body m := fun m => by
    unfold Tables.body; rw [hg m]; split <;> rfl
  refine ⟨.one h hx, fun i tag => ?_, fun i tag => ?_⟩
  · rintro ⟨m, hm⟩
    rw [hb m] at hm
    by_cases he : m = n
    · rw [if_pos he] at hm; exact ⟨n, hw i tag hm⟩
    · rw [if_neg he] at hm; exact ⟨m, hm⟩
  · rintro ⟨m, hm⟩
    by_cases he : m = n
    · subst he
      rcases hc i tag hm with h | h
      · exact .inl ⟨m, by rw [hb m, if_pos rfl]; exact h⟩
      · exact .inr h
    · exact .inl ⟨m, by rw [hb m, if_neg he]; exact hm⟩

/-- A HELD lease takes another mode, hold length or tenure, its pending upgrade unchanged. -/
theorem Tables.Lessens.amend {t u : Tables} {n : Nat} {l k : Lease} {ten tk : Tenure} (held : t.body n = .held l ten)
    (h : u.slots = t.slots.set n { gen := (t.slots.get n).gen, body := .held k tk })
    (same : k.owner = l.owner ∧ k.volume = l.volume ∧ k.start = l.start ∧ k.count = l.count ∧
      k.originTag = l.originTag) (upgrade : tk.upgrade = ten.upgrade) : t.Lessens u [] := by
  obtain ⟨h1, h2, h3, h4, h5⟩ := same
  refine .one h (.inl ⟨rfl, ?_⟩) (fun i tag => ?_) (fun i tag => ?_)
  · rw [held]; simp [SlotBody.claims, SlotBody.lease?, h1, h2, h3, h4, h5]
  · rw [held]; unfold SlotBody.waitsFor; simp only [h1, upgrade]; exact id
  · rw [held]; unfold SlotBody.waitsFor; simp only [h1, upgrade]; exact .inl

/-! ### Runs -/

/-- The work between two points of a run lessens slots and waits. -/
def Run.Lessens (r u : Run) : Prop := ∃ cs, u.cache = r.cache ++ cs ∧ r.tab.Lessens u.tab cs

theorem Run.Lessens.refl (r : Run) : r.Lessens r := ⟨[], by simp, .refl _⟩

theorem Run.Lessens.trans {a b c : Run} (h : a.Lessens b) (k : b.Lessens c) : a.Lessens c := by
  obtain ⟨cs, h1, h2⟩ := h
  obtain ⟨ds, k1, k2⟩ := k
  exact ⟨cs ++ ds, by rw [k1, h1, List.append_assoc], h2.trans k2⟩

theorem Run.Lessens.plain {r u : Run} (hc : u.cache = r.cache) (h : r.tab.Lessens u.tab []) : r.Lessens u :=
  ⟨[], by simp [hc], h⟩

theorem Run.Lessens.same {r u : Run} (hc : u.cache = r.cache) (h : u.tab.slots = r.tab.slots) : r.Lessens u :=
  .plain hc (.same h)

theorem Run.lessens_withTab {r : Run} {t : Tables} (h : r.tab.Lessens t []) : r.Lessens (r.withTab t) := .plain rfl h

theorem Run.lessens_passDue (r : Run) (v : VolumeId) : r.Lessens (r.passDue v) := by
  unfold Run.passDue; split
  · exact .refl r
  · exact .same rfl rfl

theorem Run.lessens_fold {α : Type} (f : Run → α → Run) (hf : ∀ (r : Run) (a : α), r.Lessens (f r a)) :
    ∀ (l : List α) (r : Run), r.Lessens (l.foldl f r)
  | [], r => .refl r
  | a :: l, r => (hf r a).trans (Run.lessens_fold f hf l (f r a))

theorem Run.lessens_soundFold {α : Type} (f : Run → α → Run) (ht : ∀ (r : Run) (a : α), r.tab.Sound → r.To (f r a))
    (hf : ∀ (r : Run) (a : α), r.tab.Sound → r.Lessens (f r a)) :
    ∀ (l : List α) (r : Run), r.tab.Sound → r.Lessens (l.foldl f r)
  | [], r, _ => .refl r
  | a :: l, r, h => (hf r a h).trans (Run.lessens_soundFold f ht hf l (f r a) ((ht r a h).moves.keeps h))

theorem Run.lessens_markRecalled (r : Run) (n : Nat) : r.Lessens (r.markRecalled n) := by
  unfold Run.markRecalled
  split
  · rename_i l ten hb
    split
    · exact .refl r
    · exact .plain rfl (.amend hb rfl ⟨rfl, rfl, rfl, rfl, rfl⟩ rfl)
  · exact .refl r
  · exact .refl r

theorem Run.lessens_applyRecall (r : Run) (e : Nat) : r.Lessens (r.applyRecall e) :=
  Run.lessens_fold _ Run.lessens_markRecalled _ r

theorem Run.lessens_exhaust (r : Run) (v : VolumeId) : r.Lessens (r.exhaust v) := .same rfl rfl

theorem Run.lessens_grantEntry (r : Run) (e : Nat) (we : WaitEntry) : r.Lessens (r.grantEntry e we) := by
  unfold Run.grantEntry
  dsimp only
  split
  · rename_i l d hb
    refine ⟨_, rfl, .one (n := we.slot) (x := { gen := (r.tab.slots.get we.slot).gen, body := .held l _ }) (by
      show SlotTable.set (Tables.slots _) we.slot _ = _
      rw [Tables.slots_drawFor]; rfl) (.inl ⟨rfl, ?_⟩) (fun i tag h => ?_) (fun i tag h => ?_)⟩
    · rw [hb]; rfl
    · obtain ⟨_, u, hu, _⟩ := h; cases hu
    · rw [hb] at h
      exact .inr ⟨_, List.mem_singleton.mpr rfl, h⟩
  · rename_i l ten hb
    split
    · rename_i u hu
      refine ⟨_, rfl, .one (n := we.slot) (x := { gen := (r.tab.slots.get we.slot).gen, body := .held _ _ }) (by
        show SlotTable.set (Tables.slots _) we.slot _ = _
        rw [Tables.slots_drawFor]; rfl) (.inl ⟨rfl, ?_⟩) (fun i tag h => ?_) (fun i tag h => ?_)⟩
      · rw [hb]; rfl
      · obtain ⟨_, x, hx, _⟩ := h; cases hx
      · rw [hb] at h
        obtain ⟨ho, x, hx, ht⟩ := h
        rw [hu] at hx; cases hx
        exact .inr ⟨_, List.mem_singleton.mpr rfl, ho, ht⟩
    · exact .refl r
  · exact .refl r

theorem Run.lessens_endWait (r : Run) (reason : WaitReason) (e : Nat) : r.Lessens (r.endWait reason e) := by
  unfold Run.endWait
  split
  · exact .refl r
  · rename_i we he
    dsimp only
    split
    · rename_i l d hk hb
      refine .trans ⟨_, rfl, ?_⟩ (Run.lessens_passDue _ _)
      refine .one (n := we.slot) (x := { gen := (r.tab.slots.get we.slot).gen + 1, body := .free }) rfl
        (.inr ⟨by rw [hb]; simp, rfl, rfl⟩) (fun i tag h => h.elim) (fun i tag h => ?_)
      rw [hb] at h
      exact .inr ⟨_, List.mem_singleton.mpr rfl, h⟩
    · rename_i l ten hk hb
      split
      · rename_i u hu
        refine .trans ⟨_, rfl, ?_⟩ (Run.lessens_passDue _ _)
        refine .one (n := we.slot) (x := { gen := (r.tab.slots.get we.slot).gen, body := .held l _ }) rfl
          (.inl ⟨rfl, by rw [hb]; rfl⟩) (fun i tag h => ?_) (fun i tag h => ?_)
        · obtain ⟨_, x, hx, _⟩ := h; cases hx
        · rw [hb] at h
          obtain ⟨ho, x, hx, ht⟩ := h
          rw [hu] at hx; cases hx
          exact .inr ⟨_, List.mem_singleton.mpr rfl, ho, ht⟩
      · exact .trans (Run.lessens_withTab (t := r.tab.removeEntry e we.volume) (.same rfl)) (Run.lessens_passDue _ _)
    · exact .trans (Run.lessens_withTab (t := r.tab.removeEntry e we.volume) (.same rfl)) (Run.lessens_passDue _ _)

theorem Run.lessens_endWaitsOf (r : Run) (i : SessionId) (reason : WaitReason) : r.Lessens (r.endWaitsOf i reason) :=
  Run.lessens_fold _ (fun r _ => Run.lessens_fold _ (fun r e => r.lessens_endWait reason e) _ r) _ r

theorem Run.lessens_report (r : Run) (c : Cause) (i : SessionId) (h : Handle) : r.Lessens (r.report c i h) := by
  cases c <;> exact .same rfl rfl

theorem Run.lessens_retire (r : Run) (c : Cause) (n : Nat) (h : r.tab.Sound) : r.Lessens (r.retire c n) := by
  unfold Run.retire
  split
  · rename_i l ten hb
    dsimp only
    obtain ⟨_, hb1⟩ := r.endUpgrade_to n l ten h hb
    have h1 : r.Lessens (r.endUpgrade n l ten) := by
      unfold Run.endUpgrade
      split
      · exact .refl r
      · split
        · exact r.lessens_endWait _ _
        · exact .refl r
    generalize hw : (r.endUpgrade n l ten).withTab ((r.endUpgrade n l ten).tab.indexRemove l.volume n) = r2
    have h2 : (r.endUpgrade n l ten).Lessens r2 := by rw [← hw]; exact Run.lessens_withTab (.same rfl)
    have hs2 : r2.tab.slots = (r.endUpgrade n l ten).tab.slots := by rw [← hw]; rfl
    generalize hr : r2.report c l.owner (r2.tab.handle n) = r3
    have h3 : r2.Lessens r3 := by rw [← hr]; exact r2.lessens_report c _ _
    have hs : r3.tab.slots = (r.endUpgrade n l ten).tab.slots := by rw [← hs2, ← hr]; cases c <;> rfl
    refine ((h1.trans h2).trans h3).trans (.trans ?_ (Run.lessens_passDue _ _))
    have hb3 : r3.tab.body n = .held l { ten with upgrade := none } := by
      unfold Tables.body at hb1 ⊢; rw [hs]; exact hb1
    refine Run.lessens_withTab (.one (n := n) (x := { gen := (r3.tab.slots.get n).gen + 1, body := .free }) rfl
      (.inr ⟨by rw [hb3]; simp, rfl, rfl⟩) (fun i tag h => h.elim) (fun i tag h => ?_))
    rw [hb3] at h
    obtain ⟨_, x, hx, _⟩ := h; cases hx
  · exact .refl r
  · exact .refl r

/-! ### Wake passes -/

theorem lessens_passExamine (acc : Run × Bool) (e : Nat) : acc.1.Lessens (passExamine acc e).1 := by
  unfold passExamine
  split
  · exact .refl _
  · split
    · exact .refl _
    · split
      · exact .refl _
      · split
        · split
          · exact Run.lessens_exhaust _ _
          · exact Run.lessens_grantEntry _ _ _
        · exact .refl _

theorem lessens_passFold : ∀ (l : List Nat) (acc : Run × Bool), acc.1.Lessens (l.foldl passExamine acc).1
  | [], acc => .refl acc.1
  | e :: l, acc => (lessens_passExamine acc e).trans (lessens_passFold l (passExamine acc e))

theorem Run.lessens_wakePass (r : Run) (v : VolumeId) : r.Lessens (r.wakePass v) := by
  have h := lessens_passFold (r.tab.passOrder v) (r, false)
  unfold Run.wakePass
  dsimp only
  split
  · exact h
  · exact h.trans (Run.lessens_fold _ Run.lessens_applyRecall _ _)

theorem Run.lessens_runPasses (r : Run) : r.Lessens r.runPasses := by
  have : ∀ (vs : List VolumeId) (u : Run), u.Lessens (vs.foldl (fun acc v =>
      if r.due.contains v && decide ((acc.tab.volume v).state = .online) then acc.wakePass v else acc) u) := by
    refine Run.lessens_fold _ (fun u v => ?_)
    split
    · exact u.lessens_wakePass v
    · exact .refl u
  exact this _ r

/-! ### The work of each kind of step -/

theorem Run.lessens_timeOut (r : Run) (k : WaitKind) (v : VolumeId) (n : Nat) : r.Lessens (r.timeOut k v n) := by
  unfold Run.timeOut; split
  · exact r.lessens_endWait _ _
  · exact .refl r

theorem Run.lessens_visitWait (r : Run) (n : Nat) : r.Lessens (r.visitWait n) := by
  unfold Run.visitWait
  split
  · split
    · exact r.lessens_timeOut _ _ _
    · exact .refl r
  · split
    · split
      · exact r.lessens_timeOut _ _ _
      · exact .refl r
    · exact .refl r
  · exact .refl r

theorem Run.lessens_visitHold (r : Run) (n : Nat) (h : r.tab.Sound) : r.Lessens (r.visitHold n) := by
  unfold Run.visitHold
  split
  · split
    · exact r.lessens_retire _ _ h
    · exact .refl r
  · exact .refl r
  · exact .refl r

theorem Run.lessens_visitRecall (r : Run) (n : Nat) (h : r.tab.Sound) : r.Lessens (r.visitRecall n) := by
  unfold Run.visitRecall
  split
  · rename_i l ten hb
    have clear : r.Lessens (r.clearMark n l ten) := .plain rfl (.amend hb rfl ⟨rfl, rfl, rfl, rfl, rfl⟩ rfl)
    split
    · exact .refl r
    · dsimp only
      split
      · split
        · split
          · exact r.lessens_retire _ _ h
          · exact clear
        · exact .refl r
      · split
        · exact .refl r
        · exact clear
  · exact .refl r
  · exact .refl r

theorem Run.lessens_visit (r : Run) (slots : List Nat) (h : r.tab.Sound) : r.Lessens (r.visit slots) := by
  have h1 := (Run.To.fold Run.visitWait Run.visitWait_to slots r h).moves.keeps h
  have h2 := (Run.To.fold Run.visitHold Run.visitHold_to slots _ h1).moves.keeps h1
  exact ((Run.lessens_fold _ Run.lessens_visitWait slots r).trans
    (Run.lessens_soundFold _ Run.visitHold_to Run.lessens_visitHold slots _ h1)).trans
    (Run.lessens_soundFold _ Run.visitRecall_to Run.lessens_visitRecall slots _ h2)

theorem Run.lessens_purge (r : Run) (i : SessionId) (k : Nat) (h : r.tab.Sound) : r.Lessens (r.purge i k) :=
  Run.lessens_soundFold _ (fun r n hr => Run.retire_to r .purge n hr) (fun r n hr => r.lessens_retire .purge n hr) _ r h

theorem Run.lessens_forceOffline (r : Run) (v : VolumeId) (h : r.tab.Sound) : r.Lessens (r.forceOffline v) := by
  unfold Run.forceOffline
  dsimp only
  have h1 := (Run.endWaits_fold .volumeOffline (r.tab.waitList v) r h).1.moves.keeps h
  refine .trans (Run.lessens_fold _ (fun r e => r.lessens_endWait .volumeOffline e) _ r) (.trans
    (Run.lessens_soundFold _ (fun r n hr => Run.retire_to r (.revocation .volumeOffline) n hr)
      (fun r n hr => r.lessens_retire (.revocation .volumeOffline) n hr) _ _ h1) (.same rfl rfl))

end Sys2Proof.Machine
end

