-- ==== Sys2Proof/Laws/Grows.lean ====
section
/-! SUPPORT. What the work of a session's request does to slots, slot counts and waits: it may first make a lease or park
the request, for the session alone, and then lessens what there is (R16, R31, R33, R38). -/

namespace Sys2Proof.Machine

/-- A lease or a wait of session `i` may be new; every slot keeps its generation, and the rest is as it was. -/
structure Tables.Grows (t u : Tables) (i : SessionId) (quota : Nat) : Prop where
  sound : t.Sound → u.Sound
  slots : ∀ n, (u.slots.get n).gen = (t.slots.get n).gen ∧
    (t.body n = .free ∨ (u.body n).claims = (t.body n).claims)
  made : ∀ n l, t.body n = .free → (u.body n).lease? = some l → l.owner = i
  waits : ∀ j tag, u.waitsFor j tag → t.waitsFor j tag ∨ j = i
  kept : ∀ j tag, t.waitsFor j tag → u.waitsFor j tag
  counts : ∀ j, u.slotCount j ≤ t.slotCount j ∨ (j = i ∧ u.slotCount j ≤ quota)

theorem Tables.Grows.refl (t : Tables) (i : SessionId) (quota : Nat) : t.Grows t i quota :=
  ⟨id, fun _ => ⟨rfl, .inr rfl⟩, fun n l h k => (by rw [h] at k; cases k), fun _ _ h => .inl h, fun _ _ h => h,
    fun _ => .inl (Nat.le_refl _)⟩

theorem Tables.Grows.owner {t u : Tables} {i : SessionId} {quota : Nat} (g : t.Grows u i quota) {n : Nat} {l : Lease}
    (h : (u.body n).lease? = some l) : (∃ k, (t.body n).lease? = some k ∧ k.owner = l.owner) ∨ l.owner = i := by
  rcases (g.slots n).2 with h1 | h1
  · exact .inr (g.made n l h1 h)
  · unfold SlotBody.claims at h1
    rw [h] at h1
    cases hk : (t.body n).lease? with
    | none => rw [hk] at h1; cases h1
    | some k =>
      rw [hk] at h1
      simp only [Option.map_some, Option.some.injEq, Prod.mk.injEq] at h1
      exact .inl ⟨k, rfl, h1.1.symm⟩

/-- A FREE slot takes a lease of session `i`, whose slot count was below its quota. -/
theorem Tables.Grows.make {t u : Tables} {n : Nat} {b : SlotBody} {l : Lease} {quota : Nat} (hf : t.body n = .free)
    (hb : b.lease? = some l) (hs : u.slots = t.slots.set n { gen := (t.slots.get n).gen, body := b })
    (hc : ∀ j, u.slotCount j = if l.owner = j then t.slotCount l.owner + 1 else t.slotCount j)
    (hq : t.slotCount l.owner < quota) (sound : t.Sound → u.Sound) : t.Grows u l.owner quota := by
  have hg : ∀ m, u.slots.get m = if m = n then { gen := (t.slots.get n).gen, body := b } else t.slots.get m :=
    fun m => by rw [hs, SlotTable.get_set]
  have hbody : ∀ m, u.body m = if m = n then b else t.body m := fun m => by
    unfold Tables.body; rw [hg m]; split <;> rfl
  refine ⟨sound, fun m => ?_, fun m k hm hk => ?_, fun j tag => ?_, fun j tag => ?_, fun j => ?_⟩
  · rw [hg m, hbody m]
    by_cases hm : m = n
    · subst hm; rw [if_pos rfl]; exact ⟨rfl, .inl hf⟩
    · rw [if_neg hm, if_neg hm]; exact ⟨rfl, .inr rfl⟩
  · rw [hbody m] at hk
    by_cases he : m = n
    · rw [if_pos he, hb] at hk; cases hk; rfl
    · rw [if_neg he, hm] at hk; cases hk
  · rintro ⟨m, hm⟩
    rw [hbody m] at hm
    by_cases he : m = n
    · rw [if_pos he] at hm
      refine .inr ?_
      cases b with
      | free => exact hm.elim
      | pending k d => simp only [SlotBody.lease?, Option.some.injEq] at hb; subst hb; exact hm.1.symm
      | held k ten => simp only [SlotBody.lease?, Option.some.injEq] at hb; subst hb; exact hm.1.symm
    · rw [if_neg he] at hm; exact .inl ⟨m, hm⟩
  · rintro ⟨m, hm⟩
    have he : m ≠ n := by rintro rfl; rw [hf] at hm; exact hm
    exact ⟨m, by rw [hbody m, if_neg he]; exact hm⟩
  · rw [hc j]
    by_cases hj : l.owner = j
    · rw [if_pos hj]; exact .inr ⟨hj.symm, by omega⟩
    · rw [if_neg hj]; exact .inl (Nat.le_refl _)

/-- A lease may be new, and then the slots keep their generations and their claims. -/
theorem Tables.Grows.onward {t u w : Tables} {i : SessionId} {quota : Nat} (g : t.Grows u i quota)
    (k : ∀ n, (w.slots.get n).gen = (u.slots.get n).gen ∧ (w.body n).claims = (u.body n).claims) :
    t.slotsOnward w True := fun n =>
  .inl ⟨(k n).1.trans (g.slots n).1, (g.slots n).2.elim (fun h => .inr ⟨trivial, h⟩) (fun h => .inl ((k n).2.trans h))⟩

/-- What the work of a request of session `i` with a tag does; only an ACQUIRE makes a lease. -/
def Works (makes : Prop) (r : Run) (i : SessionId) (quota : Nat) (tag : Tag) (w : Run × Reply) : Prop :=
  r.tab.slotsOnward w.1.tab makes ∧ ∃ u cs, r.tab.Grows u i quota ∧ u.Lessens w.1.tab cs ∧
    w.1.cache = r.cache ++ cs ∧ ((w.2 = .parked ∧ cs = [] ∧ w.1.tab.waitsFor i tag) ∨ ∃ st res, w.2 = .final st res)

theorem Works.final {makes : Prop} {r u : Run} {i : SessionId} {quota : Nat} {tag : Tag} {st : Status} {res : Result}
    (h : r.Lessens u) : Works makes r i quota tag (u, .final st res) := by
  obtain ⟨cs, h1, h2⟩ := h
  exact ⟨h2.slots.mono, r.tab, cs, .refl _ i quota, h2, h1, .inr ⟨st, res, rfl⟩⟩

theorem Works.refused (makes : Prop) (r : Run) (i : SessionId) (quota : Nat) (tag : Tag) (st : Status) :
    Works makes r i quota tag (refusal r st) := .final (.refl r)

/-! ### ACQUIRE -/

theorem Run.cache_applyRecall (r : Run) (e : Nat) : (r.applyRecall e).cache = r.cache := by
  unfold Run.applyRecall
  have : ∀ (l : List Nat) (u : Run), (l.foldl Run.markRecalled u).cache = u.cache := by
    intro l
    induction l with
    | nil => intro u; rfl
    | cons a l ih =>
      intro u
      rw [List.foldl_cons, ih]
      unfold Run.markRecalled
      split
      · split <;> rfl
      · rfl
      · rfl
  exact this _ r

theorem Run.lessens_recall (r : Run) (e : Nat) : r.tab.Lessens (r.applyRecall e).tab [] := by
  obtain ⟨cs, h1, h2⟩ := r.lessens_applyRecall e
  rw [r.cache_applyRecall] at h1
  have : cs = [] := by
    have := congrArg List.length h1
    rw [List.length_append] at this
    exact List.length_eq_zero_iff.mp (by omega)
  rw [this] at h2; exact h2

/-- Recall leaves every generation and what every slot claims. -/
theorem Run.recall_claims (r : Run) (e n : Nat) : ((r.applyRecall e).tab.slots.get n).gen = (r.tab.slots.get n).gen ∧
    ((r.applyRecall e).tab.body n).claims = (r.tab.body n).claims := by
  have one : ∀ (u : Run) (m : Nat), ((u.markRecalled m).tab.slots.get n).gen = (u.tab.slots.get n).gen ∧
      ((u.markRecalled m).tab.body n).claims = (u.tab.body n).claims := by
    intro u m
    unfold Run.markRecalled
    split
    · rename_i l ten hb
      split
      · exact ⟨rfl, rfl⟩
      · show ((SlotTable.set u.tab.slots m _).get n).gen = _ ∧ ((SlotTable.set u.tab.slots m _).get n).body.claims = _
        rw [SlotTable.get_set]
        split
        · next he =>
          subst he
          refine ⟨rfl, ?_⟩
          show SlotBody.claims _ = SlotBody.claims (u.tab.body n)
          rw [hb]; rfl
        · exact ⟨rfl, rfl⟩
    · exact ⟨rfl, rfl⟩
    · exact ⟨rfl, rfl⟩
  unfold Run.applyRecall
  have : ∀ (l : List Nat) (u : Run), ((l.foldl Run.markRecalled u).tab.slots.get n).gen = (u.tab.slots.get n).gen ∧
      ((l.foldl Run.markRecalled u).tab.body n).claims = (u.tab.body n).claims := by
    intro l
    induction l with
    | nil => intro u; exact ⟨rfl, rfl⟩
    | cons a l ih =>
      intro u
      rw [List.foldl_cons]
      exact ⟨(ih _).1.trans (one u a).1, (ih _).2.trans (one u a).2⟩
  exact this _ r

/-- Recall leaves every wait. -/
theorem Tables.Lessens.kept {t u : Tables} (h : t.Lessens u []) {i : SessionId} {tag : Tag} (hw : t.waitsFor i tag) :
    u.waitsFor i tag := (h.gone i tag hw).resolve_right (fun ⟨_, hc, _⟩ => by cases hc)

theorem Run.cache_makeSlot (r : Run) (n : Nat) (i : SessionId) (b : SlotBody) : (r.makeSlot n i b).cache = r.cache := by
  unfold Run.makeSlot; dsimp only; split <;> rfl

theorem Run.grantNow_tab (r : Run) (n : Nat) (l : Lease) : (r.grantNow n l).tab =
    ((r.tab.makeSlot n l.owner (.held l (Tenure.granted r.now l (r.tab.tokenFor l.mode l.volume)))).drawFor l.mode
      l.volume).indexAdd l.volume n := by
  unfold Run.grantNow
  dsimp only
  rw [Run.tab_makeSlot]; rfl

theorem acquireIn_works (r : Run) (n : Nat) (l : Lease) (noWait : Bool) (limit : Option Nat) (quota : Nat)
    (fits : r.tab.Fits n l) (hq : r.tab.slotCount l.owner < quota) :
    Works True r l.owner quota l.originTag (acquireIn r n l noWait limit) := by
  unfold acquireIn
  split
  · rename_i hg
    unfold Tables.grantableNow at hg
    split
    · exact .final (r.lessens_exhaust l.volume)
    · rename_i hx
      simp only [Bool.and_eq_true] at hg
      have hto := Run.grantNow_to r n l fits ⟨List.isEmpty_iff.mp hg.1.2, by simpa using hx⟩
      have g : r.tab.Grows (r.grantNow n l).tab l.owner quota := by
        refine .make (b := .held l (Tenure.granted r.now l (r.tab.tokenFor l.mode l.volume))) fits.free rfl ?_ (fun j => ?_)
          hq hto.moves.keeps
        · rw [r.grantNow_tab]
          show (Tables.drawFor _ _ _).slots = _
          rw [Tables.slots_drawFor]; rfl
        · rw [r.grantNow_tab]
          show ((Tables.makeSlot r.tab n l.owner _).drawFor l.mode l.volume).slotCounts[j] = _
          rw [Tables.slotCounts_drawFor]
          exact r.tab.slotCount_makeSlot n l.owner j _
      refine ⟨g.onward (fun _ => ⟨rfl, rfl⟩), (r.grantNow n l).tab, [], g, .refl _, ?_, .inr ⟨_, _, rfl⟩⟩
      · show (r.grantNow n l).cache = _
        rw [List.append_nil]
        unfold Run.grantNow
        exact r.cache_makeSlot n l.owner _
  · split
    · exact .refused _ r _ _ _ _
    · split
      · exact .refused _ r _ _ _ _
      · rename_i e he
        obtain ⟨h1, h2⟩ := Tables.lowestFreeEntry_some he
        have hm := Move.park r.tab n e l (waitDeadlineOf r.now limit) fits h1 h2
        have hg : r.tab.Grows ((r.tab.makeSlot n l.owner (.pending l (waitDeadlineOf r.now limit))).addEntry e .acquire n
            l.volume) l.owner quota :=
          .make (b := .pending l (waitDeadlineOf r.now limit)) fits.free rfl rfl
            (fun j => r.tab.slotCount_makeSlot n l.owner j (.pending l (waitDeadlineOf r.now limit))) hq hm.keeps
        let r1 := (r.makeSlot n l.owner (.pending l (waitDeadlineOf r.now limit))).withTab
          ((r.tab.makeSlot n l.owner (.pending l (waitDeadlineOf r.now limit))).addEntry e .acquire n l.volume)
        have hr : r.parkAcquire n e l (waitDeadlineOf r.now limit) = r1.applyRecall e := by
          unfold Run.parkAcquire; dsimp only; rw [Run.tab_makeSlot]
        rw [hr]
        have hl := r1.lessens_recall e
        refine ⟨hg.onward (r1.recall_claims e), r1.tab, [], hg, hl, ?_, .inl ⟨rfl, rfl, hl.kept ⟨n, ?_⟩⟩⟩
        · rw [r1.cache_applyRecall, List.append_nil]; exact r.cache_makeSlot _ _ _
        · show (SlotTable.get (SlotTable.set _ _ _) n).body.waitsFor _ _
          rw [SlotTable.get_set, if_pos rfl]
          exact ⟨rfl, rfl⟩

theorem acquireChecked_works (r : Run) (i : SessionId) (quota : Nat) (tag : Tag) (a : AcquireReq) (h : r.tab.Sound) :
    Works True r i quota tag (acquireChecked r i quota tag a) := by
  unfold acquireChecked
  split
  · exact .refused _ r _ _ _ _
  · rename_i hform
    split
    · exact .refused _ r _ _ _ _
    · rename_i v hv
      simp only
      split
      · exact .refused _ r _ _ _ _
      · rename_i hsize
        split
        · exact .refused _ r _ _ _ _
        · rename_i hself
          split
          · exact .refused _ r _ _ _ _
          · rename_i hq
            split
            · exact .refused _ r _ _ _ _
            · rename_i n hn
              obtain ⟨h1, h2⟩ := Tables.lowestFreeSlot_some hn
              refine acquireIn_works r n (leaseOf i v tag a) a.noWait a.waitLimit quota
                ⟨h1, h2, ?_, (Tables.inService_some hv).2, ?_, ?_⟩ (Nat.not_le.mp hq)
              · exact Tables.selfOverlap_false h (by simpa using hself)
              · simp only [leaseOf]; omega
              · simp only [leaseOf]; omega

theorem acquireWork_works (i : SessionId) (rq : Request) (s : State) (h : s.tab.Sound) :
    Works True (Run.start s) i (s.session i).quota rq.tag (acquireWork i rq s) := by
  unfold acquireWork
  split
  · exact acquireChecked_works (Run.start s) i _ _ _ h
  · exact .refused _ _ _ _ _ _

/-! ### CONVERT, RENEW, RELEASE, CANCEL -/

theorem Tables.Grows.upgrade {t u : Tables} {n : Nat} {l : Lease} {ten : Tenure} {x : PendingUpgrade} (quota : Nat)
    (held : t.body n = .held l ten) (none : ten.upgrade = Option.none)
    (hs : u.slots = t.slots.set n { gen := (t.slots.get n).gen, body := .held l { ten with upgrade := some x } })
    (hc : u.slotCounts = t.slotCounts) (sound : t.Sound → u.Sound) : t.Grows u l.owner quota := by
  have hg : ∀ m, u.slots.get m =
      if m = n then { gen := (t.slots.get n).gen, body := .held l { ten with upgrade := some x } } else t.slots.get m :=
    fun m => by rw [hs, SlotTable.get_set]
  have hbody : ∀ m, u.body m = if m = n then .held l { ten with upgrade := some x } else t.body m := fun m => by
    unfold Tables.body; rw [hg m]; split <;> rfl
  refine ⟨sound, fun m => ?_, fun m k hm hk => ?_, fun j tag => ?_, fun j tag => ?_, fun j => ?_⟩
  · rw [hg m, hbody m]
    by_cases hm : m = n
    · subst hm; rw [if_pos rfl, if_pos rfl, held]; exact ⟨rfl, .inr rfl⟩
    · rw [if_neg hm, if_neg hm]; exact ⟨rfl, .inr rfl⟩
  · rw [hbody m] at hk
    by_cases he : m = n
    · subst he; rw [held] at hm; cases hm
    · rw [if_neg he, hm] at hk; cases hk
  · rintro ⟨m, hm⟩
    rw [hbody m] at hm
    by_cases he : m = n
    · rw [if_pos he] at hm; exact .inr hm.1.symm
    · rw [if_neg he] at hm; exact .inl ⟨m, hm⟩
  · rintro ⟨m, hm⟩
    have he : m ≠ n := by
      rintro rfl
      rw [held] at hm
      obtain ⟨_, y, hy, _⟩ := hm
      rw [none] at hy; cases hy
    exact ⟨m, by rw [hbody m, if_neg he]; exact hm⟩
  · unfold Tables.slotCount; rw [hc]; exact .inl (Nat.le_refl _)

theorem upgrade_works (r : Run) (n : Nat) (l : Lease) (ten : Tenure) (tag : Tag) (c : ConvertReq) (quota : Nat)
    (held : r.tab.body n = .held l ten) (mode : l.mode = .shared) :
    Works False r l.owner quota tag (upgrade r n l ten tag c) := by
  unfold upgrade
  split
  · exact .refused _ r _ _ _ _
  · rename_i hup
    have hnone : ten.upgrade = none := by simpa using hup
    split
    · exact .refused _ r _ _ _ _
    · split
      · split
        · exact .final (r.lessens_exhaust l.volume)
        · exact .final (Run.lessens_withTab (.amend (k := l.upgraded) held rfl ⟨rfl, rfl, rfl, rfl, rfl⟩ rfl))
      · split
        · exact .refused _ r _ _ _ _
        · split
          · exact .refused _ r _ _ _ _
          · rename_i e he
            obtain ⟨h1, h2⟩ := Tables.lowestFreeEntry_some he
            let x : PendingUpgrade := { tag := tag, waitDeadline := waitDeadlineOf r.now c.waitLimit }
            have hm := Move.parkUpgrade r.tab n e l ten x held mode hnone h1 h2
            let r1 := r.withTab ((r.tab.setBody n (.held l { ten with upgrade := some x })).addEntry e .upgrade n l.volume)
            have hl := r1.lessens_recall e
            have ho : r.tab.slotsOnward r1.tab False := by
              refine .one (n := n) (x := { gen := (r.tab.slots.get n).gen, body := .held l { ten with upgrade := some x } }) rfl
                (.inl ⟨rfl, ?_⟩)
              rw [held]; rfl
            refine ⟨ho.trans hl.slots, r1.tab, [], .upgrade quota held hnone rfl rfl hm.keeps, hl, ?_, .inl ⟨rfl, rfl, hl.kept ⟨n, ?_⟩⟩⟩
            · show (r1.applyRecall e).cache = _
              rw [r1.cache_applyRecall, List.append_nil]; rfl
            · show (SlotTable.get (SlotTable.set _ _ _) n).body.waitsFor _ _
              rw [SlotTable.get_set, if_pos rfl]
              exact ⟨rfl, x, rfl, rfl⟩

theorem convertChecked_works (r : Run) (i : SessionId) (tag : Tag) (c : ConvertReq) (quota : Nat) :
    Works False r i quota tag (convertChecked r i tag c) := by
  unfold convertChecked
  split
  · exact .refused _ r _ _ _ _
  · split
    · exact .refused _ r _ _ _ _
    · rename_i l ten hok
      obtain ⟨hb, ho⟩ := Tables.checkHandle_ok hok
      split
      · exact .refused _ r _ _ _ _
      · rename_i hne
        split
        · unfold downgrade
          refine .final (.trans (Run.lessens_withTab
            (.amend (k := { l with mode := .shared }) (tk := { ten with token := none }) hb rfl ⟨rfl, rfl, rfl, rfl, rfl⟩ rfl)) (Run.lessens_passDue _ _))
        · rename_i hm
          have hsh : l.mode = .shared := by
            cases hl : l.mode with
            | shared => rfl
            | exclusive => exact absurd (hl.trans hm.symm) hne
          subst ho
          exact upgrade_works r c.handle.slot l ten tag c quota hb hsh

theorem convertWork_works (i : SessionId) (rq : Request) (s : State) :
    Works False (Run.start s) i (s.session i).quota rq.tag (convertWork i rq s) := by
  unfold convertWork
  split
  · exact convertChecked_works _ i _ _ _
  · exact .refused _ _ _ _ _ _

theorem renewWork_works (i : SessionId) (rq : Request) (s : State) :
    Works False (Run.start s) i (s.session i).quota rq.tag (renewWork i rq s) := by
  unfold renewWork renewChecked
  split
  · split
    · exact .refused _ _ _ _ _ _
    · split
      · exact .refused _ _ _ _ _ _
      · rename_i l ten hok
        obtain ⟨hb, _⟩ := Tables.checkHandle_ok hok
        split
        · exact .refused _ _ _ _ _ _
        · exact .final (Run.lessens_withTab (.amend (k := { l with holdLength := _ }) hb rfl ⟨rfl, rfl, rfl, rfl, rfl⟩ rfl))
  · exact .refused _ _ _ _ _ _

theorem releaseWork_works (i : SessionId) (rq : Request) (s : State) (h : s.tab.Sound) :
    Works False (Run.start s) i (s.session i).quota rq.tag (releaseWork i rq s) := by
  unfold releaseWork releaseChecked
  split
  · split
    · exact .refused _ _ _ _ _ _
    · exact .final (Run.lessens_retire _ _ _ h)
  · exact .refused _ _ _ _ _ _

theorem cancelWork_works (i : SessionId) (rq : Request) (s : State) :
    Works False (Run.start s) i (s.session i).quota rq.tag (cancelWork i rq s) := by
  unfold cancelWork cancelChecked
  split
  · split
    · exact .final (Run.lessens_endWait _ _ _)
    · split
      · split <;> exact .refused _ _ _ _ _ _
      · exact .refused _ _ _ _ _ _
  · exact .refused _ _ _ _ _ _

theorem queryWork_works (i : SessionId) (rq : Request) (s : State) :
    Works False (Run.start s) i (s.session i).quota rq.tag (queryWork i rq s) := by
  unfold queryWork
  split
  · unfold State.queryChecked
    refine ⟨.refl _ _, s.tab, [], .refl _ _ _, .refl _, rfl, .inr ?_⟩
    dsimp only
    split
    · exact ⟨_, _, rfl⟩
    · split
      · exact ⟨_, _, rfl⟩
      · split <;> exact ⟨_, _, rfl⟩
  · exact .refused _ _ _ _ _ _

theorem listWork_works (i : SessionId) (rq : Request) (s : State) :
    Works False (Run.start s) i (s.session i).quota rq.tag (listWork i rq s) := by
  unfold listWork
  split
  · unfold State.listChecked
    refine ⟨.refl _ _, s.tab, [], .refl _ _ _, .refl _, rfl, .inr ?_⟩
    dsimp only
    split <;> exact ⟨_, _, rfl⟩
  · exact .refused _ _ _ _ _ _

/-! ### The passes that an ACQUIRE makes due: none -/

theorem Run.due_applyRecall (r : Run) (e : Nat) : (r.applyRecall e).due = r.due := by
  unfold Run.applyRecall
  have : ∀ (l : List Nat) (u : Run), (l.foldl Run.markRecalled u).due = u.due := by
    intro l
    induction l with
    | nil => intro u; rfl
    | cons a l ih =>
      intro u
      rw [List.foldl_cons, ih]
      unfold Run.markRecalled
      split
      · split <;> rfl
      · rfl
      · rfl
  exact this _ r

theorem Run.due_makeSlot (r : Run) (n : Nat) (i : SessionId) (b : SlotBody) : (r.makeSlot n i b).due = r.due := by
  unfold Run.makeSlot; dsimp only; split <;> rfl

theorem acquireWork_due (i : SessionId) (rq : Request) (s : State) : (acquireWork i rq s).1.due = [] := by
  unfold acquireWork acquireChecked
  split
  · split
    · rfl
    · split
      · rfl
      · dsimp only
        split
        · rfl
        · split
          · rfl
          · split
            · rfl
            · split
              · rfl
              · unfold acquireIn
                split
                · split
                  · rfl
                  · exact Run.due_makeSlot _ _ _ _
                · split
                  · rfl
                  · split
                    · rfl
                    · unfold Run.parkAcquire
                      dsimp only
                      rw [Run.due_applyRecall]
                      exact Run.due_makeSlot _ _ _ _
  · rfl

/-- With no pass due, none runs. -/
theorem Run.runPasses_idle {r : Run} (h : r.due = []) : r.runPasses = r := by
  unfold Run.runPasses
  have : ∀ (vs : List VolumeId), (vs.foldl (fun acc v =>
      if r.due.contains v && decide ((acc.tab.volume v).state = .online) then acc.wakePass v else acc) r) = r := by
    intro vs
    induction vs with
    | nil => rfl
    | cons v vs ih => rw [List.foldl_cons, h]; rw [h] at ih; exact ih
  exact this _

end Sys2Proof.Machine
end

