-- ==== Sys2Proof/Laws/Owners.lean ====
section
/-! SUPPORT. How the law of slots, sessions and ports passes from the start of a step to its completion: the law with the
step's tables and the final answers that it has still to hand over, and the changes that keep it. -/

namespace Sys2Proof.Machine

/-! ### Changes of records and inboxes that the law does not see -/

/-- A record keeps state, quota, window and, while it is ACTIVE, its port; otherwise the port may go. Tags may only
leave. -/
structure Session.Like (x y : Session) : Prop where
  state : y.state = x.state
  quota : y.quota = x.quota
  window : y.window = x.window
  port : y.port = x.port ∨ (x.state ≠ .active ∧ y.port = none)
  tags : y.outstanding.Sublist x.outstanding

theorem Session.Like.refl (x : Session) : x.Like x := ⟨rfl, rfl, rfl, .inl rfl, .refl _⟩

theorem Session.Like.port_eq {x y : Session} (h : x.Like y) (ha : x.state = .active) : y.port = x.port :=
  h.port.resolve_right (fun k => k.1 ha)

theorem Session.Like.trans {x y z : Session} (a : x.Like y) (b : y.Like z) : x.Like z :=
  ⟨b.state.trans a.state, b.quota.trans a.quota, b.window.trans a.window, by
    rcases b.port with h | h
    · rcases a.port with k | k
      · exact .inl (h.trans k)
      · exact .inr ⟨k.1, h.trans k.2⟩
    · exact .inr ⟨by rw [← a.state]; exact h.1, h.2⟩, b.tags.trans a.tags⟩

/-- Tables and purge queue are as they were, records are alike, and a queued tag keeps its request. -/
structure State.Mild (s t : State) : Prop where
  tab : t.tab = s.tab
  records : ∀ j, (s.session j).Like (t.session j)
  inboxes : ∀ j p tag, (t.session j).state = .active → (t.session j).port = some p →
    (tag, TagMark.queued) ∈ (t.session j).outstanding → (∃ r ∈ (s.port p).inbox, r.tag = tag) →
    ∃ r ∈ (t.port p).inbox, r.tag = tag
  purgeQueue : t.purgeQueue = s.purgeQueue
  purgeSection : t.purgeSection = s.purgeSection

theorem State.Mild.refl (s : State) : s.Mild s := ⟨rfl, fun _ => .refl _, fun _ _ _ _ _ _ h => h, rfl, rfl⟩

theorem State.Mild.trans {s t u : State} (a : s.Mild t) (b : t.Mild u) : s.Mild u := by
  refine ⟨b.tab.trans a.tab, fun j => (a.records j).trans (b.records j), fun j p tag h1 h2 h3 h4 => ?_,
    b.purgeQueue.trans a.purgeQueue, b.purgeSection.trans a.purgeSection⟩
  have k1 : (t.session j).state = .active := by rw [← (b.records j).state]; exact h1
  exact b.inboxes j p tag h1 h2 h3
    (a.inboxes j p tag k1 (by rw [← (b.records j).port_eq k1]; exact h2) ((b.records j).tags.subset h3) h4)

/-- Only parts that the law does not speak of change, and inboxes may grow. -/
theorem State.Mild.same {s t : State} (ht : t.tab = s.tab) (hs : ∀ j, (s.session j).Like (t.session j))
    (hp : ∀ p, ∀ r ∈ (s.port p).inbox, r ∈ (t.port p).inbox) (hq : t.purgeQueue = s.purgeQueue)
    (hn : t.purgeSection = s.purgeSection) : s.Mild t :=
  ⟨ht, hs, fun _ p _ _ _ _ ⟨r, h, k⟩ => ⟨r, hp p r h, k⟩, hq, hn⟩

/-- Nothing but other fields of the state. -/
theorem State.Mild.rest {s t : State} (ht : t.tab = s.tab) (hs : t.sessions = s.sessions) (hp : t.ports = s.ports)
    (hq : t.purgeQueue = s.purgeQueue) (hn : t.purgeSection = s.purgeSection) : s.Mild t :=
  .same ht (fun j => by unfold State.session; rw [hs]; exact .refl _) (fun p r h => by unfold State.port; rw [hp]; exact h)
    hq hn

theorem State.Mild.setSession {s : State} {i : SessionId} {y : Session} (h : (s.session i).Like y) :
    s.Mild (s.setSession i y) := by
  refine .same rfl (fun j => ?_) (fun _ _ h => h) rfl rfl
  show (s.session j).Like (upd s.sessions i y)[j]
  rw [upd_get]
  split
  · next e => subst e; exact h
  · exact .refl _

theorem State.Mild.setPort {s : State} {p : PortId} {x : Port} (h : ∀ r ∈ (s.port p).inbox, r ∈ x.inbox) :
    s.Mild (s.setPort p x) := by
  refine .same rfl (fun _ => .refl _) (fun q r hr => ?_) rfl rfl
  rw [State.port_setPort]
  split
  · next e => subst e; exact h r hr
  · exact hr

theorem State.Mild.settle (s : State) : s.Mild s.settle := by
  refine .same rfl (fun _ => .refl _) (fun q r hr => ?_) rfl rfl
  rw [State.port_settle]
  unfold pumpPort
  split
  · split <;> exact hr
  · exact hr

theorem State.Mild.retrain (s : State) (p : PortId) : s.Mild (s.retrain p) := by
  unfold State.retrain
  split
  · exact .setPort (fun _ h => h)
  · exact .refl s

theorem State.Mild.retrainFold : ∀ (l : List PortId) (s : State), s.Mild (l.foldl State.retrain s)
  | [], s => .refl s
  | p :: l, s => (State.Mild.retrain s p).trans (retrainFold l _)

theorem State.Mild.gateRetrain (s : State) : s.Mild s.gateRetrain := by
  unfold State.gateRetrain
  split
  · exact .rest rfl rfl rfl rfl rfl
  · exact .refl s

/-- Discarding an inbox takes its tags from the session bound to the port (R89, R90, R149). -/
theorem State.Mild.discardInbox {s : State} (h : SessionLaw s.sessions s.nextNumber) (p : PortId) :
    s.Mild (s.discardInbox p) := by
  have hsess : ∀ j, (s.discardInbox p).session j = if s.boundSession p = some j
      then (s.session j).without (s.port p).inbox else s.session j := by
    intro j
    unfold State.discardInbox
    cases hb : s.boundSession p with
    | none => rw [if_neg (by simp)]; rfl
    | some i =>
      show (upd s.sessions i _)[j] = _
      rw [upd_get]
      by_cases hj : i = j
      · subst hj; rw [if_pos rfl, if_pos rfl]; rfl
      · rw [if_neg hj, if_neg (by simpa using hj)]; rfl
  have hport : ∀ q, ((s.discardInbox p).port q).inbox = if p = q then [] else (s.port q).inbox := by
    intro q
    unfold State.discardInbox
    dsimp only
    rw [State.port_setPort]
    split
    · rfl
    · split <;> rfl
  refine ⟨?_, fun j => ?_, fun j q tag h1 h2 h3 h4 => ?_, ?_, ?_⟩
  · unfold State.discardInbox; dsimp only; split <;> rfl
  · rw [hsess]
    split
    · exact ⟨rfl, rfl, rfl, .inl rfl, List.filter_sublist⟩
    · exact .refl _
  · rw [hport]
    by_cases hq : p = q
    · subst hq
      have hpj : (s.session j).port = some p := by
        rw [hsess] at h2
        split at h2 <;> exact h2
      rw [hsess, if_pos (show s.boundSession p = some j from boundTo_eq h hpj)] at h3
      unfold Session.without at h3
      rw [List.mem_filter] at h3
      obtain ⟨r, hr, hrt⟩ := h4
      simp at h3
      exact absurd hrt (h3.2 r hr)
    · rw [if_neg hq]; exact h4
  · unfold State.discardInbox; dsimp only; split <;> rfl
  · unfold State.discardInbox; dsimp only; split <;> rfl

theorem State.Mild.portDown {s : State} (h : SessionLaw s.sessions s.nextNumber) (p : PortId) : s.Mild (s.portDown p) := by
  unfold State.portDown
  split
  · exact .refl s
  · dsimp only
    refine (State.Mild.discardInbox h p).trans (.trans (t := (s.discardInbox p).setPort p
      { (s.discardInbox p).port p with link := .down, tx := none, answers := [] }) (.setPort (fun _ hr => hr)) ?_)
    split <;> exact .rest rfl rfl rfl rfl rfl

/-! ### The law in the course of a step -/

/-- The law of slots, sessions and ports, with the tables `t`, once the final answers `cs` have been handed over. -/
structure State.Owned (s : State) (t : Tables) (cs : List (SessionId × CacheEntry)) : Prop where
  sound : t.Sound
  owners : ∀ n l, (t.body n).lease? = some l → (s.session l.owner).state ≠ .free
  waiters : ∀ i tag, t.waitsFor i tag → (s.session i).state = .active
  quotas : ∀ i, t.slotCount i ≤ (s.session i).quota
  windows : ∀ i, (s.session i).outstanding.length ≤ (s.session i).window
  bound : ∀ i, (s.session i).state = .active → (s.session i).port.isSome = true
  unbound : ∀ i, (s.session i).port.isSome = true → (s.session i).state = .active ∨ (s.session i).state = .closing
  queued : ∀ i p tag, (s.session i).state = .active → (s.session i).port = some p →
    (tag, TagMark.queued) ∈ (s.session i).outstanding → (∃ r ∈ (s.port p).inbox, r.tag = tag) ∨ concluded cs i tag
  parked : ∀ i tag, (s.session i).state = .active → (tag, TagMark.parked) ∈ (s.session i).outstanding →
    t.waitsFor i tag ∨ concluded cs i tag
  orphans : ∀ i, (s.session i).state = .orphaned → ∀ x ∈ (s.session i).outstanding, concluded cs i x.1
  purging : ∀ i, i ∈ s.purgeQueue ↔ (s.session i).state = .closing
  once : s.purgeQueue.Nodup
  reached : ∀ i n l, s.purgeQueue.head? = some i → (t.body n).lease? = some l → l.owner = i → s.purgeSection ≤ n / 256

theorem State.ownerLaw.owned {s : State} (h : s.ownerLaw) (hs : s.tab.Sound) : s.Owned s.tab [] :=
  ⟨hs, h.owners, h.waiters, h.quotas, h.windows, h.bound, h.unbound, fun i p tag a b c => .inl (h.queued i p tag a b c),
    fun i tag a b => .inl (h.parked i tag a b), fun i a x hx => (by rw [h.orphans i a] at hx; cases hx), h.purging, h.once,
    h.reached⟩

theorem concluded_nil (i : SessionId) (tag : Tag) : ¬ concluded [] i tag := fun ⟨_, h, _⟩ => by cases h

theorem State.Owned.law {s : State} (h : s.Owned s.tab []) : s.ownerLaw :=
  ⟨h.owners, h.waiters, h.quotas, h.windows, h.bound, h.unbound,
    fun i p tag a b c => (h.queued i p tag a b c).resolve_right (concluded_nil i tag),
    fun i tag a b => (h.parked i tag a b).resolve_right (concluded_nil i tag),
    fun i a => List.eq_nil_iff_forall_not_mem.mpr (fun x hx => concluded_nil i x.1 (h.orphans i a x hx)), h.purging, h.once,
    h.reached⟩

theorem State.Owned.mild {s u : State} {t : Tables} {cs : List (SessionId × CacheEntry)} (h : s.Owned t cs) (m : s.Mild u) :
    u.Owned t cs := by
  have act : ∀ i, (u.session i).state = .active → (s.session i).state = .active := fun i hi => by
    rw [← (m.records i).state]; exact hi
  refine ⟨h.sound, fun n l hl => ?_, fun i tag hw => ?_, fun i => ?_, fun i => ?_, fun i hi => ?_,
    fun i hi => ?_, fun i p tag a b c => ?_, fun i tag a b => ?_, fun i a x hx => ?_, fun i => ?_, ?_, ?_⟩
  · rw [(m.records _).state]; exact h.owners n l hl
  · rw [(m.records _).state]; exact h.waiters i tag hw
  · rw [(m.records i).quota]; exact h.quotas i
  · rw [(m.records i).window]; exact Nat.le_trans (m.records i).tags.length_le (h.windows i)
  · rw [(m.records i).port_eq (act i hi)]; exact h.bound i (act i hi)
  · rw [(m.records i).state]
    rcases (m.records i).port with k | k
    · exact h.unbound i (by rw [← k]; exact hi)
    · rw [k.2] at hi; cases hi
  · rcases h.queued i p tag (act i a) (by rw [← (m.records i).port_eq (act i a)]; exact b) ((m.records i).tags.subset c)
      with k | k
    · exact .inl (m.inboxes i p tag a b c k)
    · exact .inr k
  · exact h.parked i tag (act i a) ((m.records i).tags.subset b)
  · exact h.orphans i (by rw [← (m.records i).state]; exact a) x ((m.records i).tags.subset hx)
  · rw [m.purgeQueue, (m.records i).state]; exact h.purging i
  · rw [m.purgeQueue]; exact h.once
  · rw [m.purgeQueue, m.purgeSection]; exact h.reached

theorem State.ownerLaw.mild {s u : State} (h : s.ownerLaw) (hs : s.tab.Sound) (m : s.Mild u) : u.ownerLaw := by
  have := (h.owned hs).mild m
  rw [← m.tab] at this
  exact this.law

/-- The tables go on without new leases or waits. -/
theorem State.Owned.less {s : State} {t u : Tables} {cs ds : List (SessionId × CacheEntry)} (h : s.Owned t cs)
    (k : t.Lessens u ds) (hu : u.Sound) : s.Owned u (cs ++ ds) := by
  refine ⟨hu, fun n l hl => ?_, fun i tag hw => h.waiters i tag (k.waits i tag hw),
    fun i => Nat.le_trans (h.sound.slotCount_le hu k.slots i) (h.quotas i), h.windows, h.bound, h.unbound,
    fun i p tag a b c => ?_, fun i tag a b => ?_, fun i a x hx => concluded_append.mpr (.inl (h.orphans i a x hx)),
    h.purging, h.once, fun i n l a b c => ?_⟩
  · obtain ⟨m, h1, h2⟩ := k.slots.owner hl
    rw [← h2]; exact h.owners n m h1
  · rw [concluded_append]
    rcases h.queued i p tag a b c with x | x
    · exact .inl x
    · exact .inr (.inl x)
  · rw [concluded_append]
    rcases h.parked i tag a b with x | x
    · rcases k.gone i tag x with x | x
      · exact .inl x
      · exact .inr (.inr x)
    · exact .inr (.inl x)
  · obtain ⟨m, h1, h2⟩ := k.slots.owner b
    exact h.reached i n m a h1 (h2.trans c)

/-- An ACTIVE session gets a lease or a wait. -/
theorem State.Owned.grow {s : State} {t u : Tables} {cs : List (SessionId × CacheEntry)} {i : SessionId} (h : s.Owned t cs)
    (g : t.Grows u i (s.session i).quota) (hi : (s.session i).state = .active) : s.Owned u cs := by
  refine ⟨g.sound h.sound, fun n l hl => ?_, fun j tag hw => ?_, fun j => ?_, h.windows, h.bound, h.unbound, h.queued,
    fun j tag a b => (h.parked j tag a b).imp (g.kept j tag) id, h.orphans, h.purging, h.once, fun j n l a b c => ?_⟩
  · rcases g.owner hl with ⟨k, h1, h2⟩ | h1
    · rw [← h2]; exact h.owners n k h1
    · rw [h1, hi]; simp
  · rcases g.waits j tag hw with k | k
    · exact h.waiters j tag k
    · rw [k]; exact hi
  · rcases g.counts j with k | ⟨rfl, k⟩
    · exact Nat.le_trans k (h.quotas j)
    · exact k
  · rcases g.owner b with ⟨k, h1, h2⟩ | h1
    · exact h.reached j n k a h1 (h2.trans c)
    · have : (s.session j).state = .closing := (h.purging j).mp (List.mem_of_mem_head? (by rw [a]; rfl))
      rw [← c, h1, hi] at this; cases this

theorem Session.like_conclude (x : Session) (e : CacheEntry) : x.Like (x.conclude e) :=
  ⟨rfl, rfl, rfl, .inl rfl, List.filter_sublist⟩

/-- A final answer is handed over (R27). -/
theorem State.Owned.conclude {s : State} {t : Tables} {c : SessionId × CacheEntry} {cs : List (SessionId × CacheEntry)}
    (h : s.Owned t (c :: cs)) : State.Owned { s with sessions := concludeIn s.sessions c } t cs := by
  have get : ∀ j, State.session { s with sessions := concludeIn s.sessions c } j =
      if c.1 = j then (s.session j).conclude c.2 else s.session j := by
    intro j
    show (upd s.sessions c.1 _)[j] = _
    rw [upd_get]
    split
    · next e => subst e; rfl
    · rfl
  have m : s.Mild { s with sessions := concludeIn s.sessions c } := by
    refine .same rfl (fun j => ?_) (fun _ _ h => h) rfl rfl
    rw [get]; split
    · exact Session.like_conclude _ _
    · exact .refl _
  have k := h.mild m
  have drop : ∀ i (x : Tag × TagMark), x ∈ (State.session { s with sessions := concludeIn s.sessions c } i).outstanding →
      concluded (c :: cs) i x.1 → concluded cs i x.1 := by
    rintro i x hx ⟨d, hd, hd1, hd2⟩
    rcases List.mem_cons.mp hd with e | e
    · subst e
      rw [get, if_pos hd1] at hx
      unfold Session.conclude Session.dropTag at hx
      rw [List.mem_filter] at hx
      rw [hd2] at hx
      simp at hx
    · exact ⟨d, e, hd1, hd2⟩
  exact ⟨k.sound, k.owners, k.waiters, k.quotas, k.windows, k.bound, k.unbound,
    fun i p tag a b x => (k.queued i p tag a b x).imp id (drop i _ x),
    fun i tag a b => (k.parked i tag a b).imp id (drop i _ b),
    fun i a x hx => drop i x hx (k.orphans i a x hx), k.purging, k.once, k.reached⟩

theorem State.Owned.concludes {t : Tables} : ∀ (cs : List (SessionId × CacheEntry)) {s : State}, s.Owned t cs →
    State.Owned { s with sessions := cs.foldl concludeIn s.sessions } t []
  | [], _, h => h
  | _ :: cs, _, h => State.Owned.concludes cs h.conclude

theorem Session.like_offer (x : Session) (n : Notice) : x.Like (x.offer n).1 := by
  unfold Session.offer
  split
  · exact .refl x
  · split <;> exact ⟨rfl, rfl, rfl, .inl rfl, .refl _⟩

theorem like_offers (j : SessionId) : ∀ (ns : List (SessionId × Notice)) (acc : Vector Session 12 × List Alert),
    acc.1[j].Like (ns.foldl offerIn acc).1[j]
  | [], _ => .refl _
  | n :: ns, acc => by
    refine .trans ?_ (like_offers j ns (offerIn acc n))
    show acc.1[j].Like (upd acc.1 n.1 _)[j]
    rw [upd_get]
    split
    · next e => subst e; exact Session.like_offer _ _
    · exact .refl _

/-- The completion of a step brings the law about. -/
theorem State.Owned.complete {s : State} {r : Run} (h : s.Owned r.tab r.cache) : (r.complete s).ownerLaw := by
  obtain ⟨cs, h1, h2⟩ := r.lessens_runPasses
  have k := (h.less h2 ((Run.runPasses_to r h.sound).moves.keeps h.sound))
  rw [← h1] at k
  have k1 := State.Owned.concludes _ k
  have m : State.Mild { s with sessions := r.runPasses.cache.foldl concludeIn s.sessions, tab := r.runPasses.tab }
      (r.complete s) := by
    refine .trans (t := r.runPasses.handOver s) ?_ (.settle _)
    exact .same rfl (fun j => like_offers j r.runPasses.notices (r.runPasses.cache.foldl concludeIn s.sessions, []))
      (fun _ _ h => h) rfl rfl
  have k2 : State.Owned { s with sessions := r.runPasses.cache.foldl concludeIn s.sessions, tab := r.runPasses.tab }
      r.runPasses.tab [] :=
    ⟨k1.sound, k1.owners, k1.waiters, k1.quotas, k1.windows, k1.bound, k1.unbound, k1.queued, k1.parked, k1.orphans, k1.purging,
      k1.once, k1.reached⟩
  exact (k2.mild m).law

end Sys2Proof.Machine
end

