-- ==== Sys2Proof/Laws/Owning.lean ====
section
/-! SUPPORT. Each kind of step and each command, as it keeps the law of slots, sessions and ports. -/

namespace Sys2Proof.Machine

/-! ### One record replaced -/

/-- Record `i` and the purge queue change, and the rest is alike. -/
theorem State.Owned.record {s u : State} {t : Tables} {cs : List (SessionId × CacheEntry)} (h : s.Owned t cs)
    (i : SessionId) (others : ∀ j, j ≠ i → u.session j = s.session j) (ports : ∀ p, (u.port p).inbox = (s.port p).inbox)
    (free : (u.session i).state = .free → ∀ n l, (t.body n).lease? = some l → l.owner ≠ i)
    (waits : (u.session i).state ≠ .active → ∀ tag, ¬ t.waitsFor i tag)
    (quota : t.slotCount i ≤ (u.session i).quota) (window : (u.session i).outstanding.length ≤ (u.session i).window)
    (active : (u.session i).state = .active → (u.session i).port.isSome = true ∧
      (∀ p tag, (u.session i).port = some p → (tag, TagMark.queued) ∈ (u.session i).outstanding →
        (∃ r ∈ (s.port p).inbox, r.tag = tag) ∨ concluded cs i tag) ∧
      ∀ tag, (tag, TagMark.parked) ∈ (u.session i).outstanding → t.waitsFor i tag ∨ concluded cs i tag)
    (unbound : (u.session i).port.isSome = true → (u.session i).state = .active ∨ (u.session i).state = .closing)
    (orphan : (u.session i).state = .orphaned → ∀ x ∈ (u.session i).outstanding, concluded cs i x.1)
    (purging : ∀ j, j ∈ u.purgeQueue ↔ (u.session j).state = .closing) (once : u.purgeQueue.Nodup)
    (reached : ∀ j n l, u.purgeQueue.head? = some j → (t.body n).lease? = some l → l.owner = j →
      u.purgeSection ≤ n / 256) : u.Owned t cs := by
  refine ⟨h.sound, fun n l hl => ?_, fun j tag hw => ?_, fun j => ?_, fun j => ?_, fun j hj => ?_,
    fun j hj => ?_, fun j p tag a b c => ?_, fun j tag a b => ?_, fun j a x hx => ?_, purging, once, reached⟩
  · by_cases he : l.owner = i
    · intro hf
      rw [he] at hf
      exact free hf n l hl he
    · rw [others _ he]; exact h.owners n l hl
  · by_cases he : j = i
    · subst he
      by_cases ha : (u.session j).state = .active
      · exact ha
      · exact absurd hw (waits ha tag)
    · rw [others j he]; exact h.waiters j tag hw
  · by_cases he : j = i
    · subst he; exact quota
    · rw [others j he]; exact h.quotas j
  · by_cases he : j = i
    · subst he; exact window
    · rw [others j he]; exact h.windows j
  · by_cases he : j = i
    · subst he; exact (active hj).1
    · rw [others j he] at hj ⊢; exact h.bound j hj
  · by_cases he : j = i
    · subst he; exact unbound hj
    · rw [others j he] at hj ⊢; exact h.unbound j hj
  · rw [ports]
    by_cases he : j = i
    · subst he; exact (active a).2.1 p tag b c
    · rw [others j he] at a b c; exact h.queued j p tag a b c
  · by_cases he : j = i
    · subst he; exact (active a).2.2 tag b
    · rw [others j he] at a b; exact h.parked j tag a b
  · by_cases he : j = i
    · subst he; exact orphan a x hx
    · rw [others j he] at a hx; exact h.orphans j a x hx

theorem session_setSession (s : State) (i j : SessionId) (y : Session) :
    (s.setSession i y).session j = if i = j then y else s.session j := upd_get s.sessions i j y

/-- A session that is not ACTIVE has no wait. -/
theorem State.Owned.noWait {s : State} {t : Tables} {cs : List (SessionId × CacheEntry)} (h : s.Owned t cs) {i : SessionId}
    (hi : (s.session i).state ≠ .active) (tag : Tag) : ¬ t.waitsFor i tag := fun hw => hi (h.waiters i tag hw)

/-- A session that was not CLOSING becomes so and joins the purge queue (R93, R97). -/
theorem State.Owned.close {s u : State} {t : Tables} {cs : List (SessionId × CacheEntry)} (h : s.Owned t cs)
    {i : SessionId} (hi : (s.session i).state ≠ .closing) (waits : ∀ tag, ¬ t.waitsFor i tag)
    (others : ∀ j, j ≠ i → u.session j = s.session j) (ports : ∀ p, (u.port p).inbox = (s.port p).inbox)
    (state : (u.session i).state = .closing) (quota : (u.session i).quota = (s.session i).quota)
    (window : (u.session i).window = (s.session i).window)
    (tags : (u.session i).outstanding.length ≤ (s.session i).outstanding.length)
    (queue : u.purgeQueue = s.purgeQueue ++ [i])
    (part : u.purgeSection = if s.purgeQueue.isEmpty then 0 else s.purgeSection) : u.Owned t cs := by
  have hn : i ∉ s.purgeQueue := fun hm => hi ((h.purging i).mp hm)
  refine h.record i others ports (fun hf => by rw [state] at hf; cases hf) (fun _ => waits)
    (by rw [quota]; exact h.quotas i) (by rw [window]; exact Nat.le_trans tags (h.windows i))
    (fun ha => by rw [state] at ha; cases ha) (fun _ => .inr state) (fun ha => by rw [state] at ha; cases ha)
    (fun j => ?_) ?_ ?_
  · rw [queue, List.mem_append, List.mem_singleton]
    by_cases he : j = i
    · subst he; simp [state]
    · rw [others j he]; simp only [he, or_false]; exact h.purging j
  · rw [queue, List.nodup_append]
    refine ⟨h.once, by simp, fun a ha b hb => ?_⟩
    rw [List.mem_singleton] at hb
    subst hb
    rintro rfl
    exact hn ha
  · intro j n l hj hl ho
    rw [queue] at hj
    rw [part]
    cases hq : s.purgeQueue with
    | nil => simp
    | cons a more =>
      rw [hq] at hj
      simp only [List.cons_append, List.head?_cons, Option.some.injEq] at hj
      simp only [List.isEmpty_cons, Bool.false_eq_true, if_false]
      exact h.reached j n l (by rw [hq, ← hj]; rfl) hl ho

theorem State.Owned.closeAs {s : State} {t : Tables} {cs : List (SessionId × CacheEntry)} (h : s.Owned t cs) {i : SessionId}
    (k : CloseKind) (hi : (s.session i).state ≠ .closing) (waits : ∀ tag, ¬ t.waitsFor i tag) :
    (s.closeAs i k).Owned t cs := by
  have get : ∀ j, (s.closeAs i k).session j = if i = j then (s.session i).closing k else s.session j :=
    fun j => session_setSession s i j _
  refine h.close hi waits (fun j hj => by rw [get, if_neg (Ne.symm hj)]) (fun _ => rfl) (by rw [get, if_pos rfl]; rfl)
    (by rw [get, if_pos rfl]; rfl) (by rw [get, if_pos rfl]; rfl) (by rw [get, if_pos rfl]; exact Nat.le_refl _) rfl rfl

/-- A record that is not CLOSING becomes ACTIVE with no tag outstanding (R83, R84). -/
theorem State.Owned.activate {s u : State} {t : Tables} {cs : List (SessionId × CacheEntry)} (h : s.Owned t cs)
    {i : SessionId} {y : Session} (hi : (s.session i).state ≠ .closing) (record : u.session i = y)
    (others : ∀ j, j ≠ i → u.session j = s.session j) (ports : ∀ p, (u.port p).inbox = (s.port p).inbox)
    (state : y.state = .active) (port : y.port.isSome = true) (tags : y.outstanding = [])
    (quota : t.slotCount i ≤ y.quota) (queue : u.purgeQueue = s.purgeQueue) (part : u.purgeSection = s.purgeSection) :
    u.Owned t cs := by
  subst record
  refine h.record i others ports (fun hx => by rw [state] at hx; cases hx) (fun hx => absurd state hx) quota
    (by rw [tags]; exact Nat.zero_le _) (fun _ => ⟨port, fun _ _ _ hx => (by rw [tags] at hx; cases hx),
      fun _ hx => (by rw [tags] at hx; cases hx)⟩) (fun _ => .inl state) (fun hx => by rw [state] at hx; cases hx)
    (fun j => ?_)
    (by rw [queue]; exact h.once) (by rw [queue, part]; exact h.reached)
  rw [queue]
  by_cases hj : j = i
  · subst hj
    rw [state]
    exact ⟨fun hm => absurd ((h.purging j).mp hm) hi, fun hx => by cases hx⟩
  · rw [others j hj]; exact h.purging j

/-! ### The end of a session's waits -/

theorem SlotBody.waits_of_waitsFor {b : SlotBody} {i : SessionId} {tag : Tag} (h : b.waitsFor i tag) : b.waits = true := by
  cases b with
  | free => exact h.elim
  | pending l d => rfl
  | held l ten => obtain ⟨_, u, hu, _⟩ := h; simp [SlotBody.waits, hu]

/-- No wait of a session is left when its waits have been ended (R53). -/
theorem Run.Ended.none {r u : Run} {i : SessionId} {reason : WaitReason} (e : r.Ended u reason (r.tab.waitsOf i))
    (h : r.tab.Sound) (tag : Tag) : ¬ u.tab.waitsFor i tag := by
  have hu : u.tab.Sound := e.toRun.moves.keeps h
  rintro ⟨n, hn⟩
  have hw := SlotBody.waits_of_waitsFor hn
  obtain ⟨d, we, hd, hs⟩ := hu.waitLaw.2.2.2.1 n hw
  obtain ⟨h1, h2⟩ := (e.tab.pool d we).mp hd
  refine h2 ((h.mem_waitsOf i d).mpr ?_)
  have hb : r.tab.body we.slot = u.tab.body n := by
    have := e.tab.slot_same h hd
    unfold Tables.body
    rw [← this, hs]
  unfold Tables.entryOwner
  rw [Tables.claimOf_eq h1]
  have hf := (h.waitLaw.2.1 d we h1).2
  unfold Tables.entryFits at hf
  unfold Tables.entryClaim
  rw [hb] at hf ⊢
  cases hk : we.kind with
  | acquire =>
    rw [hk] at hf
    obtain ⟨l, dl, hl, _⟩ := hf
    rw [hl] at hn ⊢
    exact congrArg some hn.1
  | upgrade =>
    rw [hk] at hf
    obtain ⟨l, ten, x, hl, _⟩ := hf
    rw [hl] at hn ⊢
    exact congrArg some hn.1

/-! ### Requests -/

/-- The request is taken, and its final answer is still to be handed over (R158). -/
theorem State.Owned.taken {s : State} {t : Tables} {cs : List (SessionId × CacheEntry)} (h : s.Owned t cs)
    (hl : SessionLaw s.sessions s.nextNumber) {p : PortId} {rq : Request} {rest : List Request}
    (hin : (s.port p).inbox = rq :: rest) {i : SessionId} (hb : s.boundSession p = some i) {e : CacheEntry}
    (he : e.tag = rq.tag) : (s.takeInbox p rest).Owned t ((i, e) :: cs) := by
  have more : ∀ j tag, concluded cs j tag → concluded ((i, e) :: cs) j tag :=
    fun j tag ⟨c, h1, h2⟩ => ⟨c, List.mem_cons_of_mem _ h1, h2⟩
  refine ⟨h.sound, h.owners, h.waiters, h.quotas, h.windows, h.bound, h.unbound, fun j q tag a b c => ?_,
    fun j tag a b => (h.parked j tag a b).imp id (more j tag), fun j a x hx => more _ _ (h.orphans j a x hx), h.purging,
    h.once, h.reached⟩
  rcases h.queued j q tag a b c with ⟨r, hr, ht⟩ | hc
  · have hport : ((s.takeInbox p rest).port q).inbox = if p = q then rest else (s.port q).inbox := by
      unfold State.takeInbox; rw [State.port_setPort]; split <;> rfl
    rw [hport]
    by_cases hq : p = q
    · subst hq
      rw [hin] at hr
      rcases List.mem_cons.mp hr with k | k
      · refine .inr ⟨(i, e), List.mem_cons_self, ?_, by rw [he, ← k]; exact ht⟩
        have : s.boundSession p = some j := boundTo_eq hl b
        rw [hb] at this; exact Option.some.inj this
      · rw [if_pos rfl]; exact .inl ⟨r, k, ht⟩
    · rw [if_neg hq]; exact .inl ⟨r, hr, ht⟩
  · exact .inr (more _ _ hc)

/-- The request of an unbound port is taken. -/
theorem State.Mild.taken {s : State} {p : PortId} (rest : List Request) (hb : s.boundSession p = none) :
    s.Mild (s.takeInbox p rest) := by
  refine ⟨rfl, fun _ => .refl _, fun j q tag _ b _ d => ?_, rfl, rfl⟩
  have hq : p ≠ q := by
    rintro rfl
    exact boundTo_none hb j b
  have : ((s.takeInbox p rest).port q).inbox = (s.port q).inbox := by
    unfold State.takeInbox; rw [State.port_setPort, if_neg hq]; rfl
  rw [this]; exact d

theorem Port.inbox_handAnswer (x : Port) (a : Answer) : (x.handAnswer a).inbox = x.inbox := by
  unfold Port.handAnswer; split <;> rfl

/-- A final answer of session `i` is handed over, and its step completes. -/
theorem State.Owned.answer {s : State} {p : PortId} {i : SessionId} {tag : Tag} {k : ReqKind} {st : Status} {res : Result}
    {r : Run} (h : s.Owned r.tab ((i, { tag := tag, kind := k, status := st, result := res }) :: r.cache)) :
    (s.answerRequest p tag k (some i) (.final st res) r).ownerLaw := by
  unfold State.answerRequest
  refine State.Owned.complete (h.conclude.mild ?_)
  unfold State.giveReply
  exact .setPort (fun r hr => by rw [Port.inbox_handAnswer]; exact hr)

/-- An answer that no session's cache takes. -/
theorem State.Owned.answerNone {s : State} {p : PortId} {tag : Tag} {k : ReqKind} {st : Status} {res : Result} {r : Run}
    (h : s.Owned r.tab r.cache) : (s.answerRequest p tag k none (.final st res) r).ownerLaw := by
  unfold State.answerRequest
  refine State.Owned.complete (h.mild ?_)
  unfold State.giveReply
  exact .setPort (fun r hr => by rw [Port.inbox_handAnswer]; exact hr)

/-- The laws that a step's proof needs at its start. -/
structure State.Lawed (s : State) : Prop where
  owner : s.ownerLaw
  sound : s.tab.Sound
  session : SessionLaw s.sessions s.nextNumber

theorem State.Lawed.owned {s : State} (h : s.Lawed) : s.Owned s.tab [] := h.owner.owned h.sound

/-- A refusal of a request of session `i`. -/
theorem State.Lawed.refused {s : State} (h : s.Lawed) {p : PortId} {rq : Request} {rest : List Request}
    (hin : (s.port p).inbox = rq :: rest) {i : SessionId} (hb : s.boundSession p = some i) (k : ReqKind) (st : Status) :
    ((s.takeInbox p rest).answerRequest p rq.tag k (some i) (.final st .empty) (Run.start (s.takeInbox p rest))).ownerLaw :=
  State.Owned.answer (h.owned.taken h.session hin hb rfl)

theorem State.Lawed.refusedUnbound {s : State} (h : s.Lawed) {p : PortId} (rest : List Request)
    (hb : s.boundSession p = none) (tag : Tag) (k : ReqKind) (st : Status) :
    ((s.takeInbox p rest).answerRequest p tag k none (.final st .empty) (Run.start (s.takeInbox p rest))).ownerLaw :=
  State.Owned.answerNone (h.owned.mild (.taken rest hb))

/-- A request that is parked: its tag is marked, and the session waits for it (R33, R38). -/
theorem State.Owned.park {s : State} {t : Tables} (h : s.Owned t []) (hl : SessionLaw s.sessions s.nextNumber) {p : PortId}
    {rq : Request} {rest : List Request} (hin : (s.port p).inbox = rq :: rest) {i : SessionId}
    (hb : s.boundSession p = some i) (hw : t.waitsFor i rq.tag) :
    State.Owned ((s.takeInbox p rest).setSession i ((s.session i).parkTag rq.tag)) t [] := by
  have k := h.taken hl hin hb (e := { tag := rq.tag, kind := .acquire, status := .ok, result := .empty }) rfl
  have hi : (s.session i).state = .active := h.waiters i rq.tag hw
  have get : ∀ j, ((s.takeInbox p rest).setSession i ((s.session i).parkTag rq.tag)).session j =
      if i = j then (s.session i).parkTag rq.tag else s.session j := fun j => session_setSession _ i j _
  have drop : ∀ j tag, j ≠ i →
      concluded [((i : SessionId), ({ tag := rq.tag, kind := .acquire, status := .ok, result := .empty } : CacheEntry))] j tag →
      concluded [] j tag := by
    rintro j tag hj ⟨c, hc, h1, _⟩
    rw [List.mem_singleton] at hc
    subst hc
    exact absurd h1.symm hj
  have same : ∀ j, (((s.takeInbox p rest).setSession i ((s.session i).parkTag rq.tag)).session j).state =
      (s.session j).state ∧ (((s.takeInbox p rest).setSession i ((s.session i).parkTag rq.tag)).session j).quota =
      (s.session j).quota ∧ (((s.takeInbox p rest).setSession i ((s.session i).parkTag rq.tag)).session j).window =
      (s.session j).window ∧ (((s.takeInbox p rest).setSession i ((s.session i).parkTag rq.tag)).session j).port =
      (s.session j).port ∧ (((s.takeInbox p rest).setSession i ((s.session i).parkTag rq.tag)).session j).outstanding.length =
      (s.session j).outstanding.length := by
    intro j
    rw [get]
    split
    · next e => subst e; exact ⟨rfl, rfl, rfl, rfl, List.length_map _⟩
    · exact ⟨rfl, rfl, rfl, rfl, rfl⟩
  have tags : ∀ tag m, (tag, m) ∈ ((s.session i).parkTag rq.tag).outstanding →
      (tag = rq.tag ∧ m = .parked) ∨ (tag ≠ rq.tag ∧ (tag, m) ∈ (s.session i).outstanding) := by
    intro tag m hm
    unfold Session.parkTag at hm
    obtain ⟨x, hx, he⟩ := List.mem_map.mp hm
    split at he
    · next ht => cases he; exact .inl ⟨ht, rfl⟩
    · next ht => subst he; exact .inr ⟨ht, hx⟩
  refine ⟨h.sound, fun n l hl => by rw [(same _).1]; exact h.owners n l hl,
    fun j tag hj => by rw [(same _).1]; exact h.waiters j tag hj, fun j => by rw [(same j).2.1]; exact h.quotas j,
    fun j => by rw [(same j).2.2.1, (same j).2.2.2.2]; exact h.windows j,
    fun j hj => by rw [(same j).2.2.2.1]; rw [(same j).1] at hj; exact h.bound j hj,
    fun j hj => by rw [(same j).2.2.2.1] at hj; rw [(same j).1]; exact h.unbound j hj, fun j q tag a b c => ?_,
    fun j tag a b => ?_, fun j a x hx => ?_, fun j => by rw [(same j).1]; exact h.purging j, h.once, h.reached⟩
  · rw [(same j).1] at a
    rw [(same j).2.2.2.1] at b
    by_cases hj : j = i
    · subst hj
      rw [get, if_pos rfl] at c
      rcases tags tag _ c with ⟨_, hm⟩ | ⟨hn, hm⟩
      · cases hm
      · rcases k.queued j q tag a b hm with x | ⟨c', hc, h1, h2⟩
        · exact .inl x
        · rw [List.mem_singleton] at hc
          subst hc
          exact absurd h2.symm hn
    · rw [get, if_neg (Ne.symm hj)] at c
      exact (k.queued j q tag a b c).imp id (drop j tag hj)
  · rw [(same j).1] at a
    by_cases hj : j = i
    · subst hj
      rw [get, if_pos rfl] at b
      rcases tags tag _ b with ⟨hn, _⟩ | ⟨_, hm⟩
      · rw [hn]; exact .inl hw
      · exact h.parked j tag a hm
    · rw [get, if_neg (Ne.symm hj)] at b
      exact h.parked j tag a b
  · rw [(same j).1] at a
    have hj : j ≠ i := by rintro rfl; rw [hi] at a; cases a
    rw [get, if_neg (Ne.symm hj)] at hx
    exact h.orphans j a x hx

/-- The step of a request of an ACTIVE session. -/
theorem State.Lawed.worked {s : State} (h : s.Lawed) {p : PortId} {rq : Request} {rest : List Request}
    (hin : (s.port p).inbox = rq :: rest) {i : SessionId} (hb : s.boundSession p = some i)
    (hi : (s.session i).state = .active) (k : ReqKind) {w : Run × Reply}
    {makes : Prop} (hw : Works makes (Run.start (s.takeInbox p rest)) i (s.session i).quota rq.tag w) (hs : w.1.tab.Sound) :
    ((s.takeInbox p rest).answerRequest p rq.tag k (some i) w.2 w.1).ownerLaw := by
  obtain ⟨_, u, cs, g, l, hc, hr⟩ := hw
  have hc : w.1.cache = cs := hc
  rcases hr with ⟨h1, h2, h3⟩ | ⟨st, res, h1⟩
  · rw [h2] at l
    have o := ((h.owned.grow g hi).less l hs).park h.session hin hb h3
    rw [h1]
    unfold State.answerRequest
    refine State.Owned.complete ?_
    rw [hc, h2]
    refine o.mild ?_
    unfold State.giveReply
    exact .setPort (fun r hr => by rw [Port.inbox_handAnswer]; exact hr)
  · rw [h1]
    have hi' : ((s.takeInbox p rest).session i).state = .active := hi
    have o := ((h.owned.taken h.session hin hb
      (e := { tag := rq.tag, kind := k, status := st, result := res }) rfl).grow g hi').less l hs
    refine State.Owned.answer ?_
    rw [hc]; exact o

theorem State.Lawed.takeRequest {s : State} (h : s.Lawed) (k : ReqKind) (step : PortId → Request → State → State)
    (hstep : ∀ p rq rest, (s.port p).inbox = rq :: rest → (step p rq (s.takeInbox p rest)).ownerLaw) :
    (s.takeRequest k step).ownerLaw := by
  unfold State.takeRequest
  split
  · rename_i p rq rest hp
    split
    · refine hstep p rq rest ?_
      unfold State.presentedRequest at hp
      split at hp
      · rename_i q hq
        split at hp
        · rename_i a b hin
          simp only [Option.some.injEq, Prod.mk.injEq] at hp
          obtain ⟨rfl, rfl, rfl⟩ := hp
          exact hin
        · cases hp
      · cases hp
    · exact h.owner
  · exact h.owner

theorem State.Lawed.sessionRequest {s : State} (h : s.Lawed) (k : ReqKind)
    (work : SessionId → Request → State → Run × Reply)
    {makes : Prop} (hw : ∀ i rq (x : State), x.tab.Sound → Works makes (Run.start x) i (x.session i).quota rq.tag (work i rq x))
    (hto : ∀ i rq (x : State), x.tab.Sound → (Run.start x).To (work i rq x).1) : (s.sessionRequest k work).ownerLaw := by
  refine h.takeRequest k _ (fun p rq rest hin => ?_)
  dsimp only
  split
  · rename_i hb
    exact h.refusedUnbound rest hb _ k _
  · rename_i i hb
    split
    · rename_i hi
      exact h.worked hin hb hi k (hw i rq (s.takeInbox p rest) h.sound)
        ((hto i rq (s.takeInbox p rest) h.sound).moves.keeps h.sound)
    · exact h.refused hin hb k _

/-! ### JOIN and DEPART -/

theorem State.Lawed.joinNew {s : State} (h : s.Lawed) {p : PortId} (rest : List Request) (hb : s.boundSession p = none)
    (tag : Tag) (name : Name) (window : Nat) : ((s.takeInbox p rest).joinNew p tag name window).ownerLaw := by
  have o := h.owned.mild (.taken rest hb)
  unfold State.joinNew
  dsimp only
  split
  · rename_i j hj
    split
    · exact State.Owned.answerNone o
    · rename_i hs
      have hs : (s.session j).state = .orphaned := hs
      exact State.Owned.answerNone (o.closeAs .purge
        (fun hx => by have hx : (s.session j).state = .closing := hx; rw [hs] at hx; cases hx)
        (o.noWait (fun hx => by have hx : (s.session j).state = .active := hx; rw [hs] at hx; cases hx)))
    · exact State.Owned.answerNone o
    · exact State.Owned.answerNone o
  · split
    · exact State.Owned.answerNone o
    · rename_i k hk
      have hf : (s.session k).state = .free := by
        have := List.find?_some hk
        exact of_decide_eq_true this
      split
      · exact State.Owned.answerNone o
      · refine State.Owned.answer ?_
        have none : ∀ n l, (s.tab.body n).lease? = some l → l.owner ≠ k := by
          intro n l hl he
          exact h.owner.owners n l hl (by rw [he]; exact hf)
        refine State.Owned.less (cs := []) (ds := [(k, _)]) ?_
          ⟨.refl _ _, fun _ _ x => x, fun _ _ x => .inl x⟩ h.sound
        refine o.activate (i := k) (y := Session.created p (s.cfg p) name window s.nextNumber s.clock) ?_ (upd_same _ _ _)
          (fun j hj => ?_) (fun _ => rfl) rfl rfl rfl ?_ rfl rfl
        · rw [show (s.takeInbox p rest).session k = s.session k from rfl, hf]; simp
        · exact (upd_get _ _ _ _).trans (if_neg (Ne.symm hj))
        · rw [h.sound.slotCount_zero none]; exact Nat.zero_le _

theorem State.Lawed.joinReclaim {s : State} (h : s.Lawed) {p : PortId} (rest : List Request) (hb : s.boundSession p = none)
    (tag : Tag) (name : Name) (window number : Nat) :
    ((s.takeInbox p rest).joinReclaim p tag name window number).ownerLaw := by
  have o := h.owned.mild (.taken rest hb)
  unfold State.joinReclaim
  dsimp only
  split
  · exact State.Owned.answerNone o
  · rename_i j hj
    split
    · rename_i hs
      have hs : (s.session j).state = .orphaned := hs
      refine State.Owned.answer (State.Owned.less (cs := []) (ds := [(j, _)]) ?_
        ⟨.refl _ _, fun _ _ x => x, fun _ _ x => .inl x⟩ h.sound)
      refine o.activate (i := j) (y := (s.session j).reclaimed p (s.cfg p) window s.clock) ?_ (upd_same _ _ _)
        (fun i hi => ?_) (fun _ => rfl) rfl rfl (h.owner.orphans j hs) (h.owner.quotas j) rfl rfl
      · rw [show (s.takeInbox p rest).session j = s.session j from rfl, hs]; simp
      · exact (upd_get _ _ _ _).trans (if_neg (Ne.symm hi))
    · exact State.Owned.answerNone o
    · exact State.Owned.answerNone o
    · exact State.Owned.answerNone o

theorem State.Lawed.join {s : State} (h : s.Lawed) {p : PortId} {rq : Request} {rest : List Request}
    (hin : (s.port p).inbox = rq :: rest) : ((s.takeInbox p rest).joinStep p rq).ownerLaw := by
  have refuse : ∀ st, ((s.takeInbox p rest).answerRequest p rq.tag .join (s.boundSession p) (.final st .empty)
      (Run.start (s.takeInbox p rest))).ownerLaw := by
    intro st
    cases hb : s.boundSession p with
    | none => exact h.refusedUnbound rest hb _ _ _
    | some i => exact h.refused hin hb _ _
  unfold State.joinStep
  dsimp only
  split
  · split
    · exact refuse _
    · split
      · split <;> exact refuse _
      · rename_i hb
        split
        · exact h.joinNew rest hb _ _ _
        · exact h.joinReclaim rest hb _ _ _ _
  · exact refuse _

theorem State.Lawed.depart {s : State} (h : s.Lawed) {p : PortId} {rq : Request} {rest : List Request}
    (hin : (s.port p).inbox = rq :: rest) : ((s.takeInbox p rest).departStep p rq).ownerLaw := by
  unfold State.departStep
  split
  · rename_i hb
    exact h.refusedUnbound rest hb _ _ _
  · rename_i i hb
    split
    · rename_i hi
      have hi : (s.session i).state = .active := hi
      split
      · unfold State.answerRequest
        refine State.Owned.complete ?_
        let r := (Run.start (s.takeInbox p rest)).endWaitsOf i .sessionEnded
        obtain ⟨cs, h1, h2⟩ := (Run.start (s.takeInbox p rest)).lessens_endWaitsOf i .sessionEnded
        have hs : r.tab.Sound := (Run.endWaitsOf_to (Run.start (s.takeInbox p rest)) i .sessionEnded h.sound).moves.keeps
          h.sound
        have o := (h.owned.taken h.session hin hb (e := { tag := rq.tag, kind := .depart, status := .ok, result := .empty })
          rfl).less h2 hs
        have hc : r.cache = cs := h1
        have get : ∀ j, (((s.takeInbox p rest).closeAs i .depart).giveReply p rq.tag .depart (some i) .silent).session j =
            if i = j then ((s.session i).closing .depart).parkTag rq.tag else s.session j := by
          intro j
          show (upd (upd s.sessions i _) i _)[j] = _
          rw [upd_upd, upd_get]
          split
          · show Session.parkTag (upd s.sessions i _)[i] rq.tag = _
            rw [upd_get, if_pos rfl]; rfl
          · rfl
        have k := o.close (i := i) (u := ((s.takeInbox p rest).closeAs i .depart).giveReply p rq.tag .depart (some i) .silent)
          (by rw [show (s.takeInbox p rest).session i = s.session i from rfl, hi]; simp)
          (((Run.start (s.takeInbox p rest)).endWaitsOf_ended i .sessionEnded h.sound).none h.sound)
          (fun j hj => (get j).trans (if_neg (Ne.symm hj))) (fun _ => rfl) (by rw [get, if_pos rfl]; rfl)
          (by rw [get, if_pos rfl]; rfl) (by rw [get, if_pos rfl]; rfl)
          (by rw [get, if_pos rfl]; exact Nat.le_of_eq (List.length_map _)) rfl rfl
        show State.Owned _ r.tab r.cache
        rw [hc]
        have drop : ∀ j tag, j ≠ i → concluded ([(i, ({ tag := rq.tag, kind := .depart, status := .ok, result := .empty } :
            CacheEntry))] ++ cs) j tag → concluded cs j tag := by
          rintro j tag hj ⟨c, hc, h1, h2⟩
          rcases List.mem_append.mp hc with e | e
          · rw [List.mem_singleton] at e; subst e; exact absurd h1.symm hj
          · exact ⟨c, e, h1, h2⟩
        have act : ∀ j, ((((s.takeInbox p rest).closeAs i .depart).giveReply p rq.tag .depart (some i) .silent).session j).state
            = .active ∨ ((((s.takeInbox p rest).closeAs i .depart).giveReply p rq.tag .depart (some i) .silent).session
              j).state = .orphaned → j ≠ i := by
          rintro j hj rfl
          rw [get, if_pos rfl] at hj
          rcases hj with hj | hj <;> cases hj
        exact ⟨k.sound, k.owners, k.waiters, k.quotas, k.windows, k.bound, k.unbound,
          fun j q tg a b c => (k.queued j q tg a b c).imp id (drop j tg (act j (.inl a))),
          fun j tg a b => (k.parked j tg a b).imp id (drop j tg (act j (.inl a))),
          fun j a x hx => drop j x.1 (act j (.inr a)) (k.orphans j a x hx), k.purging, k.once, k.reached⟩
      · exact h.refused hin hb _ _
    · exact h.refused hin hb _ _

end Sys2Proof.Machine
end

