-- ==== Sys2Proof/Laws/OwnersKept.lean ====
section
/-! SUPPORT. The claims of the timers, the sweep, the purge, the commands, and what arrives at the ports, as they keep the
law of slots, sessions and ports. -/

namespace Sys2Proof.Machine

/-! ### Steps without a request -/

theorem State.Lawed.mild {s t : State} (h : s.Lawed) (m : s.Mild t) : t.ownerLaw := h.owner.mild h.sound m

/-- A step's completion, after work that lessens slots and waits and a mild change of the records. -/
theorem State.Lawed.complete {s u : State} {r : Run} (h : s.Lawed) (m : s.Mild u) (hr : (Run.start s).Lessens r)
    (hs : r.tab.Sound) : (r.complete u).ownerLaw := by
  obtain ⟨cs, h1, h2⟩ := hr
  have hc : r.cache = cs := h1
  refine State.Owned.complete ?_
  rw [hc]
  exact (State.Owned.less (cs := []) h.owned h2 hs).mild m

theorem State.Mild.claim (s : State) (c : TimerClaim) : s.Mild (s.claim c) := .rest rfl rfl rfl rfl rfl

theorem State.Mild.judgeTerm (s : State) (i : SessionId) : s.Mild (s.judgeTerm i) := by
  unfold State.judgeTerm
  split
  · split
    · rename_i d _ _
      exact .trans (t := s.setSession i { s.session i with term := .expired d })
        (.setSession ⟨rfl, rfl, rfl, .inl rfl, .refl _⟩) (.claim _ _)
    · exact .refl s
  · exact .refl s
  · exact .refl s

theorem State.Mild.judgeGrace (s : State) (i : SessionId) : s.Mild (s.judgeGrace i) := by
  unfold State.judgeGrace
  split
  · split
    · rename_i d _ _
      exact .trans (t := s.setSession i { s.session i with grace := .expired d })
        (.setSession ⟨rfl, rfl, rfl, .inl rfl, .refl _⟩) (.claim _ _)
    · exact .refl s
  · exact .refl s
  · exact .refl s

theorem State.Mild.judgeTimers (s : State) : s.Mild s.judgeTimers := by
  unfold State.judgeTimers
  generalize List.finRange 12 = l
  induction l generalizing s with
  | nil => exact .refl s
  | cons i l ih => exact (State.Mild.judgeTerm s i).trans ((State.Mild.judgeGrace _ i).trans (ih _))

theorem State.Mild.clock (s : State) : s.Mild s.advanceClock.sweepTimer.judgeTimers := by
  refine .trans ?_ (.judgeTimers _)
  refine .trans (t := s.advanceClock) (.same rfl (fun _ => .refl _) (fun p r hr => ?_) rfl rfl) ?_
  · have : s.advanceClock.port p = (s.port p).millisecond := mapPorts_get _ _ p
    rw [this]; exact hr
  · unfold State.sweepTimer; split <;> exact .rest rfl rfl rfl rfl rfl

/-! ### Orphaning (R90) -/

/-- The records of an orphaning, once the session's waits have ended (R90). -/
theorem State.Owned.makeOrphan {s : State} {t : Tables} {cs : List (SessionId × CacheEntry)} (o : s.Owned t cs)
    (hl : SessionLaw s.sessions s.nextNumber) {i : SessionId} (hi : (s.session i).state = .active)
    (nw : ∀ tag, ¬ t.waitsFor i tag) : (s.makeOrphan i).Owned t cs := by
  obtain ⟨p, hp⟩ := Option.isSome_iff_exists.mp (o.bound i hi)
  have hb : s.boundSession p = some i := boundTo_eq hl hp
  let x : Session := { (s.session i).without (s.port p).inbox with
    state := .orphaned, port := none, term := .stopped,
    grace := .running (s.clock + BitVec.ofNat 32 (s.cfg p).orphanGrace) }
  have hmk : s.makeOrphan i = { s with
      sessions := upd s.sessions i x, ports := upd s.ports p { s.port p with inbox := [] } } := by
    unfold State.makeOrphan State.unbind; rw [hp]; dsimp only
    unfold State.discardInbox; rw [hb]; dsimp only
    unfold State.graceOf; rw [hp]; dsimp only
    simp only [x, State.setSession, State.setPort, upd_upd, State.session, State.port, Session.without, deadlineAt,
      Fin.getElem_fin, upd_same_val, State.cfg]
  have m := o.mild (.discardInbox hl p)
  have hq : ∀ q, ((s.makeOrphan i).port q).inbox = ((s.discardInbox p).port q).inbox := by
    intro q
    rw [hmk]
    unfold State.discardInbox; rw [hb]
    show ((upd s.ports p _)[q]).inbox = ((upd s.ports p _)[q]).inbox
    rw [upd_get, upd_get]; split <;> rfl
  have hempty : ((s.discardInbox p).port p).inbox = [] := by
    unfold State.discardInbox; rw [hb]
    show ((upd s.ports p _)[p]).inbox = _
    rw [upd_same]
  have hold : ∀ j, (s.discardInbox p).session j =
      if i = j then (s.session i).without (s.port p).inbox else s.session j := by
    intro j
    unfold State.discardInbox; rw [hb]
    exact upd_get _ _ _ _
  have get : ∀ j, (s.makeOrphan i).session j = if i = j then x else s.session j := by
    intro j; rw [hmk]; exact upd_get _ _ _ _
  have hpq : (s.makeOrphan i).purgeQueue = (s.discardInbox p).purgeQueue := by
    rw [hmk]; unfold State.discardInbox; rw [hb]; rfl
  have hps : (s.makeOrphan i).purgeSection = (s.discardInbox p).purgeSection := by
    rw [hmk]; unfold State.discardInbox; rw [hb]; rfl
  have hactive : ((s.discardInbox p).session i).state = .active := by rw [hold, if_pos rfl]; exact hi
  refine m.record i (fun j hj => by rw [get, hold, if_neg (Ne.symm hj), if_neg (Ne.symm hj)]) hq
    (fun hx => by rw [get, if_pos rfl] at hx; cases hx) (fun _ => nw)
    (by rw [get, if_pos rfl]; exact o.quotas i) ?_ (fun hx => by rw [get, if_pos rfl] at hx; cases hx)
    (fun hx => by rw [get, if_pos rfl] at hx; cases hx) (fun _ y hy => ?_)
    (fun j => ?_) (by rw [hpq]; exact m.once) (by rw [hpq, hps]; exact m.reached)
  · have := m.windows i
    rw [hold, if_pos rfl] at this
    rw [get, if_pos rfl]; exact this
  · rw [get, if_pos rfl] at hy
    have hy' : y ∈ ((s.discardInbox p).session i).outstanding := by rw [hold, if_pos rfl]; exact hy
    obtain ⟨tag, mk⟩ := y
    cases mk with
    | queued =>
      rcases m.queued i p tag hactive (by rw [hold, if_pos rfl]; exact hp) hy' with ⟨q, hq, _⟩ | hq
      · rw [hempty] at hq; cases hq
      · exact hq
    | parked => exact (m.parked i tag hactive hy').resolve_left (nw tag)
  · rw [hpq, get]
    split
    · next e =>
      subst e
      constructor
      · intro hm
        have := (m.purging i).mp hm
        rw [hactive] at this; cases this
      · intro hm; cases hm
    · next e =>
      have := m.purging j
      rw [hold, if_neg e] at this; exact this

theorem State.Lawed.orphan {s : State} (h : s.Lawed) {i : SessionId} (hi : (s.session i).state = .active) :
    (s.orphan i).ownerLaw := by
  unfold State.orphan
  dsimp only
  obtain ⟨cs, h1, h2⟩ := (Run.start s).lessens_endWaitsOf i .sessionEnded
  have nw := ((Run.start s).endWaitsOf_ended i .sessionEnded h.sound).none h.sound
  have hs := (Run.endWaitsOf_to (Run.start s) i .sessionEnded h.sound).moves.keeps h.sound
  generalize (Run.start s).endWaitsOf i .sessionEnded = r at *
  have o : s.Owned r.tab cs := State.Owned.less (cs := []) h.owned h2 hs
  have hc : r.cache = cs := h1
  have k := o.makeOrphan h.session hi nw
  have law : (Run.complete (r.alarm (.sessionOrphaned, .session i)) (s.makeOrphan i)).ownerLaw := by
    refine State.Owned.complete ?_
    show State.Owned _ r.tab r.cache
    rw [hc]; exact k
  exact law.mild ((Run.runPasses_to (r.alarm (.sessionOrphaned, .session i)) hs).moves.keeps hs) (.judgeGrace _ _)

theorem State.Lawed.takeTimer {s : State} (h : s.Lawed) (k : TimerKind) (step : TimerClaim → State → State)
    (hstep : ∀ c (x : State), x.Lawed → (step c x).ownerLaw) : (s.takeTimer k step).ownerLaw := by
  unfold State.takeTimer
  split
  · split
    · split
      · refine hstep _ _ ⟨h.owner.mild h.sound (.rest rfl rfl rfl rfl rfl), h.sound, h.session⟩
      · exact h.owner
    · exact h.owner
  · exact h.owner

theorem State.Lawed.lossStep {s : State} (h : s.Lawed) (c : TimerClaim) : (s.lossStep c).ownerLaw := by
  unfold State.lossStep
  split
  · rename_i hh
    unfold State.lossHolds at hh
    simp only [Bool.and_eq_true, decide_eq_true_eq] at hh
    exact h.orphan hh.1.1
  · exact h.owner

theorem State.Lawed.linkLostStep {s : State} (h : s.Lawed) (c : TimerClaim) : (s.linkLostStep c).ownerLaw := by
  unfold State.linkLostStep
  dsimp only
  split
  · split
    · rename_i ha
      exact h.orphan ha
    · rename_i hc _
      exact h.mild (.setSession ⟨rfl, rfl, rfl, .inr ⟨by rw [hc]; simp, rfl⟩, .refl _⟩)
    · exact h.owner
  · exact h.owner

theorem State.Lawed.graceStep {s : State} (h : s.Lawed) (c : TimerClaim) : (s.graceStep c).ownerLaw := by
  unfold State.graceStep
  split
  · rename_i hh
    unfold State.graceHolds at hh
    simp only [Bool.and_eq_true, decide_eq_true_eq] at hh
    exact (h.owned.closeAs .purge (by rw [hh.1.1]; simp) (h.owned.noWait (by rw [hh.1.1]; simp))).law
  · exact h.owner

/-! ### The sweep and the purge -/

theorem State.Lawed.visitStep {s : State} (h : s.Lawed) : s.visitStep.ownerLaw := by
  rw [State.visitStep_eq]
  exact h.complete (.rest rfl rfl rfl rfl rfl) (Run.lessens_visit _ _ h.sound)
    ((Run.visit_to (Run.start s) _ h.sound).moves.keeps h.sound)

/-- After the purge of a section the session has no lease there (R98). -/
theorem Run.purge_none {s : State} (h : s.Lawed) {i : SessionId} (hi : (s.session i).state = .closing) (k : Nat) {n : Nat}
    {l : Lease} (hl : (((Run.start s).purge i k).tab.body n).lease? = some l) (ho : l.owner = i) : n / 256 ≠ k := by
  intro hk
  obtain ⟨_, sh, fr⟩ := Run.retire_fold .purge (s.tab.ownedIn i k) (Run.start s) h.sound
  obtain ⟨h1, h2⟩ := sh n l hl
  have hm : n ∈ s.tab.ownedIn i k := by
    unfold Tables.ownedIn
    rw [Tables.mem_slotsWhere h.sound.wf]
    exact ⟨l, h1, by simp [ho, sectionOf, Config.sectionSlots, hk]⟩
  have hheld : s.tab.isHeld n = true := by
    unfold Tables.isHeld
    have h1 : (s.tab.body n).lease? = some l := h1
    cases hb : s.tab.body n with
    | free => rw [hb] at h1; cases h1
    | held _ _ => rfl
    | pending a d =>
      rw [hb] at h1
      simp only [SlotBody.lease?, Option.some.injEq] at h1
      subst h1
      have := h.owner.waiters i a.originTag ⟨n, by rw [hb]; exact ⟨ho, rfl⟩⟩
      rw [hi] at this; cases this
  have := fr n hm hheld
  have hl : (((s.tab.ownedIn i k).foldl (fun r n => r.retire .purge n) (Run.start s)).tab.body n).lease? = some l := hl
  rw [this] at hl; cases hl

theorem State.Mild.answerDepart {s : State} (h : SessionLaw s.sessions s.nextNumber) (i : SessionId) :
    s.Mild (s.answerDepart i) := by
  unfold State.answerDepart
  split
  · dsimp only
    exact (State.Mild.discardInbox h _).trans (.setPort (fun r hr => by rw [Port.inbox_handAnswer]; exact hr))
  · exact .discardInbox h _
  · exact .refl s

theorem State.Lawed.purgeStep {s : State} (h : s.Lawed) {i : SessionId} {more : List SessionId}
    (hq : s.purgeQueue = i :: more) : (s.purgeStep i).ownerLaw := by
  have hi : (s.session i).state = .closing := (h.owner.purging i).mp (by rw [hq]; exact List.mem_cons_self)
  have hs : ((Run.start s).purge i s.purgeSection).tab.Sound :=
    (Run.purge_to (Run.start s) i s.purgeSection h.sound).moves.keeps h.sound
  obtain ⟨cs, h1, h2⟩ := (Run.start s).lessens_purge i s.purgeSection h.sound
  have hc : ((Run.start s).purge i s.purgeSection).cache = cs := h1
  have o : s.Owned ((Run.start s).purge i s.purgeSection).tab cs := State.Owned.less (cs := []) h.owned h2 hs
  have past : ∀ n l, (((Run.start s).purge i s.purgeSection).tab.body n).lease? = some l → l.owner = i →
      s.purgeSection + 1 ≤ n / 256 := by
    intro n l hl ho
    have a := o.reached i n l (by rw [hq]; rfl) hl ho
    have b := Run.purge_none h hi s.purgeSection hl ho
    omega
  unfold State.purgeStep
  dsimp only
  split
  · refine State.Owned.complete ?_
    rw [hc]
    refine ⟨o.sound, o.owners, o.waiters, o.quotas, o.windows, o.bound, o.unbound, o.queued, o.parked, o.orphans, o.purging, o.once,
      fun j n l hj hl ho => ?_⟩
    have hj : s.purgeQueue.head? = some j := hj
    rw [hq] at hj
    cases hj
    exact past n l hl ho
  · rename_i hlast
    have empty : ∀ n l, (((Run.start s).purge i s.purgeSection).tab.body n).lease? = some l → l.owner ≠ i := by
      intro n l hl ho
      have a := past n l hl ho
      have b := hs.slot_lt (n := n) (by intro hb; rw [hb] at hl; cases hl)
      simp only [Config.slots] at b
      omega
    generalize hr : (Run.start s).purge i s.purgeSection = r at *
    have ht : (r.closedAlert i (s.session i).closeKind).tab = r.tab := by unfold Run.closedAlert; split <;> rfl
    have hca : (r.closedAlert i (s.session i).closeKind).cache = cs := by unfold Run.closedAlert; split <;> exact hc
    refine State.Owned.complete ?_
    rw [ht, hca]
    have m := o.mild (.answerDepart h.session i)
    have md := State.Mild.answerDepart h.session i
    have hq' : (s.answerDepart i).purgeQueue = i :: more := by rw [md.purgeQueue]; exact hq
    have hi' : ((s.answerDepart i).session i).state = .closing := by rw [(md.records i).state]; exact hi
    have get : ∀ j, ((s.answerDepart i).freeSession i).session j =
        if i = j then Session.freed else (s.answerDepart i).session j := fun j => upd_get _ _ _ _
    have hn := m.once
    rw [hq', List.nodup_cons] at hn
    have hpq : ((s.answerDepart i).freeSession i).purgeQueue = more := by
      show (s.answerDepart i).purgeQueue.tail = more
      rw [hq']; rfl
    refine m.record i (fun j hj => by rw [get, if_neg (Ne.symm hj)]) (fun _ => rfl) (fun _ => empty)
      (fun _ => m.noWait (by rw [hi']; simp)) (by rw [hs.slotCount_zero empty]; exact Nat.zero_le _)
      (by rw [get, if_pos rfl]; exact Nat.le_refl _) (fun hx => by rw [get, if_pos rfl] at hx; cases hx)
      (fun hx => by rw [get, if_pos rfl] at hx; cases hx)
      (fun hx => by rw [get, if_pos rfl] at hx; cases hx) (fun j => ?_) (by rw [hpq]; exact hn.2)
      (fun j n l _ _ _ => Nat.zero_le _)
    rw [hpq, get]
    split
    · next e =>
      subst e
      exact ⟨fun hm => absurd hm hn.1, fun hx => by cases hx⟩
    · next e =>
      have := m.purging j
      rw [hq', List.mem_cons] at this
      rw [← this]
      exact ⟨.inr, fun hx => hx.resolve_left (Ne.symm e)⟩

/-! ### Commands -/

theorem State.Mild.finishStatus (s : State) (r : Option Reason) : s.Mild (s.finishStatus r) := .rest rfl rfl rfl rfl rfl

theorem State.ownerLaw.finishStatus {s : State} (h : s.ownerLaw) (r : Option Reason) : (s.finishStatus r).ownerLaw :=
  ⟨h.owners, h.waiters, h.quotas, h.windows, h.bound, h.unbound, h.queued, h.parked, h.orphans, h.purging, h.once, h.reached⟩

theorem State.Lawed.finish {s u : State} {r : Run} (h : s.Lawed) (m : s.Mild u) (hr : (Run.start s).Lessens r)
    (hs : r.tab.Sound) (reason : Option Reason) : (u.finishCommand reason r).ownerLaw :=
  (h.complete m hr hs).finishStatus reason

theorem State.Lawed.refuse {s : State} (h : s.Lawed) (r : Reason) : (s.refuseCommand r).ownerLaw := h.mild (.finishStatus _ _)

theorem State.Lawed.takeCommand {s : State} (h : s.Lawed) (f : Byte → Bool) (step : Command → State → State)
    (hstep : ∀ c (x : State), x.Lawed → (step c x).ownerLaw) : (s.takeCommand f step).ownerLaw := by
  unfold State.takeCommand
  split
  · split
    · exact hstep _ _ ⟨h.owner.mild h.sound (.rest rfl rfl rfl rfl rfl), h.sound, h.session⟩
    · exact h.owner
  · exact h.owner

theorem State.Lawed.onVolume {s : State} (h : s.Lawed) (c : Command) (w : VolumeId → State) (hw : ∀ v, (w v).ownerLaw) :
    (s.onVolume c w).ownerLaw := by
  unfold State.onVolume; split
  · exact hw _
  · exact h.refuse _

theorem State.Lawed.moveVolume {s : State} (h : s.Lawed) (v : VolumeId) (st : VolumeState)
    (room : st = .offline → s.tab.hasSlots v = false) : (s.moveVolume v st).ownerLaw :=
  h.finish (.refl s) (Run.lessens_withTab (r := Run.start s) (t := s.tab.setVolumeState v st) (.same rfl))
    ((Run.setVolumeState_to (Run.start s) v st h.sound room).moves.keeps h.sound) _

theorem State.Lawed.defineStep {s : State} (h : s.Lawed) (c : Command) : (s.defineStep c).ownerLaw := by
  unfold State.defineStep
  refine h.onVolume c _ (fun v => ?_)
  split
  · exact h.refuse _
  · split
    · exact h.refuse _
    · rename_i hs
      exact h.finish (.refl s) (Run.lessens_withTab (r := Run.start s)
        (t := { s.tab with volumes := upd s.tab.volumes v { s.tab.volume v with size := c.arg3.toNat } }) (.same rfl))
        ((Run.define_to (Run.start s) v _ h.sound (Decidable.not_not.mp hs)).moves.keeps h.sound) _

theorem State.Lawed.onlineStep {s : State} (h : s.Lawed) (c : Command) : (s.onlineStep c).ownerLaw := by
  unfold State.onlineStep
  refine h.onVolume c _ (fun v => ?_)
  split
  · exact h.refuse _
  · split
    · exact h.refuse _
    · split
      · exact h.refuse _
      · exact h.moveVolume v _ (fun hx => by cases hx)

theorem State.Lawed.freezeStep {s : State} (h : s.Lawed) (c : Command) : (s.freezeStep c).ownerLaw := by
  unfold State.freezeStep
  refine h.onVolume c _ (fun v => ?_)
  split
  · exact h.refuse _
  · exact h.moveVolume v _ (fun hx => by cases hx)

theorem State.Lawed.thawStep {s : State} (h : s.Lawed) (c : Command) : (s.thawStep c).ownerLaw := by
  unfold State.thawStep
  refine h.onVolume c _ (fun v => ?_)
  split
  · exact h.refuse _
  · split
    · exact h.refuse _
    · refine h.finish (.refl s) (.trans (Run.lessens_withTab (r := Run.start s) (t := s.tab.setVolumeState v .online) (.same rfl))
        (Run.lessens_passDue _ v)) ?_ _
      have := (Run.setVolumeState_to (Run.start s) v .online h.sound (fun hx => by cases hx)).passDue v
      exact this.moves.keeps h.sound

theorem State.Lawed.offlineStep {s : State} (h : s.Lawed) (c : Command) : (s.offlineStep c).ownerLaw := by
  unfold State.offlineStep
  refine h.onVolume c _ (fun v => ?_)
  split
  · exact h.refuse _
  · rename_i hs
    exact h.moveVolume v _ (fun _ => by simpa using hs)

theorem State.Lawed.offlineForceStep {s : State} (h : s.Lawed) (c : Command) : (s.offlineForceStep c).ownerLaw := by
  unfold State.offlineForceStep
  refine h.onVolume c _ (fun v => ?_)
  split
  · exact h.finish (.refl s) (.refl _) h.sound _
  · exact h.finish (.refl s) (Run.lessens_forceOffline _ v h.sound)
      ((Run.forceOffline_to (Run.start s) v h.sound).moves.keeps h.sound) _

theorem State.Lawed.revokeStep {s : State} (h : s.Lawed) (c : Command) : (s.revokeStep c).ownerLaw := by
  unfold State.revokeStep
  split
  · exact h.refuse _
  · split
    · exact h.finish (.refl s) (Run.lessens_retire _ _ _ h.sound)
        ((Run.retire_to (Run.start s) _ _ h.sound).moves.keeps h.sound) _
    · exact h.refuse _

theorem State.Lawed.closeSession {s : State} (h : s.Lawed) {i : SessionId} (hi : (s.session i).state ≠ .closing) :
    (s.closeSession i).ownerLaw := by
  unfold State.closeSession
  have hs : ((Run.start s).endWaitsOf i .sessionEnded).tab.Sound :=
    (Run.endWaitsOf_to (Run.start s) i .sessionEnded h.sound).moves.keeps h.sound
  obtain ⟨cs, h1, h2⟩ := (Run.start s).lessens_endWaitsOf i .sessionEnded
  have hc : ((Run.start s).endWaitsOf i .sessionEnded).cache = cs := h1
  have nw := ((Run.start s).endWaitsOf_ended i .sessionEnded h.sound).none h.sound
  have o : s.Owned ((Run.start s).endWaitsOf i .sessionEnded).tab cs := State.Owned.less (cs := []) h.owned h2 hs
  have k : ((s.unbind i).closeAs i .purge).Owned ((Run.start s).endWaitsOf i .sessionEnded).tab cs := by
    have close : ∀ {x : State} {y : Session}, x.Owned ((Run.start s).endWaitsOf i .sessionEnded).tab cs →
        (x.session i).state ≠ .closing → y.state = (x.session i).state → y.quota = (x.session i).quota →
        y.window = (x.session i).window → y.outstanding = (x.session i).outstanding →
        ((x.setSession i y).closeAs i .purge).Owned ((Run.start s).endWaitsOf i .sessionEnded).tab cs := by
      intro x y ox hx _ hq hw ho
      have get : ∀ j, ((x.setSession i y).closeAs i .purge).session j =
          if i = j then y.closing .purge else x.session j := by
        intro j
        show (upd (upd x.sessions i y) i _)[j] = _
        rw [upd_upd, upd_get]
        split
        · show Session.closing (upd x.sessions i y)[i] .purge = _
          rw [upd_get, if_pos rfl]
        · rfl
      refine ox.close hx nw (fun j hj => (get j).trans (if_neg (Ne.symm hj))) (fun _ => rfl) (by rw [get, if_pos rfl]; rfl)
        (by rw [get, if_pos rfl]; exact hq) (by rw [get, if_pos rfl]; exact hw) ?_ rfl rfl
      rw [get, if_pos rfl]
      show y.outstanding.length ≤ _
      exact Nat.le_of_eq (congrArg List.length ho)
    unfold State.unbind
    split
    · rename_i p hp
      have md := State.Mild.discardInbox h.session p
      exact close (o.mild md) (by rw [(md.records i).state]; exact hi) rfl rfl rfl rfl
    · exact close o hi rfl rfl rfl rfl
  refine State.ownerLaw.finishStatus (State.Owned.complete ?_) _
  rw [hc]
  exact k

theorem State.Lawed.closeSessionStep {s : State} (h : s.Lawed) (c : Command) : (s.closeSessionStep c).ownerLaw := by
  unfold State.closeSessionStep
  split
  · exact h.refuse _
  · split
    · exact h.refuse _
    · exact h.refuse _
    · rename_i hi; exact h.closeSession (by rw [hi]; simp)
    · rename_i hi; exact h.closeSession (by rw [hi]; simp)

theorem State.Lawed.portResetStep {s : State} (h : s.Lawed) (c : Command) : (s.portResetStep c).ownerLaw := by
  unfold State.portResetStep
  split
  · exact h.refuse _
  · rename_i p _
    have m : s.Mild (s.resetPort p) := by
      unfold State.resetPort
      exact (State.Mild.portDown h.session p).trans (.trans
        (t := (s.portDown p).setPort p ((s.portDown p).port p).clearCounters) (.setPort (fun _ hr => hr)) (.retrain _ p))
    exact h.finish m (.refl _) h.sound _

theorem State.Lawed.setConfigStep {s : State} (h : s.Lawed) (c : Command) : (s.setConfigStep c).ownerLaw := by
  have fin : ∀ u : State, s.Mild u → (u.finishCommand none (Run.start s)).ownerLaw :=
    fun u m => h.finish m (.refl _) h.sound _
  unfold State.setConfigStep
  split
  · rename_i p _
    unfold State.setPortItem
    split
    · exact h.refuse _
    · rename_i x _
      refine fin _ (.trans (t := s.setCfg p x) (.rest rfl rfl rfl rfl rfl) ?_)
      unfold State.followEnable
      split
      · exact .refl _
      · split
        · exact .retrain _ _
        · exact .portDown (s := s.setCfg p x) h.session p
  · split
    · unfold State.setDeviceItem
      split
      · split
        · exact fin _ (.rest rfl rfl rfl rfl rfl)
        · exact h.refuse _
      · split
        · exact fin _ (.rest rfl rfl rfl rfl rfl)
        · exact h.refuse _
      · exact h.refuse _
    · exact h.refuse _

/-! ### Cleared states -/

/-- Every record FREE, every slot FREE and the purge queue empty. -/
theorem State.ownerLaw_cleared {s : State} (free : ∀ i, s.session i = Session.freed) (slots : ∀ n, s.tab.body n = .free)
    (counts : ∀ i, s.tab.slotCount i = 0) (queue : s.purgeQueue = []) : s.ownerLaw := by
  have st : ∀ i, (s.session i).state = .free := fun i => by rw [free]; rfl
  refine ⟨fun n l hl => ?_, fun i tag hw => ?_, fun i => ?_, fun i => ?_, fun i hi => ?_, fun i hi => ?_, fun i p tag hi => ?_,
    fun i tag hi => ?_, fun i hi => ?_, fun i => ?_, ?_, fun i n l hq => ?_⟩
  · rw [slots] at hl; cases hl
  · obtain ⟨n, hn⟩ := hw; rw [slots] at hn; exact hn.elim
  · rw [counts]; exact Nat.zero_le _
  · rw [free]; exact Nat.le_refl _
  · rw [st] at hi; cases hi
  · rw [free] at hi; cases hi
  · rw [st] at hi; cases hi
  · rw [st] at hi; cases hi
  · rw [st] at hi; cases hi
  · rw [queue, st]; exact ⟨fun hx => (by cases hx), fun hx => (by cases hx)⟩
  · rw [queue]; exact List.nodup_nil
  · rw [queue] at hq; cases hq

theorem session_freedAll (i : SessionId) : (Vector.replicate 12 Session.freed)[i] = Session.freed := by simp

theorem slotCount_reset (i : SessionId) : Tables.reset.slotCount i = 0 := by
  show (Vector.replicate 12 0)[i] = 0; simp

theorem State.ownerLaw_reset : State.reset.ownerLaw :=
  State.ownerLaw_cleared session_freedAll (fun _ => rfl) slotCount_reset rfl

theorem State.Mild.retrainAll (s : State) : s.Mild s.retrainAll := (State.Mild.retrainFold _ s).trans (.gateRetrain _)

theorem State.ownerLaw_startUp (s : State) : s.startUp.ownerLaw := by
  have h : (s.clearEngine.setDevice .ready).ownerLaw :=
    State.ownerLaw_cleared session_freedAll (fun _ => rfl) slotCount_reset rfl
  exact h.mild Tables.sound_reset (.retrainAll _)

theorem State.Lawed.tableClearStep {s : State} (h : s.Lawed) (c : Command) : (s.tableClearStep c).ownerLaw := by
  have hs : ((s.clearTables.finishStatus none).setDevice .ready).tab.Sound := Tables.sound_clear h.sound
  have hl : ((s.clearTables.finishStatus none).setDevice .ready).ownerLaw := by
    refine State.ownerLaw_cleared session_freedAll (fun n => ?_) slotCount_reset rfl
    show (s.tab.slots.clearAll.get n).body = .free
    rw [SlotTable.get_clearAll _ _ h.sound.wf.1]
  exact hl.mild hs (.retrainAll _)

/-! ### The ports -/

theorem State.Mild.toInbox (s : State) (p : PortId) (rq : Request) : s.Mild (s.toInbox p rq) :=
  .setPort (fun _ hr => List.mem_append_left _ hr)

theorem State.Mild.intakeReply {s t u : State} (p : PortId) (a : Answer) (h : t.Mild s) (k : t.Mild u) :
    t.Mild (s.intakeReply u p a) := by
  unfold State.intakeReply
  split
  · exact k.trans (.setPort (fun r hr => by rw [Port.inbox_handAnswer]; exact hr))
  · exact h

theorem Session.like_restartTerm (x : Session) (d : Time) : x.Like (x.restartTerm d) := by
  unfold Session.restartTerm
  split
  · exact ⟨rfl, rfl, rfl, .inl rfl, .refl _⟩
  · exact .refl x

theorem Session.like_acknowledge (x : Session) (n : BitVec 16) : x.Like (x.acknowledge n) := by
  unfold Session.acknowledge
  dsimp only
  split <;> exact ⟨rfl, rfl, rfl, .inl rfl, .refl _⟩

/-- A request is accepted for session `i` (R156). -/
theorem State.Lawed.accept {s : State} (h : s.Lawed) {p : PortId} {i : SessionId} {rq : Request}
    (hb : s.boundSession p = some i) (hw : (s.session i).outstanding.length < (s.session i).window)
    (ho : (s.session i).state ≠ .orphaned) : (s.accept p i rq).ownerLaw := by
  let x := (s.session i).restartTerm (deadlineAt s.clock (s.cfg p).sessionTerm)
  have hx : (s.session i).Like x := Session.like_restartTerm _ _
  have hxo : x.outstanding = (s.session i).outstanding := by
    show ((s.session i).restartTerm _).outstanding = _
    unfold Session.restartTerm; split <;> rfl
  have o := h.owned.mild (.toInbox s p rq)
  have get : ∀ j, (s.accept p i rq).session j =
      if i = j then { x with outstanding := x.outstanding ++ [(rq.tag, .queued)] } else s.session j :=
    fun j => upd_get _ _ _ _
  have port : ∀ q, ((s.accept p i rq).port q) = (s.toInbox p rq).port q := fun _ => rfl
  have own : (s.accept p i rq).Owned s.tab [] := by
    refine o.record i (fun j hj => (get j).trans (if_neg (Ne.symm hj))) (fun q => rfl) ?_ ?_ ?_ ?_ ?_ ?_ ?_ ?_ o.once o.reached
    · intro hf n l hl he
      rw [get, if_pos rfl] at hf
      have hf : x.state = .free := hf
      rw [hx.state] at hf
      exact h.owner.owners n l hl (by rw [he]; exact hf)
    · intro hn
      rw [get, if_pos rfl] at hn
      have hn : x.state ≠ .active := hn
      rw [hx.state] at hn
      exact h.owned.noWait hn
    · rw [get, if_pos rfl]
      show _ ≤ x.quota
      rw [hx.quota]; exact h.owner.quotas i
    · rw [get, if_pos rfl]
      show (x.outstanding ++ _).length ≤ x.window
      rw [hx.window, hxo, List.length_append]
      exact hw
    · intro ha
      rw [get, if_pos rfl] at ha ⊢
      have ha : (s.session i).state = .active := by rw [← hx.state]; exact ha
      refine ⟨?_, fun q tag hq ht => ?_, fun tag ht => ?_⟩
      · show x.port.isSome = true
        rw [hx.port_eq ha]; exact h.owner.bound i ha
      · have hq : x.port = some q := hq
        rw [hx.port_eq ha] at hq
        have ht : (tag, TagMark.queued) ∈ x.outstanding ++ [(rq.tag, TagMark.queued)] := ht
        rw [hxo, List.mem_append, List.mem_singleton] at ht
        rcases ht with ht | ht
        · exact o.queued i q tag ha hq ht
        · simp only [Prod.mk.injEq, and_true] at ht
          have hp : (s.session i).port = some p := boundTo_some hb
          rw [hp] at hq
          cases hq
          refine .inl ⟨rq, ?_, ht.symm⟩
          unfold State.toInbox
          rw [State.port_setPort, if_pos rfl]
          exact List.mem_append_right _ List.mem_cons_self
      · have ht : (tag, TagMark.parked) ∈ x.outstanding ++ [(rq.tag, TagMark.queued)] := ht
        rw [hxo, List.mem_append, List.mem_singleton] at ht
        rcases ht with ht | ht
        · exact .inl (h.owner.parked i tag ha ht)
        · simp at ht
    · intro hq
      rw [get, if_pos rfl] at hq ⊢
      have hq : x.port.isSome = true := hq
      have := h.owner.unbound i (by
        rcases hx.port with k | k
        · rw [← k]; exact hq
        · rw [k.2] at hq; cases hq)
      show x.state = _ ∨ x.state = _
      rw [hx.state]; exact this
    · intro ha
      rw [get, if_pos rfl] at ha
      have ha : x.state = .orphaned := ha
      rw [hx.state] at ha
      exact absurd ha ho
    · intro j
      rw [get]
      split
      · next e =>
        subst e
        show _ ↔ x.state = _
        rw [hx.state]; exact h.owner.purging i
      · exact h.owner.purging j
  exact own.law

theorem State.Mild.restartTermOf (s : State) (p : PortId) (i : SessionId) : s.Mild (s.restartTermOf p i) :=
  .setSession (Session.like_restartTerm _ _)

theorem State.Lawed.replies {s : State} (h : s.Lawed) (p : PortId) (a : Answer) : (s.intakeReply s p a).ownerLaw :=
  h.mild (.intakeReply p a (.refl s) (.refl s))

theorem State.Lawed.judgeNew {s : State} (h : s.Lawed) {p : PortId} {i : SessionId} (hb : s.boundSession p = some i)
    (rq : Request) : (s.judgeNew p i rq).ownerLaw := by
  obtain ⟨tag, body⟩ := rq
  have rest : ∀ rq : Request, (if (s.session i).window ≤ (s.session i).outstanding.length then
      s.intakeReply s p (intakeAnswer rq.tag rq.body .noCredit)
    else if s.hasRoom p then s.accept p i rq else s).ownerLaw := by
    intro rq
    split
    · exact h.replies _ _
    · rename_i hw
      split
      · refine h.accept hb (Nat.not_le.mp hw) (fun ho => ?_)
        have hp : (s.session i).port = some p := boundTo_some hb
        have := h.owner.unbound i (by rw [hp]; rfl)
        rw [ho] at this
        rcases this with k | k <;> cases k
      · exact h.owner
  cases body
  case keepalive => exact h.mild (.intakeReply p _ (.refl s) (.restartTermOf s p i))
  case noticeAck n =>
    unfold State.judgeNew; dsimp only
    have h0 := State.Mild.restartTermOf s p i
    generalize s.restartTermOf p i = u at h0 ⊢
    refine h.mild (.intakeReply p _ (.refl s) (h0.trans (.setSession ?_)))
    exact Session.like_acknowledge _ _
  case malformed k =>
    cases k
    case keepalive => exact h.replies _ _
    case noticeAck => exact h.replies _ _
    all_goals exact rest _
  all_goals exact rest _

theorem State.Lawed.intake {s : State} (h : s.Lawed) (p : PortId) (rq : Request) : (s.intake p rq).ownerLaw := by
  unfold State.intake
  split
  · unfold State.judgeUnbound
    split
    · split
      · exact h.owner
      · split
        · split
          · exact h.mild (.toInbox s p rq)
          · exact h.owner
        · exact h.replies _ _
    · exact h.replies _ _
  · rename_i i hb
    unfold State.judgeBound
    dsimp only
    split
    · exact h.replies _ _
    · split
      · exact h.replies _ _
      · split
        · exact h.replies _ _
        · split
          · exact h.replies _ _
          · exact h.owner
          · exact h.judgeNew hb rq

end Sys2Proof.Machine
end

