-- ==== Sys2Proof/Laws/OwnerEffects.lean ====
section
/-! SUPPORT. Every command keeps the law of slots, sessions and ports. -/

namespace Sys2Proof.Machine

/-! ### Frames -/

theorem Session.like_resetSend (x : Session) : x.Like x.resetSend := ⟨rfl, rfl, rfl, .inl rfl, .refl _⟩

theorem Session.like_markSent (x : Session) (n : BitVec 16) : x.Like (x.markSent n) := ⟨rfl, rfl, rfl, .inl rfl, .refl _⟩

theorem State.Mild.helloFrame (s : State) (p : PortId) : s.Mild (s.helloFrame p) := by
  unfold State.helloFrame
  dsimp only
  split
  · exact .refl _
  · split
    · refine State.Mild.trans (t := s.setPort p (s.port p).enterUp) (.setPort (fun _ hr => hr)) (.trans ?_ (.settle _))
      generalize s.setPort p (s.port p).enterUp = u
      unfold State.resetSendOf
      split
      · exact .setSession (Session.like_resetSend _)
      · exact .refl _
    · exact .setPort (fun _ hr => hr)
  · exact .setPort (fun _ hr => hr)

theorem Port.inbox_beginHello (x : Port) : x.beginHello.inbox = x.inbox := by unfold Port.beginHello; split <;> rfl

theorem State.Mild.frameSent (s : State) (p : PortId) (f : TxFrame) : s.Mild (s.frameSent p f) := by
  unfold State.frameSent
  dsimp only
  split
  · exact .setPort (fun _ hr => hr)
  · exact .setPort (fun _ hr => hr)
  · split
    · exact State.Mild.trans (t := s.setPort p { s.port p with tx := none }) (.setPort (fun _ hr => hr))
        (.setSession (Session.like_markSent _ _))
    · exact .setPort (fun _ hr => hr)

theorem State.Mild.transmitted (s : State) (p : PortId) : s.Mild (s.transmitted p) := by
  unfold State.transmitted
  split
  · rename_i f _
    refine (State.Mild.frameSent s p f).trans ?_
    generalize s.frameSent p f = u
    unfold State.chooseNext; dsimp only
    split
    · exact (State.Mild.settle u).trans (.setPort (fun r hr => by rw [Port.inbox_beginHello]; exact hr))
    · exact .settle _
  · exact .refl _

theorem State.Mild.discardFrame (s : State) (p : PortId) (k : RpDiscard) : s.Mild (s.discardFrame p k) := by
  unfold State.discardFrame
  dsimp only
  split
  · exact .setPort (fun _ hr => hr)
  · exact .setPort (fun _ hr => hr)
  · exact .refl _

theorem State.Mild.rpBadFrame {s : State} (h : SessionLaw s.sessions s.nextNumber) (p : PortId) : s.Mild (s.rpBadFrame p) := by
  unfold State.rpBadFrame
  dsimp only
  split
  · exact .refl _
  · exact .setPort (fun _ hr => hr)
  · let u := s.setPort p { s.port p with
      badFrames := satCount (s.port p).badFrames, errorRun := (s.port p).errorRun + 1, silence := 0 }
    have m : s.Mild u := .setPort (fun _ hr => hr)
    have hu : SessionLaw u.sessions u.nextNumber := h
    show s.Mild (if _ then (u.portDown p).retrain p else u)
    split
    · exact m.trans ((State.Mild.portDown hu p).trans (.retrain _ p))
    · exact m

theorem State.Mild.silenceTimeout {s : State} (h : SessionLaw s.sessions s.nextNumber) (p : PortId) :
    s.Mild (s.silenceTimeout p) := by
  unfold State.silenceTimeout
  dsimp only
  split
  · let u := s.setPort p { s.port p with silence := Config.silenceMax }
    have hu : SessionLaw u.sessions u.nextNumber := h
    exact State.Mild.trans (t := u) (.setPort (fun _ hr => hr)) (.trans (.portDown hu p) (.retrain _ p))
  · exact .refl _

theorem State.Mild.helloDue (s : State) (l : LinkRef) : s.Mild (s.helloDue l) := by
  cases l with
  | rp p => exact .setPort (fun r hr => by rw [Port.inbox_beginHello]; exact hr)
  | gate => exact .rest rfl rfl rfl rfl rfl

theorem State.Lawed.requestFrame {s : State} (h : s.Lawed) (p : PortId) (tag : Tag) (body : List Byte) :
    (s.requestFrame p tag body).ownerLaw := by
  unfold State.requestFrame
  split
  · split
    · exact h.owner
    · exact h.owner
    · let u := s.setPort p (s.port p).goodFrame
      have m : s.Mild u := .setPort (fun _ hr => hr)
      have hu : u.Lawed := ⟨h.mild m, h.sound, h.session⟩
      have hs : u.Onward (u.intake p { tag := tag, body := parseRequest body }) := by
        unfold State.intake
        split
        · exact judgeUnbound_onward _ _ _
        · exact judgeBound_onward _ _ _ _
      exact (hu.intake p { tag := tag, body := parseRequest body }).mild ((hs.tab h.sound).keeps h.sound) (.settle _)
  · exact h.mild (.rpBadFrame h.session p)

/-! ### Items -/

theorem State.Mild.writeItem (s : State) (i : Byte) (d : List Byte) : s.Mild (s.writeItem i d) := by
  unfold State.writeItem State.writeCode
  repeat' split
  all_goals first | exact .refl s | exact .rest rfl rfl rfl rfl rfl

theorem State.Mild.readByte (s : State) : s.Mild s.readByte := by
  rw [s.readByte_frame]; exact .rest rfl rfl rfl rfl rfl

theorem State.Mild.readBytes : ∀ (k : Nat) (s : State), s.Mild (State.readBytes k s)
  | 0, s => .refl s
  | k + 1, s => (State.Mild.readByte s).trans (readBytes k s.readByte)

/-! ### The gate -/

theorem State.Mild.setGate (s : State) (g : Gate) : s.Mild (s.setGate g) := .rest rfl rfl rfl rfl rfl

theorem State.Mild.gateDown (s : State) : s.Mild s.gateDown := by
  unfold State.gateDown
  exact State.Mild.trans (t := (s.setGate s.gate.drop).raise [(.linkDown, .device)])
    (.trans (t := s.setGate s.gate.drop) (.setGate _ _) (.rest rfl rfl rfl rfl rfl)) (.gateRetrain _)

theorem State.Mild.gateBad (s : State) : s.Mild s.gateBad := by
  unfold State.gateBad
  dsimp only
  split
  · exact .refl _
  · split
    · exact (State.Mild.setGate s _).trans (.gateDown _)
    · exact .setGate _ _

theorem Tables.lessens_countUse (t : Tables) (found : GateCode × Option Nat) : t.Lessens (t.countUse found) [] := by
  unfold Tables.countUse
  split
  · split
    · rename_i hb
      exact .amend hb rfl ⟨rfl, rfl, rfl, rfl, rfl⟩ rfl
    · exact .refl t
    · exact .refl t
  · exact .refl t

theorem State.Lawed.answerQuery {s : State} (h : s.Lawed) (q : GateQuery) : (s.answerQuery q).ownerLaw := by
  have m := Tables.countUse_moves s.tab (s.lookup q) h.sound
  have o := h.owned.less (Tables.lessens_countUse s.tab (s.lookup q)) (m.keeps h.sound)
  unfold State.answerQuery
  exact ⟨o.owners, o.waiters, o.quotas, o.windows, o.bound, o.unbound,
    fun i p tag a b c => (o.queued i p tag a b c).resolve_right (concluded_nil i tag),
    fun i tag a b => (o.parked i tag a b).resolve_right (concluded_nil i tag), h.owner.orphans, o.purging, o.once, o.reached⟩

/-! ### Every command -/

theorem State.Lawed.takeCode {s : State} (h : s.Lawed) (b : Byte) (step : Command → State → State)
    (hstep : ∀ c (x : State), x.Lawed → (step c x).ownerLaw) : (s.takeCode b step).ownerLaw := h.takeCommand _ step hstep


theorem State.Lawed.takeVisit {s : State} (h : s.Lawed) (step : State → State) (hstep : ∀ x : State, x.Lawed → (step x).ownerLaw) :
    (s.takeVisit step).ownerLaw := by
  unfold State.takeVisit
  split
  · exact hstep _ ⟨h.owner.mild h.sound (.rest rfl rfl rfl rfl rfl), h.sound, h.session⟩
  · exact h.owner

theorem State.Lawed.takePurge {s : State} (h : s.Lawed) : (s.takePurge State.purgeStep).ownerLaw := by
  unfold State.takePurge
  split
  · split
    · rename_i hq
      exact State.Lawed.purgeStep (s := { s with lastServed := 8 })
        ⟨h.owner.mild h.sound (.rest rfl rfl rfl rfl rfl), h.sound, h.session⟩ hq
    · exact h.owner
  · exact h.owner

/-- Every command keeps the law of slots, sessions and ports. -/
theorem effect_owner (c : Instr) {s : State} (h : s.Lawed) : (effect c s).ownerLaw := by
  cases c
  case powerOnReset => exact State.ownerLaw_reset.mild Tables.sound_reset (.rest rfl rfl rfl rfl rfl)
  case resetRelease => exact h.owner
  case startupComplete =>
    show (if s.device = .starting then s.startUp else s).ownerLaw
    split
    · exact State.ownerLaw_startUp s
    · exact h.owner
  case requestIntake => exact h.requestFrame _ _ _
  case keepalive => exact h.requestFrame _ _ _
  case noticeAck => exact h.requestFrame _ _ _
  case join => exact h.takeRequest .join (fun p rq s => s.joinStep p rq) (fun p rq rest hin => h.join hin)
  case depart => exact h.takeRequest .depart (fun p rq s => s.departStep p rq) (fun p rq rest hin => h.depart hin)
  case acquire => exact h.sessionRequest _ _ (fun i rq t ht => acquireWork_works i rq t ht) (fun i rq t ht => acquireWork_to i rq t ht)
  case convert => exact h.sessionRequest _ _ (fun i rq t ht => convertWork_works i rq t) (fun i rq t ht => convertWork_to i rq t ht)
  case renew => exact h.sessionRequest _ _ (fun i rq t ht => renewWork_works i rq t) (fun i rq t ht => renewWork_to i rq t)
  case release => exact h.sessionRequest _ _ (fun i rq t ht => releaseWork_works i rq t ht) (fun i rq t ht => releaseWork_to i rq t ht)
  case cancel => exact h.sessionRequest _ _ (fun i rq t ht => cancelWork_works i rq t) (fun i rq t ht => cancelWork_to i rq t ht)
  case query => exact h.sessionRequest _ _ (fun i rq t ht => queryWork_works i rq t) (fun i rq t ht => by rw [queryWork_fst]; exact .refl _)
  case list => exact h.sessionRequest _ _ (fun i rq t ht => listWork_works i rq t) (fun i rq t ht => by rw [listWork_fst]; exact .refl _)
  case sweepTimerExpiry => exact h.mild (.clock s)
  case sweepVisit => exact h.takeVisit _ (fun _ hx => hx.visitStep)
  case termTimerExpiry => exact h.mild (.judgeTerm s _)
  case graceTimerExpiry => exact h.mild (.judgeGrace s _)
  case lossClaim => exact h.takeTimer _ _ (fun c _ hx => hx.lossStep c)
  case linkLostClaim => exact h.takeTimer _ _ (fun c _ hx => hx.linkLostStep c)
  case graceClaim => exact h.takeTimer _ _ (fun c _ hx => hx.graceStep c)
  case purgeSection => exact h.takePurge
  case define => exact h.takeCode _ _ (fun c _ hx => hx.defineStep c)
  case online => exact h.takeCode _ _ (fun c _ hx => hx.onlineStep c)
  case freeze => exact h.takeCode _ _ (fun c _ hx => hx.freezeStep c)
  case thaw => exact h.takeCode _ _ (fun c _ hx => hx.thawStep c)
  case offline => exact h.takeCode _ _ (fun c _ hx => hx.offlineStep c)
  case offlineForce => exact h.takeCode _ _ (fun c _ hx => hx.offlineForceStep c)
  case revoke => exact h.takeCode _ _ (fun c _ hx => hx.revokeStep c)
  case closeSession => exact h.takeCode _ _ (fun c _ hx => hx.closeSessionStep c)
  case portReset => exact h.takeCode _ _ (fun c _ hx => hx.portResetStep c)
  case tableClear => exact h.takeCode _ _ (fun c _ hx => hx.tableClearStep c)
  case setConfig => exact h.takeCode _ _ (fun c _ hx => hx.setConfigStep c)
  case badCommand => exact h.takeCommand _ _ (fun _ _ hx => hx.refuse _)
  case registerWrite item data =>
    exact h.mild (State.Mild.trans (t := s.point item) (.rest rfl rfl rfl rfl rfl) (.writeItem _ _ _))
  case alertRead transfer =>
    exact h.mild (State.Mild.trans (t := s.openRead transfer.goesOn) (.rest rfl rfl rfl rfl rfl) (.readBytes transfer.bytes _))
  case recordWindowSelect => exact h.mild (.rest rfl rfl rfl rfl rfl)
  case helloReceive => exact h.mild (.helloFrame s _)
  case badFrame => exact h.mild (.rpBadFrame h.session _)
  case discardedFrame => exact h.mild (.discardFrame s _ _)
  case linkSilenceTimeout => exact h.mild (.silenceTimeout h.session _)
  case helloTransmit => exact h.mild (.helloDue s _)
  case frameTransmitComplete => exact h.mild (.transmitted s _)
  case gateHelloReceive => exact h.mild (.setGate s _)
  case gateQuery tag body =>
    refine h.mild ?_
    show s.Mild (s.queryFrame tag body)
    unfold State.queryFrame
    split
    · split
      · exact .refl s
      · exact .setGate s _
      · exact .setGate s _
    · exact .gateBad s
  case gateLookup =>
    show s.lookupOldest.ownerLaw
    unfold State.lookupOldest
    split
    · split
      · exact h.owner
      · exact h.answerQuery _
    · exact h.owner
  case gateAnswerSent => exact h.mild (.setGate s _)
  case gateBadFrame => exact h.mild (.gateBad s)
  case gateLinkSilenceTimeout =>
    show s.gateSilence.ownerLaw
    unfold State.gateSilence
    split
    · exact h.owner
    · exact h.mild ((State.Mild.setGate s _).trans (.gateDown _))
  case gateDiscardedFrame => exact h.mild (.setGate s _)

end Sys2Proof.Machine
end

