-- ==== Sys2Proof/Laws/Generations.lean ====
section
/-! SUPPORT. What each command does to the slots' generations (R3, R5). -/

namespace Sys2Proof.Machine

/-- From `s` to `t` each slot goes on or becomes FREE. -/
def State.SlotsOnward (s t : State) : Prop := s.tab.slotsOnward t.tab False

theorem State.SlotsOnward.tab {s t : State} (h : t.tab = s.tab) : s.SlotsOnward t := by
  unfold State.SlotsOnward; rw [h]; exact .refl _ _

theorem State.SlotsOnward.trans {s t u : State} (a : s.SlotsOnward t) (b : t.SlotsOnward u) : s.SlotsOnward u :=
  Tables.slotsOnward.trans a b

theorem Run.Lessens.slots {r u : Run} (h : r.Lessens u) : r.tab.slotsOnward u.tab False := by
  obtain ⟨_, _, h⟩ := h; exact h.slots

/-- The completion of a step whose work lessens slots and waits. -/
theorem Run.Lessens.complete {s : State} {r : Run} (h : (Run.start s).Lessens r) (u : State) : s.SlotsOnward (r.complete u) :=
  (h.trans r.lessens_runPasses).slots

theorem Run.Lessens.alarm {r u : Run} (h : r.Lessens u) (a : Alert) : r.Lessens (u.alarm a) := h

theorem State.SlotsOnward.orphan (s : State) (i : SessionId) : s.SlotsOnward (s.orphan i) := by
  unfold State.orphan
  dsimp only
  have h := (((Run.start s).lessens_endWaitsOf i .sessionEnded).alarm (.sessionOrphaned, .session i)).complete (s.makeOrphan i)
  generalize Run.complete _ (s.makeOrphan i) = w at h ⊢
  exact h.trans (.tab (State.Mild.judgeGrace w i).tab)

theorem State.SlotsOnward.answer {s : State} {p : PortId} {tag : Tag} {k : ReqKind} {i : Option SessionId} {y : Reply}
    {r : Run} (h : (Run.start s).Lessens r) : s.SlotsOnward (s.answerRequest p tag k i y r) := h.complete _

theorem takeRequest_slots (s : State) (k : ReqKind) (step : PortId → Request → State → State)
    (h : ∀ p rq (t : State), t.SlotsOnward (step p rq t)) : s.SlotsOnward (s.takeRequest k step) := by
  unfold State.takeRequest
  split
  · split
    · exact h _ _ _
    · exact .tab rfl
  · exact .tab rfl

theorem takeSoundCode_slots (s : State) (hs : s.tab.Sound) (b : Byte) (step : Command → State → State)
    (h : ∀ c (t : State), t.tab.Sound → t.SlotsOnward (step c t)) : s.SlotsOnward (s.takeCode b step) := by
  unfold State.takeCode State.takeCommand
  split
  · split
    · exact h _ _ hs
    · exact .tab rfl
  · exact .tab rfl

theorem takeCode_slots (s : State) (b : Byte) (step : Command → State → State) (h : ∀ c (t : State), t.SlotsOnward (step c t)) :
    s.SlotsOnward (s.takeCode b step) := by
  unfold State.takeCode State.takeCommand
  split
  · split
    · exact h _ _
    · exact .tab rfl
  · exact .tab rfl

theorem takeTimer_slots (s : State) (k : TimerKind) (step : TimerClaim → State → State)
    (h : ∀ c (t : State), t.SlotsOnward (step c t)) : s.SlotsOnward (s.takeTimer k step) := by
  unfold State.takeTimer
  split
  · split
    · split
      · exact h _ _
      · exact .tab rfl
    · exact .tab rfl
  · exact .tab rfl

/-- A session's request that makes no lease. -/
theorem sessionRequest_slots (s : State) (hs : s.tab.Sound) (k : ReqKind) (work : SessionId → Request → State → Run × Reply)
    (h : ∀ i rq (t : State), t.tab.Sound → t.tab.slotsOnward (work i rq t).1.tab False) :
    s.SlotsOnward (s.sessionRequest k work) := by
  unfold State.sessionRequest State.takeRequest
  split
  · rename_i p rq rest _
    split
    · dsimp only
      split
      · exact Run.Lessens.complete (.refl _) _
      · rename_i i _
        split
        · have h1 := h i rq (s.takeInbox p rest) hs
          exact h1.trans (Run.lessens_runPasses _).slots
        · exact Run.Lessens.complete (.refl _) _
    · exact .tab rfl
  · exact .tab rfl

theorem acquire_slots (s : State) (hs : s.tab.Sound) :
    s.tab.slotsOnward (s.sessionRequest .acquire acquireWork).tab True := by
  have refl : ∀ {t : State}, t.tab = s.tab → s.tab.slotsOnward t.tab True := fun h => by rw [h]; exact .refl _ _
  unfold State.sessionRequest State.takeRequest
  split
  · split
    · dsimp only
      split
      · exact (Run.Lessens.complete (.refl _) _).mono
      · split
        · show s.tab.slotsOnward (acquireWork _ _ _).1.runPasses.tab True
          rw [Run.runPasses_idle (acquireWork_due _ _ _)]
          exact (acquireWork_works _ _ _ hs).1
        · exact (Run.Lessens.complete (.refl _) _).mono
    · exact refl rfl
  · exact refl rfl

theorem joinStep_slots (s : State) (p : PortId) (rq : Request) : s.SlotsOnward (s.joinStep p rq) := by
  have a : ∀ (u : State) (i : Option SessionId) (y : Reply), u.tab = s.tab →
      s.SlotsOnward (u.answerRequest p rq.tag .join i y (Run.start u)) := by
    intro u i y hu
    unfold State.SlotsOnward
    rw [← hu]
    exact State.SlotsOnward.answer (.refl _)
  unfold State.joinStep
  dsimp only
  split
  · split
    · exact a _ _ _ rfl
    · split
      · split <;> exact a _ _ _ rfl
      · split
        · unfold State.joinNew
          dsimp only
          split
          · split <;> exact a _ _ _ rfl
          · split
            · exact a _ _ _ rfl
            · split <;> exact a _ _ _ rfl
        · unfold State.joinReclaim
          dsimp only
          split
          · exact a _ _ _ rfl
          · split <;> exact a _ _ _ rfl
  · exact a _ _ _ rfl

theorem departStep_slots (s : State) (p : PortId) (rq : Request) : s.SlotsOnward (s.departStep p rq) := by
  unfold State.departStep
  split
  · exact .answer (.refl _)
  · split
    · split
      · exact Run.Lessens.complete ((Run.start s).lessens_endWaitsOf _ .sessionEnded) _
      · exact .answer (.refl _)
    · exact .answer (.refl _)

theorem lossStep_slots (c : TimerClaim) (s : State) : s.SlotsOnward (s.lossStep c) := by
  unfold State.lossStep
  split
  · exact .orphan s _
  · exact .tab rfl

theorem linkLostStep_slots (c : TimerClaim) (s : State) : s.SlotsOnward (s.linkLostStep c) := by
  unfold State.linkLostStep
  dsimp only
  split
  · split
    · exact .orphan s _
    · exact .tab rfl
    · exact .tab rfl
  · exact .tab rfl

theorem graceStep_slots (c : TimerClaim) (s : State) : s.SlotsOnward (s.graceStep c) := by
  unfold State.graceStep
  split <;> exact .tab rfl

theorem purgeStep_slots (s : State) (hs : s.tab.Sound) (i : SessionId) : s.SlotsOnward (s.purgeStep i) := by
  have h := (Run.start s).lessens_purge i s.purgeSection hs
  unfold State.purgeStep
  dsimp only
  split
  · exact h.complete _
  · refine Run.Lessens.complete (.trans h (.same ?_ ?_)) _
    · unfold Run.closedAlert; split <;> rfl
    · unfold Run.closedAlert; split <;> rfl

/-! ### Commands -/

theorem onVolume_slots (s : State) (c : Command) (w : VolumeId → State) (h : ∀ v, s.SlotsOnward (w v)) :
    s.SlotsOnward (s.onVolume c w) := by
  unfold State.onVolume; split
  · exact h _
  · exact .tab rfl

theorem finish_slots {s u : State} {r : Run} (x : Option Reason) (h : (Run.start s).Lessens r) :
    s.SlotsOnward (u.finishCommand x r) := h.complete u

theorem moveVolume_slots (s : State) (v : VolumeId) (st : VolumeState) : s.SlotsOnward (s.moveVolume v st) :=
  finish_slots (r := Run.withTab (Run.start s) (s.tab.setVolumeState v st)) none (Run.lessens_withTab (.same rfl))

theorem defineStep_slots (c : Command) (s : State) : s.SlotsOnward (s.defineStep c) := by
  refine onVolume_slots s c _ (fun v => ?_)
  split
  · exact .tab rfl
  · split
    · exact .tab rfl
    · exact finish_slots _ (Run.lessens_withTab (.same rfl))

theorem onlineStep_slots (c : Command) (s : State) : s.SlotsOnward (s.onlineStep c) := by
  refine onVolume_slots s c _ (fun v => ?_)
  split
  · exact .tab rfl
  · split
    · exact .tab rfl
    · split
      · exact .tab rfl
      · exact moveVolume_slots _ _ _

theorem freezeStep_slots (c : Command) (s : State) : s.SlotsOnward (s.freezeStep c) := by
  refine onVolume_slots s c _ (fun v => ?_)
  split
  · exact .tab rfl
  · exact moveVolume_slots _ _ _

theorem thawStep_slots (c : Command) (s : State) : s.SlotsOnward (s.thawStep c) := by
  refine onVolume_slots s c _ (fun v => ?_)
  split
  · exact .tab rfl
  · split
    · exact .tab rfl
    · exact finish_slots _ (.trans (Run.lessens_withTab (t := s.tab.setVolumeState v .online) (.same rfl)) (Run.lessens_passDue _ v))

theorem offlineStep_slots (c : Command) (s : State) : s.SlotsOnward (s.offlineStep c) := by
  refine onVolume_slots s c _ (fun v => ?_)
  split
  · exact .tab rfl
  · exact moveVolume_slots _ _ _

theorem offlineForceStep_slots {s : State} (hs : s.tab.Sound) (c : Command) : s.SlotsOnward (s.offlineForceStep c) := by
  refine onVolume_slots s c _ (fun v => ?_)
  split
  · exact finish_slots _ (.refl _)
  · exact finish_slots _ (Run.lessens_forceOffline _ v hs)

theorem revokeStep_slots {s : State} (hs : s.tab.Sound) (c : Command) : s.SlotsOnward (s.revokeStep c) := by
  unfold State.revokeStep
  split
  · exact .tab rfl
  · split
    · exact finish_slots _ (Run.lessens_retire _ _ _ hs)
    · exact .tab rfl

theorem closeSessionStep_slots (c : Command) (s : State) : s.SlotsOnward (s.closeSessionStep c) := by
  have h : ∀ i, s.SlotsOnward (s.closeSession i) := fun i =>
    finish_slots _ ((Run.start s).lessens_endWaitsOf i .sessionEnded)
  unfold State.closeSessionStep
  split
  · exact .tab rfl
  · split
    · exact .tab rfl
    · exact .tab rfl
    · exact h _
    · exact h _

theorem portReset_slots (c : Command) (s : State) :
    s.SlotsOnward (s.portResetStep c) := by
  unfold State.portResetStep
  split
  · exact .tab rfl
  · exact finish_slots _ (.refl _)

theorem setConfig_slots (c : Command) (s : State) : s.SlotsOnward (s.setConfigStep c) := by
  unfold State.setConfigStep
  split
  · unfold State.setPortItem
    split
    · exact .tab rfl
    · exact finish_slots _ (.refl _)
  · split
    · unfold State.setDeviceItem
      split
      · split
        · exact finish_slots _ (.refl _)
        · exact .tab rfl
      · split
        · exact finish_slots _ (.refl _)
        · exact .tab rfl
      · exact .tab rfl
    · exact .tab rfl

theorem intake_tab (s : State) (p : PortId) (rq : Request) : (s.intake p rq).tab = s.tab := by
  have reply : ∀ (u : State) a, u.tab = s.tab → (s.intakeReply u p a).tab = s.tab := by
    intro u a h
    unfold State.intakeReply
    split
    · exact h
    · rfl
  unfold State.intake
  split
  · unfold State.judgeUnbound
    split
    · split
      · rfl
      · split
        · split <;> rfl
        · exact reply _ _ rfl
    · exact reply _ _ rfl
  · rename_i i _
    have new : ∀ rq, (s.judgeNew p i rq).tab = s.tab := by
      rintro ⟨tag, body⟩
      have rest : ∀ rq : Request, (if (s.session i).window ≤ (s.session i).outstanding.length then
          s.intakeReply s p (intakeAnswer rq.tag rq.body .noCredit)
        else if s.hasRoom p then s.accept p i rq else s).tab = s.tab := by
        intro rq
        split
        · exact reply _ _ rfl
        · split <;> rfl
      cases body
      case keepalive => exact reply _ _ rfl
      case noticeAck n => exact reply _ _ rfl
      case malformed k =>
        cases k
        case keepalive => exact reply _ _ rfl
        case noticeAck => exact reply _ _ rfl
        all_goals exact rest _
      all_goals exact rest _
    unfold State.judgeBound
    dsimp only
    split
    · exact reply _ _ rfl
    · split
      · exact reply _ _ rfl
      · split
        · exact reply _ _ rfl
        · split
          · exact reply _ _ rfl
          · rfl
          · exact new rq

theorem requestFrame_tab {s : State} (hl : SessionLaw s.sessions s.nextNumber) (p : PortId) (tag : Tag) (body : List Byte) :
    (s.requestFrame p tag body).tab = s.tab := by
  unfold State.requestFrame
  split
  · split
    · rfl
    · rfl
    · exact intake_tab (s.setPort p (s.port p).goodFrame) p { tag := tag, body := parseRequest body }
  · exact (State.Mild.rpBadFrame hl p).tab

theorem Works.onward {r : Run} {i : SessionId} {quota : Nat} {tag : Tag} {w : Run × Reply}
    (h : Works False r i quota tag w) : r.tab.slotsOnward w.1.tab False := h.1

/-- What every command but the clearing ones does to the slots. -/
theorem effect_slots (c : Instr) (s : State) (hs : s.tab.Sound) (hl : SessionLaw s.sessions s.nextNumber)
    (h1 : c ≠ .powerOnReset) (h2 : c ≠ .startupComplete)
    (h3 : c ≠ .tableClear) : s.tab.slotsOnward (effect c s).tab (c = .acquire) := by
  by_cases ha : c = .acquire
  · subst ha
    have h := acquire_slots s hs
    rw [show (Instr.acquire = Instr.acquire) = True from eq_true rfl]
    exact h
  refine Tables.slotsOnward.mono ?_
  show s.SlotsOnward (effect c s)
  cases c
  case powerOnReset => exact absurd rfl h1
  case startupComplete => exact absurd rfl h2
  case tableClear => exact absurd rfl h3
  case acquire => exact absurd rfl ha
  case resetRelease => exact .tab rfl
  case requestIntake => exact .tab (requestFrame_tab hl _ _ _)
  case keepalive => exact .tab (requestFrame_tab hl _ _ _)
  case noticeAck => exact .tab (requestFrame_tab hl _ _ _)
  case join => exact takeRequest_slots s _ _ (fun p rq t => joinStep_slots t p rq)
  case depart => exact takeRequest_slots s _ _ (fun p rq t => departStep_slots t p rq)
  case convert => exact sessionRequest_slots s hs _ _ (fun i rq t _ => (convertWork_works i rq t).onward)
  case renew => exact sessionRequest_slots s hs _ _ (fun i rq t _ => (renewWork_works i rq t).onward)
  case release => exact sessionRequest_slots s hs _ _ (fun i rq t ht => (releaseWork_works i rq t ht).onward)
  case cancel => exact sessionRequest_slots s hs _ _ (fun i rq t _ => (cancelWork_works i rq t).onward)
  case query => exact sessionRequest_slots s hs _ _ (fun i rq t _ => (queryWork_works i rq t).onward)
  case list => exact sessionRequest_slots s hs _ _ (fun i rq t _ => (listWork_works i rq t).onward)
  case sweepTimerExpiry => exact .tab (State.Mild.clock s).tab
  case sweepVisit =>
    show s.SlotsOnward (s.takeVisit _)
    unfold State.takeVisit
    split
    · exact (Run.lessens_visit (Run.start s) (s.tab.examined s.sweepPtr.val) hs).slots.trans (Run.lessens_runPasses _).slots
    · exact .tab rfl
  case termTimerExpiry => exact .tab (State.Mild.judgeTerm s _).tab
  case graceTimerExpiry => exact .tab (State.Mild.judgeGrace s _).tab
  case lossClaim => exact takeTimer_slots s _ _ lossStep_slots
  case linkLostClaim => exact takeTimer_slots s _ _ linkLostStep_slots
  case graceClaim => exact takeTimer_slots s _ _ graceStep_slots
  case purgeSection =>
    show s.SlotsOnward (s.takePurge _)
    unfold State.takePurge
    split
    · split
      · exact purgeStep_slots { s with lastServed := 8 } hs _
      · exact .tab rfl
    · exact .tab rfl
  case define => exact takeCode_slots s _ _ defineStep_slots
  case online => exact takeCode_slots s _ _ onlineStep_slots
  case freeze => exact takeCode_slots s _ _ freezeStep_slots
  case thaw => exact takeCode_slots s _ _ thawStep_slots
  case offline => exact takeCode_slots s _ _ offlineStep_slots
  case offlineForce => exact takeSoundCode_slots s hs _ _ (fun c _ ht => offlineForceStep_slots ht c)
  case revoke => exact takeSoundCode_slots s hs _ _ (fun c _ ht => revokeStep_slots ht c)
  case closeSession => exact takeCode_slots s _ _ closeSessionStep_slots
  case portReset => exact takeCode_slots s _ _ portReset_slots
  case setConfig => exact takeCode_slots s _ _ setConfig_slots
  case badCommand =>
    show s.SlotsOnward (s.takeCommand _ _)
    unfold State.takeCommand
    split
    · split <;> exact .tab rfl
    · exact .tab rfl
  case registerWrite item data => exact .tab (State.Mild.writeItem (s.point item) item data).tab
  case alertRead r => exact .tab (State.Mild.readBytes r.bytes (s.openRead r.goesOn)).tab
  case recordWindowSelect => exact .tab rfl
  case helloReceive => exact .tab (State.Mild.helloFrame s _).tab
  case badFrame => exact .tab (State.Mild.rpBadFrame hl _).tab
  case discardedFrame => exact .tab (State.Mild.discardFrame s _ _).tab
  case linkSilenceTimeout => exact .tab (State.Mild.silenceTimeout hl _).tab
  case helloTransmit => exact .tab (State.Mild.helloDue s _).tab
  case frameTransmitComplete => exact .tab (State.Mild.transmitted s _).tab
  case gateHelloReceive => exact .tab rfl
  case gateQuery tag body =>
    show s.SlotsOnward (s.queryFrame tag body)
    unfold State.queryFrame
    split
    · split <;> exact .tab rfl
    · exact .tab (State.Mild.gateBad s).tab
  case gateLookup =>
    show s.SlotsOnward s.lookupOldest
    unfold State.lookupOldest
    split
    · split
      · exact .tab rfl
      · exact (Tables.lessens_countUse s.tab (s.lookup _)).slots
    · exact .tab rfl
  case gateAnswerSent => exact .tab rfl
  case gateBadFrame => exact .tab (State.Mild.gateBad s).tab
  case gateLinkSilenceTimeout =>
    show s.SlotsOnward s.gateSilence
    unfold State.gateSilence
    split
    · exact .tab rfl
    · exact .tab (State.Mild.gateDown _).tab
  case gateDiscardedFrame => exact .tab rfl

end Sys2Proof.Machine
end

