-- ==== Sys2Proof/Laws/Timers.lean ====
section
/-! SUPPORT. The judgment of the session timers, said once: what the judgment of one timer and of all of them leaves (R86,
R87, R92, R114). -/

namespace Sys2Proof.Machine

/-- A judged timer is never RUNNING past its deadline (R114). -/
theorem SessionTimer.judged_ahead {now d : Time} {tm : SessionTimer} (h : tm.judged now = .running d) :
    2147483648 ≤ (now - d).toNat := by
  unfold SessionTimer.judged at h
  split at h
  · split at h
    · cases h
    · cases h; omega
  · cases h
  · cases h

/-- What the judgment of a timer of session `i` leaves: the record `x`, and its claims raised. -/
structure State.Judged (s t : State) (i : SessionId) (x : Session) (cs : List TimerClaim) : Prop where
  rest : t = { s with sessions := t.sessions, timersQueue := t.timersQueue }
  sessions : ∀ j, t.session j = if j = i then x else s.session j
  queue : claimsRaised s.timersQueue t.timersQueue cs

theorem State.Judged.unmoved (s : State) (i : SessionId) {x : Session} (hx : x = s.session i) : s.Judged s i x [] :=
  ⟨rfl, fun j => by by_cases e : j = i <;> simp [e, hx], rfl⟩

theorem State.Judged.raised (s : State) (i : SessionId) (x : Session) (c : TimerClaim) :
    s.Judged ((s.setSession i x).claim c) i x [c] := by
  refine ⟨rfl, fun j => ?_, _, raiseClaim_raised _ _, rfl⟩
  rw [State.session_claim, State.session_setSession]
  by_cases e : i = j
  · rw [if_pos e, if_pos e.symm]
  · rw [if_neg e, if_neg (fun h => e h.symm)]

theorem State.judgeTerm_judged (s : State) (i : SessionId) :
    s.Judged (s.judgeTerm i) i { s.session i with term := (s.session i).term.judged s.clock }
      ((s.session i).term.raises s.clock .loss i (s.session i).number) := by
  unfold State.judgeTerm SessionTimer.raises
  split
  · next d h =>
    split
    · next hp =>
      have hp := (passed_iff _ _).mp hp
      rw [h]; simp only [SessionTimer.judged, if_pos hp]
      exact .raised s i _ _
    · next hp =>
      have hp := fun hh => hp ((passed_iff _ _).mpr hh)
      rw [h]; simp only [SessionTimer.judged, if_neg hp, if_true]
      exact .unmoved s i (by rw [← h])
  · next h => rw [h]; simp only [SessionTimer.judged, if_true]; exact .unmoved s i (by rw [← h])
  · next d h => rw [h]; simp only [SessionTimer.judged, if_true]; exact .unmoved s i (by rw [← h])

theorem State.judgeGrace_judged (s : State) (i : SessionId) :
    s.Judged (s.judgeGrace i) i { s.session i with grace := (s.session i).grace.judged s.clock }
      ((s.session i).grace.raises s.clock .grace i (s.session i).number) := by
  unfold State.judgeGrace SessionTimer.raises
  split
  · next d h =>
    split
    · next hp =>
      have hp := (passed_iff _ _).mp hp
      rw [h]; simp only [SessionTimer.judged, if_pos hp]
      exact .raised s i _ _
    · next hp =>
      have hp := fun hh => hp ((passed_iff _ _).mpr hh)
      rw [h]; simp only [SessionTimer.judged, if_neg hp, if_true]
      exact .unmoved s i (by rw [← h])
  · next h => rw [h]; simp only [SessionTimer.judged, if_true]; exact .unmoved s i (by rw [← h])
  · next d h => rw [h]; simp only [SessionTimer.judged, if_true]; exact .unmoved s i (by rw [← h])

theorem claimsRaised_append {q m r : List TimerClaim} : ∀ {cs ds : List TimerClaim}, claimsRaised q m cs →
    claimsRaised m r ds → claimsRaised q r (cs ++ ds)
  | [], _, h, k => by cases h; exact k
  | _ :: _, _, ⟨_, h1, h2⟩, k => ⟨_, h1, claimsRaised_append h2 k⟩

/-- The record of a session whose two timers have been judged. -/
def Session.judged (now : Time) (x : Session) : Session :=
  { x with term := x.term.judged now, grace := x.grace.judged now }

/-- The claims that the judgment of a session's two timers raises. -/
def Session.raises (now : Time) (x : Session) (i : SessionId) : List TimerClaim :=
  x.term.raises now .loss i x.number ++ x.grace.raises now .grace i x.number

theorem State.judgeBoth_judged (s : State) (i : SessionId) :
    s.Judged ((s.judgeTerm i).judgeGrace i) i ((s.session i).judged s.clock) ((s.session i).raises s.clock i) := by
  have a := s.judgeTerm_judged i
  have b := (s.judgeTerm i).judgeGrace_judged i
  generalize s.judgeTerm i = u at a b
  have hu := a.sessions i
  rw [if_pos rfl] at hu
  have hc : u.clock = s.clock := by rw [a.rest]
  rw [hu, hc] at b
  refine ⟨b.rest.trans (by rw [a.rest]), fun j => ?_, claimsRaised_append a.queue b.queue⟩
  rw [b.sessions j]
  by_cases e : j = i
  · rw [if_pos e, if_pos e]; rfl
  · rw [if_neg e, if_neg e, a.sessions j, if_neg e]

/-- All session timers judged: each record by itself, and the claims in the order of the sessions (R114). -/
theorem State.judgeTimers_judged (s : State) :
    s.judgeTimers = { s with sessions := s.judgeTimers.sessions, timersQueue := s.judgeTimers.timersQueue } ∧
    (∀ i, s.judgeTimers.session i = (s.session i).judged s.clock) ∧
    claimsRaised s.timersQueue s.judgeTimers.timersQueue
      ((List.finRange 12).flatMap (fun i => (s.session i).raises s.clock i)) := by
  have key : ∀ (l : List SessionId) (s : State), l.Nodup →
      let t := l.foldl (fun s i => (s.judgeTerm i).judgeGrace i) s
      t = { s with sessions := t.sessions, timersQueue := t.timersQueue } ∧
      (∀ i, t.session i = if i ∈ l then (s.session i).judged s.clock else s.session i) ∧
      claimsRaised s.timersQueue t.timersQueue (l.flatMap (fun i => (s.session i).raises s.clock i)) := by
    intro l
    induction l with
    | nil => intro s _; exact ⟨rfl, fun i => by simp, rfl⟩
    | cons i l ih =>
      intro s hn
      obtain ⟨hi, hl⟩ := List.nodup_cons.mp hn
      have a := s.judgeBoth_judged i
      rw [List.foldl_cons, List.flatMap_cons]
      generalize (s.judgeTerm i).judgeGrace i = u at a
      have hc : u.clock = s.clock := by rw [a.rest]
      obtain ⟨b1, b2, b3⟩ := ih u hl
      refine ⟨b1.trans (by rw [a.rest]), fun j => ?_, claimsRaised_append a.queue ?_⟩
      · rw [b2 j, a.sessions j, hc]
        by_cases e : j = i
        · subst e; simp [hi]
        · simp [e]
      · have : l.flatMap (fun j => (u.session j).raises u.clock j) = l.flatMap (fun j => (s.session j).raises s.clock j) := by
          rw [List.flatMap_def, List.flatMap_def]
          congr 1
          refine List.map_congr_left (fun j hj => ?_)
          rw [a.sessions j, if_neg (fun e : j = i => hi (e ▸ hj)), hc]
        rw [← this]; exact b3
  obtain ⟨h1, h2, h3⟩ := key (List.finRange 12) s (List.nodup_finRange 12)
  exact ⟨h1, fun i => (h2 i).trans (if_pos (List.mem_finRange i)), h3⟩

end Sys2Proof.Machine
end

