-- ==== Sys2Proof/Laws/Visits.lean ====
section
/-! SUPPORT. The three phases of the sweep's visit: what each does to the tables and the results it produces (R107 to
R110). -/

namespace Sys2Proof.Machine

/-! ### The entry of a slot -/

/-- The search of the pool by slot finds the slot's entry (R42). -/
theorem Tables.Sound.waitAt_eq {t : Tables} (h : t.Sound) {e : Nat} {we : WaitEntry} (he : lookupKey e t.pool = some we) :
    t.waitAt we.slot = some e := by
  unfold Tables.waitAt
  cases hf : t.pool.find? (fun p => p.2.slot == we.slot) with
  | none =>
    have := List.find?_eq_none.mp hf (e, we) (lookupKey_mem he)
    simp at this
  | some p =>
    have h1 := List.mem_of_find?_eq_some hf
    have h2 := List.find?_some hf
    simp only [beq_iff_eq] at h2
    have h3 := lookupKey_of_mem h.waitLaw.1 (show (p.1, p.2) ∈ t.pool from h1)
    rw [Option.map_some, h.waitLaw.2.2.1 p.1 e p.2 we h3 he h2]

theorem Tables.Sound.entryFor_eq {t : Tables} (h : t.Sound) {e : Nat} {we : WaitEntry} {k : WaitKind} {v : VolumeId} {n : Nat}
    (he : lookupKey e t.pool = some we) (hk : we.kind = k) (hv : we.volume = v) (hn : we.slot = n) :
    t.entryFor k v n = some e := by
  have hm : e ∈ t.waitList v := ((h.waitLaw.2.2.2.2 v).2 e).mpr ⟨we, he, hv⟩
  cases hf : t.entryFor k v n with
  | none =>
    have := List.find?_eq_none.mp hf e hm
    simp [he, hk, hn] at this
  | some d =>
    obtain ⟨wd, h1, _, h3⟩ := Tables.entryFor_some hf
    rw [h.waitLaw.2.2.1 d e wd we h1 he (by rw [h3, hn])]

/-- A slot whose wait deadline has passed has an entry. -/
theorem Tables.Sound.late_entry {t : Tables} (h : t.Sound) {now : Time} {n : Nat}
    (hl : passedOpt now (t.body n).waitDeadline = true) : ∃ e we, lookupKey e t.pool = some we ∧ we.slot = n := by
  refine h.waitLaw.2.2.2.1 n ?_
  cases hb : t.body n with
  | free => rw [hb] at hl; simp [SlotBody.waitDeadline, passedOpt] at hl
  | pending l d => rfl
  | held l ten =>
    rw [hb] at hl
    cases hu : ten.upgrade with
    | none => simp [SlotBody.waitDeadline, hu, passedOpt] at hl
    | some u => simp [SlotBody.waits, hu]

/-! ### Phase A (R108) -/

theorem Run.visitWait_eq (r : Run) (n : Nat) (h : r.tab.Sound) :
    (passedOpt r.now (r.tab.body n).waitDeadline = false → r.visitWait n = r) ∧
    ∀ e, passedOpt r.now (r.tab.body n).waitDeadline = true → r.tab.waitAt n = some e →
      r.visitWait n = r.endWait .timedOut e := by
  unfold Run.visitWait
  cases hb : r.tab.body n with
  | free => exact ⟨fun _ => rfl, fun e hx => by simp [SlotBody.waitDeadline, passedOpt] at hx⟩
  | pending l d =>
    simp only [SlotBody.waitDeadline]
    refine ⟨fun hx => by rw [hx]; rfl, fun e hx hw => ?_⟩
    rw [if_pos hx]
    obtain ⟨d', we, he, hs⟩ := h.late_entry (now := r.now) (n := n) (by rw [hb]; exact hx)
    have := h.waitAt_eq he
    rw [hs, hw] at this
    cases this
    obtain ⟨hk, hv⟩ := h.entry_pending he (by rw [hs]; exact hb)
    unfold Run.timeOut
    rw [h.entryFor_eq he hk hv hs]
  | held l ten =>
    cases hu : ten.upgrade with
    | none => exact ⟨fun _ => by simp only [hu], fun e hx => by simp [SlotBody.waitDeadline, hu, passedOpt] at hx⟩
    | some u =>
      simp only [SlotBody.waitDeadline, hu, Option.bind_some]
      refine ⟨fun hx => by rw [hx]; rfl, fun e hx hw => ?_⟩
      rw [if_pos hx]
      obtain ⟨d', we, he, hs⟩ := h.late_entry (now := r.now) (n := n) (by rw [hb]; simpa [SlotBody.waitDeadline, hu] using hx)
      have := h.waitAt_eq he
      rw [hs, hw] at this
      cases this
      obtain ⟨hk, hv, _⟩ := h.entry_held he (by rw [hs]; exact hb)
      unfold Run.timeOut
      rw [h.entryFor_eq he hk hv hs]

theorem Run.visitWait_ended (r : Run) (n : Nat) (h : r.tab.Sound) :
    r.Ended (r.visitWait n) .timedOut (r.tab.lateWaits r.now [n]) ∧
      ∀ e ∈ r.tab.lateWaits r.now [n], ∃ we, lookupKey e r.tab.pool = some we ∧ we.slot = n := by
  obtain ⟨h1, h2⟩ := r.visitWait_eq n h
  unfold Tables.lateWaits
  cases hl : passedOpt r.now (r.tab.body n).waitDeadline with
  | false => rw [h1 hl]; simp only [List.filter_cons, hl]; exact ⟨.refl r _, fun e he => absurd he (by simp)⟩
  | true =>
    obtain ⟨e, we, he, hs⟩ := h.late_entry hl
    have hw := h.waitAt_eq he
    rw [hs] at hw
    rw [h2 e hl hw]
    simp only [List.filter_cons, hl, if_true, List.filter_nil, List.filterMap_cons, hw, List.filterMap_nil]
    refine ⟨r.endWait_ended .timedOut e we h he, fun d hd => ?_⟩
    simp only [List.mem_singleton] at hd
    subst hd; exact ⟨we, he, hs⟩

/-- The waits of other slots are late or not as before. -/
theorem lateWaits_congr {t u : Tables} {now : Time} {g : Nat → Prop} (h : t.waitsEnded u g) (ht : t.Sound) (hu : u.Sound)
    {ns : List Nat} (hn : ∀ n ∈ ns, ∀ e we, lookupKey e t.pool = some we → we.slot = n → ¬ g e) :
    u.lateWaits now ns = t.lateWaits now ns := by
  have hs : ∀ n ∈ ns, u.body n = t.body n := by
    intro n hm
    unfold Tables.body
    rw [h.others n (fun e we he hg hsl => hn n hm e we he hsl hg)]
  unfold Tables.lateWaits
  have hf : ns.filter (fun n => passedOpt now (u.body n).waitDeadline) = ns.filter (fun n => passedOpt now (t.body n).waitDeadline) :=
    List.filter_congr (fun n hm => by rw [hs n hm])
  rw [hf]
  have : ∀ l : List Nat, (∀ n ∈ l, u.waitAt n = t.waitAt n) → l.filterMap u.waitAt = l.filterMap t.waitAt := by
    intro l
    induction l with
    | nil => intro _; rfl
    | cons a l ih => intro hl; rw [List.filterMap_cons, List.filterMap_cons, hl a (by simp), ih (fun n hm => hl n (by simp [hm]))]
  refine this _ (fun n hm => ?_)
  obtain ⟨hmem, hl⟩ := List.mem_filter.mp hm
  obtain ⟨e, we, he, hsl⟩ := ht.late_entry hl
  have h1 := ht.waitAt_eq he
  have h2 := hu.waitAt_eq ((h.pool e we).mpr ⟨he, hn n hmem e we he hsl⟩)
  rw [hsl] at h1 h2
  rw [h1, h2]

theorem Run.visitWaits_ended : ∀ (ns : List Nat) (r : Run), r.tab.Sound → ns.Nodup →
    r.Ended (ns.foldl Run.visitWait r) .timedOut (r.tab.lateWaits r.now ns) ∧
      ∀ e ∈ r.tab.lateWaits r.now ns, ∃ we, lookupKey e r.tab.pool = some we ∧ we.slot ∈ ns
  | [], r, _, _ => ⟨.refl r _, fun e he => absurd he (by simp [Tables.lateWaits])⟩
  | n :: ns, r, h, hnd => by
    obtain ⟨hn, hnd⟩ := List.nodup_cons.mp hnd
    obtain ⟨a, a2⟩ := r.visitWait_ended n h
    have h1 := a.toRun.moves.keeps h
    obtain ⟨b, b2⟩ := Run.visitWaits_ended ns (r.visitWait n) h1 hnd
    have hcongr : (r.visitWait n).tab.lateWaits (r.visitWait n).now ns = r.tab.lateWaits r.now ns := by
      rw [a.toRun.now]
      refine lateWaits_congr a.tab h h1 (fun m hm e we he hs hg => ?_)
      obtain ⟨we', he', hs'⟩ := a2 e hg
      rw [he] at he'; cases he'
      exact hn ((hs'.symm.trans hs) ▸ hm)
    rw [hcongr] at b b2
    have hsplit : r.tab.lateWaits r.now (n :: ns) = r.tab.lateWaits r.now [n] ++ r.tab.lateWaits r.now ns := by
      unfold Tables.lateWaits
      rw [← List.filterMap_append, ← List.filter_append]; rfl
    have b2' : ∀ e ∈ r.tab.lateWaits r.now ns, ∃ we, lookupKey e r.tab.pool = some we ∧ we.slot ∈ ns := by
      intro e he
      obtain ⟨we, hl, hs⟩ := b2 e he
      exact ⟨we, ((a.tab.pool e we).mp hl).1, hs⟩
    rw [hsplit]
    refine ⟨a.trans h b (fun e he hm => ?_), fun e he => ?_⟩
    · obtain ⟨we, hl, hs⟩ := b2' e he
      obtain ⟨we', hl', hs'⟩ := a2 e hm
      rw [hl] at hl'; cases hl'
      exact hn (hs' ▸ hs)
    · rcases List.mem_append.mp he with he | he
      · obtain ⟨we, hl, hs⟩ := a2 e he; exact ⟨we, hl, by simp [hs]⟩
      · obtain ⟨we, hl, hs⟩ := b2' e he; exact ⟨we, hl, by simp [hs]⟩

/-! ### Phase B (R109) -/

theorem Run.visitHold_eq (r : Run) (n : Nat) :
    r.visitHold n = if passedOpt r.now (r.tab.body n).holdDeadline = true then r.retire .expiry n else r := by
  unfold Run.visitHold
  cases hb : r.tab.body n with
  | free => rfl
  | pending l d => rfl
  | held l ten => rfl

theorem Run.visitHolds_retired : ∀ (ns : List Nat) (r : Run), r.tab.Sound → ns.Nodup →
    r.Retired (ns.foldl Run.visitHold r) .expiry (r.tab.lateHolds r.now ns)
  | [], r, _, _ => .refl r _
  | n :: ns, r, h, hnd => by
    obtain ⟨hn, hnd⟩ := List.nodup_cons.mp hnd
    have a : r.Retired (r.visitHold n) .expiry (r.tab.lateHolds r.now [n]) := by
      rw [r.visitHold_eq]
      unfold Tables.lateHolds
      cases hl : passedOpt r.now (r.tab.body n).holdDeadline with
      | false => simp only [List.filter_cons, hl]; exact .refl r _
      | true => simp only [List.filter_cons, hl, if_true, List.filter_nil]; exact r.retire_retired .expiry n h
    have b := Run.visitHolds_retired ns (r.visitHold n) (a.toRun.moves.keeps h) hnd
    have hcongr : (r.visitHold n).tab.lateHolds (r.visitHold n).now ns = r.tab.lateHolds r.now ns := by
      rw [a.toRun.now]
      unfold Tables.lateHolds
      refine List.filter_congr (fun m hm => ?_)
      have : (r.visitHold n).tab.body m = r.tab.body m := by
        unfold Tables.body
        rw [a.tab.others m (fun _ _ _ hx => ?_)]
        have := (List.mem_filter.mp hx).1
        simp only [List.mem_singleton] at this
        exact hn (this ▸ hm)
      rw [this]
    rw [hcongr] at b
    have hsplit : r.tab.lateHolds r.now (n :: ns) = r.tab.lateHolds r.now [n] ++ r.tab.lateHolds r.now ns := by
      unfold Tables.lateHolds
      rw [← List.filter_append]; rfl
    rw [hsplit]
    refine a.trans h b (fun m hm hx => ?_)
    have h1 := (List.mem_filter.mp hm).1
    have h2 := (List.mem_filter.mp hx).1
    simp only [List.mem_singleton] at h2
    exact hn (h2 ▸ h1)

/-! ### Phase C (R110) -/

/-- The test of R67, read as a statement. -/
theorem Tables.Sound.stillBlocks_iff {t : Tables} (h : t.Sound) {n : Nat} {l : Lease} {ten : Tenure}
    (hb : t.body n = .held l ten) : t.stillBlocks l.volume n = true ↔ t.blocksWaiter l (fun _ => True) := by
  unfold Tables.stillBlocks
  rw [List.any_eq_true]
  constructor
  · rintro ⟨e, _, hc⟩
    rw [List.contains_iff_mem] at hc
    obtain ⟨we, c, l', ten', hl, hcl, hb', hk, _⟩ := h.blocker_spec hc
    rw [hb] at hb'; cases hb'
    exact ⟨e, we, c, hl, hcl, hk, trivial⟩
  · rintro ⟨e, we, c, hl, hcl, hk, _⟩
    have hv : we.volume = l.volume := by
      have h1 := Lease.volume_of_overlaps (Lease.overlaps_of_blocks hk)
      rcases h.entryClaim_spec hl hcl with ⟨_, _, _, hw⟩ | ⟨_, _, _, _, _, _, _, hw⟩ <;> rw [hw, h1]
    refine ⟨e, ((h.waitLaw.2.2.2.2 _).2 e).mpr ⟨we, hl, hv⟩, ?_⟩
    rw [List.contains_iff_mem]
    unfold Tables.blockersOf
    rw [Tables.claimOf_eq hl, hcl]
    exact (h.mem_conflicts c n).mpr ⟨l, ten, hb, hk⟩

/-- The state of phase C after some slots. -/
structure Run.Judged (r u : Run) (done : List Nat) : Prop where
  toRun : r.To u
  adds : r.Adds u
  due : ∀ v, v ∈ r.due → v ∈ u.due
  fell : ∀ m l ten, r.tab.body m = .held l ten → u.tab.body m = .free → l.volume ∈ u.due
  pending : ∀ m l d, r.tab.body m = .pending l d → u.tab.slots.get m = r.tab.slots.get m
  pool : ∀ e we, lookupKey e u.tab.pool = some we → lookupKey e r.tab.pool = some we
  acquires : ∀ e we, lookupKey e r.tab.pool = some we → we.kind = .acquire → lookupKey e u.tab.pool = some we
  tab : r.tab.judged u.tab r.now (fun m => m ∈ done)

/-- What one judgement does: the slot's new content, and the entries that remain. -/
theorem Run.visitRecall_cases (r : Run) (n : Nat) (h : r.tab.Sound) :
    (r.visitRecall n = r ∧ ((∀ l ten, r.tab.body n = .held l ten → ten.recallMark = none) ∨
        ∃ l ten mk, r.tab.body n = .held l ten ∧ ten.recallMark = some mk ∧
          ((∃ d, mk.deadline = some d ∧ passed r.now d = false) ∨
            (mk.deadline = none ∧ r.tab.blocksWaiter l (fun _ => True))))) ∨
    (∃ l ten mk, r.tab.body n = .held l ten ∧ ten.recallMark = some mk ∧ ¬ r.tab.blocksWaiter l (fun _ => True) ∧
      (∀ d, mk.deadline = some d → passed r.now d = true) ∧
      r.visitRecall n = r.withTab (r.tab.setBody n (.held l { ten with recallMark := none }))) ∨
    (∃ l ten mk d, r.tab.body n = .held l ten ∧ ten.recallMark = some mk ∧ mk.deadline = some d ∧ passed r.now d = true ∧
      r.tab.blocksWaiter l (fun _ => True) ∧ r.visitRecall n = r.retire (.revocation .recallLimit) n) := by
  cases hb : r.tab.body n with
  | free => left; refine ⟨by unfold Run.visitRecall; rw [hb], .inl (fun l ten hx => by simp at hx)⟩
  | pending l d => left; refine ⟨by unfold Run.visitRecall; rw [hb], .inl (fun l ten hx => by simp at hx)⟩
  | held l ten =>
    cases hr : ten.recallMark with
    | none =>
      left
      refine ⟨by unfold Run.visitRecall; rw [hb]; simp only [hr], .inl (fun l' ten' hx => by cases hx; exact hr)⟩
    | some mk =>
      have hst := h.stillBlocks_iff hb
      have hv : r.visitRecall n = (match mk.deadline with
        | some d => if passed r.now d then
            if r.tab.stillBlocks l.volume n then r.retire (.revocation .recallLimit) n else r.clearMark n l ten
          else r
        | none => if r.tab.stillBlocks l.volume n then r else r.clearMark n l ten) := by
        unfold Run.visitRecall; rw [hb]; simp only [hr]; all_goals (cases mk.deadline <;> rfl)
      rw [hv]
      cases hd : mk.deadline with
      | none =>
        cases hs : r.tab.stillBlocks l.volume n with
        | true => left; exact ⟨rfl, .inr ⟨l, ten, mk, rfl, hr, .inr ⟨hd, hst.mp hs⟩⟩⟩
        | false =>
          right; left
          exact ⟨l, ten, mk, rfl, hr, fun x => by rw [hst.mpr x] at hs; exact absurd hs (by simp), fun d hx => by rw [hd] at hx; exact absurd hx (by simp), rfl⟩
      | some d =>
        cases hp : passed r.now d with
        | false => left; exact ⟨by simp [hp], .inr ⟨l, ten, mk, rfl, hr, .inl ⟨d, hd, hp⟩⟩⟩
        | true =>
          cases hs : r.tab.stillBlocks l.volume n with
          | true => right; right; exact ⟨l, ten, mk, d, rfl, hr, hd, hp, hst.mp hs, by simp [hp]⟩
          | false =>
            right; left
            refine ⟨l, ten, mk, rfl, hr, fun x => by rw [hst.mpr x] at hs; exact absurd hs (by simp), fun d' hx => ?_, by simp [hp]; rfl⟩
            rw [hd] at hx; cases hx; exact hp

theorem Run.Judged.refl (r : Run) : r.Judged r [] :=
  ⟨.refl r, .refl r, fun _ h => h, fun m l ten h1 h2 => by rw [h1] at h2; exact absurd h2 (by simp), fun _ _ _ _ => rfl,
    fun _ _ h => h, fun _ _ h _ => h,
    ⟨fun _ _ => rfl, fun _ _ _ _ _ h => absurd h (by simp), fun _ _ _ _ h => absurd h (by simp),
      fun _ _ _ _ h => absurd h (by simp), fun _ _ _ _ _ h => absurd h (by simp), fun _ _ _ _ h => absurd h (by simp), rfl⟩⟩

theorem Run.Judged.claim {r u : Run} {done : List Nat} (j : r.Judged u done) (h : r.tab.Sound) {e : Nat} {we : WaitEntry} {c : Lease}
    (he : lookupKey e r.tab.pool = some we) (hk : we.kind = .acquire) (hc : r.tab.entryClaim we = some c) :
    u.tab.entryClaim we = some c := by
  rcases h.entryClaim_spec he hc with ⟨d, _, hb, _⟩ | ⟨_, _, _, hk', _⟩
  · unfold Tables.entryClaim
    have : u.tab.body we.slot = .pending c d := by
      have := j.pending _ c d hb
      unfold Tables.body at hb ⊢
      rw [this]; exact hb
    rw [hk, this]
  · rw [hk] at hk'; exact absurd hk' (by simp)

/-- A lease that blocked no entry before blocks none after some judgements. -/
theorem Run.Judged.blocks_back {r u : Run} {done : List Nat} (j : r.Judged u done) (h : r.tab.Sound) (hu : u.tab.Sound)
    {l : Lease} (hb : u.tab.blocksWaiter l (fun _ => True)) : r.tab.blocksWaiter l (fun _ => True) := by
  obtain ⟨e, we, c, he, hc, hk, _⟩ := hb
  have hr := j.pool e we he
  refine ⟨e, we, c, hr, ?_, hk, trivial⟩
  rcases hu.entryClaim_spec he hc with ⟨d, hkd, hbu, _⟩ | ⟨l', ten', up, hkd, hbu, _, hcl, _⟩
  · -- the slot is PENDING now, so it was PENDING before
    have hf := (h.waitLaw.2.1 e we hr).2
    unfold Tables.entryFits at hf
    rw [hkd] at hf
    obtain ⟨l0, d0, hb0, _⟩ := hf
    have := j.pending _ l0 d0 hb0
    have hbu' := hbu
    unfold Tables.body at hbu'
    rw [this] at hbu'
    unfold Tables.entryClaim Tables.body
    rw [hkd, hbu']
  · have hf := (h.waitLaw.2.1 e we hr).2
    unfold Tables.entryFits at hf
    rw [hkd] at hf
    obtain ⟨l0, ten0, u0, hb0, _, _⟩ := hf
    have hl : l' = l0 := by
      have hslot : u.tab.slots.get we.slot = r.tab.slots.get we.slot ∨
          (∃ g, u.tab.slots.get we.slot = { gen := g, body := .free }) ∨
          ∃ g, u.tab.slots.get we.slot = { gen := g, body := .held l0 { ten0 with recallMark := none } } := by
        cases hr0 : ten0.recallMark with
        | none =>
          exact .inl (j.tab.others _ (.inr (fun a b hx => by rw [hb0] at hx; cases hx; exact hr0)))
        | some mk =>
          by_cases hd : we.slot ∈ done
          · rcases j.tab.anyway _ l0 ten0 mk hd hb0 hr0 with x | x | x
            · exact .inl x
            · exact .inr (.inl ⟨_, x⟩)
            · exact .inr (.inr ⟨_, x⟩)
          · exact .inl (j.tab.others _ (.inl hd))
      have hb1 := hbu
      unfold Tables.body at hb1 hb0
      rcases hslot with x | ⟨g, x⟩ | ⟨g, x⟩
      · rw [x, hb0] at hb1; cases hb1; rfl
      · rw [x] at hb1; exact absurd hb1 (by simp)
      · rw [x] at hb1; cases hb1; rfl
    unfold Tables.entryClaim
    rw [hkd, hb0, hcl, hl]

theorem Run.Adds.of_retired {r u : Run} {c : Cause} {ns : List Nat} (h : r.Retired u c ns) : r.Adds u :=
  ⟨⟨_, h.cache⟩, ⟨_, h.notices⟩, ⟨_, h.alerts⟩⟩

theorem Run.Judged.step {r u : Run} {done : List Nat} (h : r.tab.Sound) (j : r.Judged u done) {n : Nat} (hn : n ∉ done) :
    r.Judged (u.visitRecall n) (done ++ [n]) := by
  have hu := j.toRun.moves.keeps h
  have hsame : u.tab.slots.get n = r.tab.slots.get n := j.tab.others n (.inl hn)
  have hbn : u.tab.body n = r.tab.body n := by unfold Tables.body; rw [hsame]
  have hnow := j.toRun.now
  -- one slot changed, or none; what it became
  have build : ∀ w : Run, r.To w → u.Adds w → (∀ v, v ∈ u.due → v ∈ w.due) →
      (∀ l ten, r.tab.body n = .held l ten → w.tab.body n = .free → l.volume ∈ w.due) →
      (∀ m, m ≠ n → w.tab.slots.get m = u.tab.slots.get m) → (∀ l d, u.tab.body n = .pending l d → w.tab.slots.get n = u.tab.slots.get n) →
      (∀ e we, lookupKey e w.tab.pool = some we → lookupKey e u.tab.pool = some we) →
      (∀ e we, lookupKey e u.tab.pool = some we → we.kind = .acquire → lookupKey e w.tab.pool = some we) →
      w.tab.volumes = u.tab.volumes →
      ((∀ l ten, r.tab.body n = .held l ten → ten.recallMark = none) → w.tab.slots.get n = r.tab.slots.get n) →
      (∀ l ten mk, r.tab.body n = .held l ten → ten.recallMark = some mk →
        ((∀ d, mk.deadline = some d → passed r.now d = false → w.tab.slots.get n = r.tab.slots.get n) ∧
        ((∀ d, mk.deadline = some d → passed r.now d = true) → ¬ r.tab.blocksWaiter l (fun _ => True) →
          w.tab.slots.get n = { gen := (r.tab.slots.get n).gen, body := .held l { ten with recallMark := none } }) ∧
        (mk.deadline = none → r.tab.blocksWaiter l (fun we => we.kind = .acquire) → w.tab.slots.get n = r.tab.slots.get n) ∧
        (∀ d, mk.deadline = some d → passed r.now d = true → r.tab.blocksWaiter l (fun we => we.kind = .acquire) →
          w.tab.slots.get n = { gen := (r.tab.slots.get n).gen + 1, body := .free }) ∧
        (w.tab.slots.get n = r.tab.slots.get n ∨ w.tab.slots.get n = { gen := (r.tab.slots.get n).gen + 1, body := .free } ∨
          w.tab.slots.get n = { gen := (r.tab.slots.get n).gen, body := .held l { ten with recallMark := none } }))) →
      r.Judged w (done ++ [n]) := by
    intro w hto hadd hdue hfell hoth hpend hpool hacq hvol hno hyes
    have hsplit : ∀ m, m ∈ done ++ [n] → m = n ∨ (m ≠ n ∧ m ∈ done) := by
      intro m hm
      by_cases hmn : m = n
      · exact .inl hmn
      · exact .inr ⟨hmn, by simpa [hmn] using hm⟩
    refine ⟨hto, j.adds.trans hadd, fun v hv => hdue v (j.due v hv), ?_, ?_, fun e we he => j.pool e we (hpool e we he),
      fun e we he hk => hacq e we (j.acquires e we he hk) hk, ?_⟩
    · intro m l ten hb hf
      by_cases hm : m = n
      · subst hm; exact hfell l ten hb hf
      · refine hdue _ (j.fell m l ten hb ?_)
        unfold Tables.body at hf ⊢; rw [← hoth m hm]; exact hf
    · intro m l d hb
      by_cases hm : m = n
      · subst hm; rw [hpend l d (by rw [hbn]; exact hb), hsame]
      · rw [hoth m hm, j.pending m l d hb]
    · refine ⟨?_, ?_, ?_, ?_, ?_, ?_, hvol.trans j.tab.volumes⟩
      · intro m hm
        by_cases hmn : m = n
        · subst hmn
          rcases hm with hm | hm
          · exact absurd (by simp) hm
          · exact hno hm
        · rw [hoth m hmn]
          exact j.tab.others m (hm.imp (fun x y => x (by simp [y])) id)
      · intro m l ten mk d hm hb hr hd hp
        rcases hsplit m hm with rfl | ⟨hmn, hm⟩
        · exact (hyes l ten mk hb hr).1 d hd hp
        · rw [hoth m hmn]; exact j.tab.early m l ten mk d hm hb hr hd hp
      · intro m l ten mk hm hb hr hd hx
        rcases hsplit m hm with rfl | ⟨hmn, hm⟩
        · exact (hyes l ten mk hb hr).2.1 hd hx
        · rw [hoth m hmn]; exact j.tab.idle m l ten mk hm hb hr hd hx
      · intro m l ten mk hm hb hr hd hx
        rcases hsplit m hm with rfl | ⟨hmn, hm⟩
        · exact (hyes l ten mk hb hr).2.2.1 hd hx
        · rw [hoth m hmn]; exact j.tab.stays m l ten mk hm hb hr hd hx
      · intro m l ten mk d hm hb hr hd hp hx
        rcases hsplit m hm with rfl | ⟨hmn, hm⟩
        · exact (hyes l ten mk hb hr).2.2.2.1 d hd hp hx
        · rw [hoth m hmn]; exact j.tab.late m l ten mk d hm hb hr hd hp hx
      · intro m l ten mk hm hb hr
        rcases hsplit m hm with rfl | ⟨hmn, hm⟩
        · exact (hyes l ten mk hb hr).2.2.2.2
        · rw [hoth m hmn]; exact j.tab.anyway m l ten mk hm hb hr
  have hacqb : ∀ l, r.tab.blocksWaiter l (fun we => we.kind = .acquire) → u.tab.blocksWaiter l (fun _ => True) := by
    rintro l ⟨e, we, c, he, hc, hk, hkd⟩
    exact ⟨e, we, c, j.acquires e we he hkd, j.claim h he hkd hc, hk, trivial⟩
  have hto := Run.visitRecall_to u n hu
  rcases u.visitRecall_cases n hu with ⟨he, hc⟩ | ⟨l, ten, mk, hb, hr, hnb, hd, he⟩ | ⟨l, ten, mk, d, hb, hr, hd, hp, hbk, he⟩
  · rw [he]
    refine build u j.toRun (.refl u) (fun _ h => h) ?_ (fun _ _ => rfl) (fun _ _ _ => rfl) (fun _ _ h => h) (fun _ _ h _ => h) rfl
      (fun _ => hsame) ?_
    · intro l ten hb hf; rw [hbn, hb] at hf; exact absurd hf (by simp)
    · intro l ten mk hb hr
      rcases hc with hc | ⟨l', ten', mk', hb', hr', hc⟩
      · have := hc l ten (by rw [hbn]; exact hb); rw [hr] at this; exact absurd this (by simp)
      · rw [hbn, hb] at hb'; cases hb'
        rw [hr] at hr'; cases hr'
        refine ⟨fun _ _ _ => hsame, fun hd hx => ?_, fun _ _ => hsame, fun d hd hp hx => ?_, .inl hsame⟩
        · rcases hc with ⟨d, h1, h2⟩ | ⟨_, h2⟩
          · rw [hnow, hd d h1] at h2; exact absurd h2 (by simp)
          · exact absurd (j.blocks_back h hu h2) hx
        · rcases hc with ⟨d', h1, h2⟩ | ⟨h1, _⟩
          · rw [hd] at h1; cases h1; rw [hnow, hp] at h2; exact absurd h2 (by simp)
          · rw [hd] at h1; exact absurd h1 (by simp)
  · rw [hbn] at hb
    rw [he] at hto ⊢
    have hslots : ∀ m, (u.tab.setBody n (.held l { ten with recallMark := none })).slots.get m =
        if m = n then { gen := (r.tab.slots.get n).gen, body := .held l { ten with recallMark := none } } else u.tab.slots.get m := by
      intro m
      show (u.tab.slots.set n _).get m = _
      rw [SlotTable.get_set, hsame]
    refine build _ (j.toRun.trans hto) ⟨⟨[], by simp [Run.withTab]⟩, ⟨[], by simp [Run.withTab]⟩, ⟨[], by simp [Run.withTab]⟩⟩
      (fun _ h => h) ?_ (fun m hm => by
      show (u.tab.setBody n _).slots.get m = _; rw [hslots, if_neg hm]) ?_ (fun _ _ h => h) (fun _ _ h _ => h) rfl ?_ ?_
    · intro l' ten' hb' hf
      have : (u.tab.setBody n (.held l { ten with recallMark := none })).body n = .free := hf
      rw [Tables.body_setBody, if_pos rfl] at this; exact absurd this (by simp)
    · intro l' d hb'; rw [hbn, hb] at hb'; exact absurd hb' (by simp)
    · intro hx; have := hx l ten hb; rw [hr] at this; exact absurd this (by simp)
    · intro l' ten' mk' hb' hr'
      rw [hb] at hb'; cases hb'
      rw [hr] at hr'; cases hr'
      have hw : (u.tab.setBody n (.held l { ten with recallMark := none })).slots.get n =
        { gen := (r.tab.slots.get n).gen, body := .held l { ten with recallMark := none } } := by rw [hslots, if_pos rfl]
      refine ⟨fun d h1 h2 => ?_, fun _ _ => hw, fun _ hx => absurd (hacqb l hx) hnb, fun d _ _ hx => absurd (hacqb l hx) hnb, .inr (.inr hw)⟩
      have := hd d h1; rw [hnow, h2] at this; exact absurd this (by simp)
  · rw [hbn] at hb
    rw [he] at hto ⊢
    have hret := u.retire_retired (.revocation .recallLimit) n hu
    have hw := hret.tab.freed n l ten (by rw [hbn]; exact hb) (by simp)
    rw [hsame] at hw
    refine build _ (j.toRun.trans hto) (.of_retired hret) (fun v hv => (hret.due v).mpr (.inl hv)) ?_ ?_ ?_ ?_ ?_ hret.tab.volumes ?_ ?_
    · intro l' ten' hb' _
      rw [hb] at hb'; cases hb'
      exact (hret.due _).mpr (.inr ⟨n, l, ten, by rw [hbn]; exact hb, by simp, rfl⟩)
    · intro m hm; exact hret.tab.others m (fun _ _ _ hx => hm (by simpa using hx))
    · intro l' d hb'; rw [hbn, hb] at hb'; exact absurd hb' (by simp)
    · intro e we hl; exact ((hret.tab.pool e we).mp hl).1
    · intro e we hl hk; exact (hret.tab.pool e we).mpr ⟨hl, fun x => by rw [hk] at x; exact absurd x (by simp)⟩
    · intro hx; have := hx l ten hb; rw [hr] at this; exact absurd this (by simp)
    · intro l' ten' mk' hb' hr'
      rw [hb] at hb'; cases hb'
      rw [hr] at hr'; cases hr'
      refine ⟨fun d' h1 h2 => ?_, fun _ hx => absurd (j.blocks_back h hu hbk) hx, fun hx => by rw [hd] at hx; exact absurd hx (by simp), fun _ _ _ _ => hw, .inr (.inl hw)⟩
      rw [hd] at h1; cases h1; rw [hnow, h2] at hp; exact absurd hp (by simp)

theorem Run.visitRecalls_judged (r : Run) (h : r.tab.Sound) : ∀ (ns : List Nat) (u : Run) (done : List Nat), r.Judged u done →
    (done ++ ns).Nodup → r.Judged (ns.foldl Run.visitRecall u) (done ++ ns)
  | [], u, done, j, _ => by simpa using j
  | n :: ns, u, done, j, hnd => by
    have hn : n ∉ done := by
      have := (List.nodup_append.mp hnd).2.2
      intro hd; exact this n hd n (by simp) rfl
    have := Run.visitRecalls_judged r h ns (u.visitRecall n) (done ++ [n]) (j.step h hn) (by simpa using hnd)
    simpa using this

/-! ### What phase C produces (R110) -/

/-- The leases in the slots `rs` are those that phase C revoked: its results, the passes it made due, and the entries that
remain. -/
structure Run.Revoked (r u : Run) (done rs : List Nat) : Prop where
  order : rs.Sublist done
  mem : ∀ m, m ∈ rs ↔ m ∈ done ∧ (∃ l ten, r.tab.body m = .held l ten) ∧ u.tab.body m = .free
  cache : u.cache = r.cache ++ r.tab.goneAnswers rs
  notices : u.notices = r.notices ++ r.tab.goneNotices (.revocation .recallLimit) rs
  alerts : u.alerts = r.alerts ++ r.tab.goneAlerts (.revocation .recallLimit) rs
  due : ∀ v, v ∈ u.due ↔ v ∈ r.due ∨ r.tab.retiresOn (fun m => m ∈ rs) v
  pool : ∀ e we, lookupKey e u.tab.pool = some we ↔
    lookupKey e r.tab.pool = some we ∧ (we.kind = .upgrade → we.slot ∉ rs)

theorem Run.Revoked.refl (r : Run) : r.Revoked r [] [] :=
  ⟨.refl _, by simp, by simp [Tables.goneAnswers], by simp [Tables.goneNotices], by simp [Tables.goneAlerts],
    by simp [Tables.retiresOn], by simp⟩

theorem Run.Revoked.step {r u : Run} {done rs : List Nat} (h : r.tab.Sound) (j : r.Judged u done)
    (k : r.Revoked u done rs) {n : Nat} (hn : n ∉ done) : ∃ rs', r.Revoked (u.visitRecall n) (done ++ [n]) rs' := by
  have hu := j.toRun.moves.keeps h
  have hsame : u.tab.slots.get n = r.tab.slots.get n := j.tab.others n (.inl hn)
  have hbn : u.tab.body n = r.tab.body n := by unfold Tables.body; rw [hsame]
  have hsub : rs.Sublist (done ++ [n]) := k.order.trans (List.sublist_append_left done [n])
  rcases u.visitRecall_cases n hu with ⟨he, _⟩ | ⟨l, ten, mk, hb, _, _, _, he⟩ | ⟨l, ten, mk, d, hb, _, _, _, _, he⟩
  · rw [he]
    refine ⟨rs, hsub, ?_, k.cache, k.notices, k.alerts, k.due, k.pool⟩
    intro m
    rw [k.mem m]
    constructor
    · rintro ⟨a, b⟩; exact ⟨by simp [a], b⟩
    · rintro ⟨a, ⟨l, ten, b⟩, c⟩
      rcases List.mem_append.mp a with a | a
      · exact ⟨a, ⟨l, ten, b⟩, c⟩
      · rw [List.mem_singleton.mp a] at b c
        rw [hbn, b] at c; exact absurd c (by simp)
  · rw [he]
    have hbody : ∀ m, (u.tab.setBody n (.held l { ten with recallMark := none })).body m =
        if m = n then .held l { ten with recallMark := none } else u.tab.body m := by
      intro m
      exact Tables.body_setBody _ _ _ _
    refine ⟨rs, hsub, ?_, k.cache, k.notices, k.alerts, k.due, k.pool⟩
    intro m
    show m ∈ rs ↔ _ ∧ _ ∧ (u.tab.setBody n (.held l { ten with recallMark := none })).body m = .free
    rw [k.mem m, hbody m]
    by_cases hm : m = n
    · subst hm
      simp [hn]
    · simp [hm]
  · rw [he]
    have hret := u.retire_retired (.revocation .recallLimit) n hu
    have hg := goneResults_congr (t := r.tab) (u := u.tab) (c := .revocation .recallLimit) (ns := [n])
      (fun m hm => by rw [List.mem_singleton.mp hm]; exact hsame)
    have hfree := hret.tab.freed n l ten hb (by simp)
    refine ⟨rs ++ [n], k.order.append (.refl _), ?_, ?_, ?_, ?_, ?_, ?_⟩
    · intro m
      by_cases hm : m = n
      · subst hm
        simp only [List.mem_append, List.mem_singleton, or_true, true_and, true_iff]
        exact ⟨⟨l, ten, by rw [← hbn]; exact hb⟩, by unfold Tables.body; rw [hfree]⟩
      · have : (u.retire (.revocation .recallLimit) n).tab.body m = u.tab.body m := by
          unfold Tables.body; rw [hret.tab.others m (fun _ _ _ hx => hm (by simpa using hx))]
        rw [this]
        simpa [hm] using k.mem m
    · rw [hret.cache, k.cache, hg.1]
      simp [Tables.goneAnswers]
    · rw [hret.notices, k.notices, hg.2.1]
      simp [Tables.goneNotices]
    · rw [hret.alerts, k.alerts, hg.2.2]
      simp [Tables.goneAlerts]
    · intro v
      rw [hret.due v, k.due v]
      unfold Tables.retiresOn
      constructor
      · rintro ((a | ⟨m, x, y, b, c, d⟩) | ⟨m, x, y, b, c, d⟩)
        · exact .inl a
        · exact .inr ⟨m, x, y, b, by simp [c], d⟩
        · have hm : m = n := by simpa using c
          subst hm
          exact .inr ⟨m, x, y, by rw [← hbn]; exact b, by simp, d⟩
      · rintro (a | ⟨m, x, y, b, c, d⟩)
        · exact .inl (.inl a)
        · rcases List.mem_append.mp c with c | c
          · exact .inl (.inr ⟨m, x, y, b, c, d⟩)
          · have hm : m = n := by simpa using c
            subst hm
            exact .inr ⟨m, x, y, by rw [hbn]; exact b, by simp, d⟩
    · intro e we
      rw [hret.tab.pool e we, k.pool e we]
      simp only [List.mem_append, List.mem_singleton]
      constructor
      · rintro ⟨⟨a, b⟩, c⟩; exact ⟨a, fun hx => not_or.mpr ⟨b hx, c hx⟩⟩
      · rintro ⟨a, b⟩; exact ⟨⟨a, fun hx => (not_or.mp (b hx)).1⟩, fun hx => (not_or.mp (b hx)).2⟩

/-- Phase C over a list of slots, with what it produces. -/
theorem Run.visitRecalls_revoked (r : Run) (h : r.tab.Sound) : ∀ (ns : List Nat) (u : Run) (done rs : List Nat),
    r.Judged u done → r.Revoked u done rs → (done ++ ns).Nodup →
    ∃ rs', r.Revoked (ns.foldl Run.visitRecall u) (done ++ ns) rs'
  | [], u, done, rs, _, k, _ => ⟨rs, by simpa using k⟩
  | n :: ns, u, done, rs, j, k, hnd => by
    have hn : n ∉ done := by
      have := (List.nodup_append.mp hnd).2.2
      intro hd; exact this n hd n (by simp) rfl
    obtain ⟨rs', k'⟩ := k.step h j hn
    obtain ⟨rs2, k2⟩ := Run.visitRecalls_revoked r h ns (u.visitRecall n) (done ++ [n]) rs' (j.step h hn) k' (by simpa using hnd)
    exact ⟨rs2, by simpa using k2⟩

/-! ### Phase C, judgement by judgement (R67, R110) -/

/-- Phase C over a list of slots makes the judgements one after the other, and revokes the leases whose slots are FREE
afterwards. -/
theorem Run.visitRecalls_judges : ∀ (ns : List Nat) (r : Run), r.tab.Sound → ns.Nodup → ∀ rs : List Nat, rs.Sublist ns →
    (∀ m, m ∈ rs ↔ m ∈ ns ∧ (∃ l ten, r.tab.body m = .held l ten) ∧ (ns.foldl Run.visitRecall r).tab.body m = .free) →
    r.tab.judges r.now ns (ns.foldl Run.visitRecall r).tab rs
  | [], r, _, _, rs, hsub, _ => by
    rw [List.sublist_nil.mp hsub]; exact .done _
  | n :: ns, r, h, hnd, rs, hsub, hrs => by
    obtain ⟨hn, hnd'⟩ := List.nodup_cons.mp hnd
    have hto := Run.visitRecall_to r n h
    have h1 := hto.moves.keeps h
    have ih := Run.visitRecalls_judges ns (r.visitRecall n) h1 hnd'
    rw [hto.now] at ih
    have hn1 : (ns.foldl Run.visitRecall (r.visitRecall n)).tab.body n = (r.visitRecall n).tab.body n := by
      have := Run.visitRecalls_judged (r.visitRecall n) h1 ns _ [] (.refl _) (by simpa using hnd')
      unfold Tables.body; rw [this.tab.others n (.inl (by simpa using hn))]
    rw [List.foldl_cons] at hrs ⊢
    generalize hu : ns.foldl Run.visitRecall (r.visitRecall n) = u at *
    have rest : ∀ vs : List Nat, n ∉ vs → (∀ m, m ≠ n → (m ∈ vs ↔ m ∈ rs)) →
        (∀ m, m ≠ n → (r.visitRecall n).tab.slots.get m = r.tab.slots.get m) →
        ∀ m, m ∈ vs ↔ m ∈ ns ∧ (∃ l ten, (r.visitRecall n).tab.body m = .held l ten) ∧ u.tab.body m = .free := by
      intro vs hv hm hs m
      by_cases hmn : m = n
      · subst hmn; exact ⟨fun x => absurd x hv, fun x => absurd x.1 hn⟩
      · have hb : (r.visitRecall n).tab.body m = r.tab.body m := by unfold Tables.body; rw [hs m hmn]
        rw [hm m hmn, hrs m, hb]; simp [hmn]
    have drop : n ∉ rs → rs.Sublist ns := by
      intro hx
      cases hsub with
      | cons _ hx' => exact hx'
      | cons_cons _ _ => exact absurd (by simp) hx
    rcases r.visitRecall_cases n h with ⟨he, hc⟩ | ⟨l, ten, mk, hb, hr, hnb, hd, he⟩ | ⟨l, ten, mk, d, hb, hr, hd, hp, hbk, he⟩
    · have hx : n ∉ rs := by
        intro hx
        obtain ⟨_, ⟨l, ten, hb⟩, hf⟩ := (hrs n).mp hx
        rw [hn1, he, hb] at hf; cases hf
      refine .keep ?_ (by
        have := ih rs (drop hx) (rest rs hx (fun _ _ => .rfl) (fun _ _ => by rw [he]))
        rwa [he] at this)
      intro l ten mk hb hr
      rcases hc with hc | ⟨l', ten', mk', hb', hr', hc⟩
      · rw [hc l ten hb] at hr; cases hr
      · rw [hb] at hb'; cases hb'
        rw [hr] at hr'; cases hr'
        exact hc
    · have hset : (r.visitRecall n).tab = r.tab.setBody n (.held l { ten with recallMark := none }) := by rw [he]; rfl
      have hx : n ∉ rs := by
        intro hx
        obtain ⟨_, _, hf⟩ := (hrs n).mp hx
        rw [hn1, hset, Tables.body_setBody, if_pos rfl] at hf; cases hf
      have so := Tables.slotOnly_setBody r.tab n (.held l { ten with recallMark := none })
      have := ih rs (drop hx) (rest rs hx (fun _ _ => .rfl) (fun m hm => by rw [hset]; exact so.2.1 m hm))
      rw [hset] at this
      exact .clear hb hr hd hnb so rfl this
    · have hret := r.retire_retired (.revocation .recallLimit) n h
      have hx : n ∈ rs := by
        refine (hrs n).mpr ⟨by simp, ⟨l, ten, hb⟩, ?_⟩
        rw [hn1, he]; unfold Tables.body; rw [hret.tab.freed n l ten hb (by simp)]
      cases hsub with
      | cons _ hx' => exact absurd (hx'.subset hx) hn
      | @cons_cons vs _ _ hv =>
        have hvn : n ∉ vs := fun x => hn (hv.subset x)
        have := ih vs hv (rest vs hvn (fun m hm => by simp [hm])
          (fun m hm => by rw [he]; exact hret.tab.others m (fun _ _ _ x => hm (by simpa using x))))
        rw [he] at this
        refine .revoke hb hr hd hp hbk ?_ this
        have g := hret.tab
        simp only [List.mem_singleton] at g
        exact g

end Sys2Proof.Machine
end

