-- ==== Sys2Proof/Tests/Slice0.lean ====
section
/-! SUPPORT. Tests: what well-formedness and the frame check refuse, one step of every command on a small state, and for
every statement with hypotheses a state and operands that meet them (`test_meets_…`). -/

open Sys2Proof Sys2Proof.Machine

namespace Sys2Proof.Tests

/- One theorem after another: each evaluates in the kernel, and the memory bound of the check leaves room for few at a
time. -/
set_option Elab.async false

/-! ### A small state -/

/-- The state after a command. -/
def after (c : Instr) (s : State) : State :=
  match exec c s with
  | .next t => t
  | .fault _ => s
  | .refused _ => s

def vol (st : VolumeState) (size fence : Nat) : Volume := { state := st, size := size, fence := fence }

/-- Volumes 0 ONLINE, 1 FROZEN, 2 OFFLINE, 3 ONLINE and exhausted, 4 OFFLINE and exhausted, 5 FROZEN and exhausted. -/
def vols : Vector Volume 32 :=
  upd (upd (upd (upd (upd (upd (Vector.replicate 32 (vol .offline 0 0)) 0 (vol .online 1000 5)) 1 (vol .frozen 10 0)) 2
    (vol .offline 8 0)) 3 (vol .online 100 4294967295)) 4 (vol .offline 8 4294967295)) 5 (vol .frozen 8 4294967295)

def tab0 : Tables := { Tables.reset with volumes := vols }

theorem sound_tab0 : tab0.Sound := Tables.sound_empty vols (by decide +kernel)

def sess (st : SessionState) (number : Nat) (port : Option PortId) : Session :=
  { Session.freed with
    state := st, name := BitVec.ofNat 64 number, number := number, port := port, window := 8, quota := 1024
    term := .running 1000 }

/-- READY, links UP: session 0 ACTIVE on port 0, session 1 ACTIVE on port 1, session 2 ORPHANED; the tables are `t`. -/
def on (t : Tables) : State :=
  { State.reset with
    resetN := true, device := .ready, clock := 100, tab := t, nextNumber := 4
    sessions := upd (upd (upd (Vector.replicate 12 Session.freed) 0 (sess .active 1 (some 0))) 1
      (sess .active 2 (some 1))) 2 { sess .orphaned 3 none with term := .stopped, grace := .running 200 }
    ports := Vector.replicate 6 { Port.reset with link := .up, helloCount := 2 }
    gate := { Gate.reset with link := .up, helloCount := 2 } }

def base : State := on tab0

/-- The oldest request of port `p` is `b` under tag 7, and nothing is behind it. -/
def asksAt (p : PortId) (b : ReqBody) (s : State) : State :=
  { s with ports := upd s.ports p { s.port p with inbox := [{ tag := 7, body := b }] } }

/-- The same on port 0, with the tag outstanding in session 0. -/
def asks (b : ReqBody) (s : State) : State :=
  asksAt 0 b (s.setSession 0 { s.session 0 with outstanding := (s.session 0).outstanding ++ [(7, .queued)] })

/-- A command waits. -/
def orders (c : Command) (s : State) : State := { s with waiting := some c, cmdStatus := .busy, lastCode := c.code }

def cmd (code : Byte) (arg1 : BitVec 16) (arg2 : Byte) (arg3 : BitVec 48) : Command :=
  { code := code, arg1 := arg1, arg2 := arg2, arg3 := arg3 }

/-- A claim waits in the Timers queue. -/
def claims (c : TimerClaim) (s : State) : State := { s with timersQueue := [c] }

def loss (k : TimerKind) (i : SessionId) (number : Nat) (p : Option PortId) : TimerClaim :=
  { kind := k, session := i, number := number, ports := p.toList }

/-- Session 0 is CLOSING and the purge job's subject, at section `k`. -/
def purges (kind : CloseKind) (k : Nat) (s : State) : State :=
  { s.setSession 0 { s.session 0 with state := .closing, closeKind := some kind, outstanding := [(9, .parked)] } with
    purgeQueue := [0], purgeSection := k }

/-- The status and result of the answer that port `p` has begun to send. -/
def said (p : PortId) (t : State) : Option (Status × Result) :=
  match (t.port p).tx with
  | some (.answer a) => some (a.status, a.result)
  | _ => none

/-! ### Tables with leases -/

def ext (start count : Nat) (m : Mode) : AcquireReq :=
  { volume := 0, start := start, count := count, mode := m, noWait := false, hold := none, waitLimit := none }

def conv (slot : Nat) (m : Mode) : ConvertReq :=
  { handle := { slot := slot, gen := 0 }, mode := m, noWait := false, waitLimit := some 5 }

/-- The tables after an ACQUIRE's work. -/
def acquired (t : Tables) (i : SessionId) (tag : Tag) (a : AcquireReq) : Tables :=
  (acquireWork i { tag := tag, body := .acquire a } { on t with recallLimit := 10 }).1.tab

/-- The tables after a CONVERT's work. -/
def converted (t : Tables) (i : SessionId) (tag : Tag) (c : ConvertReq) : Tables :=
  (convertWork i { tag := tag, body := .convert c } { on t with recallLimit := 10 }).1.tab

theorem sound_acquired {t : Tables} (h : t.Sound) (i : SessionId) (tag : Tag) (a : AcquireReq) :
    (acquired t i tag a).Sound := (acquireWork_to i _ { on t with recallLimit := 10 } h).moves.keeps h

theorem sound_converted {t : Tables} (h : t.Sound) (i : SessionId) (tag : Tag) (c : ConvertReq) :
    (converted t i tag c).Sound := (convertWork_to i _ { on t with recallLimit := 10 } h).moves.keeps h

/-- Slot 0: session 0, EXCLUSIVE, blocks 0 to 99, token 6. -/
def heldX : Tables := acquired tab0 0 1 (ext 0 100 .exclusive)
/-- Slot 0: session 0, SHARED, blocks 0 to 99, held for 10 ms. -/
def heldS : Tables := acquired tab0 0 1 { ext 0 100 .shared with hold := some 10 }
/-- The same, and slot 1: session 1, SHARED, blocks 50 to 149. -/
def twoS : Tables := acquired heldS 1 2 (ext 50 100 .shared)
/-- Slot 0 as in `heldX`, recalled; slot 1: session 1, PENDING for 5 ms, entry 0. -/
def parkedA : Tables := acquired heldX 1 2 { ext 50 10 .shared with waitLimit := some 5 }
/-- As `twoS`, with an upgrade of slot 0 parked under tag 3 for 5 ms. -/
def parkedU : Tables := converted twoS 0 3 (conv 0 .exclusive)
/-- Slot 0: session 0, SHARED on the exhausted volume 3. -/
def heldE : Tables := acquired tab0 0 1 { ext 0 10 .shared with volume := 3 }

theorem sound_heldX : heldX.Sound := sound_acquired sound_tab0 _ _ _
theorem sound_heldS : heldS.Sound := sound_acquired sound_tab0 _ _ _
theorem sound_twoS : twoS.Sound := sound_acquired sound_heldS _ _ _
theorem sound_parkedA : parkedA.Sound := sound_acquired sound_heldX _ _ _
theorem sound_parkedU : parkedU.Sound := sound_converted sound_twoS _ _ _
theorem sound_heldE : heldE.Sound := sound_acquired sound_tab0 _ _ _

def leaseX : Lease :=
  { owner := 0, volume := 0, start := 0, count := 100, mode := .exclusive, holdLength := none, originTag := 1 }
def leaseS : Lease := { leaseX with mode := .shared, holdLength := some 10 }
def leaseE : Lease := { leaseX with volume := 3, count := 10, mode := .shared }
def plain : Tenure := { token := none, holdDeadline := none, upgrade := none, recallMark := none, gateUse := 0 }
def tenS : Tenure := { plain with holdDeadline := some 110 }

/-- What the tables hold: the rows above are as they say. -/
theorem test_tables :
    heldX.body 0 = .held leaseX { plain with token := some 6 } ∧ heldS.body 0 = .held leaseS tenS ∧
    (twoS.body 1).lease?.map (fun l => (l.owner, l.start, l.mode)) = some (1, 50, .shared) ∧
    parkedA.body 0 = .held leaseX { plain with token := some 6, recallMark := some { deadline := some 110 } } ∧
    parkedA.body 1 = .pending { leaseX with owner := 1, start := 50, count := 10, mode := .shared, originTag := 2 }
      (some 105) ∧
    parkedU.body 0 = .held leaseS { tenS with upgrade := some { tag := 3, waitDeadline := some 105 } } ∧
    heldE.body 0 = .held leaseE plain := by decide +kernel

/-! ### A full table and a full pool -/

/-- Slot `n` of `crowd h k`: block `n` of volume 6, HELD SHARED by session 0 below `h`, else PENDING for session 1. -/
def rowBody (h n : Nat) : SlotBody :=
  if n < h then .held { leaseS with volume := 6, start := n, count := 1, holdLength := none } plain
  else .pending { leaseX with owner := 1, volume := 6, start := n, count := 1 } none

def rows {α : Type} (f : Nat → α) (n : Nat) : List (Nat × α) := (List.range n).map (fun i => (i, f i))

def crowd (h k : Nat) : Tables :=
  { slots := { freeGen := 0, entries := rows (fun n => { gen := 0, body := rowBody h n }) (h + k) }
    index := upd (Vector.replicate 32 []) 6 (List.range h), occupancy := h + k
    slotCounts := upd (upd (Vector.replicate 12 0) 0 h) 1 k
    pool := rows (fun e => { kind := .acquire, slot := h + e, volume := 6, arrival := BitVec.ofNat 32 e }) k
    waitLists := upd (Vector.replicate 32 []) 6 (List.range k), arrival := 0
    volumes := upd vols 6 (vol .frozen 5000 0) }

theorem keysRise_rows {α : Type} (f : Nat → α) (n : Nat) : keysRise (rows f n) := by
  unfold keysRise rows
  rw [List.pairwise_map]
  exact List.pairwise_lt_range

theorem lookup_rows {α : Type} (f : Nat → α) (n k : Nat) : lookupKey k (rows f n) = if k < n then some (f k) else none := by
  split
  · exact lookupKey_of_mem (keysRise_rows f n) (List.mem_map.mpr ⟨k, List.mem_range.mpr ‹_›, rfl⟩)
  · refine lookupKey_none fun p hp => ?_
    obtain ⟨i, hi, rfl⟩ := List.mem_map.mp hp
    have := List.mem_range.mp hi
    show i ≠ k
    omega

theorem count_rows {α : Type} (f : Nat → α) (q : α → Bool) (n : Nat) :
    countKeys q (rows f n) = (List.range n).countP (fun i => q (f i)) := by
  unfold countKeys rows
  rw [← List.countP_eq_length_filter, List.countP_map]
  rfl

theorem count_below (h k : Nat) : (List.range (h + k)).countP (fun i => decide (i < h)) = h ∧
    (List.range (h + k)).countP (fun i => !decide (i < h)) = k := by
  induction k with
  | zero =>
    have : ∀ i ∈ List.range h, decide (i < h) = true := fun i hi => decide_eq_true (List.mem_range.mp hi)
    refine ⟨?_, ?_⟩
    · rw [Nat.add_zero, List.countP_eq_length.mpr this, List.length_range]
    · rw [Nat.add_zero, List.countP_eq_zero]
      intro i hi; rw [this i hi]; decide
  | succ k ih =>
    rw [← Nat.add_assoc, List.range_succ, List.countP_append, List.countP_append, ih.1, ih.2]
    simp

theorem crowd_body (h k n : Nat) : (crowd h k).body n = if n < h + k then rowBody h n else .free := by
  unfold Tables.body SlotTable.get crowd
  simp only [lookup_rows]
  by_cases hn : n < h + k
  · rw [if_pos hn, if_pos hn]
  · rw [if_neg hn, if_neg hn]

theorem crowd_held {h k n : Nat} {l : Lease} {ten : Tenure} (hb : (crowd h k).body n = .held l ten) :
    n < h ∧ l = { leaseS with volume := 6, start := n, count := 1, holdLength := none } ∧ ten = plain := by
  rw [crowd_body] at hb
  unfold rowBody at hb
  split at hb
  · split at hb
    · injection hb with h1 h2; exact ⟨‹_›, h1.symm, h2.symm⟩
    · cases hb
  · cases hb

theorem crowd_lease {h k n : Nat} {l : Lease} (hb : ((crowd h k).body n).lease? = some l) :
    n < h + k ∧ l.owner = (if n < h then 0 else 1) ∧ l.volume = 6 ∧ l.start = n ∧ l.count = 1 := by
  rw [crowd_body] at hb
  unfold rowBody at hb
  split at hb
  · split at hb <;> cases hb
    · refine ⟨‹_›, (if_pos ‹_›).symm, rfl, rfl, rfl⟩
    · refine ⟨‹_›, (if_neg ‹_›).symm, rfl, rfl, rfl⟩
  · cases hb

theorem crowd_fence : ∀ v : VolumeId, (upd vols 6 (vol .frozen 5000 0))[v].fence ≤ Config.lastToken := by
  decide +kernel

theorem sound_crowd (h k : Nat) (hs : h + k ≤ 4096) (hk : k ≤ 512) : (crowd h k).Sound := by
  have hvol : (crowd h k).volume 6 = vol .frozen 5000 0 := upd_same _ _ _
  have hidx : ∀ v, (crowd h k).indexOf v = if v = 6 then List.range h else [] := fun v => by
    show (upd _ _ _)[v] = _
    rw [upd_get]
    by_cases e : v = 6
    · rw [if_pos e.symm, if_pos e]
    · rw [if_neg (fun x => e x.symm), if_neg e]; simp
  have hwl : ∀ v, (crowd h k).waitList v = if v = 6 then List.range k else [] := fun v => by
    show (upd _ _ _)[v] = _
    rw [upd_get]
    by_cases e : v = 6
    · rw [if_pos e.symm, if_pos e]
    · rw [if_neg (fun x => e x.symm), if_neg e]; simp
  have hpool : ∀ e, lookupKey e (crowd h k).pool = if e < k then
      some { kind := .acquire, slot := h + e, volume := 6, arrival := BitVec.ofNat 32 e } else none :=
    fun e => lookup_rows _ _ _
  refine ⟨⟨keysRise_rows _ _, ?_⟩, ?_, ?_, ?_, ⟨?_, ?_⟩, ?_, ⟨?_, ?_, ?_⟩, ⟨keysRise_rows _ _, ?_, ?_, ?_, ?_⟩, ?_⟩
  · intro p hp
    obtain ⟨i, hi, rfl⟩ := List.mem_map.mp hp
    have := List.mem_range.mp hi
    refine ⟨?_, ?_⟩
    · show i < 4096; omega
    · intro he
      have := congrArg Slot.body he
      simp only [rowBody] at this
      split at this <;> cases this
  · intro m n a ta b tb _ hm hn hne
    rw [(crowd_held hm).2.1, (crowd_held hn).2.1] at hne
    exact absurd rfl hne
  · intro m n a b hne hm hn _
    obtain ⟨_, _, _, ha, ca⟩ := crowd_lease hm
    obtain ⟨_, _, _, hb, cb⟩ := crowd_lease hn
    unfold Lease.overlaps Machine.overlaps
    rw [ha, hb, ca, cb]
    by_cases hlt : m < n
    · rw [show decide (n < m + 1) = false from decide_eq_false (by omega), Bool.and_false, Bool.and_false]
    · rw [show decide (m < n + 1) = false from decide_eq_false (by omega), Bool.false_and, Bool.and_false]
  · intro v
    rw [hidx]
    by_cases e : v = 6
    · rw [if_pos e]
      refine ⟨?_, fun n => ?_⟩
      · refine List.Pairwise.imp_of_mem ?_ List.pairwise_lt_range
        intro m n hm hn hlt
        have hst : ∀ x, x ∈ List.range h → (crowd h k).startOf x = x := fun x hx => by
          have hx' := List.mem_range.mp hx
          unfold Tables.startOf
          rw [crowd_body, if_pos (by omega)]
          unfold rowBody
          rw [if_pos hx']
          rfl
        exact Or.inl (by rw [hst m hm, hst n hn]; exact hlt)
      · rw [List.mem_range]
        constructor
        · intro hn
          refine ⟨{ leaseS with volume := 6, start := n, count := 1, holdLength := none }, plain, ?_, e.symm⟩
          rw [crowd_body, if_pos (by omega)]
          unfold rowBody
          rw [if_pos hn]
        · rintro ⟨l, ten, hb, _⟩
          exact (crowd_held hb).1
    · rw [if_neg e]
      refine ⟨List.Pairwise.nil, fun n => ⟨fun hn => absurd hn (by simp), ?_⟩⟩
      rintro ⟨l, ten, hb, hv⟩
      rw [(crowd_held hb).2.1] at hv
      exact absurd hv.symm e
  · show h + k = countKeys _ (rows _ _)
    rw [count_rows]
    symm
    rw [List.countP_eq_length.mpr, List.length_range]
    intro i _
    show (!(rowBody h i).isFree) = true
    unfold rowBody
    split <;> rfl
  · intro i
    show (upd (upd _ _ _) _ _)[i] = countKeys _ (rows _ _)
    have hown : ∀ n, Slot.ownedBy i { gen := 0, body := rowBody h n } = decide ((if n < h then 0 else 1) = i) := by
      intro n
      unfold rowBody
      by_cases hn : n < h
      · rw [if_pos hn, if_pos hn]; rfl
      · rw [if_neg hn, if_neg hn]; rfl
    rw [count_rows, upd_get, upd_get]
    simp only [hown]
    by_cases e1 : (1 : SessionId) = i
    · subst e1
      rw [if_pos rfl]
      refine (count_below h k).2.symm.trans ?_
      congr 1; funext n
      by_cases hn : n < h <;> simp [hn]
    · rw [if_neg e1]
      by_cases e0 : (0 : SessionId) = i
      · subst e0
        rw [if_pos rfl]
        refine (count_below h k).1.symm.trans ?_
        congr 1; funext n
        by_cases hn : n < h <;> simp [hn]
      · rw [if_neg e0]
        symm
        rw [show (Vector.replicate 12 0)[i] = 0 by simp, List.countP_eq_zero]
        intro n _
        by_cases hn : n < h <;> simp [hn, e0, e1]
  · intro n l ten hb
    obtain ⟨_, rfl, rfl⟩ := crowd_held hb
    exact ⟨⟨(fun x => nomatch x), (fun x => nomatch x)⟩, rfl, (fun x => nomatch x)⟩
  · intro v
    show (upd vols 6 (vol .frozen 5000 0))[v].fence ≤ _
    exact crowd_fence v
  · intro n l ten t hb ht
    rw [(crowd_held hb).2.2] at ht; cases ht
  · intro m n a ta b tb t _ hm _ _ ht
    rw [(crowd_held hm).2.2] at ht; cases ht
  · intro e we he
    rw [hpool] at he
    split at he
    · injection he with he
      subst he
      refine ⟨by show e < 512; omega, ?_⟩
      refine ⟨{ leaseX with owner := 1, volume := 6, start := h + e, count := 1 }, none, ?_, rfl⟩
      show (crowd h k).body (h + e) = _
      rw [crowd_body, if_pos (by omega)]
      unfold rowBody
      rw [if_neg (by omega)]
    · cases he
  · intro d e wd we hd he hs
    rw [hpool] at hd he
    split at hd <;> cases hd
    split at he <;> cases he
    have : h + d = h + e := hs
    omega
  · intro n hn
    rw [crowd_body] at hn
    unfold rowBody at hn
    split at hn
    · split at hn
      · cases hn
      · exact ⟨n - h, _, by rw [hpool, if_pos (by omega)], by show h + (n - h) = n; omega⟩
    · cases hn
  · intro v
    rw [hwl]
    by_cases e : v = 6
    · rw [if_pos e]
      refine ⟨List.nodup_range, fun d => ?_⟩
      rw [List.mem_range, hpool]
      constructor
      · intro hd; exact ⟨_, by rw [if_pos hd], e.symm⟩
      · rintro ⟨we, hw, _⟩
        split at hw
        · assumption
        · cases hw
    · rw [if_neg e]
      refine ⟨List.Pairwise.nil, fun d => ⟨fun hd => absurd hd (by simp), ?_⟩⟩
      rintro ⟨we, hw, hv⟩
      rw [hpool] at hw
      split at hw <;> cases hw
      exact absurd hv.symm e
  · intro n l hl
    obtain ⟨h1, _, h3, h4, h5⟩ := crowd_lease hl
    rw [h3, h4, h5, hvol]
    exact ⟨by decide, by omega, by show n + 1 ≤ 5000; omega⟩

/-! ### Well-formedness, frames and CRC -/

/-- A REQUEST body has 1 to 19 bytes, a gate QUERY body 13. -/
theorem test_wellFormed_refuses :
    Instr.wellFormed (.requestIntake 0 1 []) = false ∧ Instr.wellFormed (.requestIntake 0 1 [0x0B]) = true ∧
    Instr.wellFormed (.requestIntake 0 1 (List.replicate 19 0)) = true ∧
    Instr.wellFormed (.requestIntake 0 1 (List.replicate 20 0)) = false ∧
    Instr.wellFormed (.gateQuery 0 (List.replicate 12 0)) = false ∧
    Instr.wellFormed (.gateQuery 0 (List.replicate 13 0)) = true ∧
    Instr.wellFormed (.gateQuery 0 (List.replicate 14 0)) = false := by decide +kernel

/-- The check value of the CRC of R185. -/
theorem test_crc : crc32 [0x31, 0x32, 0x33, 0x34, 0x35, 0x36, 0x37, 0x38, 0x39] = 0xCBF43926#32 := by decide +kernel

/-- A frame taken apart: kind, length and tag high byte first, body, CRC. -/
def frameOf (kind : Byte) (tag : Tag) (body : List Byte) : List Byte :=
  let covered := kind :: (beBytes 2 body.length ++ beBytes 2 tag.toNat ++ body)
  covered ++ beBytes 4 (crc32 covered).toNat

theorem test_frames :
    rpArrival 0 (frameOf 0x02 0x1234 [0x0B]) = .requestIntake 0 0x1234 [0x0B] ∧
    rpArrival 0 (frameOf 0x01 0 []) = .helloReceive 0 ∧
    rpArrival 0 (frameOf 0x02 0 []) = .badFrame 0 ∧
    rpArrival 0 (frameOf 0x05 0 (List.replicate 13 0)) = .badFrame 0 ∧
    gateArrival (frameOf 0x05 5 (List.replicate 13 0)) = .gateQuery 5 (List.replicate 13 0) ∧
    gateArrival ((frameOf 0x01 0 []).map (fun b => b + 1)) = .gateBadFrame := by decide +kernel

/-- Request bodies written out from Table 11-3, and some that are not well formed. -/
theorem test_request_bodies :
    parseRequest [0x01, 0, 0, 0, 0, 0, 0, 1, 2, 4, 1, 0, 0, 0, 9] = .join 0x0102 4 (some 9) ∧
    parseRequest [0x03, 5, 0, 0, 0, 1, 0, 0, 0, 0, 10, 1, 0x07, 0, 0, 0, 100, 0, 20] = .acquire
      { volume := 5, start := 256, count := 10, mode := .exclusive, noWait := true, hold := some 100,
        waitLimit := some 20 } ∧
    parseRequest [0x04, 1, 2, 3, 0, 0] = .convert
      { handle := { slot := 0x102, gen := 3 }, mode := .shared, noWait := false, waitLimit := none } ∧
    parseRequest [0x05, 0, 2, 3, 2, 0, 0, 1, 0] = .renew { slot := 2, gen := 3 } (some 256) ∧
    parseRequest [0x06, 0, 2, 3] = .release { slot := 2, gen := 3 } ∧ parseRequest [0x07, 1, 2] = .cancel 0x0102 ∧
    parseRequest [0x08, 1, 0, 0, 0, 0, 2, 0, 0, 0, 3] = .query 1 2 3 ∧ parseRequest [0x09, 1, 0] = .list 256 ∧
    parseRequest [0x0A, 1, 0] = .noticeAck 256 ∧ parseRequest [0x0B] = .depart ∧ parseRequest [0x02] = .keepalive ∧
    parseRequest [0x04, 1, 2, 3, 0, 2] = .malformed .convert ∧ parseRequest [0x03] = .malformed .acquire ∧
    parseRequest [0x0C] = .unknown 0x0C := by decide +kernel

/-! ### What the arbiter presents -/

/-- Port 0's request is presented, whatever it asks and whatever the tables hold. -/
theorem takes_asks (b : ReqBody) (t : Tables) : (asks b (on t)).takesFor 0 0 { tag := 7, body := b } [] :=
  ⟨⟨⟨rfl, by with_unfolding_all rfl⟩, rfl⟩, rfl, rfl⟩

/-- So is a request of port 2, which is not bound. -/
theorem takes_unbound (b : ReqBody) (t : Tables) : (asksAt 2 b (on t)).takesRequest 2 { tag := 7, body := b } [] :=
  ⟨⟨rfl, by with_unfolding_all rfl⟩, rfl⟩

/-- So is a command, and a Timers claim. -/
theorem takes_orders (c : Command) (t : Tables) : (orders c (on t)).takesCommand c :=
  ⟨⟨rfl, by with_unfolding_all rfl⟩, rfl⟩

theorem takes_claims (c : TimerClaim) (s : SessionId) (x : Session) (t : Tables) :
    (claims c ((on t).setSession s x)).takesTimer c [] := ⟨⟨rfl, by with_unfolding_all rfl⟩, rfl⟩

/-- The records of the small state keep their law. -/
theorem law_on (t : Tables) : SessionLaw (on t).sessions (on t).nextNumber :=
  show SessionLaw (on tab0).sessions 4 from
    ⟨by decide, by decide +kernel, by decide +kernel, by decide +kernel, by decide +kernel⟩

theorem config_on (t : Tables) : (on t).configLaw := show (on tab0).configLaw from ⟨by decide +kernel, by decide +kernel⟩

/-! ### The step, reset and start-up -/

theorem test_step : step { base with pending := [.termTimerExpiry 0, .list] } =
    .next { after (.termTimerExpiry 0) base with pending := [.list] } ∧ step base = .next base := ⟨rfl, rfl⟩

/-- A command whose event cannot occur. -/
theorem test_meets_EveryCommandCompletes :
    let down := base.setPort 5 Port.reset
    ¬ base.mayAct .startupComplete ∧ after .startupComplete base = base ∧ ¬ down.mayAct (.helloReceive 5) ∧
    after (.helloReceive 5) down = down ∧ base.mayAct (.helloReceive 5) := by
  unfold State.mayAct
  decide +kernel

theorem test_reset : after (.resetRelease 5) State.reset =
    { State.reset with resetN := true, address := 0x31, device := .starting } ∧
    after .powerOnReset base = State.reset ∧ after .join State.reset = State.reset := by decide +kernel

theorem test_meets_ResetHoldsTheDevice : State.reset.resetN = false ∧ Instr.join ≠ .powerOnReset ∧
    (∀ straps, Instr.join ≠ .resetRelease straps) := ⟨rfl, by decide, by decide⟩

def starting : State := after (.resetRelease 0) State.reset

/-- A port that may not train stays DOWN. -/
theorem test_meets_StartupMakesReady : starting.resetN = true ∧ starting.device = .starting ∧
    (starting.port 0).link = .down ∧ (starting.cfg 0).enable = true ∧ starting.gate.link = .down ∧
    (let s := starting.setCfg 1 { starting.cfg 1 with enable := false }
     s.device = .starting ∧ ((after .startupComplete s).port 1).link = .down ∧
      ((after .startupComplete s).port 0).link = .training) := by decide +kernel

/-- The ring is searched from the position after the one last served, and round again. -/
theorem test_meets_ArbiterSearchesTheRing :
    (orders (cmd 1 0 0 0) (asks .depart base)).presented = some 0 ∧
    ({ orders (cmd 1 0 0 0) (asks .depart base) with lastServed := 0 } : State).presented = some 9 ∧
    ({ asks .depart base with lastServed := 0 } : State).presented = some 0 ∧ base.presented = none ∧
    ({ asks .depart base with device := .clearing } : State).presented = none := by decide +kernel

/-! ### Intake -/

/-- Session 0 with tags 1 parked and 2 queued, tag 3 in its cache, and two notices. -/
def busy : State := base.setSession 0 { base.session 0 with
  outstanding := [(1, .parked), (2, .queued)], cache := [{ tag := 3, kind := .acquire, status := .ok, result := .empty }],
  queue := [{ seq := 65535, notice := .resync, sent := true }, { seq := 0, notice := .resync, sent := false }],
  nextSeq := 1 }

/-- Port 0 has 40 answers. -/
def crowded (s : State) : State :=
  s.setPort 0 { s.port 0 with tx := some .hello, answers := List.replicate 40 (portAnswer 0 0 .ok) }

theorem test_meets_RequestAccepted :
    busy.hears 0 [0x0B] ∧ busy.boundSession 0 = some 0 ∧ busy.passesState 0 (parseRequest [0x0B]) ∧ busy.newTag 0 9 ∧
    (parseRequest [0x0B]).kind? = some .depart ∧ (busy.session 0).outstanding.length < (busy.session 0).window ∧
    busy.hasRoom 0 = true ∧ (crowded busy).hasRoom 0 = false ∧ (crowded busy).newTag 0 9 ∧
    ((after (.requestIntake 0 9 [0x0B]) busy).session 0).outstanding = [(1, .parked), (2, .queued), (9, .queued)] ∧
    after (.requestIntake 0 9 [0x0B]) (crowded busy) = crowded busy := by
  unfold State.hears State.passesState State.newTag
  decide +kernel

/-- Each case of an answer at intake on a bound port. -/
theorem test_meets_RequestAnsweredAtIntake :
    busy.hears 0 [0xFF] ∧ busy.hears 0 (List.replicate 19 3) ∧ busy.boundSession 0 = some 0 ∧
    said 0 (after (.requestIntake 0 9 [0x09, 0, 0]) (purges .depart 0 busy)) = some (.busy, .empty) ∧
    said 0 (after (.requestIntake 0 9 [0xFF]) busy) = some (.badRequest, .empty) ∧
    said 0 (after (.requestIntake 0 3 [0x09, 0, 0]) busy) = some (.ok, .empty) ∧
    said 0 (after (.requestIntake 0 1 [0x09, 0, 0]) busy) = some (.parked, .empty) ∧
    said 0 (after (.requestIntake 0 2 [0x09, 0, 0]) busy) = none ∧
    said 0 (after (.requestIntake 0 9 [0x09, 0, 0]) (busy.setSession 0 { busy.session 0 with window := 2 })) =
      some (.noCredit, .empty) ∧
    said 0 (after (.requestIntake 0 9 [0x02, 0]) busy) = some (.badRequest, .empty) ∧
    said 0 (after (.requestIntake 0 9 [0x0A, 0]) busy) = some (.badRequest, .empty) := by
  unfold State.hears
  decide +kernel

def joinBody : List Byte := [0x01, 0, 0, 0, 0, 0, 0, 0, 4, 1, 0]

/-- Port 2 is not bound; its inbox holds a JOIN under tag 7. -/
def joining : State := asksAt 2 (.join 4 1 none) base

theorem test_meets_UnboundPortTakesOneJoin :
    base.hears 2 joinBody ∧ base.boundSession 2 = none ∧ joining.boundSession 2 = none ∧ base.hasRoom 2 = true ∧
    (parseRequest joinBody).kind? = some .join ∧
    said 2 (after (.requestIntake 2 9 [0x0B]) base) = some (.noSession, .empty) ∧
    ((after (.requestIntake 2 7 joinBody) base).port 2).inbox = [{ tag := 7, body := .join 4 1 none }] ∧
    said 2 (after (.requestIntake 2 7 joinBody) joining) = none ∧
    said 2 (after (.requestIntake 2 8 joinBody) joining) = some (.noCredit, .empty) ∧
    (let full := base.setPort 2 { base.port 2 with tx := some .hello, answers := List.replicate 40 (portAnswer 0 0 .ok) }
     full.hasRoom 2 = false ∧ ((after (.requestIntake 2 7 joinBody) full).port 2).inbox = []) := by
  unfold State.hears
  decide +kernel

theorem test_meets_PortHandlesKeepaliveAndNoticeAck :
    busy.resetN = true ∧ (busy.port 0).link = .up ∧ busy.boundSession 0 = some 0 ∧ (busy.session 0).state = .active ∧
    busy.newTag 0 9 ∧ (crowded busy).newTag 0 9 ∧ (crowded busy).hasRoom 0 = false ∧
    said 0 (after (.keepalive 0 9) busy) = some (.ok, .empty) ∧
    ((after (.keepalive 0 9) busy).session 0).term = .running 1100 ∧
    said 0 (after (.noticeAck 0 9 0) busy) = some (.ok, .empty) ∧
    said 2 (after (.keepalive 2 9) base) = some (.noSession, .empty) ∧
    said 0 (after (.noticeAck 0 9 0) (purges .depart 0 busy)) = some (.busy, .empty) ∧
    said 0 (after (.keepalive 0 3) busy) = some (.ok, .empty) ∧
    said 0 (after (.keepalive 0 1) busy) = some (.parked, .empty) := by
  unfold State.newTag
  decide +kernel

/-- The number before the oldest, the oldest, the newest, and the one after it; and the RESYNC of a drained queue. -/
theorem test_meets_NoticeAckRemovesOldest :
    busy.hasRoom 0 = true ∧
    [(65534 : BitVec 16), 65535, 0, 1].map (fun n => ((after (.noticeAck 0 9 n) busy).session 0).queue.length) =
      [2, 1, 0, 2] ∧
    ((after (.noticeAck 0 9 0) (busy.setSession 0 { busy.session 0 with overflow := true })).session 0).queue =
      [{ seq := 1, notice := .resync, sent := false }] ∧
    ((after (.noticeAck 0 9 0) base).session 0).queue = [] := by decide +kernel

/-! ### JOIN -/

theorem test_meets_JoinCreatesSession :
    let s := joining
    s.takesRequest 2 { tag := 7, body := .join 4 1 none } [] ∧ s.boundSession 2 = none ∧ (4 : Name) ≠ 0 ∧
    (∀ j, (s.session j).state ≠ .free → (s.session j).name ≠ 4) ∧ (s.session 3).state = .free ∧
    (∀ j : SessionId, j < 3 → (s.session j).state ≠ .free) ∧ s.nextNumber ≤ 4294967295 ∧
    said 2 (after .join s) = some (.ok, .joined 4 1 1024) ∧
    said 2 (after .join (asksAt 2 (.join 4 32 none) base)) = some (.ok, .joined 4 8 1024) ∧
    said 2 (after .join { s with nextNumber := 4294967295 }) = some (.ok, .joined 4294967295 1 1024) := by
  refine ⟨takes_unbound _ _, ?_⟩
  decide +kernel

theorem test_meets_JoinReclaimsOrphan :
    let s := asksAt 2 (.join 3 32 (some 3)) base
    s.takesRequest 2 { tag := 7, body := .join 3 32 (some 3) } [] ∧ SessionLaw s.sessions s.nextNumber ∧
    s.boundSession 2 = none ∧ (s.session 2).state = .orphaned ∧ (s.session 2).name = 3 ∧ (s.session 2).number = 3 ∧
    said 2 (after .join s) = some (.ok, .joined 3 8 1024) := by
  refine ⟨takes_unbound _ _, law_on tab0, ?_⟩
  decide +kernel

/-- The answer to a JOIN on port 2, or on the bound port 0. -/
def joinSays (b : ReqBody) (s : State) : Option (Status × Result) := said 2 (after .join (asksAt 2 b s))

theorem test_meets_JoinRefused :
    (asksAt 2 (.malformed .join) base).takesRequest 2 { tag := 7, body := .malformed .join } [] ∧
    SessionLaw (asksAt 2 (.malformed .join) base).sessions 4 ∧
    [ReqBody.malformed .join, .join 0 1 none, .join 4 0 none, .join 4 33 none].map (fun b => joinSays b base) =
      List.replicate 4 (some (.badRequest, .empty)) ∧
    said 0 (after .join (asks (.join 4 1 none) base)) = some (.alreadyJoined, .empty) ∧
    said 0 (after .join (asks (.join 4 1 none) { purges .depart 0 base with lastServed := 9 })) = some (.busy, .empty) ∧
    joinSays (.join 1 1 none) base = some (.nameInUse, .empty) ∧
    joinSays (.join 3 1 none) base = some (.busy, .empty) ∧
    ((after .join (asksAt 2 (.join 3 1 none) base)).session 2).state = .closing ∧
    joinSays (.join 1 1 none) (purges .purge 0 base) = some (.busy, .empty) ∧
    joinSays (.join 4 1 none) { base with nextNumber := 4294967296 } = some (.noSessionSlot, .empty) ∧
    joinSays (.join 99 1 none) { base with sessions := Vector.ofFn (fun i => sess .closing (i.val + 1) none) } =
      some (.noSessionSlot, .empty) ∧
    joinSays (.join 1 1 (some 1)) (purges .purge 0 base) = some (.busy, .empty) ∧
    joinSays (.join 3 1 (some 4)) base = some (.reclaimFailed, .empty) ∧
    joinSays (.join 1 1 (some 1)) base = some (.reclaimFailed, .empty) := by
  refine ⟨takes_unbound _ _, law_on tab0, ?_⟩
  decide +kernel

/-! ### ACQUIRE -/

theorem may_of {s : State} {i : SessionId} {a : AcquireReq} {v : VolumeId} {n : Nat} (h : s.tab.Sound)
    (c : ¬ (a.count = 0 ∨ holdOk a.hold = false ∨ waitLimitOk a.waitLimit = false) ∧ v.val = a.volume ∧
      (s.tab.volume v).state ≠ .offline ∧ a.start + a.count ≤ (s.tab.volume v).size ∧
      s.tab.selfOverlap (leaseOf i v 7 a) = false ∧ s.tab.slotCount i < (s.session i).quota ∧
      n < 4096 ∧ s.tab.body n = .free ∧ ∀ m, m < n → s.tab.body m ≠ .free) : s.mayAcquire i a v n :=
  ⟨a.formed_iff.mpr c.1, c.2.1, c.2.2.1, c.2.2.2.1,
    fun ho => absurd ((h.selfOverlap_iff i v 7 a).mpr ho) (by rw [c.2.2.2.2.1]; decide), c.2.2.2.2.2.1, c.2.2.2.2.2.2⟩

theorem limit_of {w : Option Nat} (h : waitLimitOk w = true) : ∀ x, w = some x → 1 ≤ x ∧ x ≤ 60000 :=
  (waitLimitOk_iff w).mp h

theorem free_of {t : Tables} (h : t.Sound) {l : Lease} (g : t.grantableNow l = true) : t.freeFor l :=
  (h.grantableNow_iff l).mp g

theorem taken_of {t : Tables} (h : t.Sound) {l : Lease} (g : t.grantableNow l = false) : ¬ t.freeFor l :=
  fun f => absurd ((h.grantableNow_iff l).mpr f) (by rw [g]; decide)

theorem unblocked_of {t : Tables} (h : t.Sound) {l : Lease} (g : t.conflictSearch l = []) : t.unblocked l :=
  (h.conflicts_nil l).mp g

theorem blocked_of {t : Tables} (h : t.Sound) {l : Lease} (g : t.conflictSearch l ≠ []) : ¬ t.unblocked l :=
  fun f => g ((h.conflicts_nil l).mpr f)

/-- The answer to an ACQUIRE of session 0, and to one of session 1 on port 1. -/
def acqSays (a : AcquireReq) (s : State) : Option (Status × Result) := said 0 (after .acquire (asks (.acquire a) s))
def acqSays1 (a : AcquireReq) (s : State) : Option (Status × Result) := said 1 (after .acquire (asksAt 1 (.acquire a) s))

/-- EXCLUSIVE to the volume's last block and under the last token but one, and SHARED on an exhausted volume. -/
theorem test_meets_AcquireGranted :
    let s := asks (.acquire (ext 0 1000 .exclusive)) base
    let e := { ext 0 100 .shared with volume := 3 }
    let s' := asks (.acquire e) base
    s.takesFor 0 0 { tag := 7, body := .acquire (ext 0 1000 .exclusive) } [] ∧ s.tab.Sound ∧
    s.mayAcquire 0 (ext 0 1000 .exclusive) 0 0 ∧ s.tab.freeFor (leaseOf 0 0 7 (ext 0 1000 .exclusive)) ∧
    (s.tab.volume 0).fence < 4294967295 ∧ s'.mayAcquire 0 e 3 0 ∧ s'.tab.freeFor (leaseOf 0 3 7 e) ∧
    acqSays (ext 0 1000 .exclusive) base = some (.ok, .lease { slot := 0, gen := 0 } .exclusive (some 6)) ∧
    acqSays (ext 0 1000 .exclusive) (on { tab0 with volumes := upd vols 0 (vol .online 1000 4294967294) }) =
      some (.ok, .lease { slot := 0, gen := 0 } .exclusive (some 4294967295)) ∧
    acqSays e base = some (.ok, .lease { slot := 0, gen := 0 } .shared none) ∧
    (after .acquire (asks (.acquire (ext 0 10 .shared)) { base with occThreshold := 1 })).alerts =
      [{ kind := .tableHigh, source := .device, repeats := 0 }] :=
  ⟨takes_asks _ _, sound_tab0, may_of sound_tab0 (by decide +kernel), free_of sound_tab0 (by decide +kernel),
    by decide +kernel, may_of sound_tab0 (by decide +kernel), free_of sound_tab0 (by decide +kernel), by decide +kernel⟩

/-- Each check of an ACQUIRE with the value that fails it, and the value beside it that passes. -/
theorem test_meets_AcquireRefused :
    (asks (.malformed .acquire) (on heldX)).takesFor 0 0 { tag := 7, body := .malformed .acquire } [] ∧ heldX.Sound ∧
    said 0 (after .acquire (asks (.malformed .acquire) base)) = some (.badRequest, .empty) ∧
    [ext 0 0 .shared, { ext 0 1 .shared with hold := some 9 }, { ext 0 1 .shared with hold := some 3600001 },
      { ext 0 1 .shared with waitLimit := some 0 }, { ext 0 1 .shared with waitLimit := some 60001 }].map
      (fun a => acqSays a base) = List.replicate 5 (some (.badRequest, .empty)) ∧
    [{ ext 0 1 .shared with hold := some 10 }, { ext 0 1 .shared with hold := some 3600000 },
      { ext 0 1 .shared with waitLimit := some 1 }, { ext 0 1 .shared with waitLimit := some 60000 }].map
      (fun a => acqSays a base) = List.replicate 4 (some (.ok, .lease { slot := 0, gen := 0 } .shared none)) ∧
    acqSays { ext 0 1 .shared with volume := 2 } base = some (.badVolume, .empty) ∧
    acqSays { ext 0 1 .shared with volume := 32 } base = some (.badVolume, .empty) ∧
    acqSays (ext 1 1000 .shared) base = some (.badRange, .empty) ∧
    acqSays (ext 99 1 .shared) (on heldX) = some (.selfOverlap, .empty) ∧
    acqSays (ext 100 1 .shared) (on heldX) = some (.ok, .lease { slot := 1, gen := 0 } .shared none) ∧
    acqSays (ext 100 1 .shared) ((on heldX).setSession 0 { (on heldX).session 0 with quota := 1 }) =
      some (.quota, .empty) ∧
    acqSays1 { ext 99 1 .shared with noWait := true } (on heldX) = some (.conflict, .empty) ∧
    acqSays1 { ext 100 1 .shared with noWait := true } (on heldX) =
      some (.ok, .lease { slot := 1, gen := 0 } .shared none) :=
  ⟨takes_asks _ _, sound_heldX, by decide +kernel⟩

/-- The extent that overlaps a slot of the session's own, in the words of the statement. -/
theorem test_ownOverlap : heldX.ownOverlap 0 0 99 1 :=
  ⟨0, leaseX, by decide +kernel, rfl, rfl, by decide⟩

theorem crowd_full (h k e : Nat) (he : e < k) : lookupKey e (crowd h k).pool ≠ none := by
  have : lookupKey e (crowd h k).pool = _ := lookup_rows _ _ _
  rw [this, if_pos he]
  exact fun x => nomatch x

/-- All 4096 slots taken; and 512 waits, with an ACQUIRE that would have to wait. -/
theorem test_meets_AcquireRefused_full :
    let full := asks (.acquire { ext 0 1 .shared with volume := 6 }) (on (crowd 4096 0))
    let b := { ext 4000 1 .shared with volume := 6 }
    let pool := asks (.acquire b) (on (crowd 1 512))
    full.tab.Sound ∧ (∀ m, m < 4096 → full.tab.body m ≠ .free) ∧
    pool.takesFor 0 0 { tag := 7, body := .acquire b } [] ∧ pool.tab.Sound ∧ pool.mayAcquire 0 b 6 513 ∧
    ¬ pool.tab.freeFor (leaseOf 0 6 7 b) ∧ (∀ e, e < 512 → lookupKey e pool.tab.pool ≠ none) := by
  have hs := sound_crowd 1 512 (by decide) (by decide)
  refine ⟨sound_crowd 4096 0 (by decide) (by decide), ?_, takes_asks _ _, hs,
    ⟨?_, rfl, by decide +kernel, by decide +kernel, ?_, by decide +kernel, by decide, ?_, ?_⟩, ?_, ?_⟩
  · intro m hm
    show (crowd 4096 0).body m ≠ .free
    rw [crowd_body, if_pos (by omega)]
    unfold rowBody
    rw [if_pos hm]
    exact fun x => nomatch x
  · exact (AcquireReq.formed_iff _).mpr (by decide)
  · rintro ⟨m, l, hl, ho, hv, hov⟩
    obtain ⟨h1, _, _, h4, h5⟩ := crowd_lease (h := 1) (k := 512) hl
    rw [h4, h5] at hov
    have ho : overlaps m 1 4000 1 = true := hov
    simp [overlaps] at ho
    omega
  · show (crowd 1 512).body 513 = .free
    rw [crowd_body]; rfl
  · intro m hm
    show (crowd 1 512).body m ≠ .free
    rw [crowd_body, if_pos (by omega)]
    unfold rowBody
    split <;> exact fun x => nomatch x
  · rintro ⟨h1, _⟩
    exact absurd h1 (by decide +kernel)
  · intro e he
    exact crowd_full 1 512 e he

/-- Session 1 waits for the lease of session 0, which is recalled. -/
theorem test_meets_AcquireParked :
    let a := { ext 50 10 .shared with waitLimit := some 5 }
    let s := asks (.acquire a) (on (acquired tab0 1 1 (ext 0 100 .exclusive)))
    s.takesFor 0 0 { tag := 7, body := .acquire a } [] ∧ s.tab.Sound ∧ s.mayAcquire 0 a 0 1 ∧
    ¬ s.tab.freeFor (leaseOf 0 0 7 a) ∧ s.tab.lowestFreeEntry = some 0 ∧
    said 0 (after .acquire s) = some (.parked, .empty) ∧
    ((after .acquire s).session 1).queue = [{ seq := 0, notice := .recall { slot := 0, gen := 0 }, sent := false }] ∧
    ((after .acquire s).session 0).outstanding = [(7, .parked)] ∧
    (after .acquire s).tab.waitList 0 = [0] := by
  have hs := sound_acquired sound_tab0 1 1 (ext 0 100 .exclusive)
  exact ⟨takes_asks _ _, hs, may_of hs (by decide +kernel), taken_of hs (by decide +kernel), by decide +kernel⟩

theorem test_meets_ExhaustedGrantFreezesVolume :
    let a := { ext 0 10 .exclusive with volume := 3 }
    let s := asks (.acquire a) base
    let u := asks (.convert (conv 0 .exclusive)) (on heldE)
    s.takesFor 0 0 { tag := 7, body := .acquire a } [] ∧ s.tab.Sound ∧ (s.tab.volume 3).fence = 4294967295 ∧
    s.mayAcquire 0 a 3 0 ∧ s.tab.freeFor (leaseOf 0 3 7 a) ∧
    u.takesFor 0 0 { tag := 7, body := .convert (conv 0 .exclusive) } [] ∧ u.tab.Sound ∧
    (u.tab.volume 3).fence = 4294967295 ∧ (∀ w, (conv 0 .exclusive).waitLimit = some w → 1 ≤ w ∧ w ≤ 60000) ∧
    u.holds 0 (conv 0 .exclusive).handle leaseE plain ∧ u.tab.unblocked { leaseE with mode := .exclusive } ∧
    u.tab.upgradeConflict leaseE = false ∧ (u.tab.volume 3).state = .online ∧
    said 0 (after .acquire s) = some (.conflict, .empty) ∧ ((after .acquire s).tab.volume 3).state = .frozen ∧
    said 0 (after .convert u) = some (.conflict, .empty) ∧ ((after .convert u).tab.volume 3).state = .frozen := by
  refine ⟨takes_asks _ _, sound_tab0, by decide +kernel, may_of sound_tab0 (by decide +kernel),
    free_of sound_tab0 (by decide +kernel), takes_asks _ _, sound_heldE, by decide +kernel, limit_of rfl, ?_,
    unblocked_of sound_heldE (by decide +kernel), by decide +kernel⟩
  unfold State.holds
  decide +kernel

/-! ### CONVERT -/

theorem test_meets_DowngradeAndReleaseWake_downgrade :
    let s := asks (.convert (conv 0 .shared)) (on parkedA)
    let ten := { plain with token := some 6, recallMark := some { deadline := some 110 } }
    s.takesFor 0 0 { tag := 7, body := .convert (conv 0 .shared) } [] ∧ s.tab.Sound ∧
    (∀ w, (conv 0 .shared).waitLimit = some w → 1 ≤ w ∧ w ≤ 60000) ∧ s.holds 0 (conv 0 .shared).handle leaseX ten ∧
    said 0 (after .convert s) = some (.ok, .lease { slot := 0, gen := 0 } .shared none) ∧
    (((after .convert s).tab.body 1).lease?.map (fun l => l.mode)) = some .shared ∧
    (after .convert s).tab.waitList 0 = [] ∧ (after .convert s).tab.indexOf 0 = [0, 1] ∧
    ((after .convert s).session 1).queue.map (fun q => q.notice) = [.granted 2 { slot := 1, gen := 0 } .shared 0 50 10 none] ∧
    ((after .convert s).session 1).cache.map (fun e => (e.tag, e.kind, e.status, e.result)) =
      [(2, .acquire, .ok, .lease { slot := 1, gen := 0 } .shared none)] := by
  refine ⟨takes_asks _ _, sound_parkedA, limit_of rfl, ?_⟩
  unfold State.holds
  decide +kernel

theorem test_meets_UpgradeMade :
    let s := asks (.convert (conv 0 .exclusive)) (on heldS)
    s.takesFor 0 0 { tag := 7, body := .convert (conv 0 .exclusive) } [] ∧ s.tab.Sound ∧
    (∀ w, (conv 0 .exclusive).waitLimit = some w → 1 ≤ w ∧ w ≤ 60000) ∧
    s.tab.unblocked { leaseS with mode := .exclusive } ∧ s.holds 0 (conv 0 .exclusive).handle leaseS tenS ∧
    s.tab.upgradeConflict leaseS = false ∧ (s.tab.volume 0).state = .online ∧ (s.tab.volume 0).fence < 4294967295 ∧
    said 0 (after .convert s) = some (.ok, .lease { slot := 0, gen := 0 } .exclusive (some 6)) := by
  refine ⟨takes_asks _ _, sound_heldS, limit_of rfl, unblocked_of sound_heldS (by decide +kernel), ?_⟩
  unfold State.holds
  decide +kernel

theorem test_meets_UpgradeParked :
    let s := asks (.convert (conv 0 .exclusive)) (on twoS)
    s.takesFor 0 0 { tag := 7, body := .convert (conv 0 .exclusive) } [] ∧ s.tab.Sound ∧
    (∀ w, (conv 0 .exclusive).waitLimit = some w → 1 ≤ w ∧ w ≤ 60000) ∧
    ¬ s.tab.unblocked { leaseS with mode := .exclusive } ∧ s.holds 0 (conv 0 .exclusive).handle leaseS tenS ∧
    s.tab.upgradeConflict leaseS = false ∧ s.tab.lowestFreeEntry = some 0 ∧
    said 0 (after .convert s) = some (.parked, .empty) ∧
    ((after .convert s).session 1).queue.map (fun q => q.notice) = [.recall { slot := 1, gen := 0 }] := by
  refine ⟨takes_asks _ _, sound_twoS, limit_of rfl, blocked_of sound_twoS (by decide +kernel), ?_⟩
  unfold State.holds
  decide +kernel

/-- The answer to a CONVERT of session 0. -/
def convSays (c : ConvertReq) (s : State) : Option (Status × Result) := said 0 (after .convert (asks (.convert c) s))

/-- On a FROZEN volume every upgrade has to wait; `frozenS` holds one lease there. -/
def frozenS : Tables := { heldS with volumes := upd vols 0 (vol .frozen 1000 5) }

/-- Session 1 waits to upgrade its lease over session 0's. -/
def otherUpgrade : Tables := converted twoS 1 3 (conv 1 .exclusive)

theorem test_meets_ConvertRefused :
    let s := asks (.convert (conv 0 .exclusive)) (on twoS)
    s.takesFor 0 0 { tag := 7, body := .convert (conv 0 .exclusive) } [] ∧ s.tab.Sound ∧
    s.holds 0 { slot := 0, gen := 0 } leaseS tenS ∧
    said 0 (after .convert (asks (.malformed .convert) base)) = some (.badRequest, .empty) ∧
    [some 0, some 60001].map (fun w => convSays { conv 0 .shared with waitLimit := w } (on heldX)) =
      List.replicate 2 (some (.badRequest, .empty)) ∧
    convSays (conv 0 .shared) (on heldS) = some (.sameMode, .empty) ∧
    convSays (conv 0 .exclusive) (on heldX) = some (.sameMode, .empty) ∧
    convSays (conv 0 .exclusive) (on parkedU) = some (.busy, .empty) ∧
    convSays (conv 0 .exclusive) (on otherUpgrade) = some (.upgradeConflict, .empty) ∧
    convSays { conv 0 .exclusive with noWait := true } (on twoS) = some (.conflict, .empty) ∧
    convSays { conv 0 .exclusive with noWait := true } (on frozenS) = some (.conflict, .empty) ∧
    convSays (conv 0 .exclusive) (on frozenS) = some (.parked, .empty) := by
  refine ⟨takes_asks _ _, sound_twoS, ?_⟩
  unfold State.holds
  decide +kernel

/-- 512 waits, and an upgrade on a FROZEN volume. -/
theorem test_meets_ConvertRefused_full :
    let s := asks (.convert (conv 0 .exclusive)) (on (crowd 1 512))
    let l := { leaseS with volume := 6, start := 0, count := 1, holdLength := none }
    s.takesFor 0 0 { tag := 7, body := .convert (conv 0 .exclusive) } [] ∧ s.tab.Sound ∧
    (∀ e, e < 512 → lookupKey e s.tab.pool ≠ none) ∧ s.holds 0 { slot := 0, gen := 0 } l plain ∧
    s.tab.upgradeConflict l = false ∧ (s.tab.volume 6).state ≠ .online := by
  refine ⟨takes_asks _ _, sound_crowd 1 512 (by decide) (by decide), ?_, ?_⟩
  · intro e he
    exact crowd_full 1 512 e he
  · unfold State.holds
    decide +kernel

/-! ### Handles, RENEW, RELEASE -/

/-- Slot 4096, slot 4095, a generation that is over, a PENDING slot, and a lease of another session. -/
theorem test_meets_HandleChecked :
    let s := fun h : Handle => asks (.release h) (on parkedA)
    (s { slot := 4096, gen := 0 }).takesFor 0 0 { tag := 7, body := .release { slot := 4096, gen := 0 } } [] ∧
    (s { slot := 4096, gen := 0 }).handleFault 0 { slot := 4096, gen := 0 } .badRequest ∧
    (s { slot := 4095, gen := 0 }).handleFault 0 { slot := 4095, gen := 0 } .staleHandle ∧
    (s { slot := 0, gen := 1 }).handleFault 0 { slot := 0, gen := 1 } .staleHandle ∧
    (s { slot := 1, gen := 0 }).handleFault 0 { slot := 1, gen := 0 } .staleHandle ∧
    (asks (.release { slot := 0, gen := 0 }) (on (acquired tab0 1 1 (ext 0 9 .shared)))).handleFault 0
      { slot := 0, gen := 0 } .notOwner ∧
    [({ slot := 4096, gen := 0 } : Handle), { slot := 4095, gen := 0 }, { slot := 0, gen := 1 },
      { slot := 1, gen := 0 }].map (fun h => said 0 (after .release (s h))) =
      [some (.badRequest, .empty), some (.staleHandle, .empty), some (.staleHandle, .empty),
        some (.staleHandle, .empty)] ∧
    said 0 (after .renew (asks (.renew { slot := 0, gen := 0 } (some 10)) (on (acquired tab0 1 1 (ext 0 9 .shared))))) =
      some (.notOwner, .empty) := by
  refine ⟨takes_asks _ _, .inl ⟨by decide, rfl⟩, .inr (.inl ⟨by decide, ?_, rfl⟩), .inr (.inl ⟨by decide, ?_, rfl⟩),
    .inr (.inl ⟨by decide, ?_, rfl⟩), .inr (.inr ⟨by decide, ⟨{ leaseX with owner := 1, count := 9, mode := .shared },
      plain, by decide +kernel, by decide⟩, rfl⟩), by decide +kernel⟩
  · rintro ⟨l, ten, h⟩
    have : (Slot.body { gen := 0, body := .free }) = .held l ten := congrArg Slot.body h
    cases this
  · rintro ⟨l, ten, h⟩
    exact absurd (congrArg Slot.gen h) (by decide +kernel : ¬ ((parkedA.slots.get 0).gen = 1))
  · rintro ⟨l, ten, h⟩
    have h1 : parkedA.body 1 = .held l ten := congrArg Slot.body h
    rw [test_tables.2.2.2.2.1] at h1
    cases h1

/-- The answer to a RENEW of session 0. -/
def renewSays (h : Handle) (hold : Option Nat) (s : State) : Option (Status × Result) :=
  said 0 (after .renew (asks (.renew h hold) s))

theorem test_meets_RenewSetsDeadline :
    let h : Handle := { slot := 0, gen := 0 }
    let s := asks (.renew h (some 10)) (on heldS)
    s.takesFor 0 0 { tag := 7, body := .renew h (some 10) } [] ∧
    (∀ x, some 10 = some x → 10 ≤ x ∧ x ≤ 3600000) ∧ s.holds 0 h leaseS tenS ∧ leaseS.holdLength = some 10 ∧
    said 0 (after .renew (asks (.malformed .renew) base)) = some (.badRequest, .empty) ∧
    [9, 3600001].map (fun x => renewSays h (some x) (on heldS)) = List.replicate 2 (some (.badRequest, .empty)) ∧
    renewSays h none (on heldX) = some (.notTimed, .empty) ∧
    renewSays { slot := 4096, gen := 0 } none (on heldX) = some (.badRequest, .empty) ∧
    renewSays h none (on heldS) = some (.ok, .renewed h 10 110) ∧
    renewSays h (some 3600000) (on heldS) = some (.ok, .renewed h 3600000 3600100) := by
  refine ⟨takes_asks _ _, by intro x hx; cases hx; decide, ?_⟩
  unfold State.holds
  decide +kernel

/-- The lease with a parked upgrade; the RELEASE's answer comes first, then the upgrade's. -/
theorem test_meets_DowngradeAndReleaseWake_release :
    let h : Handle := { slot := 0, gen := 0 }
    let s := asks (.release h) (on parkedU)
    let t := after .release s
    s.takesFor 0 0 { tag := 7, body := .release h } [] ∧ s.tab.Sound ∧
    s.holds 0 h leaseS { tenS with upgrade := some { tag := 3, waitDeadline := some 105 } } ∧
    said 0 (after .release (asks (.malformed .release) base)) = some (.badRequest, .empty) ∧
    said 0 t = some (.ok, .handle h) ∧ t.tab.slots.get 0 = { gen := 1, body := .free } ∧ t.tab.indexOf 0 = [1] ∧
    t.tab.pool = [] ∧ (t.session 0).cache.map (fun e => (e.tag, e.status)) = [(7, .ok), (3, .cancelled)] ∧
    (t.session 0).queue.map (fun q => q.notice) = [.waitEnded 3 .leaseGone] := by
  refine ⟨takes_asks _ _, sound_parkedU, ?_⟩
  unfold State.holds
  decide +kernel

/-! ### CANCEL, QUERY, LIST -/

/-- Session 0 waits for session 1's lease under tag 2; session 1 waits behind it. -/
def waiting0 : Tables := acquired (acquired tab0 1 1 (ext 0 100 .exclusive)) 0 2 (ext 50 10 .exclusive)

theorem sound_waiting0 : waiting0.Sound := sound_acquired (sound_acquired sound_tab0 _ _ _) _ _ _

def parkedTag (tag : Tag) (s : State) : State :=
  s.setSession 0 { s.session 0 with outstanding := [(tag, .parked), (7, .queued)] }

theorem test_meets_CancelEndsWait :
    let s := parkedTag 2 (asks (.cancel 2) (on waiting0))
    let u := parkedTag 3 (asks (.cancel 3) (on parkedU))
    s.takesFor 0 0 { tag := 7, body := .cancel 2 } [] ∧ s.tab.Sound ∧ u.tab.Sound ∧
    (s.session 0).tagMark 2 = some .parked ∧ s.tab.findWait 0 2 = some 0 ∧
    lookupKey 0 s.tab.pool = some { kind := .acquire, slot := 1, volume := 0, arrival := 1 } ∧
    (u.session 0).tagMark 3 = some .parked ∧ u.tab.findWait 0 3 = some 0 ∧
    lookupKey 0 u.tab.pool = some { kind := .upgrade, slot := 0, volume := 0, arrival := 1 } ∧
    said 0 (after .cancel s) = some (.cancelled, .waitEnd .cancelled) ∧
    (after .cancel s).tab.slots.get 1 = { gen := 1, body := .free } ∧
    ((after .cancel s).session 0).outstanding = [] ∧
    ((after .cancel s).session 0).cache.map (fun e => e.tag) = [7, 2] ∧
    said 0 (after .cancel u) = some (.cancelled, .waitEnd .cancelled) ∧
    (after .cancel u).tab.body 0 = .held leaseS tenS := by
  refine ⟨⟨⟨⟨rfl, by decide +kernel⟩, rfl⟩, rfl, rfl⟩, sound_waiting0, sound_parkedU, by decide +kernel⟩

theorem test_meets_CancelTooLate :
    let s := fun k st => (asks (.cancel 2) base).setSession 0 { (asks (.cancel 2) base).session 0 with
      cache := [{ tag := 2, kind := k, status := st, result := .empty }] }
    (asks (.cancel 2) base).takesFor 0 0 { tag := 7, body := .cancel 2 } [] ∧
    ((asks (.cancel 2) base).session 0).tagMark 2 ≠ some .parked ∧
    ((s .acquire .ok).session 0).cached 2 = some { tag := 2, kind := .acquire, status := .ok, result := .empty } ∧
    said 0 (after .cancel (asks (.malformed .cancel) base)) = some (.badRequest, .empty) ∧
    said 0 (after .cancel (s .acquire .ok)) = some (.tooLate, .empty) ∧
    said 0 (after .cancel (s .convert .ok)) = some (.tooLate, .empty) ∧
    said 0 (after .cancel (s .acquire .cancelled)) = some (.notParked, .empty) ∧
    said 0 (after .cancel (s .release .ok)) = some (.notParked, .empty) ∧
    said 0 (after .cancel (asks (.cancel 2) base)) = some (.notParked, .empty) :=
  ⟨takes_asks _ _, by decide +kernel⟩

/-- The answer to a QUERY, and to a LIST, of session 0. -/
def querySays (volume start count : Nat) (s : State) : Option (Status × Result) :=
  said 0 (after .query (asks (.query volume start count) s))
def listSays (cursor : Nat) (s : State) : Option (Status × Result) := said 0 (after .list (asks (.list cursor) s))

/-- Nine leases of session 0 on single blocks. -/
def nine : Tables := (List.range 9).foldl (fun t k => acquired t 0 (BitVec.ofNat 16 k) (ext k 1 .shared)) tab0

theorem sound_nine : nine.Sound :=
  foldl_keeps Tables.Sound _ (fun _ _ h => sound_acquired h _ _ _) _ _ sound_tab0

theorem test_meets_QueryReports :
    let s := asks (.query 0 0 1000) (on nine)
    let e := fun k : Nat => ({ holder := 1, mode := .shared, start := k, count := 1 } : QueryEntry)
    s.takesFor 0 0 { tag := 7, body := .query 0 0 1000 } [] ∧ s.tab.Sound ∧
    said 0 (after .query (asks (.malformed .query) base)) = some (.badRequest, .empty) ∧
    querySays 0 0 0 (on nine) = some (.badRequest, .empty) ∧ querySays 2 0 1 (on nine) = some (.badVolume, .empty) ∧
    querySays 32 0 1 (on nine) = some (.badVolume, .empty) ∧ querySays 0 1 1000 (on nine) = some (.badRange, .empty) ∧
    querySays 0 0 1000 (on nine) = some (.ok, .leases ((List.range 8).map e) true) ∧
    querySays 0 0 8 (on nine) = some (.ok, .leases ((List.range 8).map e) false) ∧
    querySays 0 8 1 (on nine) = some (.ok, .leases [e 8] false) ∧
    querySays 0 9 1 (on nine) = some (.ok, .leases [] false) :=
  ⟨takes_asks _ _, sound_nine, by decide +kernel⟩

theorem test_meets_ListReports :
    let s := asks (.list 0) (on nine)
    let e := fun k : Nat => (k, nine.slots.get k)
    s.takesFor 0 0 { tag := 7, body := .list 0 } [] ∧ s.tab.Sound ∧
    said 0 (after .list (asks (.malformed .list) base)) = some (.badRequest, .empty) ∧
    listSays 4096 (on nine) = some (.badRequest, .empty) ∧ listSays 4095 (on nine) = some (.ok, .slots [] none) ∧
    listSays 0 (on nine) = some (.ok, .slots ((List.range 8).map e) (some 8)) ∧
    listSays 8 (on nine) = some (.ok, .slots [e 8] none) :=
  ⟨takes_asks _ _, sound_nine, by decide +kernel⟩

/-- Each kind of request from an unbound port, and from a CLOSING session. -/
theorem test_meets_RequestNeedsActiveSession :
    let h : Handle := { slot := 0, gen := 0 }
    let cs := [(Instr.acquire, ReqBody.acquire (ext 0 1 .shared)), (.convert, .convert (conv 0 .shared)),
      (.renew, .renew h none), (.release, .release h), (.cancel, .cancel 1), (.query, .query 0 0 1), (.list, .list 0),
      (.depart, .depart)]
    (asksAt 2 .depart base).takesRequest 2 { tag := 7, body := .depart } [] ∧
    (asksAt 2 .depart base).boundSession 2 = none ∧ ReqBody.depart.kind? = some .depart ∧
    cs.map (fun c => said 2 (after c.1 (asksAt 2 c.2 base))) = List.replicate 8 (some (.noSession, .empty)) ∧
    cs.map (fun c => said 0 (after c.1 { purges .depart 0 (asks c.2 base) with purgeQueue := [] })) =
      List.replicate 8 (some (.busy, .empty)) :=
  ⟨takes_unbound _ _, by decide +kernel⟩

theorem test_meets_DepartAndCloseSessionClose_depart :
    let s := asks .depart (on waiting0)
    let t := after .depart s
    s.takesFor 0 0 { tag := 7, body := .depart } [] ∧ s.tab.Sound ∧ s.tab.waitsOf 0 = [0] ∧
    said 0 (after .depart (asks (.malformed .depart) base)) = some (.badRequest, .empty) ∧
    said 0 t = none ∧ (t.port 0).answers = [] ∧ (t.session 0).state = .closing ∧ (t.session 0).port = some 0 ∧
    (t.session 0).closeKind = some .depart ∧ (t.session 0).outstanding = [(7, .parked)] ∧ t.purgeQueue = [0] ∧
    t.tab.pool = [] ∧ t.tab.slots.get 1 = { gen := 1, body := .free } :=
  ⟨takes_asks _ _, sound_waiting0, by decide +kernel⟩

/-! ### Clock, timers, sweep -/

/-- The slip count stops at 65535; a silence of 0 becomes 1, and 1 stays; timers at their deadline expire, once. -/
theorem test_meets_ClockAndSweepTimer :
    base.resetN = true ∧ (after .sweepTimerExpiry base).clock = 101 ∧ (after .sweepTimerExpiry base).visitPending = true ∧
    (after .sweepTimerExpiry base).slips = 0 ∧
    [65534, 65535].map (fun n => (after .sweepTimerExpiry { base with visitPending := true, slips := n }).slips) =
      [65535, 65535] ∧
    ((after .sweepTimerExpiry base).port 0).silence = 1 ∧
    ((after .sweepTimerExpiry (after .sweepTimerExpiry base)).port 0).silence = 1 ∧
    (after .sweepTimerExpiry { base with clock := 4294967295 }).clock = 0 ∧
    (let s := (base.setSession 1 { base.session 1 with term := .running 101 }).setSession 2
       { base.session 2 with grace := .running 101 }
     let t := after .sweepTimerExpiry s
     (t.session 0).term = .running 1000 ∧ (t.session 1).term = .expired 101 ∧ (t.session 2).grace = .expired 101 ∧
      t.timersQueue = [loss .loss 1 2 none, loss .grace 2 3 none] ∧
      (after .sweepTimerExpiry t).timersQueue = t.timersQueue ∧
      after (.termTimerExpiry 1) t = t ∧ (after .sweepTimerExpiry { s with clock := 99 }).timersQueue = []) := by
  decide +kernel

/-- The deadline is now, one tick ahead, 2^31 - 1 ticks ago, and 2^31 ticks ago. -/
theorem test_meets_SessionTimersExpire :
    let s := fun d : Time => base.setSession 0 { base.session 0 with term := .running d }
    let g := fun d : Time => base.setSession 2 { base.session 2 with grace := .running d }
    ((s 100).session 0).term = .running 100 ∧ ((g 100).session 2).grace = .running 100 ∧
    [(100 : Time), 101, 100 - 2147483647, 100 - 2147483648].map
      (fun d => ((after (.termTimerExpiry 0) (s d)).timersQueue.length,
        (after (.graceTimerExpiry 2) (g d)).timersQueue.length)) = [(1, 1), (0, 0), (1, 1), (0, 0)] ∧
    ((after (.termTimerExpiry 0) (s 100)).session 0).term = .expired 100 ∧
    ((after (.graceTimerExpiry 2) (g 100)).session 2).grace = .expired 100 ∧
    (after (.termTimerExpiry 0) { s 100 with timersQueue := [loss .loss 0 9 none, loss .grace 2 3 none] }).timersQueue =
      [loss .loss 0 1 none, loss .grace 2 3 none] := by decide +kernel

/-- A visit is due, at clock `now`. -/
def visit (now : Time) (t : Tables) : State := { on t with visitPending := true, lastServed := 5, clock := now }

theorem serves_visit (now : Time) (t : Tables) : (visit now t).serves 6 := ⟨rfl, by with_unfolding_all rfl⟩

/-- At the wait limit, the hold, and the recall limit: a tick before each, and at each; and a recall for an upgrade alone. Slots of a FROZEN volume are
left alone. -/
theorem test_meets_SweepVisitActs :
    (visit 105 parkedA).serves 6 ∧ (visit 105 parkedA).tab.Sound ∧
    (after .sweepVisit (visit 104 parkedA)).tab = parkedA ∧
    (after .sweepVisit (visit 105 parkedA)).tab.pool = [] ∧
    (after .sweepVisit (visit 105 parkedA)).tab.body 0 = parkedA.body 0 ∧
    (after .sweepVisit (visit 110 (after .sweepVisit (visit 105 parkedA)).tab)).tab.body 0 =
      .held leaseX { plain with token := some 6 } ∧
    ((after .sweepVisit (visit 105 parkedA)).session 1).queue.map (fun q => q.notice) = [.waitEnded 2 .timedOut] ∧
    (after .sweepVisit (visit 109 heldS)).tab = heldS ∧
    (after .sweepVisit (visit 110 heldS)).tab.body 0 = .free ∧
    (after .sweepVisit (visit 110 heldS)).alerts = [{ kind := .leaseExpired, source := .session 0, repeats := 0 }] ∧
    (after .sweepVisit { visit 110 heldS with sweepPtr := 1 }).tab = heldS ∧
    (after .sweepVisit (visit 110 { heldS with volumes := upd vols 0 (vol .frozen 1000 5) })).tab.body 0 =
      .held leaseS tenS ∧
    (let wait := acquired heldX 1 2 (ext 50 10 .shared)
     (after .sweepVisit (visit 109 wait)).tab = wait ∧
      (after .sweepVisit (visit 110 wait)).tab.body 0 = .free ∧
      ((after .sweepVisit (visit 110 wait)).session 0).queue.map (fun q => q.notice) =
        [.revoked { slot := 0, gen := 0 } .recallLimit] ∧
      (after .sweepVisit (visit 110 wait)).tab.indexOf 0 = [1]) ∧
    (let shared := acquired (acquired tab0 0 1 (ext 0 100 .shared)) 1 2 (ext 50 100 .shared)
     let up := converted shared 0 3 { conv 0 .exclusive with waitLimit := none }
     (after .sweepVisit (visit 109 up)).tab = up ∧ (after .sweepVisit (visit 110 up)).tab.body 1 = .free ∧
      ((after .sweepVisit (visit 110 up)).tab.body 0).lease?.map (fun l => l.mode) = some .exclusive ∧
      ((after .sweepVisit (visit 110 up)).session 1).queue.map (fun q => q.notice) =
        [.revoked { slot := 1, gen := 0 } .recallLimit]) ∧
    (after .sweepVisit { visit 100 heldS with sweepPtr := 15 }).sweepPtr = 0 ∧
    (after .sweepVisit base) = base :=
  ⟨serves_visit _ _, sound_parkedA, by decide +kernel⟩

/-- A recall leaves the upgrade of the recalled lease waiting until its revocation, which ends it with LEASE_GONE first; the
judgment of slot 1 in the same visit finds it gone and clears the mark (R38, R55, R68, R110). -/
theorem test_recalledUpgrade_leaseGone :
    let shared := acquired (acquired tab0 0 1 (ext 0 100 .shared)) 1 2 (ext 50 100 .shared)
    let up := converted shared 0 3 { conv 0 .exclusive with waitLimit := none }
    let recalled := acquired up 1 4 (ext 0 40 .exclusive)
    let t := after .sweepVisit (visit 110 recalled)
    recalled.body 0 = .held { leaseX with mode := .shared } { plain with
      upgrade := some { tag := 3, waitDeadline := none }, recallMark := some { deadline := some 110 } } ∧
    (t.session 0).queue.map (fun q => q.notice) =
      [.waitEnded 3 .leaseGone, .revoked { slot := 0, gen := 0 } .recallLimit] ∧
    (t.tab.body 1).lease?.map (fun l => l.mode) = some .shared ∧ t.tab.body 0 = .free ∧ t.tab.pool = [] := by decide +kernel

/-- Session 0 has this term timer, and a loss claim for its number waits. -/
def losing (tm : SessionTimer) (number : Nat) (t : Tables) : State :=
  claims (loss .loss 0 number none) ((on t).setSession 0 { (on t).session 0 with term := tm })

/-- A record that changes neither port, name nor number keeps the law. -/
theorem law_set {s : State} (h : SessionLaw s.sessions s.nextNumber) (k : SessionId) (x : Session)
    (hx : x.port = (s.session k).port ∧ (s.session k).state ≠ .free ∧ x.name = (s.session k).name ∧
      x.number = (s.session k).number) : SessionLaw (upd s.sessions k x) s.nextNumber := by
  obtain ⟨h0, h1, h2, h3, h4⟩ := h
  have hf : ∀ i : SessionId, (upd s.sessions k x)[i].port = s.sessions[i].port ∧
      ((upd s.sessions k x)[i].state ≠ .free → s.sessions[i].state ≠ .free) ∧
      (upd s.sessions k x)[i].name = s.sessions[i].name ∧ (upd s.sessions k x)[i].number = s.sessions[i].number := by
    intro i
    rw [upd_get]
    by_cases e : k = i
    · subst e; rw [if_pos rfl]; exact ⟨hx.1, fun _ => hx.2.1, hx.2.2⟩
    · rw [if_neg e]; exact ⟨rfl, id, rfl, rfl⟩
  refine ⟨h0, ?_, ?_, ?_, ?_⟩
  · intro i j; rw [(hf i).1, (hf j).1]; exact h1 i j
  · intro i j a b; rw [(hf i).2.2.1, (hf j).2.2.1]; exact h2 i j ((hf i).2.1 a) ((hf j).2.1 b)
  · intro i j a b; rw [(hf i).2.2.2, (hf j).2.2.2]; exact h3 i j ((hf i).2.1 a) ((hf j).2.1 b)
  · intro i a; rw [(hf i).2.2.2]; exact h4 i ((hf i).2.1 a)

theorem law_term (tm : SessionTimer) (t : Tables) : SessionLaw (losing tm 1 t).sessions (losing tm 1 t).nextNumber :=
  law_set (law_on t) 0 _ ⟨rfl, (by decide : SessionState.active ≠ .free), rfl, rfl⟩

theorem test_meets_LossAndLinkLostOrphan_loss :
    let s := losing (.expired 100) 1 waiting0
    let t := after .lossClaim s
    s.takesTimer (loss .loss 0 1 none) [] ∧ s.tab.Sound ∧ SessionLaw s.sessions s.nextNumber ∧ s.configLaw ∧
    (s.session 0).state = .active ∧ (s.session 0).number = 1 ∧ (s.session 0).term = .expired 100 ∧
    (s.clock - 100).toNat < 2147483648 ∧ (s.session 0).port = some 0 ∧
    (t.session 0).state = .orphaned ∧ (t.session 0).grace = .running 5100 ∧ t.tab.pool = [] ∧
    t.alerts = [{ kind := .sessionOrphaned, source := .session 0, repeats := 0 }] ∧ t.alertN = false ∧
    ((after .lossClaim (losing (.running 101) 1 waiting0)).session 0).state = .active ∧
    ((after .lossClaim (losing (.running 100) 2 waiting0)).session 0).state = .active ∧
    ((after .lossClaim (losing (.running 100) 1 waiting0)).session 0).state = .orphaned ∧
    (let z := { s with config := upd s.config 0 { s.cfg 0 with orphanGrace := 0 } }
     ((after .lossClaim z).session 0).grace = .expired 100 ∧ (after .lossClaim z).timersQueue = [loss .grace 0 1 none]) :=
  ⟨takes_claims _ _ _ _, sound_waiting0, law_term _ _, config_on waiting0, by decide +kernel⟩

/-- The term deadline does not matter; a departing session is unbound; other claims are voided. A claim that waits from
port 3 serves the loss of port 0 too. A DEPART in the inbox of the port that is unbound stays and is answered
NO_SESSION, and a JOIN makes a new session. -/
theorem test_meets_LossAndLinkLostOrphan_linkLost :
    let c := loss .linkLost 0 1 (some 0)
    let s := claims c (losing (.running 5000) 1 waiting0)
    let d := claims c ((on waiting0).setSession 0 { (on waiting0).session 0 with
      state := .closing, closeKind := some .depart })
    s.takesTimer c [] ∧ s.tab.Sound ∧ SessionLaw s.sessions s.nextNumber ∧ s.configLaw ∧
    (s.session 0).number = c.number ∧ (s.session 0).port = some 0 ∧ c.ports = [0] ∧ (s.session 0).state = .active ∧
    (d.session 0).state = .closing ∧ (d.session 0).closeKind = some .depart ∧ (d.session 0).port = some 0 ∧
    ((after .linkLostClaim s).session 0).state = .orphaned ∧ ((after .linkLostClaim d).session 0).port = none ∧
    ((after .linkLostClaim d).session 0).state = .closing ∧
    ((after .linkLostClaim (claims (loss .linkLost 0 2 (some 0)) base)).session 0).state = .active ∧
    ((after .linkLostClaim (claims (loss .linkLost 0 1 (some 1)) base)).session 0).state = .active ∧
    after .linkLostClaim (claims (loss .linkLost 2 3 (some 3)) base) = { base with lastServed := 7 } ∧
    after .linkLostClaim (claims (loss .linkLost 5 3 (some 3)) base) = { base with lastServed := 7 } ∧
    (let again := after (.linkSilenceTimeout 0) (claims (loss .linkLost 0 1 (some 3)) base)
     again.timersQueue = [{ kind := .linkLost, session := 0, number := 1, ports := [3, 0] }] ∧
      ((after .linkLostClaim again).session 0).state = .orphaned) ∧
    (let left := after .linkLostClaim { asksAt 0 .depart d with lastServed := 6 }
     (left.port 0).inbox = [{ tag := 7, body := .depart }] ∧
      (left.session 0).port = none ∧ said 0 (after .depart left) = some (.noSession, .empty)) ∧
    said 0 (after .join (after .linkLostClaim { asksAt 0 (.join 4 1 none) d with lastServed := 6 })) =
      some (.ok, .joined 4 1 1024) :=
  ⟨takes_claims _ _ _ _, sound_waiting0, law_term _ _, config_on waiting0, by decide +kernel⟩

/-- Session 2's grace timer. -/
def graced (tm : SessionTimer) (number : Nat) : State :=
  claims (loss .grace 2 number none) (base.setSession 2 { base.session 2 with grace := tm })

theorem test_meets_GraceClaimCloses :
    (graced (.expired 100) 3).takesTimer (loss .grace 2 3 none) [] ∧
    ((graced (.expired 100) 3).session 2).state = .orphaned ∧
    ((graced (.expired 100) 3).session 2).grace = .expired 100 ∧
    ((after .graceClaim (graced (.expired 100) 3)).session 2).state = .closing ∧
    (after .graceClaim (graced (.running 100) 3)).purgeQueue = [2] ∧
    (after .graceClaim (graced (.running 101) 3)).purgeQueue = [] ∧
    (after .graceClaim (graced (.running 100) 2)).purgeQueue = [] ∧
    (after .graceClaim (claims (loss .grace 0 1 none) base)).purgeQueue = [] :=
  ⟨takes_claims _ _ _ _, by decide +kernel⟩

/-! ### The purge job -/

/-- Session 0's lease stands in section 0; the section before the last, and the last. -/
def purging (kind : CloseKind) (k : Nat) (t : Tables) : State := { purges kind k (on t) with lastServed := 7 }

theorem serves_purge (kind : CloseKind) (k : Nat) (t : Tables) : (purging kind k t).serves 8 :=
  ⟨rfl, by with_unfolding_all rfl⟩

theorem test_meets_PurgeRetiresAndEnds_section :
    let s := purging .depart 0 heldX
    s.serves 8 ∧ s.purgeQueue = [0] ∧ s.tab.Sound ∧
    (after .purgeSection s).tab.slots.get 0 = { gen := 1, body := .free } ∧ (after .purgeSection s).purgeSection = 1 ∧
    ((after .purgeSection s).session 0).queue = [] ∧ (after .purgeSection s).alerts = [] ∧
    (after .purgeSection (purging .depart 1 heldX)).tab = heldX ∧
    (after .purgeSection (purging .depart 14 heldX)).purgeSection = 15 :=
  ⟨serves_purge _ _ _, rfl, sound_heldX, by decide +kernel⟩

theorem law_purge (kind : CloseKind) (k : Nat) (t : Tables) :
    SessionLaw (purging kind k t).sessions (purging kind k t).nextNumber :=
  law_set (law_on t) 0 _ ⟨rfl, (by decide : SessionState.active ≠ .free), rfl, rfl⟩

/-- A departing session, a purged one, and a departing one that has lost its port. -/
theorem test_meets_PurgeRetiresAndEnds_end :
    let s := purging .depart 15 heldX
    let u := purging .purge 15 heldX
    s.serves 8 ∧ s.tab.Sound ∧ SessionLaw s.sessions s.nextNumber ∧ s.purgeQueue = [0] ∧ s.purgeSection = 15 ∧
    (s.session 0).closeKind = some .depart ∧ (s.session 0).port = some 0 ∧
    (s.session 0).outstanding.filter (fun y => y.2 = .parked) = [(9, .parked)] ∧ (u.session 0).closeKind ≠ some .depart ∧
    said 0 (after .purgeSection s) = some (.ok, .empty) ∧ (after .purgeSection s).session 0 = Session.freed ∧
    (after .purgeSection s).purgeQueue = [] ∧ (after .purgeSection s).alerts = [] ∧
    said 0 (after .purgeSection u) = none ∧
    (after .purgeSection u).alerts = [{ kind := .sessionClosed, source := .session 0, repeats := 0 }] ∧
    (after .purgeSection (s.setSession 0 { s.session 0 with port := none })).session 0 = Session.freed ∧
    (after .purgeSection { s with purgeQueue := [0, 2] }).purgeQueue = [2] :=
  ⟨serves_purge _ _ _, sound_heldX, law_purge _ _ _, by decide +kernel⟩

/-! ### Commands -/

/-- The status after a command on a state. -/
def does (i : Instr) (c : Command) (s : State) : CmdStatus := (after i (orders c s)).cmdStatus

/-- Volume 2 gets its largest size, OFFLINE volume 2 goes ONLINE, volume 0 freezes, and volume 0 goes OFFLINE. -/
theorem test_meets_VolumeCommandsDone :
    (orders (cmd 0x05 0 0 0) base).takesCommand (cmd 0x05 0 0 0) ∧ base.tab.Sound ∧
    (∀ n l, (base.tab.body n).lease? = some l → l.volume ≠ 0) ∧
    does .define (cmd 0x01 2 0 1099511627776) base = .done ∧
    ((after .define (orders (cmd 0x01 2 0 1099511627776) base)).tab.volume 2).size = 1099511627776 ∧
    ((after .online (orders (cmd 0x02 2 0 0) base)).tab.volume 2).state = .online ∧
    ((after .freeze (orders (cmd 0x03 0 0 0) base)).tab.volume 0).state = .frozen ∧
    ((after .offline (orders (cmd 0x05 0 0 0) base)).tab.volume 0).state = .offline ∧
    does .offline (cmd 0x05 31 0 0) base = .done :=
  ⟨takes_orders _ _, sound_tab0, (fun n l h => by
    have hb : (base.tab.body n).lease? = none := rfl
    rw [hb] at h; cases h), by decide +kernel⟩

/-- Session 1's upgrade of its only lease waits while the volume is FROZEN; THAW grants it. -/
def frozenU : Tables :=
  converted { acquired tab0 1 1 (ext 0 9 .shared) with volumes := upd vols 0 (vol .frozen 1000 5) } 1 3
    (conv 0 .exclusive)

theorem test_meets_ThawAndRevokeWake_thaw :
    (orders (cmd 0x04 1 0 0) base).takesCommand (cmd 0x04 1 0 0) ∧ base.tab.Sound ∧
    (base.tab.volume 1).state = .frozen ∧ (base.tab.volume 1).fence < 4294967295 ∧
    ((after .thaw (orders (cmd 0x04 1 0 0) base)).tab.volume 1).state = .online ∧
    frozenU.waitList 0 = [0] ∧
    ((after .thaw (orders (cmd 0x04 0 0 0) (on frozenU))).tab.body 0).lease?.map (fun l => l.mode) = some .exclusive ∧
    ((after .thaw (orders (cmd 0x04 0 0 0) (on frozenU))).session 1).queue.map (fun q => q.notice) =
      [.granted 3 { slot := 0, gen := 0 } .exclusive 0 0 9 (some 6)] :=
  ⟨takes_orders _ _, sound_tab0, by decide +kernel⟩

theorem test_meets_OfflineForceClears :
    let s := orders (cmd 0x06 0 0 0) (on parkedA)
    let t := after .offlineForce s
    s.takesCommand (cmd 0x06 0 0 0) ∧ s.tab.Sound ∧ t.tab.body 0 = .free ∧ t.tab.body 1 = .free ∧
    t.tab.indexOf 0 = [] ∧ t.tab.waitList 0 = [] ∧ (t.tab.volume 0).state = .offline ∧ t.cmdStatus = .done ∧
    (t.session 0).queue.map (fun q => q.notice) = [.revoked { slot := 0, gen := 0 } .volumeOffline] ∧
    (t.session 1).queue.map (fun q => q.notice) = [.waitEnded 2 .volumeOffline] ∧
    (after .offlineForce (orders (cmd 0x06 2 0 0) base)).tab = tab0 :=
  ⟨takes_orders _ _, sound_parkedA, by decide +kernel⟩

/-- Each refusal, with arguments at the edge of the range. -/
theorem test_meets_CommandsRefused :
    (orders (cmd 0x05 0 0 0) (on heldX)).takesCommand (cmd 0x05 0 0 0) ∧ heldX.Sound ∧
    [does .define (cmd 0x01 32 0 0) base, does .online (cmd 0x02 32 0 0) base, does .freeze (cmd 0x03 32 0 0) base,
      does .thaw (cmd 0x04 65535 0 0) base, does .offline (cmd 0x05 32 0 0) base,
      does .offlineForce (cmd 0x06 32 0 0) base, does .define (cmd 0x01 2 0 1099511627777) base,
      does .revoke (cmd 0x07 4096 0 0) base, does .closeSession (cmd 0x08 12 0 0) base,
      does .portReset (cmd 0x09 6 0 0) base] = List.replicate 10 (.refused .badArgument) ∧
    [does .define (cmd 0x01 0 0 5) base, does .online (cmd 0x02 0 0 0) base, does .freeze (cmd 0x03 1 0 0) base,
      does .freeze (cmd 0x03 2 0 0) base, does .thaw (cmd 0x04 0 0 0) base, does .thaw (cmd 0x04 2 0 0) base,
      does .closeSession (cmd 0x08 11 0 0) base, does .closeSession (cmd 0x08 0 0 0) { purges .depart 0 base with purgeQueue := [] }] =
      List.replicate 8 (.refused .badState) ∧
    does .online (cmd 0x02 31 0 0) base = .refused .noSize ∧
    does .online (cmd 0x02 4 0 0) base = .refused .exhausted ∧
    does .thaw (cmd 0x04 5 0 0) base = .refused .exhausted ∧
    does .offline (cmd 0x05 0 0 0) (on heldX) = .refused .slotsPresent ∧
    does .revoke (cmd 0x07 1 0 0) (on parkedA) = .refused .notHeld ∧
    does .revoke (cmd 0x07 4095 0 0) (on parkedA) = .refused .notHeld ∧
    [0x00, 0x0C, 0xFF].map (fun code => does .badCommand (cmd code 0 0 0) base) =
      List.replicate 3 (.refused .badCommand) :=
  ⟨takes_orders _ _, sound_heldX, by decide +kernel⟩

/-- The slot with a parked upgrade, and the PENDING slot behind the lease that is revoked. -/
theorem test_meets_ThawAndRevokeWake_revoke :
    let s := orders (cmd 0x07 0 0 0) (on parkedU)
    let t := after .revoke s
    let u := after .revoke (orders (cmd 0x07 0 0 0) (on parkedA))
    s.takesCommand (cmd 0x07 0 0 0) ∧ s.tab.Sound ∧
    s.tab.body 0 = .held leaseS { tenS with upgrade := some { tag := 3, waitDeadline := some 105 } } ∧
    t.tab.body 0 = .free ∧ t.alerts = [{ kind := .leaseRevoked, source := .session 0, repeats := 0 }] ∧
    (t.session 0).queue.map (fun q => q.notice) =
      [.waitEnded 3 .leaseGone, .revoked { slot := 0, gen := 0 } .maintenance] ∧
    u.tab.indexOf 0 = [1] ∧ u.cmdStatus = .done :=
  ⟨takes_orders _ _, sound_parkedU, by decide +kernel⟩

theorem test_meets_DepartAndCloseSessionClose_command :
    let s := orders (cmd 0x08 0 0 0) (on waiting0)
    let t := after .closeSession s
    let u := after .closeSession (orders (cmd 0x08 2 0 0) base)
    s.takesCommand (cmd 0x08 0 0 0) ∧ s.tab.Sound ∧ SessionLaw s.sessions s.nextNumber ∧ (s.session 0).port = some 0 ∧
    (base.session 2).state = .orphaned ∧ (base.session 2).port = none ∧
    (t.session 0).state = .closing ∧ (t.session 0).port = none ∧ t.tab.pool = [] ∧ t.purgeQueue = [0] ∧
    (u.session 2).closeKind = some .purge ∧ u.cmdStatus = .done :=
  ⟨takes_orders _ _, sound_waiting0, law_on waiting0, by decide +kernel⟩

/-- Port 0 is bound and port 5 is not; a port that is DOWN begins to train if it may. -/
theorem test_meets_PortResetDropsLink :
    let t := after .portReset (orders (cmd 0x09 0 0 0) busy)
    let d := (orders (cmd 0x09 5 0 0) base).setPort 5 { Port.reset with badFrames := 9, errorRun := 3 }
    (orders (cmd 0x09 0 0 0) base).takesCommand (cmd 0x09 0 0 0) ∧ d.takesCommand (cmd 0x09 5 0 0) ∧
    (t.port 0).link = .training ∧ t.timersQueue = [loss .linkLost 0 1 (some 0)] ∧
    t.alerts = [{ kind := .linkDown, source := .port 0, repeats := 0 }] ∧
    (after .portReset (orders (cmd 0x09 5 0 0) base)).timersQueue = [] ∧
    ((after .portReset d).port 5) = { Port.reset with link := .training } ∧ (after .portReset d).alerts = [] :=
  ⟨takes_orders _ _, ⟨⟨rfl, by with_unfolding_all rfl⟩, rfl⟩, by decide +kernel⟩

/-- SET-CONFIG of target `p`, item `k`, with each value. -/
def sets (p : BitVec 16) (k : Byte) (vs : List (BitVec 48)) (s : State) : List Bool :=
  vs.map (fun v => decide (does .setConfig (cmd 0x0B p k v) s = .done))

/-- Below, at, at and above the ends of each range; the targets and items that do not exist; the bytes above the item's own;
the enable item. -/
theorem test_meets_SetConfigStores :
    (orders (cmd 0x0B 0 1 32) base).takesCommand (cmd 0x0B 0 1 32) ∧
    sets 0 0 [0, 1, 2] base = [true, true, false] ∧ sets 5 1 [0, 1, 32, 33] base = [false, true, true, false] ∧
    sets 0 2 [0, 1, 4096, 4097] base = [false, true, true, false] ∧
    sets 0 3 [9, 10, 60000, 60001] base = [false, true, true, false] ∧
    sets 0 4 [0, 30000, 30001] base = [true, true, false] ∧ sets 0 5 [1] base = [false] ∧
    sets 6 0 [0, 1, 9, 10, 60000, 60001] base = [true, false, false, true, true, false] ∧
    sets 6 1 [0, 1, 4096, 4097] base = [false, true, true, false] ∧ sets 6 2 [1] base = [false] ∧
    sets 7 0 [0] base = [false] ∧
    sets 0 1 [0x010000000008, 0x0120, 0x0121] base = [true, true, false] ∧
    sets 0 2 [0xFFFFFFFF1000, 0x10000, 0xFFFF1001] base = [true, false, false] ∧
    sets 0 0 [0xFF00, 0xFF02] base = [true, false] ∧ sets 6 0 [0x10000, 0x10009] base = [true, false] ∧
    ((after .setConfig (orders (cmd 0x0B 0 1 0x010000000008) base)).cfg 0).windowMax = 8 ∧
    ((after .setConfig (orders (cmd 0x0B 5 1 32) base)).cfg 5).windowMax = 32 ∧
    (after .setConfig (orders (cmd 0x0B 6 0 10) base)).recallLimit = 10 ∧
    (let off := after .setConfig (orders (cmd 0x0B 0 0 0) base)
     (off.port 0).link = .down ∧ off.timersQueue = [loss .linkLost 0 1 (some 0)] ∧ off.alertN = false ∧
      (off.cfg 0).enable = false ∧
      ((after .setConfig (orders (cmd 0x0B 0 0 1) { off with timersQueue := [] })).port 0).link = .training) :=
  ⟨takes_orders _ _, by decide +kernel⟩

theorem test_meets_TableClearClears :
    let s := orders (cmd 0x0A 0 0 0) (on parkedA)
    let t := after .tableClear s
    s.takesCommand (cmd 0x0A 0 0 0) ∧ s.tab.Sound ∧
    t.tab.slots = { freeGen := 1, entries := [] } ∧ t.tab.volumes = parkedA.volumes ∧ t.clock = 0 ∧ t.nextNumber = 4 ∧
    t.session 0 = Session.freed ∧ (t.port 0).link = .training ∧ t.gate.link = .training ∧ t.alerts = [] ∧
    (let r := on { heldX with slots := heldX.slots.set 0 { gen := 255, body := .free } }
     ((after .tableClear (orders (cmd 0x0A 0 0 0) r)).tab.slots.get 0).gen = 0) :=
  ⟨takes_orders _ _, sound_parkedA, by decide +kernel⟩

/-! ### The Maintenance Port -/

/-- Whole values, short ones, the command code in each device state and status, and items that take no write. -/
theorem test_meets_RegisterWriteTakes :
    (after (.registerWrite 0x58 [1, 2, 3]) base).arg1 = 0x0102 ∧ (after (.registerWrite 0x58 [1]) base).arg1 = 0 ∧
    (after (.registerWrite 0x59 [5]) base).arg2 = 5 ∧
    (after (.registerWrite 0x5A [1, 2, 3, 4, 5, 6]) base).arg3 = 0x010203040506 ∧
    (after (.registerWrite 0x5A [1, 2, 3, 4, 5]) base).arg3 = 0 ∧
    (after (.registerWrite 0x5B [1]) base).waiting = some (cmd 1 0 0 0) ∧
    (after (.registerWrite 0x5B [1]) { base with cmdStatus := .busy }).overrun = true ∧
    (after (.registerWrite 0x5B [1]) starting).cmdStatus = .refused .notReady ∧
    (after (.registerWrite 0x68 [1, 1, 0xFF]) base).window = some (.waitEntry none) ∧
    (after (.registerWrite 0x68 [1, 1]) base).window = none ∧
    after (.registerWrite 0x00 [9]) base = { base with itemPtr := 0 } ∧
    after (.registerWrite 0x5B []) { base with readLatch := [1] } = { base with itemPtr := 0x5B } := by decide +kernel

/-- The alert item with two records, one, and none, in one to three bytes; each kind of record at its last index, and one
above. -/
theorem test_meets_AlertReadAndWindow :
    let two : State := { base with itemPtr := 0x60, alertN := false, alerts :=
      [{ kind := .linkDown, source := .port 5, repeats := 2 }, { kind := .linkDown, source := .device, repeats := 0 }] }
    let one := after (.alertRead ⟨false, 1⟩) two
    let all := after (.alertRead ⟨false, 3⟩) two
    one.readOut = [8] ∧ one.readLatch = [5, 2] ∧ one.alerts.length = 1 ∧ one.itemPtr = 0x60 ∧ one.alertN = false ∧
    all.readOut = [8, 5, 2] ∧ all.itemPtr = 0x61 ∧ all.alerts.length = 1 ∧
    (after (.alertRead ⟨false, 1⟩) one).alertN = true ∧ (after (.alertRead ⟨true, 2⟩) one).readOut = [5, 2] ∧
    (after (.alertRead ⟨false, 3⟩) { base with itemPtr := 0x60 }).readOut = [0, 0, 0] ∧
    [((0 : Byte), (4095 : BitVec 16)), (0, 4096), (1, 511), (1, 512), (2, 11), (2, 12), (3, 31), (3, 32), (4, 0)].map
      (fun x => (after (.recordWindowSelect x.1 x.2) base).window.isSome) =
      [true, false, true, false, true, false, true, false, false] ∧
    (after (.recordWindowSelect 3 0) base).window = some (.volume (vol .online 1000 5)) ∧
    (after (.recordWindowSelect 2 0) (purges .purge 7 base)).window =
      some (.session ((purges .purge 7 base).session 0) 0 (some 0) (some 7)) := by decide +kernel

/-- A counter that moves during its transfer; a transfer over several items, in one part and in two; a number that names no
item; the command code; and the record window. -/
theorem test_meets_ReadTransferGivesItems :
    let at' := fun ptr : Byte => ({ base with itemPtr := ptr } : State)
    let half := after (.alertRead ⟨false, 2⟩) { at' 0x05 with clock := 0x01020304 }
    half.readOut = [1, 2] ∧ half.readLatch = [3, 4] ∧ half.itemPtr = 0x05 ∧
    (after (.alertRead ⟨true, 2⟩) (after .sweepTimerExpiry half)).readOut = [3, 4] ∧
    (after (.alertRead ⟨true, 2⟩) half).itemPtr = 0x06 ∧
    (after (.alertRead ⟨false, 7⟩) (at' 0x05)).readOut = [0, 0, 0, 100, 0, 0, 0] ∧
    (after (.alertRead ⟨true, 3⟩) (after (.alertRead ⟨false, 4⟩) (at' 0x05))).readOut = [0, 0, 0] ∧
    (at' 0x17).itemBytes 0x17 = [] ∧ after (.alertRead ⟨false, 2⟩) (at' 0x17) = { at' 0x17 with readOut := [0, 0] } ∧
    (after (.alertRead ⟨false, 1⟩) (at' 0x5B)).openReads = 1 ∧ (after (.alertRead ⟨false, 1⟩) (at' 0x5B)).itemPtr = 0x5C ∧
    (after (.alertRead ⟨false, 5⟩) (after (.recordWindowSelect 3 0) base)).readOut = [3, 0, 0, 1, 1] ∧
    (after (.alertRead ⟨false, 11⟩) { after (.recordWindowSelect 3 0) base with itemPtr := 0x6A }).readOut =
      [1, 0, 0, 0, 0, 3, 0xE8, 0, 0, 0, 5] ∧
    (after (.alertRead ⟨false, 3⟩) (at' 0x22)).readOut = [4, 0, 3] := by decide +kernel

/-! ### Links -/

/-- Port 5 in a link state, with counts. -/
def linked (l : LinkState) (hello run : Nat) : State :=
  base.setPort 5 { Port.reset with link := l, helloCount := hello, errorRun := run, silence := 1 }

theorem test_meets_RequesterLinkFrames_hello :
    ((after (.helloReceive 5) (linked .training 0 0)).port 5).helloCount = 1 ∧
    ((after (.helloReceive 5) (linked .training 1 0)).port 5).link = .up ∧
    ((after (.helloReceive 5) (linked .up 2 7)).port 5).errorRun = 0 ∧
    ((after (.helloReceive 5) (linked .up 2 7)).port 5).silence = 0 ∧
    after (.helloReceive 5) (linked .down 0 0) = linked .down 0 0 ∧
    ((after (.helloReceive 0) (busy.setPort 0 { Port.reset with link := .training, helloCount := 1 })).session 0).queue.map
      (fun q => q.sent) = [false, false] := by decide +kernel

theorem test_meets_RequesterLinkFrames_failures :
    ((after (.badFrame 5) (linked .training 1 0)).port 5).helloCount = 0 ∧
    ((after (.badFrame 5) (linked .up 2 6)).port 5).errorRun = 7 ∧
    ((after (.badFrame 5) (linked .up 2 6)).port 5).link = .up ∧
    ((after (.badFrame 5) (linked .up 2 7)).port 5).link = .training ∧
    (after (.badFrame 5) (linked .up 2 7)).alerts = [{ kind := .linkDown, source := .port 5, repeats := 0 }] ∧
    [65534, 65535].map (fun n => ((after (.badFrame 5)
      (base.setPort 5 { Port.reset with link := .up, badFrames := n })).port 5).badFrames) = [65535, 65535] ∧
    after (.badFrame 5) (linked .down 0 0) = linked .down 0 0 ∧
    ((after (.linkSilenceTimeout 0) base).port 0).link = .training ∧
    (after (.linkSilenceTimeout 0) base).timersQueue = [loss .linkLost 0 1 (some 0)] ∧
    after (.linkSilenceTimeout 5) (linked .training 0 0) = linked .training 0 0 ∧
    ((after (.discardedFrame 5 .answer) (linked .up 2 7)).port 5).errorRun = 0 ∧
    ((after (.discardedFrame 5 .notice) (linked .up 2 7)).port 5).silence = 0 ∧
    after (.discardedFrame 5 .request) (linked .training 1 0) = linked .training 1 0 ∧
    [[], List.replicate 20 0].map (fun b => decide (after (.requestIntake 5 9 b) (linked .up 2 6) =
      after (.badFrame 5) (linked .up 2 6))) = [true, true] ∧
    after (.requestIntake 5 9 [0x0B]) (linked .training 1 0) = linked .training 1 0 := by decide +kernel

/-- Port 0 sends frame `f` with `n` answers in its queue. -/
def sending (f : TxFrame) (n : Nat) (s : State) : State :=
  s.setPort 0 { s.port 0 with tx := some f, answers := List.replicate n (portAnswer 0 0 .ok) }

/-- A HELLO's moment, and the end of each kind of frame: then an answer, a notice, a HELLO or nothing. -/
theorem test_meets_TransmitterGoesOn :
    let sent : State := base.setPort 0 { base.port 0 with sentThisMs := true }
    let note := TxFrame.notice 0 1 0 0 .resync
    ((after (.helloTransmit (.rp 0)) base).port 0).tx = some .hello ∧ after (.helloTransmit (.rp 0)) sent = sent ∧
    after (.helloTransmit (.rp 5)) (linked .down 0 0) = linked .down 0 0 ∧
    (after (.helloTransmit .gate) base).gate.sentThisMs = true ∧
    after (.helloTransmit .gate) (after (.helloTransmit .gate) base) = after (.helloTransmit .gate) base ∧
    ((after (.frameTransmitComplete 0) (sending .hello 1 base)).port 0).tx = some (.answer (portAnswer 0 0 .ok)) ∧
    ((after (.frameTransmitComplete 0) (sending (.answer (portAnswer 0 0 .ok)) 1 base)).port 0).answers = [] ∧
    ((after (.frameTransmitComplete 0) (sending (.answer (portAnswer 0 0 .ok)) 1 busy)).port 0).tx = some note ∧
    ((after (.frameTransmitComplete 0) (sending note 0 busy)).session 0).queue.map (fun q => q.sent) = [true, true] ∧
    ((after (.frameTransmitComplete 0) (sending note 0 busy)).port 0).tx = some .hello ∧
    ((after (.frameTransmitComplete 0) (sending note 0 (busy.setSession 0 { busy.session 0 with round := 1 }))).session 0
      ).queue.map (fun q => q.sent) = [true, false] ∧
    ((after (.frameTransmitComplete 0) (sending .hello 0 sent)).port 0).tx = none ∧
    ((after (.frameTransmitComplete 5) ((linked .training 0 0).setPort 5 { Port.reset with
      link := .training, tx := some .hello })).port 5).tx = none := by decide +kernel

/-! ### The Write Gate -/

/-- The gate in a link state, with counts and queries. -/
def gated (l : LinkState) (hello run : Nat) (qs : List GateQuery) (t : Tables) : State :=
  { on t with gate := { Gate.reset with link := l, helloCount := hello, errorRun := run, queue := qs, silence := 1 } }

def ask (path volume start count : Nat) (access : Access) (token : Nat) : GateQuery :=
  { number := 5, path := path, volume := volume, start := start, count := count, access := access, token := token }

theorem test_meets_GateLinkFrames :
    let g := fun l h r => gated l h r [ask 0 0 0 1 .read 0] tab0
    after .gateHelloReceive (g .down 0 0) = g .down 0 0 ∧
    (after .gateHelloReceive (g .training 0 3)).gate.helloCount = 1 ∧
    (after .gateHelloReceive (g .training 1 3)).gate.link = .up ∧
    (after .gateHelloReceive (g .up 2 7)).gate.errorRun = 0 ∧
    (after (.gateDiscardedFrame .answer) (g .up 2 7)).gate.errorRun = 0 ∧
    (after (.gateDiscardedFrame .query) (g .training 1 7)).gate.errorRun = 0 ∧
    (after .gateBadFrame (g .training 1 6)).gate.helloCount = 0 ∧
    (after .gateBadFrame (g .up 2 6)).gate.errorRun = 7 ∧ (after .gateBadFrame (g .up 2 6)).gate.link = .up ∧
    (after .gateBadFrame (g .up 2 7)).gate.link = .training ∧ (after .gateBadFrame (g .up 2 7)).gate.queue = [] ∧
    (after .gateBadFrame (g .training 1 7)).alerts = [{ kind := .linkDown, source := .device, repeats := 0 }] ∧
    (after .gateLinkSilenceTimeout (g .training 1 0)).alertN = false ∧
    (after .gateLinkSilenceTimeout (g .up 2 0)).gate.link = .training ∧
    after .gateLinkSilenceTimeout (g .down 0 0) = g .down 0 0 ∧
    [12, 14].map (fun n => decide (after (.gateQuery 5 (List.replicate n 0)) (g .up 2 6) =
      after .gateBadFrame (g .up 2 6))) = [true, true] ∧
    after (.gateQuery 5 (List.replicate 13 0)) (g .training 1 6) = after (.gateDiscardedFrame .query) (g .training 1 6) := by decide +kernel

/-- 7 and 8 queries in the queue, and 7 and 8 refusals in the store. -/
theorem test_meets_GateQueryQueued :
    let body : List Byte := [0x22, 5, 0, 0, 0, 0, 9, 0, 3, 0, 0, 0, 7]
    let s := fun n m => ({ gated .up 2 7 (List.replicate n (ask 0 0 0 1 .read 0)) tab0 with
      gate := { (gated .up 2 7 (List.replicate n (ask 0 0 0 1 .read 0)) tab0).gate with
        tx := some { number := 0, code := .allow, fromQueue := true }
        replies := List.replicate m { number := 0, code := .refusedFull, fromQueue := false } } } : State)
    body.length = 13 ∧
    (after (.gateQuery 0x0105 body) (s 7 0)).gate.queue.getLast? = some
      { number := 5, path := 2, volume := 5, start := 9, count := 3, access := .write, token := 7 } ∧
    (after (.gateQuery 5 body) (s 7 0)).gate.queue.length = 8 ∧
    (after (.gateQuery 5 body) (s 8 7)).gate.queue.length = 8 ∧
    (after (.gateQuery 5 body) (s 8 7)).gate.replies.getLast? =
      some { number := 5, code := .refusedFull, fromQueue := false } ∧
    (after (.gateQuery 5 body) (s 8 8)).gate.replies = (s 8 8).gate.replies ∧
    (after (.gateQuery 5 body) (gated .training 1 7 [] tab0)).gate.queue = [] ∧
    (after .gateAnswerSent (s 8 1)).gate.tx = some { number := 0, code := .refusedFull, fromQueue := false } ∧
    (after .gateAnswerSent (s 8 0)).gate.tx = none := by decide +kernel

/-- The answer to a query over tables `t`. -/
def gateSays (q : GateQuery) (t : Tables) : Option GateCode :=
  (after .gateLookup (gated .up 2 0 [q] t)).gate.tx.map (fun r => r.code)

/-- Each row of the answer table, and the values beside it; volume 0 FROZEN in the last lines. -/
theorem test_meets_GateLookupAnswers :
    let frozen := { heldX with volumes := upd vols 0 (vol .frozen 1000 6) }
    (gated .up 2 0 [ask 0 0 0 1 .read 0] heldX).looksUp (ask 0 0 0 1 .read 0) [] ∧ heldX.Sound ∧
    heldX.covers 0 0 (ask 0 0 0 100 .write 6) 0 leaseX { plain with token := some 6 } ∧
    [ask 6 0 0 1 .read 0, ask 0 0 0 1 .other 0, ask 0 0 0 0 .read 0, ask 0 0 0 1 .write 0].map
      (fun q => gateSays q heldX) = List.replicate 4 (some .denyFormat) ∧
    gateSays (ask 5 0 0 1 .read 0) heldX = some .denySession ∧ gateSays (ask 0 2 0 1 .read 0) heldX = some .denyVolume ∧
    gateSays (ask 0 32 0 1 .read 0) heldX = some .denyVolume ∧
    gateSays (ask 0 0 0 101 .read 0) heldX = some .denyUncovered ∧
    gateSays (ask 1 0 0 1 .read 0) heldX = some .denyUncovered ∧
    gateSays (ask 0 0 0 1 .write 6) heldS = some .denyMode ∧ gateSays (ask 0 0 0 1 .write 5) heldX = some .denyToken ∧
    gateSays (ask 0 0 0 100 .write 6) heldX = some .allow ∧ gateSays (ask 0 0 99 1 .read 0) heldX = some .allow ∧
    gateSays (ask 0 0 0 1 .write 6) frozen = some .denyVolume ∧ gateSays (ask 0 0 0 1 .read 0) frozen = some .allow ∧
    (after .gateLookup (gated .up 2 0 [ask 0 0 0 1 .read 0] heldX)).tab.body 0 =
      .held leaseX { plain with token := some 6, gateUse := 1 } ∧
    (after .gateLookup (gated .up 2 0 [ask 0 0 0 1 .read 0, ask 1 0 0 1 .read 0] heldX)).gate.queue =
      [ask 1 0 0 1 .read 0] := by
  refine ⟨⟨rfl, rfl, fun r h => by cases h⟩, sound_heldX, ?_⟩
  unfold Tables.covers
  decide +kernel

/-! ### The laws -/

/-- The laws hold in a state with leases, waits, notices, cached answers and an alert, and a step leaves it. -/
theorem test_meets_LeaseLawsKept :
    (on parkedU).tab.Sound ∧ step { asks (.release { slot := 0, gen := 0 }) (on parkedU) with pending := [.release] } =
      .next { after .release (asks (.release { slot := 0, gen := 0 }) (on parkedU)) with pending := [] } :=
  ⟨sound_parkedU, rfl⟩

theorem test_meets_SessionLawsKept :
    let s : State := { on parkedU with alerts := [{ kind := .linkDown, source := .device, repeats := 0 }], alertN := false }
    let x := { (on parkedU).session 0 with queue := [{ seq := 65535, notice := .resync, sent := true }],
                                           cache := [{ tag := 3, kind := .acquire, status := .ok, result := .empty }] }
    SessionLaw (s.setSession 0 x).sessions (s.setSession 0 x).nextNumber ∧
    (∀ i, ((s.setSession 0 x).session i).noticeLaw ∧ ((s.setSession 0 x).session i).cacheLaw) ∧ s.alertLaw ∧
    s.configLaw ∧ step { s.setSession 0 x with pending := [.alertRead ⟨false, 3⟩] } =
      .next { after (.alertRead ⟨false, 3⟩) (s.setSession 0 x) with pending := [] } := by
  refine ⟨law_set (law_on parkedU) 0 _ ⟨rfl, (by decide : SessionState.active ≠ .free), rfl, rfl⟩, ?_, ?_,
    config_on parkedU, rfl⟩
  · unfold Session.noticeLaw Session.cacheLaw
    decide +kernel
  · unfold State.alertLaw
    decide +kernel

theorem test_meets_FenceCountersNeverFall :
    let s := asks (.acquire (ext 0 1000 .exclusive)) base
    s.tab.Sound ∧ Instr.acquire ≠ .powerOnReset ∧ Instr.acquire ≠ .startupComplete ∧
    (s.tab.volume 0).fence = 5 ∧ ((after .acquire s).tab.volume 0).fence = 6 := ⟨sound_tab0, by decide +kernel⟩

/-- A request of session 0 in the small state, whose tables are empty. -/
def acquiring : State := asks (.acquire (ext 0 1000 .exclusive)) base

theorem owner_acquiring : acquiring.ownerLaw where
  owners := fun n l h => by
    have hb : (acquiring.tab.body n).lease? = none := rfl
    rw [hb] at h; cases h
  waiters := fun i tag h => by
    obtain ⟨n, h⟩ := h
    have hb : acquiring.tab.body n = .free := rfl
    rw [hb] at h; exact h.elim
  quotas := by decide +kernel
  windows := by decide +kernel
  bound := by decide +kernel
  unbound := by decide +kernel
  queued := fun i p tag h1 h2 h3 => by
    have key : ∀ i : SessionId, (acquiring.session i).outstanding ≠ [] → i = 0 := by decide +kernel
    obtain rfl := key i (fun x => by rw [x] at h3; cases h3)
    have hp : (acquiring.session 0).port = some 0 := by decide +kernel
    have ho : (acquiring.session 0).outstanding = [(7, .queued)] := by decide +kernel
    have hin : (acquiring.port 0).inbox = [{ tag := 7, body := .acquire (ext 0 1000 .exclusive) }] := by decide +kernel
    rw [hp] at h2; cases h2
    rw [ho, List.mem_singleton] at h3; cases h3
    rw [hin]; exact ⟨_, List.mem_singleton_self _, rfl⟩
  parked := fun i tag _ h => by
    have key : ∀ i : SessionId, ∀ x ∈ (acquiring.session i).outstanding, x.2 ≠ .parked := by decide +kernel
    exact absurd rfl (key i _ h)
  orphans := by decide +kernel
  purging := by decide +kernel
  once := List.Pairwise.nil
  reached := fun i n l h => by cases h

/-- The laws of the owners hold in it, and the step of the request makes the lease. -/
theorem test_meets_OwnerLawKept :
    let s : State := { acquiring with pending := [.acquire] }
    s.tab.Sound ∧ SessionLaw s.sessions s.nextNumber ∧ s.ownerLaw ∧
    step s = .next { after .acquire acquiring with pending := [] } ∧
    (after .acquire acquiring).tab.slotCount 0 = 1 :=
  ⟨sound_tab0, law_set (law_on tab0) 0 _ ⟨rfl, (by decide : SessionState.active ≠ .free), rfl, rfl⟩,
    ⟨owner_acquiring.owners, owner_acquiring.waiters, owner_acquiring.quotas, owner_acquiring.windows,
      owner_acquiring.bound, owner_acquiring.unbound, owner_acquiring.queued, owner_acquiring.parked,
      owner_acquiring.orphans, owner_acquiring.purging, owner_acquiring.once, owner_acquiring.reached⟩, rfl,
    by decide +kernel⟩

/-- A RELEASE frees a slot whose generation was 255, and an ACQUIRE takes it with the generation that follows. -/
theorem test_meets_GenerationsAdvance :
    let s := asks (.release { slot := 0, gen := 0 }) (on parkedU)
    s.tab.Sound ∧ SessionLaw s.sessions s.nextNumber ∧ Instr.release ≠ .powerOnReset ∧ Instr.release ≠ .startupComplete ∧
    Instr.release ≠ .tableClear ∧ (after .release s).tab.slots.get 0 = { gen := 1, body := .free } ∧
    (let t := (after .release s).tab
     let last := { t with slots := t.slots.set 0 { gen := 255, body := .free } }
     let taken := acquired last 0 9 (ext 200 1 .shared)
     (taken.slots.get 0).gen = 255 ∧ taken.body 0 ≠ .free ∧
      (taken.freeSlot 0 0).slots.get 0 = { gen := 0, body := .free }) :=
  ⟨sound_parkedU, law_set (law_on parkedU) 0 _ ⟨rfl, (by decide : SessionState.active ≠ .free), rfl, rfl⟩,
    by decide +kernel⟩

/-! ### Layouts -/

/-- Requests with every field at its largest value, and lengths of every kind that are wrong. -/
theorem test_meets_RequestsAreRead :
    let a : AcquireReq := { volume := 255, start := 2 ^ 40 - 1, count := 2 ^ 32 - 1, mode := .exclusive, noWait := true,
                            hold := some (2 ^ 32 - 1), waitLimit := some 65535 }
    parseRequest (layout [(1, 1), (8, 2 ^ 64 - 1), (1, 255), (1, 1), (4, 2 ^ 32 - 1)]) =
      .join (BitVec.ofNat 64 (2 ^ 64 - 1)) 255 (some (2 ^ 32 - 1)) ∧
    parseRequest (layout [(1, 3), (1, 255), (5, a.start), (4, a.count), (1, 1), (1, 7), (4, 2 ^ 32 - 1), (2, 65535)]) =
      .acquire a ∧
    parseRequest (layout [(1, 4), (2, 65535), (1, 255), (1, 1), (1, 5), (2, 65535)]) = .convert
      { handle := { slot := 65535, gen := 255 }, mode := .exclusive, noWait := true, waitLimit := some 65535 } ∧
    parseRequest (layout [(1, 5), (2, 65535), (1, 255), (1, 2), (4, 2 ^ 32 - 1)]) =
      .renew { slot := 65535, gen := 255 } (some (2 ^ 32 - 1)) ∧
    parseRequest (layout [(1, 6), (2, 65535), (1, 255)]) = .release { slot := 65535, gen := 255 } ∧
    parseRequest (layout [(1, 8), (1, 255), (5, 2 ^ 40 - 1), (4, 2 ^ 32 - 1)]) = .query 255 (2 ^ 40 - 1) (2 ^ 32 - 1) ∧
    parseRequest (layout [(1, 9), (2, 65535)]) = .list 65535 ∧ parseRequest [0] = .unknown 0 ∧
    (List.range 19).filter (fun n => decide ((parseRequest (0x03 :: List.replicate n 1)) ≠ .malformed .acquire)) = [12] ∧
    parseGateQuery 0xFFFF (layout [(1, 0xFF), (1, 255), (5, 2 ^ 40 - 1), (2, 65535), (4, 2 ^ 32 - 1)]) =
      { number := 255, path := 7, volume := 255, start := 2 ^ 40 - 1, count := 65535, access := .other,
        token := 2 ^ 32 - 1 } := by decide +kernel

/-- Flags and mode bytes above their range, a flag that CONVERT and RENEW do not define, and a length that the flags byte does
not give; and body lengths at the ends of Table 11-2, in frames on both kinds of port. -/
theorem test_meets_RequestsAreRead_malformed :
    let z := fun n : Nat => (List.replicate n 0 : List Byte)
    [0x01 :: (z 9 ++ [2, 0, 0, 0, 0]), 0x01 :: (z 9 ++ [0, 0, 0, 0, 0])].map parseRequest =
      List.replicate 2 (.malformed .join) ∧
    [0x03 :: (z 10 ++ [2, 0]), 0x03 :: (z 10 ++ [0, 8]), 0x03 :: (z 10 ++ [0, 2, 0, 0])].map parseRequest =
      List.replicate 3 (.malformed .acquire) ∧
    [0x04 :: (z 3 ++ [2, 0]), 0x04 :: (z 3 ++ [0, 2]), 0x04 :: (z 3 ++ [0, 4])].map parseRequest =
      List.replicate 3 (.malformed .convert) ∧
    [0x05 :: (z 3 ++ [1]), 0x05 :: (z 3 ++ [2])].map parseRequest = List.replicate 2 (.malformed .renew) ∧
    [0, 1, 19, 20].map (fun n => decide (rpArrival 0 (frameBytes .request 7 (z n)) = .badFrame 0)) =
      [true, false, false, true] ∧
    [2, 3].map (fun n => decide (rpArrival 0 (frameBytes .answer 7 (z n)) = .badFrame 0)) = [true, false] ∧
    [0, 1, 21, 22].map (fun n => decide (rpArrival 0 (frameBytes .notice 7 (z n)) = .badFrame 0)) =
      [true, false, false, true] ∧
    [12, 13, 14].map (fun n => decide (gateArrival (frameBytes .query 7 (z n)) = .gateBadFrame)) = [true, false, true] ∧
    rpArrival 0 (frameBytes .request 7 [0x0B]).dropLast = .badFrame 0 := by decide +kernel

/-- A QUERY body with each access code, the bits of the control byte that are not read set, and fields at their largest. -/
theorem test_meets_GateBodiesAreCoded :
    [0xCA, 0xDA, 0xEA, 0xFA].map (fun c => (parseGateQuery 7 (c :: List.replicate 12 0xFF)).access) =
      [.other, .read, .write, .other] ∧
    parseGateQuery 7 (0xDA :: List.replicate 12 0xFF) = parseGateQuery 7 (0x12 :: List.replicate 12 0xFF) ∧
    parseGateQuery 7 (layout [(1, 0x12), (1, 2 ^ 8 - 1), (5, 2 ^ 40 - 1), (2, 2 ^ 16 - 1), (4, 2 ^ 32 - 1)]) =
      { number := 7, path := 2, volume := 255, start := 2 ^ 40 - 1, count := 65535, access := .read,
        token := 2 ^ 32 - 1 } := by decide +kernel

/-- An answer, a notice and a FREE slot's entry, written out byte by byte. -/
theorem test_layouts :
    (stepAnswer 7 .acquire .ok (.lease { slot := 0x0102, gen := 3 } .exclusive (some 0x0A0B0C0D))).body =
      [0, 0, 3, 1, 2, 3, 1, 0x0A, 0x0B, 0x0C, 0x0D] ∧
    (Notice.revoked { slot := 0x0102, gen := 3 } .maintenance).body = [4, 1, 2, 3, 2] ∧
    (TxFrame.answer (portAnswer 0x1234 0x0B .busy)).bytes = frameOf 0x03 0x1234 [8, 0, 0x0B] ∧
    slotEntry false 0x0102 { gen := 3, body := .free } = [1, 2, 3, 0] ++ List.replicate 43 0 := by decide +kernel

end Sys2Proof.Tests
end

/-! SUPPORT. What one command and one step answer, each said once: the state that `exec` gives while RESET_N is high or low,
so that a law of every step is a law of `effect` and of the release of RESET_N. -/

namespace Sys2Proof.Machine

/-! ### What a command and a step answer -/

/-- A command that answers a next state does its effect, leaves the state as it is, or releases RESET_N. -/
theorem exec_cases {c : Instr} {s t : State} (h : exec c s = .next t) :
    t = effect c s ∨ t = s ∨ ∃ straps, c = .resetRelease straps ∧ t = s.releaseReset straps := by
  cases hr : s.resetN with
  | true =>
    rw [exec_high hr] at h
    cases h
    exact .inl rfl
  | false =>
    by_cases hp : c = .powerOnReset
    · subst hp
      cases h
      exact .inl rfl
    by_cases hq : ∃ straps, c = .resetRelease straps
    · obtain ⟨straps, rfl⟩ := hq
      simp only [exec, execResetRelease, hr, Bool.false_eq_true, if_false] at h
      cases h
      exact .inr (.inr ⟨straps, rfl, rfl⟩)
    · rw [exec_low hr hp (fun straps hc => hq ⟨straps, hc⟩)] at h
      cases h
      exact .inr (.inl rfl)

/-- A step with a command in the queue carries it out; one without leaves the state as it is. -/
theorem step_cases {s t : State} (h : step s = .next t) : t = s ∨ ∃ c rest, exec c (s.withPending rest) = .next t := by
  unfold step at h
  split at h
  · exact .inr ⟨_, _, h⟩
  · cases h
    exact .inl rfl

/-- What holds at the start of a step, through the change of the queue, the release of RESET_N and the effect of every
command, holds at its end. -/
theorem step_leads {P : State → Prop} {s t : State} (h : step s = .next t) (idle : P s)
    (queue : ∀ q, P (s.withPending q)) (release : ∀ q straps, P ((s.withPending q).releaseReset straps))
    (command : ∀ c q, P (effect c (s.withPending q))) : P t := by
  obtain rfl | ⟨c, rest, he⟩ := step_cases h
  · exact idle
  · obtain rfl | rfl | ⟨straps, -, rfl⟩ := exec_cases he
    · exact command c rest
    · exact queue rest
    · exact release rest straps

/-- Settles O1. -/
theorem stepRunsTheOldestCommand : Obligations.StepRunsTheOldestCommand := by
  refine ⟨fun c rest s h => ?_, fun s h => ?_⟩
  · unfold step
    rw [h]
    rfl
  · unfold step
    rw [h]

/-! ### The laws, kept by every command -/

/-- What the state has, and the step of every command gives it, the state has when a command may have been taken (R174). -/
theorem takeCode_keeps {P : State → Prop} {s : State} (code : Byte) (step : Command → State → State) (stays : P s)
    (hstep : ∀ c, P (step c { s with lastServed := 9 })) : P (s.takeCode code step) := by
  unfold State.takeCode State.takeCommand
  split
  · split
    · exact hstep _
    · exact stays
  · exact stays

/-- Every command keeps the laws of the lease structures: the three that clear them leave them cleared, the others move
them (R24, R25, R178). -/
theorem effect_sound (c : Instr) {s : State} (h : s.tab.Sound) : (effect c s).tab.Sound := by
  by_cases hp : c = .powerOnReset
  · subst hp
    exact Tables.sound_reset
  by_cases hu : c = .startupComplete
  · subst hu
    show (if s.device = .starting then s.startUp else s).tab.Sound
    split
    · exact (startUp_lawful s).2
    · exact h
  by_cases hc : c = .tableClear
  · subst hc
    exact takeCode_keeps (P := fun t => t.tab.Sound) 0x0A State.tableClearStep h
      (fun c => ((tableClear_keeps c { s with lastServed := 9 }).2 h).1)
  · exact ((effect_keeps c s hp hu hc).1 h).keeps h

/-- Settles O54: the command's effect keeps the laws (`effect_sound`); the queue and the release of RESET_N do not touch
the lease structures. -/
theorem leaseLawsKept : Obligations.LeaseLawsKept := by
  intro s t hs h
  exact step_leads (P := fun t => t.tab.Sound) h hs (fun _ => hs) (fun _ _ => hs)
    (fun c q => effect_sound c (s := s.withPending q) hs)

/-- Settles O57: the command's effect keeps the law (`effect_owner`); the queue and the release of RESET_N change nothing
that it speaks of. -/
theorem ownerLawKept : Obligations.OwnerLawKept := by
  intro s t hs hl ho h
  have queued : ∀ q, (s.withPending q).Lawed := fun q => ⟨ho.mild hs (.rest rfl rfl rfl rfl rfl), hs, hl⟩
  exact step_leads (P := State.ownerLaw) h ho (fun q => (queued q).owner)
    (fun q _ => (queued q).mild (.rest rfl rfl rfl rfl rfl)) (fun c q => effect_owner c (queued q))

/-- Settles O58: what each command's effect does to the slots is `effect_slots`. -/
theorem generationsAdvance : Obligations.GenerationsAdvance := by
  intro c s t hs hl hp hu hc h
  obtain rfl | rfl | ⟨straps, -, rfl⟩ := exec_cases h
  · exact effect_slots c s hs hl hp hu hc
  · exact Tables.slotsOnward.refl _ _
  · exact Tables.slotsOnward.refl _ _

/-! ### Power-on reset -/

/-- Settles O53. -/
theorem lawsHoldAtReset : Obligations.LawsHoldAtReset := by
  obtain ⟨hsess, hrec, halert, hcfg⟩ := lawful_reset
  exact ⟨Tables.sound_reset, hsess, hrec, halert, hcfg, State.ownerLaw_reset⟩

/-- The records of power-on reset. -/
theorem session_reset (i : SessionId) : State.reset.session i = Session.freed := session_freedAll i

theorem port_reset (p : PortId) : State.reset.port p = Port.reset := Vector.getElem_replicate ..

theorem cfg_reset (p : PortId) : State.reset.cfg p = PortConfig.default := Vector.getElem_replicate ..

theorem indexOf_reset (v : VolumeId) : Tables.reset.indexOf v = [] := Vector.getElem_replicate ..

theorem waitList_reset (v : VolumeId) : Tables.reset.waitList v = [] := Vector.getElem_replicate ..

theorem volume_reset (v : VolumeId) : Tables.reset.volume v = { state := .offline, size := 0, fence := 0 } :=
  Vector.getElem_replicate ..

theorem slots_reset (n : Nat) : Tables.reset.slots.get n = { gen := 0, body := .free } := rfl

/-- At power-on reset no session is bound to a port (R75). -/
theorem boundSession_reset (p : PortId) : State.reset.boundSession p = none := by
  refine List.find?_eq_none.mpr fun i _ => ?_
  have hi : State.reset.sessions[i] = Session.freed := session_reset i
  rw [hi]
  simp [Session.freed]

/-- Settles O3. -/
theorem resetValues : Obligations.ResetValues := by
  refine ⟨slots_reset, fun v => ⟨indexOf_reset v, waitList_reset v, volume_reset v⟩, rfl, slotCount_reset, rfl, rfl, rfl,
    rfl, fun i => ?_, boundSession_reset, rfl, rfl, rfl, rfl, rfl, rfl, rfl, fun p => ?_, rfl, rfl, rfl, rfl, rfl, rfl, rfl,
    rfl, rfl, rfl, rfl, rfl, rfl, rfl, rfl, rfl, rfl, rfl, rfl, rfl, rfl⟩
  · rw [session_reset]
    exact ⟨rfl, rfl, rfl, rfl⟩
  · rw [port_reset, cfg_reset]
    exact ⟨rfl, rfl, rfl, rfl, rfl, rfl, rfl, rfl⟩

end Sys2Proof.Machine

/-! SUPPORT. The queue of commands, which no effect touches, and the events that cannot occur, which change nothing (log
entry 1): each operation of `effect` once, then every command. -/

namespace Sys2Proof.Machine

/-! ### The queue through the shared operations -/

@[simp] theorem State.pending_retrain (s : State) (p : PortId) : (s.retrain p).pending = s.pending := by
  rw [State.retrain_frame]

@[simp] theorem State.pending_retrainFold (l : List PortId) (s : State) : (l.foldl State.retrain s).pending = s.pending := by
  rw [State.retrainFold_frame]

@[simp] theorem State.pending_gateRetrain (s : State) : s.gateRetrain.pending = s.pending := by
  rw [State.gateRetrain_frame]

@[simp] theorem State.pending_retrainAll (s : State) : s.retrainAll.pending = s.pending := by
  unfold State.retrainAll
  simp

@[simp] theorem State.pending_discardInbox (s : State) (p : PortId) : (s.discardInbox p).pending = s.pending := by
  rw [State.discardInbox_frame]

@[simp] theorem State.pending_unbind (s : State) (i : SessionId) : (s.unbind i).pending = s.pending := by
  rw [State.unbind_frame]

@[simp] theorem State.pending_portDown (s : State) (p : PortId) : (s.portDown p).pending = s.pending := by
  rw [State.portDown_frame]

@[simp] theorem State.pending_giveReply (s : State) (p : PortId) (tag : Tag) (k : ReqKind) (i : Option SessionId)
    (reply : Reply) : (s.giveReply p tag k i reply).pending = s.pending := by
  rw [State.giveReply_frame]

@[simp] theorem State.pending_complete (r : Run) (s : State) : (r.complete s).pending = s.pending := rfl

@[simp] theorem State.pending_answerRequest (s : State) (p : PortId) (tag : Tag) (k : ReqKind) (i : Option SessionId)
    (reply : Reply) (r : Run) : (s.answerRequest p tag k i reply r).pending = s.pending := s.pending_giveReply p tag k i reply

@[simp] theorem State.pending_finishCommand (s : State) (x : Option Reason) (r : Run) :
    (s.finishCommand x r).pending = s.pending := rfl

@[simp] theorem State.pending_refuseCommand (s : State) (x : Reason) : (s.refuseCommand x).pending = s.pending := rfl

@[simp] theorem State.pending_closeAs (s : State) (i : SessionId) (k : CloseKind) : (s.closeAs i k).pending = s.pending :=
  rfl

@[simp] theorem State.pending_takeInbox (s : State) (p : PortId) (rest : List Request) :
    (s.takeInbox p rest).pending = s.pending := rfl

/-! ### The queue through the taking of a claim -/

theorem State.pending_takeRequest (s : State) (k : ReqKind) (step : PortId → Request → State → State)
    (h : ∀ p rq (t : State), (step p rq t).pending = t.pending) : (s.takeRequest k step).pending = s.pending := by
  unfold State.takeRequest
  split
  · split
    · rw [h, State.pending_takeInbox]
    · rfl
  · rfl

theorem State.pending_sessionRequest (s : State) (k : ReqKind) (work : SessionId → Request → State → Run × Reply) :
    (s.sessionRequest k work).pending = s.pending := by
  refine State.pending_takeRequest s k _ fun p rq t => ?_
  dsimp only
  split
  · exact State.pending_answerRequest ..
  · split <;> exact State.pending_answerRequest ..

theorem State.pending_takeVisit (s : State) : (s.takeVisit State.visitStep).pending = s.pending := by
  unfold State.takeVisit
  split <;> rfl

theorem State.pending_takeTimer (s : State) (k : TimerKind) (step : TimerClaim → State → State)
    (h : ∀ c (t : State), (step c t).pending = t.pending) : (s.takeTimer k step).pending = s.pending := by
  unfold State.takeTimer
  split
  · split
    · split
      · exact h _ _
      · rfl
    · rfl
  · rfl

theorem State.pending_takeCommand (s : State) (f : Byte → Bool) (step : Command → State → State)
    (h : ∀ c (t : State), (step c t).pending = t.pending) : (s.takeCommand f step).pending = s.pending := by
  unfold State.takeCommand
  split
  · split
    · exact h _ _
    · rfl
  · rfl

theorem State.pending_takeCode (s : State) (code : Byte) (step : Command → State → State)
    (h : ∀ c (t : State), (step c t).pending = t.pending) : (s.takeCode code step).pending = s.pending :=
  s.pending_takeCommand _ step h

/-! ### The queue through the steps of the engine -/

theorem State.pending_joinStep (p : PortId) (rq : Request) (s : State) : (s.joinStep p rq).pending = s.pending := by
  unfold State.joinStep State.joinNew State.joinReclaim
  dsimp only
  repeat' split
  all_goals simp only [pending_answerRequest, pending_closeAs, pending_setSession]

theorem State.pending_departStep (p : PortId) (rq : Request) (s : State) : (s.departStep p rq).pending = s.pending := by
  unfold State.departStep
  repeat' split
  all_goals simp only [pending_answerRequest, pending_closeAs]

@[simp] theorem State.pending_judgeTerm (s : State) (i : SessionId) : (s.judgeTerm i).pending = s.pending := by
  unfold State.judgeTerm
  repeat' split
  all_goals rfl

@[simp] theorem State.pending_judgeGrace (s : State) (i : SessionId) : (s.judgeGrace i).pending = s.pending := by
  unfold State.judgeGrace
  repeat' split
  all_goals rfl

theorem State.pending_judgeTimers (s : State) : s.judgeTimers.pending = s.pending := by
  unfold State.judgeTimers
  induction List.finRange 12 generalizing s with
  | nil => rfl
  | cons i is ih => rw [List.foldl_cons, ih, pending_judgeGrace, pending_judgeTerm]

theorem State.pending_sweepTimer (s : State) : s.sweepTimer.pending = s.pending := by
  unfold State.sweepTimer
  split <;> rfl

theorem State.pending_orphan (s : State) (i : SessionId) : (s.orphan i).pending = s.pending := by
  unfold State.orphan State.makeOrphan
  simp

theorem State.pending_lossStep (c : TimerClaim) (s : State) : (s.lossStep c).pending = s.pending := by
  unfold State.lossStep
  split
  · exact s.pending_orphan _
  · rfl

theorem State.pending_linkLostStep (c : TimerClaim) (s : State) : (s.linkLostStep c).pending = s.pending := by
  unfold State.linkLostStep
  dsimp only
  split
  · split
    · exact s.pending_orphan _
    · rfl
    · rfl
  · rfl

theorem State.pending_graceStep (c : TimerClaim) (s : State) : (s.graceStep c).pending = s.pending := by
  unfold State.graceStep
  split <;> rfl

theorem State.pending_answerDepart (s : State) (i : SessionId) : (s.answerDepart i).pending = s.pending := by
  unfold State.answerDepart
  split <;> simp

theorem State.pending_purgeStep (i : SessionId) (s : State) : (s.purgeStep i).pending = s.pending := by
  unfold State.purgeStep
  dsimp only
  split
  · rfl
  · exact s.pending_answerDepart i

theorem State.pending_takePurge (s : State) : (s.takePurge State.purgeStep).pending = s.pending := by
  unfold State.takePurge
  split
  · split
    · exact State.pending_purgeStep _ _
    · rfl
  · rfl

/-! ### The queue through the commands of the Maintenance Port -/

theorem State.pending_onVolume (s : State) (c : Command) (w : VolumeId → State) (h : ∀ v, (w v).pending = s.pending) :
    (s.onVolume c w).pending = s.pending := by
  unfold State.onVolume
  split
  · exact h _
  · rfl

theorem State.pending_defineStep (c : Command) (s : State) : (s.defineStep c).pending = s.pending :=
  s.pending_onVolume c _ fun v => by
    split
    · rfl
    · split <;> rfl

theorem State.pending_onlineStep (c : Command) (s : State) : (s.onlineStep c).pending = s.pending :=
  s.pending_onVolume c _ fun v => by
    split
    · rfl
    · split
      · rfl
      · split <;> rfl

theorem State.pending_freezeStep (c : Command) (s : State) : (s.freezeStep c).pending = s.pending :=
  s.pending_onVolume c _ fun v => by split <;> rfl

theorem State.pending_thawStep (c : Command) (s : State) : (s.thawStep c).pending = s.pending :=
  s.pending_onVolume c _ fun v => by
    split
    · rfl
    · split <;> rfl

theorem State.pending_offlineStep (c : Command) (s : State) : (s.offlineStep c).pending = s.pending :=
  s.pending_onVolume c _ fun v => by split <;> rfl

theorem State.pending_offlineForceStep (c : Command) (s : State) : (s.offlineForceStep c).pending = s.pending :=
  s.pending_onVolume c _ fun v => by split <;> rfl

theorem State.pending_revokeStep (c : Command) (s : State) : (s.revokeStep c).pending = s.pending := by
  unfold State.revokeStep
  split
  · rfl
  · split <;> rfl

theorem State.pending_closeSessionStep (c : Command) (s : State) : (s.closeSessionStep c).pending = s.pending := by
  unfold State.closeSessionStep State.closeSession
  split
  · rfl
  · split <;> simp

theorem State.pending_portResetStep (c : Command) (s : State) : (s.portResetStep c).pending = s.pending := by
  unfold State.portResetStep State.resetPort
  split <;> simp

theorem State.pending_tableClearStep (c : Command) (s : State) : (s.tableClearStep c).pending = s.pending :=
  State.pending_retrainAll _

theorem State.pending_followEnable (s : State) (p : PortId) (a b : Bool) : (s.followEnable p a b).pending = s.pending := by
  unfold State.followEnable
  repeat' split
  all_goals simp

theorem State.pending_setConfigStep (c : Command) (s : State) : (s.setConfigStep c).pending = s.pending := by
  unfold State.setConfigStep
  split
  · unfold State.setPortItem
    split
    · rfl
    · exact State.pending_followEnable _ _ _ _
  · split
    · unfold State.setDeviceItem
      split
      · split <;> rfl
      · split <;> rfl
      · rfl
    · rfl

/-! ### The queue through the links, the gate and the bus -/

theorem State.pending_rpBadFrame (s : State) (p : PortId) : (s.rpBadFrame p).pending = s.pending := by
  unfold State.rpBadFrame
  dsimp only
  split
  · rfl
  · rfl
  · split <;> simp

theorem State.pending_intakeReply {s t : State} (p : PortId) (a : Answer) (h : t.pending = s.pending) :
    (s.intakeReply t p a).pending = s.pending := by
  unfold State.intakeReply
  split
  · exact h
  · rfl

/-- The judgment of a request that is neither KEEPALIVE nor NOTICE_ACK, by the window (R156). -/
theorem State.pending_judgeWindow (s : State) (p : PortId) (i : SessionId) (rq : Request) :
    (if (s.session i).window ≤ (s.session i).outstanding.length then
        s.intakeReply s p (intakeAnswer rq.tag rq.body .noCredit)
      else if s.hasRoom p then s.accept p i rq else s).pending = s.pending := by
  split
  · exact State.pending_intakeReply _ _ rfl
  · split <;> rfl

theorem State.pending_judgeNew (s : State) (p : PortId) (i : SessionId) (rq : Request) :
    (s.judgeNew p i rq).pending = s.pending := by
  obtain ⟨tag, body⟩ := rq
  cases body
  case keepalive => exact State.pending_intakeReply _ _ rfl
  case noticeAck => exact State.pending_intakeReply _ _ rfl
  case malformed k =>
    cases k
    case keepalive => exact State.pending_intakeReply _ _ rfl
    case noticeAck => exact State.pending_intakeReply _ _ rfl
    all_goals exact s.pending_judgeWindow p i _
  all_goals exact s.pending_judgeWindow p i _

theorem State.pending_intake (s : State) (p : PortId) (rq : Request) : (s.intake p rq).pending = s.pending := by
  unfold State.intake
  split
  · unfold State.judgeUnbound
    split
    · split
      · rfl
      · split
        · split <;> rfl
        · exact State.pending_intakeReply _ _ rfl
    · exact State.pending_intakeReply _ _ rfl
  · unfold State.judgeBound
    dsimp only
    split
    · exact State.pending_intakeReply _ _ rfl
    · split
      · exact State.pending_intakeReply _ _ rfl
      · split
        · exact State.pending_intakeReply _ _ rfl
        · split
          · exact State.pending_intakeReply _ _ rfl
          · rfl
          · exact s.pending_judgeNew p _ rq

theorem State.pending_requestFrame (s : State) (p : PortId) (tag : Tag) (body : List Byte) :
    (s.requestFrame p tag body).pending = s.pending := by
  unfold State.requestFrame
  split
  · split
    · rfl
    · rfl
    · exact State.pending_intake _ p _
  · exact s.pending_rpBadFrame p

theorem State.pending_helloFrame (s : State) (p : PortId) : (s.helloFrame p).pending = s.pending := by
  unfold State.helloFrame State.resetSendOf
  dsimp only
  split
  · rfl
  · split
    · split <;> rfl
    · rfl
  · rfl

theorem State.pending_transmitted (s : State) (p : PortId) : (s.transmitted p).pending = s.pending := by
  unfold State.transmitted
  split
  · rename_i f hf
    have sent : (s.frameSent p f).pending = s.pending := by
      unfold State.frameSent
      dsimp only
      split
      · rfl
      · rfl
      · split <;> rfl
    unfold State.chooseNext
    dsimp only
    split <;> exact sent
  · rfl

theorem State.pending_gateDown (s : State) : s.gateDown.pending = s.pending := State.pending_gateRetrain _

theorem State.pending_gateBad (s : State) : s.gateBad.pending = s.pending := by
  unfold State.gateBad
  dsimp only
  split
  · rfl
  · split
    · exact State.pending_gateDown _
    · rfl

theorem State.pending_queryFrame (s : State) (tag : BitVec 16) (body : List Byte) :
    (s.queryFrame tag body).pending = s.pending := by
  unfold State.queryFrame
  split
  · split <;> rfl
  · exact s.pending_gateBad

theorem State.pending_writeItem (s : State) (item : Byte) (data : List Byte) : (s.writeItem item data).pending = s.pending := by
  unfold State.writeItem State.writeCode
  repeat' split
  all_goals rfl

theorem State.pending_readBytes (k : Nat) (s : State) : (State.readBytes k s).pending = s.pending := by
  obtain ⟨_, _, _, _, _, _, h⟩ := State.readBytes_frame k s
  rw [h]

/-- No command's effect touches the queue. -/
theorem effect_pending (c : Instr) (s : State) : (effect c s).pending = s.pending := by
  cases c
  case powerOnReset => rfl
  case resetRelease => rfl
  case startupComplete =>
    show (if s.device = .starting then s.startUp else s).pending = _
    split
    · exact State.pending_retrainAll _
    · rfl
  case requestIntake => exact s.pending_requestFrame _ _ _
  case keepalive => exact s.pending_requestFrame _ _ _
  case noticeAck => exact s.pending_requestFrame _ _ _
  case join => exact s.pending_takeRequest _ _ State.pending_joinStep
  case acquire => exact s.pending_sessionRequest _ _
  case convert => exact s.pending_sessionRequest _ _
  case renew => exact s.pending_sessionRequest _ _
  case release => exact s.pending_sessionRequest _ _
  case cancel => exact s.pending_sessionRequest _ _
  case query => exact s.pending_sessionRequest _ _
  case list => exact s.pending_sessionRequest _ _
  case depart => exact s.pending_takeRequest _ _ State.pending_departStep
  case sweepTimerExpiry => exact (State.pending_judgeTimers _).trans (State.pending_sweepTimer _)
  case sweepVisit => exact s.pending_takeVisit
  case termTimerExpiry => exact s.pending_judgeTerm _
  case graceTimerExpiry => exact s.pending_judgeGrace _
  case lossClaim => exact s.pending_takeTimer _ _ State.pending_lossStep
  case linkLostClaim => exact s.pending_takeTimer _ _ State.pending_linkLostStep
  case graceClaim => exact s.pending_takeTimer _ _ State.pending_graceStep
  case purgeSection => exact s.pending_takePurge
  case define => exact s.pending_takeCode _ _ State.pending_defineStep
  case online => exact s.pending_takeCode _ _ State.pending_onlineStep
  case freeze => exact s.pending_takeCode _ _ State.pending_freezeStep
  case thaw => exact s.pending_takeCode _ _ State.pending_thawStep
  case offline => exact s.pending_takeCode _ _ State.pending_offlineStep
  case offlineForce => exact s.pending_takeCode _ _ State.pending_offlineForceStep
  case revoke => exact s.pending_takeCode _ _ State.pending_revokeStep
  case closeSession => exact s.pending_takeCode _ _ State.pending_closeSessionStep
  case portReset => exact s.pending_takeCode _ _ State.pending_portResetStep
  case tableClear => exact s.pending_takeCode _ _ State.pending_tableClearStep
  case setConfig => exact s.pending_takeCode _ _ State.pending_setConfigStep
  case badCommand => exact s.pending_takeCommand _ _ (fun _ _ => rfl)
  case registerWrite item data => exact State.pending_writeItem (s.point item) item data
  case alertRead r => exact State.pending_readBytes r.bytes (s.openRead r.goesOn)
  case recordWindowSelect => rfl
  case helloReceive => exact s.pending_helloFrame _
  case badFrame => exact s.pending_rpBadFrame _
  case discardedFrame p kind =>
    show (s.discardFrame p kind).pending = _
    unfold State.discardFrame
    dsimp only
    split <;> rfl
  case linkSilenceTimeout p =>
    show (s.silenceTimeout p).pending = _
    unfold State.silenceTimeout
    dsimp only
    split <;> simp
  case helloTransmit l => cases l <;> rfl
  case frameTransmitComplete => exact s.pending_transmitted _
  case gateHelloReceive => rfl
  case gateQuery => exact s.pending_queryFrame _ _
  case gateLookup =>
    show s.lookupOldest.pending = _
    unfold State.lookupOldest
    split
    · split <;> rfl
    · rfl
  case gateAnswerSent => rfl
  case gateBadFrame => exact s.pending_gateBad
  case gateLinkSilenceTimeout =>
    show s.gateSilence.pending = _
    unfold State.gateSilence
    split
    · rfl
    · exact State.pending_gateDown _
  case gateDiscardedFrame => rfl

end Sys2Proof.Machine

/-! SUPPORT. Events that cannot occur, or find nothing to act on, change nothing (log entry 1): the taking of a claim that
the arbiter does not present, and frames in a link state that takes none; then every command. -/

namespace Sys2Proof.Machine

/-! ### Claims that are not presented -/

/-- A ring position of a port is the position of that port (R20). -/
theorem posPort_some {pos : RingPos} {p : PortId} (h : posPort pos = some p) : pos = portPos p := by
  unfold posPort at h
  split at h
  · cases h
    rfl
  · cases h

/-- The request that the arbiter presents is the oldest of the port at the position presented (R21, R158). -/
theorem State.presentedRequest_some {s : State} {p : PortId} {rq : Request} {rest : List Request} (hr : s.resetN = true)
    (h : s.presentedRequest = some (p, rq, rest)) : s.takesRequest p rq rest := by
  unfold State.presentedRequest at h
  split at h
  · rename_i q hq
    split at h
    · rename_i hin
      cases h
      obtain ⟨pos, hpos, hport⟩ := Option.bind_eq_some_iff.mp hq
      exact ⟨⟨hr, by rw [hpos, posPort_some hport]⟩, hin⟩
    · cases h
  · cases h

theorem State.takeRequest_void {s : State} {k : ReqKind} (hr : s.resetN = true) (h : ¬ s.takesKind k)
    (step : PortId → Request → State → State) : s.takeRequest k step = s := by
  unfold State.takeRequest
  split
  · rename_i hp
    rw [if_neg fun hk => h ⟨_, _, _, State.presentedRequest_some hr hp, hk⟩]
  · rfl

theorem State.sessionRequest_void {s : State} {k : ReqKind} (hr : s.resetN = true) (h : ¬ s.takesKind k)
    (work : SessionId → Request → State → Run × Reply) : s.sessionRequest k work = s := State.takeRequest_void hr h _

theorem State.takeVisit_void {s : State} (hr : s.resetN = true) (h : ¬ s.serves 6) (step : State → State) :
    s.takeVisit step = s := by
  unfold State.takeVisit
  rw [if_neg fun hp => h ⟨hr, hp⟩]

theorem State.takeTimer_void {s : State} {k : TimerKind} (hr : s.resetN = true) (h : ¬ s.takesTimerKind k)
    (step : TimerClaim → State → State) : s.takeTimer k step = s := by
  unfold State.takeTimer
  split
  · rename_i hp
    split
    · rename_i hq
      rw [if_neg fun hk => h ⟨_, _, ⟨⟨hr, hp⟩, hq⟩, hk⟩]
    · rfl
  · rfl

theorem State.takePurge_void {s : State} (hr : s.resetN = true) (h : ¬ s.serves 8) (step : SessionId → State → State) :
    s.takePurge step = s := by
  unfold State.takePurge
  rw [if_neg fun hp => h ⟨hr, hp⟩]

theorem State.takeCommand_void {s : State} {test : Byte → Bool} (hr : s.resetN = true)
    (h : ¬ s.takesCode (fun c => test c = true)) (step : Command → State → State) : s.takeCommand test step = s := by
  unfold State.takeCommand State.presentedCommand
  split
  · rename_i c hc
    split at hc
    · rename_i hp
      rw [if_neg fun ht => h ⟨c, ⟨⟨hr, hp⟩, hc⟩, ht⟩]
    · cases hc
  · rfl

theorem State.takeCode_void {s : State} {code : Byte} (hr : s.resetN = true) (h : ¬ s.takesCode (fun c => c = code))
    (step : Command → State → State) : s.takeCode code step = s :=
  State.takeCommand_void hr (by simpa only [decide_eq_true_eq] using h) step

/-! ### Timers that are not RUNNING or not due -/

theorem State.judgeTerm_void {s : State} {i : SessionId}
    (h : ¬ ∃ d, (s.session i).term = .running d ∧ (s.clock - d).toNat < 2147483648) : s.judgeTerm i = s := by
  unfold State.judgeTerm
  split
  · rename_i d hd
    rw [if_neg fun hp => h ⟨d, hd, (passed_iff _ _).mp hp⟩]
  · rfl
  · rfl

theorem State.judgeGrace_void {s : State} {i : SessionId}
    (h : ¬ ∃ d, (s.session i).grace = .running d ∧ (s.clock - d).toNat < 2147483648) : s.judgeGrace i = s := by
  unfold State.judgeGrace
  split
  · rename_i d hd
    rw [if_neg fun hp => h ⟨d, hd, (passed_iff _ _).mp hp⟩]
  · rfl
  · rfl

/-! ### Frames in a link state that takes none -/

/-- A port written back is no change. -/
theorem State.setPort_port (s : State) (p : PortId) : s.setPort p (s.port p) = s := by
  unfold State.setPort State.port upd
  simp

theorem State.rpBadFrame_down {s : State} {p : PortId} (h : (s.port p).link = .down) : s.rpBadFrame p = s := by
  unfold State.rpBadFrame
  simp only [h]

/-- A REQUEST frame on a link that is not UP is not taken; in TRAINING one of a length out of bounds is a bad frame
(R146, R148). -/
theorem State.requestFrame_void {s : State} {p : PortId} {body : List Byte} (h : (s.port p).link ≠ .up)
    (ht : (s.port p).link = .training → 1 ≤ body.length ∧ body.length ≤ 19) (tag : Tag) :
    s.requestFrame p tag body = s := by
  unfold State.requestFrame
  split
  · split
    · rfl
    · rfl
    · contradiction
  · rename_i hl
    cases hx : (s.port p).link with
    | down => exact State.rpBadFrame_down hx
    | training => exact absurd (by simpa [requestLengthOk] using ht hx) hl
    | up => contradiction

theorem State.gateBad_down {s : State} (h : s.gate.link = .down) : s.gateBad = s := by
  unfold State.gateBad
  rw [if_pos h]

theorem State.queryFrame_down {s : State} (h : s.gate.link = .down) (tag : BitVec 16) (body : List Byte) :
    s.queryFrame tag body = s := by
  unfold State.queryFrame
  rw [State.gateBad_down h]
  simp only [h, ite_self]

/-- A lookup with no query to look up, or with its answer still waiting (R133). -/
theorem State.lookupOldest_void {s : State} (hr : s.resetN = true) (h : ¬ ∃ q rest, s.looksUp q rest) :
    s.lookupOldest = s := by
  unfold State.lookupOldest
  split
  · rename_i q rest hq
    rw [if_pos]
    refine Classical.byContradiction fun hn => ?_
    refine h ⟨q, rest, hr, hq, fun r hm => ?_⟩
    simp only [List.any_eq_true, not_exists, not_and, Bool.not_eq_true] at hn
    exact hn r hm
  · rfl

/-! ### Every command -/

/-- A command whose event cannot occur, while RESET_N is high, has no effect. -/
theorem effect_void {c : Instr} {s : State} (hr : s.resetN = true) (h : ¬ s.mayAct c) : effect c s = s := by
  cases c
  case powerOnReset => exact absurd trivial h
  case resetRelease => rfl
  case startupComplete => exact if_neg fun hd => h ⟨hr, hd⟩
  case requestIntake p tag body =>
    refine State.requestFrame_void (fun hu => h ⟨hr, .inl hu⟩) (fun ht => ?_) tag
    refine Classical.byContradiction fun hl => ?_
    exact h ⟨hr, .inr ⟨ht, hl⟩⟩
  case keepalive p tag =>
    exact State.requestFrame_void (fun hu => h ⟨hr, hu⟩) (fun _ => ⟨by simp, by simp⟩) tag
  case noticeAck p tag seq =>
    exact State.requestFrame_void (fun hu => h ⟨hr, hu⟩) (fun _ => ⟨by simp, by simp [beBytes]⟩) tag
  case join => exact State.takeRequest_void hr h (fun p rq s => s.joinStep p rq)
  case acquire => exact State.sessionRequest_void hr h _
  case convert => exact State.sessionRequest_void hr h _
  case renew => exact State.sessionRequest_void hr h _
  case release => exact State.sessionRequest_void hr h _
  case cancel => exact State.sessionRequest_void hr h _
  case query => exact State.sessionRequest_void hr h _
  case list => exact State.sessionRequest_void hr h _
  case depart => exact State.takeRequest_void hr h (fun p rq s => s.departStep p rq)
  case sweepTimerExpiry => exact absurd hr h
  case sweepVisit => exact State.takeVisit_void hr h _
  case termTimerExpiry => exact State.judgeTerm_void fun hd => h ⟨hr, hd⟩
  case graceTimerExpiry => exact State.judgeGrace_void fun hd => h ⟨hr, hd⟩
  case lossClaim => exact State.takeTimer_void hr h _
  case linkLostClaim => exact State.takeTimer_void hr h _
  case graceClaim => exact State.takeTimer_void hr h _
  case purgeSection => exact State.takePurge_void hr h _
  case define => exact State.takeCode_void hr h _
  case online => exact State.takeCode_void hr h _
  case freeze => exact State.takeCode_void hr h _
  case thaw => exact State.takeCode_void hr h _
  case offline => exact State.takeCode_void hr h _
  case offlineForce => exact State.takeCode_void hr h _
  case revoke => exact State.takeCode_void hr h _
  case closeSession => exact State.takeCode_void hr h _
  case portReset => exact State.takeCode_void hr h _
  case tableClear => exact State.takeCode_void hr h _
  case setConfig => exact State.takeCode_void hr h _
  case badCommand =>
    refine State.takeCommand_void (test := namesNoCommand) hr (fun hc => h ?_) (fun _ s => s.refuseCommand .badCommand)
    simpa [State.mayAct, State.takesCode, namesNoCommand] using hc
  case registerWrite => exact absurd hr h
  case alertRead => exact absurd hr h
  case recordWindowSelect => exact absurd hr h
  case helloReceive p =>
    have hd : (s.port p).link = .down := Classical.byContradiction fun hd => h ⟨hr, hd⟩
    show s.helloFrame p = s
    unfold State.helloFrame
    simp only [hd]
  case badFrame p => exact State.rpBadFrame_down (Classical.byContradiction fun hd => h ⟨hr, hd⟩)
  case discardedFrame p kind =>
    show s.discardFrame p kind = s
    unfold State.discardFrame
    dsimp only
    split
    · rename_i hu
      exact absurd ⟨hr, hu, .inl rfl⟩ h
    · rename_i hu
      exact absurd ⟨hr, hu, .inr rfl⟩ h
    · rfl
  case linkSilenceTimeout p => exact if_neg fun hu => h ⟨hr, hu⟩
  case helloTransmit l =>
    cases l with
    | rp p =>
      have hx : (s.port p).beginHello = s.port p := if_neg fun hb => h ⟨hr, hb⟩
      show s.setPort p (s.port p).beginHello = s
      rw [hx, State.setPort_port]
    | gate =>
      have hx : s.gate.beginHello = s.gate := if_neg fun hb => h ⟨hr, hb⟩
      show { s with gate := s.gate.beginHello } = s
      rw [hx]
  case frameTransmitComplete p =>
    have hn : (s.port p).tx = none := Classical.byContradiction fun hn => h ⟨hr, hn⟩
    show s.transmitted p = s
    unfold State.transmitted
    rw [hn]
  case gateHelloReceive =>
    have hd : s.gate.link = .down := Classical.byContradiction fun hd => h ⟨hr, hd⟩
    show s.setGate s.gate.helloFrame = s
    unfold Gate.helloFrame
    rw [hd]
    rfl
  case gateQuery => exact State.queryFrame_down (Classical.byContradiction fun hd => h ⟨hr, hd⟩) _ _
  case gateLookup => exact State.lookupOldest_void hr h
  case gateAnswerSent =>
    have hn : s.gate.tx = none := Classical.byContradiction fun hn => h ⟨hr, hn⟩
    show s.setGate s.gate.answerSent = s
    unfold Gate.answerSent
    rw [hn]
    rfl
  case gateBadFrame => exact State.gateBad_down (Classical.byContradiction fun hd => h ⟨hr, hd⟩)
  case gateLinkSilenceTimeout => exact if_pos (Classical.byContradiction fun hd => h ⟨hr, hd⟩)
  case gateDiscardedFrame kind =>
    show s.setGate (s.gate.discardFrame kind) = s
    unfold Gate.discardFrame
    split
    · rfl
    · rename_i ht
      exact absurd ⟨hr, .inl ht⟩ h
    · rename_i hu
      exact absurd ⟨hr, .inr ⟨hu, rfl⟩⟩ h
    · rfl

/-- Every command answers a next state, and leaves the queue alone. -/
theorem exec_completes (c : Instr) (s : State) : ∃ t, exec c s = .next t ∧ t.pending = s.pending := by
  by_cases hp : c = .powerOnReset
  · subst hp
    exact ⟨_, rfl, rfl⟩
  by_cases hq : ∃ straps, c = .resetRelease straps
  · obtain ⟨straps, rfl⟩ := hq
    refine ⟨_, rfl, ?_⟩
    split <;> rfl
  · rw [exec_effect hp fun straps hc => hq ⟨straps, hc⟩]
    refine ⟨_, rfl, ?_⟩
    split
    · exact effect_pending c s
    · rfl

/-- A command whose event cannot occur at the state changes nothing. -/
theorem exec_void {c : Instr} {s : State} (h : ¬ s.mayAct c) : exec c s = .next s := by
  cases hr : s.resetN with
  | true => rw [exec_high hr, effect_void hr h]
  | false =>
    refine exec_low hr (fun hp => ?_) (fun straps hq => ?_)
    · subst hp
      exact h trivial
    · subst hq
      exact h hr

/-- Settles O2: no effect touches the queue (`effect_pending`), and an event that cannot occur has none
(`effect_void`). -/
theorem everyCommandCompletes : Obligations.EveryCommandCompletes :=
  fun c s => ⟨exec_completes c s, exec_void⟩

end Sys2Proof.Machine

/-! SUPPORT. Start-up, Table Clear and the arbiter: what the training of every link leaves (R131, R146), and the search of
the ring (R20). -/

namespace Sys2Proof.Machine

/-! ### Every link trains -/

/-- The training of the links changes nothing but ports and gate. -/
theorem State.retrainAll_frame (s : State) :
    s.retrainAll = { s with ports := s.retrainAll.ports, gate := s.retrainAll.gate } := by
  unfold State.retrainAll
  rw [State.gateRetrain_frame, State.retrainFold_frame]

/-- Each port after the training of the links (R146). -/
theorem State.port_retrainAll (s : State) (hd : s.device = .ready) (q : PortId) : s.retrainAll.port q =
    if (s.port q).link = .down ∧ (s.cfg q).enable = true then (s.port q).train else s.port q := by
  unfold State.retrainAll
  rw [State.port_gateRetrain, State.port_retrainFold]
  simp only [List.mem_finRange, true_and, hd, and_true]

/-- The gate after the training of the links (R131). -/
theorem State.gate_retrainAll (s : State) (hd : s.device = .ready) :
    s.retrainAll.gate = if s.gate.link = .down then s.gate.train else s.gate := by
  unfold State.retrainAll State.gateRetrain
  rw [State.retrainFold_frame]
  simp only [hd, and_true]
  split <;> rfl

/-! ### Start-up -/

/-- Settles O5. -/
theorem startupMakesReady : Obligations.StartupMakesReady := by
  intro s hr hd
  have he : effect .startupComplete s = s.startUp := if_pos hd
  have hf : s.startUp = { s.clearEngine.setDevice .ready with ports := s.startUp.ports, gate := s.startUp.gate } :=
    State.retrainAll_frame _
  have htab : s.startUp.tab = Tables.reset := by rw [hf]; rfl
  have hsess : ∀ i, s.startUp.session i = Session.freed := fun i => by rw [hf]; exact session_freedAll i
  refine ⟨s.startUp, by rw [exec_high hr, he], by rw [hf]; rfl, htab, fun n => by rw [htab]; rfl, fun i => ?_,
    by rw [hf]; rfl, by rw [hf]; rfl, by rw [hf]; rfl, by rw [hf]; rfl, fun p hp => ?_, fun hg => ?_, ?_⟩
  · rw [hsess]
    exact ⟨rfl, rfl, rfl, rfl⟩
  · have hport : s.startUp.port p = if (s.port p).link = .down ∧ (s.cfg p).enable = true then (s.port p).train
        else s.port p := State.port_retrainAll _ rfl p
    rw [hport]
    cases hx : (s.cfg p).enable with
    | true => simp [hp, Port.train]
    | false => simp
  · have hgate : s.startUp.gate = if s.gate.link = .down then s.gate.train else s.gate := State.gate_retrainAll _ rfl
    rw [hgate, if_pos hg]
    exact ⟨rfl, rfl⟩
  · conv => lhs; rw [hf]
    rw [hf]
    rfl

/-! ### Table Clear -/

/-- The state of Table Clear before the links train: cleared, DONE and READY (R178). -/
def State.tableCleared (s : State) : State := (s.clearTables.finishStatus none).setDevice .ready

/-- Every port is DOWN as the links begin to train (R162, R178). -/
theorem State.port_tableCleared (s : State) (p : PortId) : s.tableCleared.port p = (s.port p).cleared :=
  mapPorts_get (fun _ x => x.cleared) s.ports p

/-- After Table Clear the links have trained, and the rest is as the clearing left it (R178). -/
theorem State.tableClearStep_frame (s : State) (c : Command) : s.tableClearStep c =
    { s.tableCleared with ports := (s.tableClearStep c).ports, gate := (s.tableClearStep c).gate } :=
  s.tableCleared.retrainAll_frame

theorem State.tab_tableClearStep (s : State) (c : Command) : (s.tableClearStep c).tab = s.tab.clear := by
  rw [s.tableClearStep_frame]
  rfl

theorem State.gate_tableClearStep (s : State) (c : Command) : (s.tableClearStep c).gate = s.gate.cleared.train :=
  s.tableCleared.gate_retrainAll rfl

theorem State.port_tableClearStep (s : State) (c : Command) (p : PortId) : (s.tableClearStep c).port p =
    if (s.cfg p).enable = true then (s.port p).cleared.train else (s.port p).cleared := by
  have hport : (s.tableClearStep c).port p = _ := s.tableCleared.port_retrainAll rfl p
  have hdown : (s.port p).cleared.link = .down := rfl
  rw [hport, State.port_tableCleared]
  simp only [hdown, true_and]
  rfl

/-- Settles O43. -/
theorem tableClearClears : Obligations.TableClearClears := by
  intro s c ht hc hs
  refine ⟨_, exec_command ht hc .tableClear State.tableClearStep rfl, ?_, fun n => ?_, fun v => ?_, ?_, fun i => ?_, ?_, ?_,
    fun p => ?_, ?_⟩
  · conv => lhs; rw [State.tableClearStep_frame]
    rw [State.tab_tableClearStep]
    rfl
  · rw [State.tab_tableClearStep]
    exact SlotTable.get_clearAll s.tab.slots n hs.wf.1
  · rw [State.tab_tableClearStep]
    exact ⟨indexOf_reset v, waitList_reset v, rfl⟩
  · rw [State.tab_tableClearStep]; rfl
  · rw [State.tab_tableClearStep]
    exact slotCount_reset i
  · rw [State.tab_tableClearStep]; rfl
  · rw [State.tab_tableClearStep]; rfl
  · rw [State.port_tableClearStep]
    show _ ∧ _ ∧ _ ∧ _ ∧ _ ∧ _ ∧ _ = if (s.cfg p).enable = true then LinkState.training else LinkState.down
    have hcfg : ({ s with lastServed := 9 } : State).cfg p = s.cfg p := rfl
    rw [hcfg]
    split <;> exact ⟨rfl, rfl, rfl, rfl, rfl, rfl, rfl⟩
  · rw [State.gate_tableClearStep]
    exact ⟨rfl, rfl, rfl, rfl, rfl, rfl, rfl, rfl⟩

/-! ### The arbiter -/

/-- The claims of Table 1-1: which ring position has one (R21). -/
def State.Claims (s : State) (q : RingPos) : Prop :=
  (∃ p : PortId, q.val = p.val ∧ (s.port p).inbox ≠ []) ∨ (q = 6 ∧ s.visitPending = true) ∨
    (q = 7 ∧ s.timersQueue ≠ []) ∨ (q = 8 ∧ s.purgeQueue ≠ []) ∨ (q = 9 ∧ s.waiting ≠ none)

/-- The model's test of a ring position finds its claim. -/
theorem State.hasClaim_iff (s : State) (q : RingPos) : s.hasClaim q = true ↔ s.Claims q := by
  unfold State.hasClaim State.Claims
  by_cases h6 : q.val < 6
  · have hport : (∃ p : PortId, q.val = p.val ∧ (s.port p).inbox ≠ []) ↔ (s.port ⟨q.val, h6⟩).inbox ≠ [] := by
      constructor
      · rintro ⟨p, hp, hin⟩
        rwa [show (⟨q.val, h6⟩ : PortId) = p from Fin.ext hp]
      · exact fun hin => ⟨_, rfl, hin⟩
    have hne : q ≠ 6 ∧ q ≠ 7 ∧ q ≠ 8 ∧ q ≠ 9 := by
      refine ⟨?_, ?_, ?_, ?_⟩ <;> rintro rfl <;> exact absurd h6 (by decide)
    rw [dif_pos h6, hport]
    simp [hne]
  · have hport : ¬ ∃ p : PortId, q.val = p.val ∧ (s.port p).inbox ≠ [] := fun ⟨p, hp, _⟩ => h6 (hp ▸ p.isLt)
    have at6 : q = 6 ↔ q.val = 6 := Fin.ext_iff
    have at7 : q = 7 ↔ q.val = 7 := Fin.ext_iff
    have at8 : q = 8 ↔ q.val = 8 := Fin.ext_iff
    have at9 : q = 9 ↔ q.val = 9 := Fin.ext_iff
    have hq : q.val = 6 ∨ q.val = 7 ∨ q.val = 8 ∨ q.val = 9 := by omega
    rw [dif_neg h6, or_iff_right hport, at6, at7, at8, at9]
    obtain hv | hv | hv | hv := hq <;> simp [hv, Option.isSome_iff_ne_none]

/-- The search of a fixed array finds the lowest index that passes, and nothing else. -/
theorem find_finRange_iff {n : Nat} (test : Fin n → Bool) (k : Fin n) :
    (List.finRange n).find? test = some k ↔ test k = true ∧ ∀ j, j < k → test j = false := by
  refine ⟨fun h => ⟨List.find?_some h, fun j hj => ?_⟩, fun h => find_lowest test k h.1 h.2⟩
  rw [List.find?_eq_some_iff_getElem] at h
  obtain ⟨-, i, hi, hk, hl⟩ := h
  have hik : i = k.val := by rw [← hk]; simp
  have := hl j.val (by omega)
  simpa using this

/-- Going round the ring from `a` by `k` places ends `k` places after `a`. -/
theorem ringPos_add_sub (a k : RingPos) : a + k - a = k := by
  refine Fin.ext ?_
  simp only [Fin.sub_def, Fin.add_def]
  omega

/-- Going round the ring from `a` to the place of `q` ends at `q`. -/
theorem ringPos_sub_add (a q : RingPos) : a + (q - a) = q := by
  refine Fin.ext ?_
  simp only [Fin.sub_def, Fin.add_def]
  omega

/-- The place of a position in the search, which begins after the position last served (R20). -/
theorem ringPos_eq_iff (last pos k : RingPos) : last + 1 + k = pos ↔ k = pos - (last + 1) :=
  ⟨fun h => by rw [← h, ringPos_add_sub], fun h => by rw [h, ringPos_sub_add]⟩

/-- The search of the ring finds the first claim after the position last served (R20). -/
theorem ringFrom_find_iff (last pos : RingPos) (test : RingPos → Bool) : (ringFrom last).find? test = some pos ↔
    test pos = true ∧ ∀ q : RingPos, (q - (last + 1)).val < (pos - (last + 1)).val → test q = false := by
  unfold ringFrom
  rw [List.find?_map, Option.map_eq_some_iff]
  simp only [ringPos_eq_iff, exists_eq_right]
  rw [find_finRange_iff]
  simp only [Function.comp_apply, ringPos_sub_add, and_congr_right_iff]
  refine fun _ => ⟨fun h q hq => ?_, fun h k hk => ?_⟩
  · have := h (q - (last + 1)) hq
    rwa [ringPos_sub_add] at this
  · refine h (last + 1 + k) ?_
    rw [ringPos_add_sub]
    exact hk

/-- Settles O6: the search of the ring is `ringFrom_find_iff`, the claim of each position `State.hasClaim_iff`. -/
theorem arbiterSearchesTheRing : Obligations.ArbiterSearchesTheRing := by
  intro s pos
  have void : ∀ q, s.hasClaim q = false ↔ ¬ s.Claims q := fun q => by rw [← s.hasClaim_iff, Bool.not_eq_true]
  show (s.presented = some pos ↔ s.device = .ready ∧ s.engine = .idle ∧ s.Claims pos ∧
      ∀ q : RingPos, (q - (s.lastServed + 1)).val < (pos - (s.lastServed + 1)).val → ¬ s.Claims q) ∧
    (s.presented = none ↔ s.device ≠ .ready ∨ s.engine ≠ .idle ∨ ∀ q, ¬ s.Claims q)
  unfold State.presented
  by_cases hi : s.device = .ready ∧ s.engine = .idle
  · rw [if_pos hi]
    refine ⟨?_, ?_⟩
    · rw [ringFrom_find_iff]
      simp only [hi, true_and, s.hasClaim_iff, void]
    · have hmem : ∀ q, q ∈ ringFrom s.lastServed := fun q =>
        List.mem_map.mpr ⟨q - (s.lastServed + 1), List.mem_finRange _, ringPos_sub_add _ _⟩
      simp only [List.find?_eq_none, hi, hmem, s.hasClaim_iff, true_implies, ne_eq, not_true_eq_false, false_or]
  · rw [if_neg hi]
    refine ⟨⟨nofun, fun ⟨hd, he, _⟩ => absurd ⟨hd, he⟩ hi⟩, ⟨fun _ => ?_, fun _ => rfl⟩⟩
    by_cases hd : s.device = .ready
    · exact .inr (.inl fun he => hi ⟨hd, he⟩)
    · exact .inl hd

end Sys2Proof.Machine

/-! SUPPORT. The requests of an ACTIVE session: the step that runs the request's work, the three steps of a handle's check
(R6), and what a QUERY reports (R71, R72). -/

namespace Sys2Proof.Machine

/-! ### A request is taken -/

/-- The engine takes the request of an ACTIVE session and runs its work (R21, R26). -/
theorem exec_request {s : State} {p : PortId} {i : SessionId} {rq : Request} {rest : List Request}
    (h : s.takesFor p i rq rest) (c : Instr) {k : ReqKind} (work : SessionId → Request → State → Run × Reply)
    (hc : effect c s = s.sessionRequest k work) (hk : rq.body.kind? = some k) :
    exec c s = .next ((s.takeInbox p rest).answerRequest p rq.tag k (some i) (work i rq (s.takeInbox p rest)).2
      (work i rq (s.takeInbox p rest)).1) := by
  obtain ⟨⟨⟨hr, _⟩, _⟩, _⟩ := id h
  rw [exec_high hr, hc, State.sessionRequest_eq h hk]

/-- A request whose work refuses it is turned down. -/
theorem exec_refused {s : State} {p : PortId} {i : SessionId} {rq : Request} {rest : List Request}
    (h : s.takesFor p i rq rest) (c : Instr) {k : ReqKind} (work : SessionId → Request → State → Run × Reply)
    (hc : effect c s = s.sessionRequest k work) (hk : rq.body.kind? = some k) {st : Status}
    (hw : work i rq (s.takeInbox p rest) = refusal (Run.start s) st) :
    ∃ t, exec c s = .next t ∧ s.turnedDown t p i rq rest k st :=
  ⟨_, exec_request h c work hc hk, State.turnedDown_step hw⟩

/-! ### The check of a handle -/

/-- A CONVERT in form whose handle fails its check is refused (R6, R34). -/
theorem convertWork_fault {s : State} {i : SessionId} {rq : Request} {c : ConvertReq} {st : Status}
    (hb : rq.body = .convert c) (hl : ∀ w, c.waitLimit = some w → 1 ≤ w ∧ w ≤ 60000)
    (hf : s.tab.checkHandle i c.handle = .error st) : convertWork i rq s = refusal (Run.start s) st := by
  have ht : (Run.start s).tab = s.tab := rfl
  unfold convertWork convertChecked
  simp only [hb, (waitLimitOk_iff _).mpr hl, Bool.true_eq_false, if_false, ht, hf]

/-- A RENEW in form whose handle fails its check is refused (R6, R62). -/
theorem renewWork_fault {s : State} {i : SessionId} {rq : Request} {h : Handle} {hold : Option Nat} {st : Status}
    (hb : rq.body = .renew h hold) (hl : ∀ x, hold = some x → 10 ≤ x ∧ x ≤ 3600000)
    (hf : s.tab.checkHandle i h = .error st) : renewWork i rq s = refusal (Run.start s) st := by
  have ht : (Run.start s).tab = s.tab := rfl
  unfold renewWork renewChecked
  simp only [hb, (holdOk_iff _).mpr hl, Bool.true_eq_false, if_false, ht, hf]

/-- A RELEASE whose handle fails its check is refused (R6, R58). -/
theorem releaseWork_fault {s : State} {i : SessionId} {rq : Request} {h : Handle} {st : Status}
    (hb : rq.body = .release h) (hf : s.tab.checkHandle i h = .error st) :
    releaseWork i rq s = refusal (Run.start s) st := by
  have ht : (Run.start s).tab = s.tab := rfl
  unfold releaseWork releaseChecked
  simp only [hb, ht, hf]

/-- Settles O23: the handle's check answers the status of its first failing step (`State.checkHandle_fault`), and each of
the three requests is refused with it. -/
theorem handleChecked : Obligations.HandleChecked := by
  intro s p i rq rest h st ht hf
  have hx : (s.takeInbox p rest).tab.checkHandle i h = .error st := State.checkHandle_fault hf
  refine ⟨fun c hb hh hl => ?_, fun hold hb hl => ?_, fun hb => ?_⟩
  · subst hh
    exact exec_refused ht .convert convertWork rfl (by rw [hb]; rfl) (convertWork_fault hb hl hx)
  · exact exec_refused ht .renew renewWork rfl (by rw [hb]; rfl) (renewWork_fault hb hl hx)
  · exact exec_refused ht .release releaseWork rfl (by rw [hb]; rfl) (releaseWork_fault hb hx)

/-! ### QUERY -/

/-- The entry of a HELD lease (R72). -/
theorem State.queryEntry_held {s : State} {n : Nat} {l : Lease} {ten : Tenure} (h : s.tab.body n = .held l ten) :
    s.queryEntry n = some { holder := (s.session l.owner).name, mode := l.mode, start := l.start, count := l.count } := by
  unfold State.queryEntry
  rw [h]
  rfl

/-- What the overlap search finds is HELD (R15). -/
theorem Tables.overlapSearch_held {t : Tables} {v : VolumeId} {start count n : Nat}
    (h : n ∈ t.overlapSearch v start count) : ∃ l ten, t.body n = .held l ten := by
  obtain ⟨-, hn⟩ := List.mem_filter.mp h
  split at hn
  · exact ⟨_, _, ‹_›⟩
  · cases hn
  · cases hn

/-- A list of numbers, each with a value, gives a value for each, in order. -/
theorem filterMap_eq_map_of_some {α β : Type} (f : α → Option β) : ∀ l : List α, (∀ x ∈ l, (f x).isSome = true) →
    (l.filterMap f).map some = l.map f
  | [], _ => rfl
  | a :: l, h => by
    obtain ⟨b, hb⟩ := Option.isSome_iff_exists.mp (h a List.mem_cons_self)
    rw [List.filterMap_cons, List.map_cons, hb]
    exact congrArg (some b :: ·) (filterMap_eq_map_of_some f l fun x hx => h x (List.mem_cons_of_mem _ hx))

/-- What a QUERY reports of the list `ns` of HELD leases that it found: one entry for each of the first 8, in their order,
and whether there are more (R72). `found` is the same list, written otherwise. -/
theorem State.queryEntries_spec (s : State) {ns found : List Nat} (h : ∀ n ∈ ns, ∃ l ten, s.tab.body n = .held l ten)
    (hf : ns = found) :
    decide (8 < ns.length) = decide (8 < found.length) ∧
      ((ns.take 8).filterMap s.queryEntry).length = min 8 found.length ∧
      ∀ k n l ten, k < 8 → found[k]? = some n → s.tab.body n = .held l ten →
        ((ns.take 8).filterMap s.queryEntry)[k]? =
          some { holder := (s.session l.owner).name, mode := l.mode, start := l.start, count := l.count } := by
  subst hf
  have hsome : ∀ n ∈ ns.take 8, (s.queryEntry n).isSome = true := by
    intro n hn
    obtain ⟨l, ten, hb⟩ := h n (List.mem_of_mem_take hn)
    rw [State.queryEntry_held hb]
    rfl
  have heq := filterMap_eq_map_of_some s.queryEntry _ hsome
  refine ⟨rfl, ?_, fun k n l ten hk hn hb => ?_⟩
  · have := congrArg List.length heq
    rwa [List.length_map, List.length_map, List.length_take] at this
  · have := congrArg (·[k]?) heq
    simp only [List.getElem?_map, List.getElem?_take_of_lt hk, hn, Option.map_some, State.queryEntry_held hb,
      Option.map_eq_some_iff, Option.some.injEq, exists_eq_right] at this
    exact this

/-- The reply of a QUERY whose count is 0 (R71). -/
theorem State.queryChecked_empty (s : State) (volume start : Nat) :
    s.queryChecked volume start 0 = .final .badRequest .empty := if_pos rfl

/-- The reply of a QUERY for a volume that is not in service (R71). -/
theorem State.queryChecked_noVolume {s : State} {volume start count : Nat} (hc : 0 < count)
    (hv : s.tab.inService volume = none) : s.queryChecked volume start count = .final .badVolume .empty := by
  unfold State.queryChecked
  rw [if_neg (Nat.ne_of_gt hc), hv]

/-- The reply of a QUERY on a volume in service (R71, R72). -/
theorem State.queryChecked_volume {s : State} {volume start count : Nat} {v : VolumeId} (hc : 0 < count)
    (hv : s.tab.inService volume = some v) : s.queryChecked volume start count =
      if (s.tab.volume v).size < start + count then .final .badRange .empty
      else .final .ok (.leases (((s.tab.overlapSearch v start count).take 8).filterMap s.queryEntry)
        (decide (8 < (s.tab.overlapSearch v start count).length))) := by
  unfold State.queryChecked
  rw [if_neg (Nat.ne_of_gt hc), hv]

/-- A QUERY is always answered at once (R71). -/
theorem State.queryChecked_final (s : State) (volume start count : Nat) :
    ∃ st res, s.queryChecked volume start count = .final st res := by
  unfold State.queryChecked
  split
  · exact ⟨_, _, rfl⟩
  · split
    · exact ⟨_, _, rfl⟩
    · split <;> exact ⟨_, _, rfl⟩

/-- The step of a QUERY gives its reply and changes no table (R71). -/
theorem queryWork_eq {s : State} {i : SessionId} {rq : Request} {volume start count : Nat}
    (hb : rq.body = .query volume start count) :
    queryWork i rq s = (Run.start s, s.queryChecked volume start count) := by
  unfold queryWork
  simp only [hb]

/-- Settles O27: each check's reply is one of the `State.queryChecked_…` lemmas, and the entries are counted by
`State.queryEntries_spec`. -/
theorem queryReports : Obligations.QueryReports := by
  intro s p i rq rest ht
  refine ⟨fun hb => ?_, fun volume start count hb => ?_⟩
  · exact exec_refused ht .query queryWork rfl (by rw [hb]; rfl) (by unfold queryWork; simp only [hb]; rfl)
  have hw : queryWork i rq (s.takeInbox p rest) = (Run.start s, s.queryChecked volume start count) := queryWork_eq hb
  have step : ∀ st res, s.queryChecked volume start count = .final st res →
      s.finalAnswer _ p i rq rest .query st res [] ∧ _ = s.tab := fun st res hq =>
    State.finalAnswer_step (hw.trans (by rw [hq])) rfl rfl rfl rfl
  refine ⟨_, exec_request ht .query queryWork rfl (by rw [hb]; rfl), ?_, fun h0 => ?_, fun hc hv => ?_,
    fun v hc hn hv => ⟨fun hsz => ?_, fun hsz hs => ?_⟩⟩
  · obtain ⟨st, res, hq⟩ := s.queryChecked_final volume start count
    exact (step st res hq).2
  · subst h0
    exact step _ _ (s.queryChecked_empty volume start)
  · exact step _ _ (State.queryChecked_noVolume hc (Tables.inService_none hv))
  · exact step _ _ ((State.queryChecked_volume hc (Tables.inService_eq hn hv)).trans (if_pos hsz))
  · refine ⟨_, _, (step _ _ ((State.queryChecked_volume hc (Tables.inService_eq hn hv)).trans
      (if_neg (Nat.not_lt.mpr hsz)))).1,
      s.queryEntries_spec (fun n => Tables.overlapSearch_held) (List.filter_congr fun n _ => ?_)⟩
    cases s.tab.body n <;> rfl

end Sys2Proof.Machine

/-! SUPPORT. Grants and parking at once: what a slot that becomes non-FREE, an entry that joins the pool and the recall of
the blockers leave (R4, R16, R31, R33, R38, R64). -/

namespace Sys2Proof.Machine

/-! ### The completion of a step that grants or parks -/

/-- A request whose work answers it at once, with alerts and no pass due. -/
theorem State.finalAnswer_alerts {s : State} {p : PortId} {i : SessionId} {rq : Request} {rest : List Request} {k : ReqKind}
    {st : Status} {res : Result} {r : Run} {w : Run × Reply} (hw : w = (r, .final st res)) (hd : r.due = [])
    (hc : r.cache = []) (hn : r.notices = []) :
    s.finalAnswer ((s.takeInbox p rest).answerRequest p rq.tag k (some i) w.2 w.1) p i rq rest k st res r.alerts ∧
      ((s.takeInbox p rest).answerRequest p rq.tag k (some i) w.2 w.1).tab = r.tab := by
  subst hw
  have hp := Run.runPasses_none hd
  have h := State.final_step (s := s) (p := p) (i := i) (rq := rq) rest k st res (r := r) (by rw [hp]; exact hc)
    (by rw [hp]; exact hn)
  obtain ⟨_, _, htab, _⟩ := s.answerRequest_parts p rest rq.tag k i (.final st res) r
  rw [hp] at h htab
  exact ⟨h, htab⟩

/-- A request whose work parks it, with no pass due (R27). -/
theorem State.parks_step {s : State} {p : PortId} {i : SessionId} {rq : Request} {rest : List Request} {k : ReqKind}
    {r : Run} {w : Run × Reply} (hw : w = (r, .parked)) (hd : r.due = []) (hc : r.cache = []) :
    s.parks ((s.takeInbox p rest).answerRequest p rq.tag k (some i) w.2 w.1) p i rq rest k r.notices r.alerts ∧
      ((s.takeInbox p rest).answerRequest p rq.tag k (some i) w.2 w.1).tab = r.tab := by
  subst hw
  obtain ⟨only, served, htab, hsess, halerts, halertN, hports⟩ := s.answerRequest_parts p rest rq.tag k i .parked r
  rw [Run.runPasses_none hd] at htab hsess halerts halertN
  rw [hc] at hsess halerts halertN
  exact ⟨⟨only, served, hports, hsess, halerts, halertN⟩, htab⟩

/-! ### A slot that becomes non-FREE -/

/-- The alert of a slot that becomes non-FREE (R17). -/
theorem Run.alerts_makeSlot (s : State) (n : Nat) (i : SessionId) (b : SlotBody) :
    ((Run.start s).makeSlot n i b).alerts = s.highAlert := by
  unfold Run.makeSlot State.highAlert
  dsimp only
  split
  · next h => exact (if_pos h).symm
  · next h => exact (if_neg h).symm

theorem Run.notices_makeSlot (r : Run) (n : Nat) (i : SessionId) (b : SlotBody) :
    (r.makeSlot n i b).notices = r.notices := by
  unfold Run.makeSlot
  dsimp only
  split <;> rfl

theorem Tables.body_makeSlot (t : Tables) (n m : Nat) (i : SessionId) (b : SlotBody) :
    (t.makeSlot n i b).body m = if m = n then b else t.body m := t.body_setBody n m b

theorem Tables.gen_setBody (t : Tables) (n m : Nat) (b : SlotBody) :
    ((t.setBody n b).slots.get m).gen = (t.slots.get m).gen := by
  show ((t.slots.set n _).get m).gen = _
  rw [SlotTable.get_set]
  split
  · next h => rw [h]
  · rfl

/-- Tables with the generation and the counts that `makeSlot` leaves (R4, R16). -/
theorem Tables.madeSlot_of {t u : Tables} {n : Nat} {i : SessionId} (hg : (u.slots.get n).gen = (t.slots.get n).gen)
    (ho : u.occupancy = t.occupancy + 1) (hc : u.slotCounts = upd t.slotCounts i (t.slotCount i + 1)) :
    t.madeSlot u n i := by
  refine ⟨hg, ho, fun j => ?_⟩
  have hj : u.slotCount j = (upd t.slotCounts i (t.slotCount i + 1))[j] := congrArg (fun v : Vector Nat 12 => v[j]) hc
  rw [hj, upd_get]
  by_cases h : i = j
  · subst h; simp
  · rw [if_neg h, if_neg (Ne.symm h)]
    rfl

/-! ### An ACQUIRE that is granted -/

/-- An ACQUIRE that is grantable now, with a token for it if it needs one, is granted (R31, R39). -/
theorem acquireIn_granted {r : Run} {n : Nat} {l : Lease} (noWait : Bool) (limit : Option Nat) (h : r.tab.Sound)
    (hf : r.tab.freeFor l) (hx : l.mode = .exclusive → (r.tab.volume l.volume).fence < 4294967295) :
    acquireIn r n l noWait limit = (r.grantNow n l, .final .ok (grantResult r.tab n l)) := by
  have hnot : r.tab.exhaustedFor l.mode l.volume = false := by
    rw [Tables.exhaustedFor, Bool.and_eq_false_imp]
    intro hm
    rw [decide_eq_true_eq] at hm
    exact decide_eq_false (Nat.not_le.mpr (hx hm))
  unfold acquireIn
  rw [if_pos ((h.grantableNow_iff l).mpr hf), hnot]
  rfl

/-- The token of a grant (R7). -/
theorem Tables.tokenFor_eq (t : Tables) (m : Mode) (v : VolumeId) :
    t.tokenFor m v = if m = .exclusive then some ((t.volume v).fence + 1) else none := by
  cases m <;> rfl

/-- The slots of the tables that a grant leaves. -/
theorem Run.slots_grantNow (r : Run) (n m : Nat) (l : Lease) : (r.grantNow n l).tab.slots.get m = if m = n
    then { gen := (r.tab.slots.get n).gen,
           body := .held l (Tenure.granted r.now l (r.tab.tokenFor l.mode l.volume)) }
    else r.tab.slots.get m := by
  rw [Run.grantNow_tab]
  show (Tables.slots (Tables.drawFor _ _ _)).get m = _
  rw [Tables.slots_drawFor]
  exact SlotTable.get_set ..

/-- The index lists of the tables that a grant leaves (R14). -/
theorem Run.mem_indexOf_grantNow (r : Run) (n m : Nat) (l : Lease) (w : VolumeId) :
    m ∈ (r.grantNow n l).tab.indexOf w ↔ m ∈ r.tab.indexOf w ∨ (w = l.volume ∧ m = n) := by
  have hi : ∀ b, ((r.tab.makeSlot n l.owner b).drawFor l.mode l.volume).indexOf w = r.tab.indexOf w := fun b => by
    rw [Tables.indexOf_drawFor]
    rfl
  rw [Run.grantNow_tab, Tables.indexOf_indexAdd]
  by_cases hw : l.volume = w
  · subst hw
    rw [if_pos rfl, mem_indexInsert, hi]
    simp [or_comm]
  · rw [if_neg hw, hi]
    simp [Ne.symm hw]

/-- Settles O15: a grantable ACQUIRE is granted (`acquireIn_granted`), which leaves the slots and the index lists as
`Run.slots_grantNow` and `Run.mem_indexOf_grantNow` say. -/
theorem acquireGranted : Obligations.AcquireGranted := by
  intro s p i rq rest a v n ht hb hs hm hf hx
  have hw : acquireWork i rq (s.takeInbox p rest) = ((Run.start s).grantNow n (leaseOf i v rq.tag a),
      .final .ok (grantResult s.tab n (leaseOf i v rq.tag a))) := by
    unfold acquireWork
    rw [hb]
    exact (State.mayAcquire_checked hs hm (Run.start s) rfl rq.tag).trans (acquireIn_granted _ _ hs hf hx)
  obtain ⟨hfin, htab⟩ := State.finalAnswer_alerts (s := s) (p := p) (i := i) (rq := rq) (rest := rest) (k := .acquire) hw
    (Run.due_makeSlot _ _ _ _) (Run.cache_makeSlot _ _ _ _) (Run.notices_makeSlot _ _ _ _)
  have hal : ((Run.start s).grantNow n (leaseOf i v rq.tag a)).alerts = s.highAlert := Run.alerts_makeSlot ..
  have hslot := (Run.start s).slots_grantNow n
  rw [hal, grantResult, Tables.tokenFor_eq] at hfin
  refine ⟨_, exec_request ht .acquire acquireWork rfl (by rw [hb]; rfl), hfin, ?_, ?_, fun m hne => ?_, fun w m => ?_,
    fun he w => ?_, fun he => ?_, ?_⟩
  · rw [htab]
    unfold Tables.body
    rw [hslot, if_pos rfl, Tables.tokenFor_eq]
    rfl
  · rw [htab]
    refine Tables.madeSlot_of (by rw [hslot, if_pos rfl]; rfl) ?_ ?_
    · rw [Run.grantNow_tab]
      exact Tables.occupancy_drawFor ..
    · rw [Run.grantNow_tab]
      exact Tables.slotCounts_drawFor ..
  · rw [htab, hslot, if_neg hne]
    rfl
  · rw [htab]
    exact (Run.start s).mem_indexOf_grantNow n m _ w
  · rw [htab, Run.grantNow_tab]
    refine (Tables.volume_drawFor ..).trans ?_
    show (if a.mode = .exclusive ∧ v = w then _ else _) = _
    by_cases hv : w = v
    · subst hv; rw [if_pos ⟨he, rfl⟩, if_pos rfl]; rfl
    · rw [if_neg fun h => hv h.2.symm, if_neg hv]; rfl
  · rw [htab, Run.grantNow_tab]
    show (Tables.drawFor _ a.mode _).volumes = _
    rw [he]
    rfl
  · rw [htab, Run.grantNow_tab]
    exact ⟨Tables.pool_drawFor .., Tables.waitLists_drawFor .., by cases hm : (leaseOf i v rq.tag a).mode <;> rfl⟩

end Sys2Proof.Machine

/-! SUPPORT. Requests that are parked: recall looks at the tables after the new entry has joined, and finds what it would
have found before (R33, R38, R64). -/

namespace Sys2Proof.Machine

/-! ### Tables alike in their leases -/

/-- What recall reads of a slot: its lease and its mark, if it is HELD. -/
def SlotBody.heldMark? : SlotBody → Option (Lease × Option RecallMark)
  | .free => none
  | .pending _ _ => none
  | .held l ten => some (l, ten.recallMark)

/-- Two tables with the same index, the same generations, and the same leases and marks: what a request's step leaves before
recall, when it parks the request. -/
structure Tables.HeldAlike (t u : Tables) : Prop where
  index : u.index = t.index
  gen : ∀ m, (u.slots.get m).gen = (t.slots.get m).gen
  held : ∀ m, (u.body m).heldMark? = (t.body m).heldMark?

/-- One slot's new body leaves tables alike if recall reads the same of it. -/
theorem Tables.HeldAlike.setBody {t u : Tables} {n : Nat} {b : SlotBody} (hi : u.index = t.index)
    (hu : u.slots = (t.setBody n b).slots) (hb : b.heldMark? = (t.body n).heldMark?) : t.HeldAlike u := by
  refine ⟨hi, fun m => by rw [hu]; exact t.gen_setBody n m b, fun m => ?_⟩
  have hm : u.body m = (t.setBody n b).body m := by unfold Tables.body; rw [hu]
  rw [hm, Tables.body_setBody]
  split
  · next h => rw [hb, h]
  · rfl

/-- The conflict search reads leases only (R15). -/
theorem Tables.HeldAlike.conflictSearch {t u : Tables} (h : t.HeldAlike u) (c : Lease) :
    u.conflictSearch c = t.conflictSearch c := by
  have test : ∀ x : Tables, x.conflictSearch c =
      (x.indexOf c.volume).filter (fun n => (x.body n).heldMark?.any (fun y => y.1.blocks c)) := by
    intro x
    refine List.filter_congr fun n _ => ?_
    cases x.body n <;> rfl
  have hi : u.indexOf c.volume = t.indexOf c.volume := by unfold Tables.indexOf; rw [h.index]
  rw [test, test, hi]
  simp only [h.held]

/-- The notices of a recall are read off leases, marks and generations (R64). -/
theorem Tables.HeldAlike.recallNotices {t u : Tables} (h : t.HeldAlike u) (ns : List Nat) :
    u.recallNotices ns = t.recallNotices ns := by
  have read : ∀ x : Tables, x.recallNotices ns = ns.filterMap (fun m => (x.body m).heldMark?.bind (fun y =>
      if y.2.isNone then some (y.1.owner, .recall (x.handle m)) else none)) := by
    intro x
    unfold Tables.recallNotices
    congr 1
    funext m
    cases x.body m <;> rfl
  rw [read, read]
  simp only [h.held, Tables.handle, h.gen]

/-! ### Recall for a request that is parked -/

/-- What recall of the blockers of `c` leaves of the run `r`, whose tables went out alike from `t`. -/
structure Run.RecalledFor (t : Tables) (c : Lease) (r u : Run) : Prop where
  recalled : r.Recalled u (t.conflictSearch c)
  notices : u.notices = r.notices ++ t.recallNotices (t.conflictSearch c)

/-- Recall applied to an entry with the claim `c` marks the blockers that the tables had before it joined (R64). -/
theorem Run.applyRecall_recalledFor {t : Tables} {r : Run} {e : Nat} {c : Lease} (h : t.Sound) (alike : t.HeldAlike r.tab)
    (claim : r.tab.claimOf e = some c) : Run.RecalledFor t c r (r.applyRecall e) := by
  have hb : r.tab.blockersOf e = t.conflictSearch c := by
    unfold Tables.blockersOf
    rw [claim]
    exact alike.conflictSearch c
  have hrec := Run.recall_fold (r.tab.blockersOf e) r (by rw [hb]; exact h.conflicts_nodup c)
  rw [hb] at hrec
  refine ⟨by unfold Run.applyRecall; rw [hb]; exact hrec, ?_⟩
  unfold Run.applyRecall
  rw [hb, hrec.notices, alike.recallNotices]

/-- A slot that was not HELD keeps its body through recall. -/
theorem Run.RecalledFor.free {t : Tables} {c : Lease} {r u : Run} (h : Run.RecalledFor t c r u) {m : Nat}
    (hb : r.tab.body m = .free) : u.tab.body m = .free := by
  rw [h.recalled.body, hb]

theorem Run.RecalledFor.pending {t : Tables} {c : Lease} {r u : Run} (h : Run.RecalledFor t c r u) {m : Nat} {l : Lease}
    {d : Option Time} (hb : r.tab.body m = .pending l d) : u.tab.body m = .pending l d := by
  rw [h.recalled.body, hb]

/-- A HELD lease gets a mark made now if it blocks the claim and has none (R10, R64). -/
theorem Run.RecalledFor.held {s : State} {c : Lease} {r u : Run} (h : Run.RecalledFor s.tab c r u) (hs : s.tab.Sound)
    (hmark : r.newMark = s.markNow) {m : Nat} {l : Lease} {ten ten' : Tenure} (hb : s.tab.body m = .held l ten')
    (hr : r.tab.body m = .held l ten) : u.tab.body m = .held l
      (if l.blocks c = true ∧ ten.recallMark = none then { ten with recallMark := some s.markNow } else ten) := by
  have hmem : m ∈ s.tab.conflictSearch c ↔ l.blocks c = true := by
    rw [hs.mem_conflicts]
    refine ⟨fun ⟨l', _, hb', hk⟩ => ?_, fun hk => ⟨l, ten', hb, hk⟩⟩
    rw [hb] at hb'
    cases hb'
    exact hk
  rw [h.recalled.body, hr]
  dsimp only
  unfold Run.marked
  rw [hmark]
  by_cases hk : l.blocks c = true
  · rw [if_pos (hmem.mpr hk)]
    simp only [hk, true_and]
  · rw [if_neg fun hm => hk (hmem.mp hm), if_neg fun x => hk x.1]

/-- Recall produces nothing but notices. -/
theorem Run.RecalledFor.results {t : Tables} {c : Lease} {r u : Run} (h : Run.RecalledFor t c r u) :
    u.cache = r.cache ∧ u.alerts = r.alerts ∧ u.due = r.due := by
  rw [h.recalled.same]
  exact ⟨rfl, rfl, rfl⟩

/-! ### An entry that joins the pool -/

/-- Tables with the pool, the list and the arrival number that `addEntry` leaves (R40, R41). -/
theorem Tables.entryAdded_of {t u : Tables} {e : Nat} {k : WaitKind} {n : Nat} {v : VolumeId}
    (he : t.lowestFreeEntry = some e) (hp : u.pool = (t.addEntry e k n v).pool)
    (hl : u.waitLists = (t.addEntry e k n v).waitLists) (ha : u.arrival = t.arrival + 1) :
    t.entryAdded u e { kind := k, slot := n, volume := v, arrival := t.arrival + 1 } := by
  obtain ⟨hlt, hnone, hlow⟩ := Tables.lowestFreeEntry_spec he
  refine ⟨hlt, hnone, hlow, rfl, fun d => ?_, ha, fun x => ?_⟩
  · rw [hp]
    exact lookupKey_insert ..
  · have hx : u.waitList x = (t.addEntry e k n v).waitList x := by unfold Tables.waitList; rw [hl]
    rw [hx, Tables.waitList_addEntry]
    by_cases h : x = v
    · subst h; simp
    · rw [if_neg (Ne.symm h), if_neg h]

/-- The claim of an entry that has just joined (R43). -/
theorem Tables.claimOf_addEntry (t : Tables) (e : Nat) (k : WaitKind) (n : Nat) (v : VolumeId) :
    (t.addEntry e k n v).claimOf e =
      t.entryClaim { kind := k, slot := n, volume := v, arrival := t.arrival + 1 } := by
  have he : lookupKey e (t.addEntry e k n v).pool = some _ := (lookupKey_insert ..).trans (if_pos rfl)
  rw [Tables.claimOf_eq he]
  rfl

/-! ### An ACQUIRE that is parked -/

/-- An ACQUIRE that is not grantable and may wait is parked (R33). -/
theorem acquireIn_parked {r : Run} {n e : Nat} {l : Lease} (limit : Option Nat) (h : r.tab.Sound) (hf : ¬ r.tab.freeFor l)
    (he : r.tab.lowestFreeEntry = some e) :
    acquireIn r n l false limit = (r.parkAcquire n e l (waitDeadlineOf r.now limit), .parked) := by
  unfold acquireIn
  rw [if_neg fun hg => hf ((h.grantableNow_iff l).mp hg), he]
  rfl

/-- The run of a step that parks an ACQUIRE, before recall. -/
def Run.pended (r : Run) (n e : Nat) (l : Lease) (d : Option Time) : Run :=
  (r.makeSlot n l.owner (.pending l d)).withTab
    ((r.tab.makeSlot n l.owner (.pending l d)).addEntry e .acquire n l.volume)

theorem Run.parkAcquire_eq (r : Run) (n e : Nat) (l : Lease) (d : Option Time) :
    r.parkAcquire n e l d = (r.pended n e l d).applyRecall e := by
  unfold Run.parkAcquire
  dsimp only
  rw [Run.tab_makeSlot]
  rfl

theorem Run.body_pended (r : Run) (n e m : Nat) (l : Lease) (d : Option Time) :
    (r.pended n e l d).tab.body m = if m = n then .pending l d else r.tab.body m := r.tab.body_makeSlot n m l.owner _

theorem Run.newMark_pended (s : State) (n e : Nat) (l : Lease) (d : Option Time) :
    ((Run.start s).pended n e l d).newMark = s.markNow := by
  obtain ⟨hnow, hlimit, -⟩ := (Run.start s).settings_makeSlot n l.owner (.pending l d)
  show RecallMark.mk (if ((Run.start s).makeSlot n l.owner _).recallLimit = 0 then none else some (deadlineAt
    ((Run.start s).makeSlot n l.owner _).now ((Run.start s).makeSlot n l.owner _).recallLimit)) = _
  rw [hnow, hlimit]
  rfl

/-- Recall for an ACQUIRE that is parked in a FREE slot. -/
theorem Run.parkAcquire_recalledFor {r : Run} {n : Nat} (e : Nat) (l : Lease) (d : Option Time) (h : r.tab.Sound)
    (hn : r.tab.body n = .free) : Run.RecalledFor r.tab l (r.pended n e l d) (r.parkAcquire n e l d) := by
  rw [Run.parkAcquire_eq]
  refine Run.applyRecall_recalledFor h (.setBody (n := n) (b := .pending l d) rfl rfl (by rw [hn]; rfl)) ?_
  have hb : (r.tab.makeSlot n l.owner (.pending l d)).body n = .pending l d :=
    (r.tab.body_makeSlot ..).trans (if_pos rfl)
  refine (Tables.claimOf_addEntry ..).trans ?_
  unfold Tables.entryClaim
  rw [hb]

/-- The tables that an ACQUIRE parked in the FREE slot `n` leaves (R33). -/
theorem State.parkAcquire_leaves {s : State} {n e : Nat} (l : Lease) (d : Option Time) (hs : s.tab.Sound)
    (hn : s.tab.body n = .free) (he : s.tab.lowestFreeEntry = some e) {u : Tables}
    (hu : u = ((Run.start s).parkAcquire n e l d).tab) :
    u.body n = .pending l d ∧ s.tab.madeSlot u n l.owner ∧ s.recalledFor u l ∧
      (∀ m, (u.slots.get m).gen = (s.tab.slots.get m).gen) ∧
      (∀ m k x, s.tab.body m = .pending k x → u.body m = .pending k x) ∧
      (∀ m, m ≠ n → s.tab.body m = .free → u.body m = .free) ∧
      s.tab.entryAdded u e { kind := .acquire, slot := n, volume := l.volume, arrival := s.tab.arrival + 1 } ∧
      u.index = s.tab.index ∧ u.volumes = s.tab.volumes := by
  subst hu
  have hrec := Run.parkAcquire_recalledFor (r := Run.start s) e l d hs hn
  have hrest := hrec.recalled.rest
  have hbody := fun m => (Run.start s).body_pended n e m l d
  have other : ∀ m, m ≠ n → ((Run.start s).pended n e l d).tab.body m = s.tab.body m := fun m hm =>
    (hbody m).trans (if_neg hm)
  have notn : ∀ m, s.tab.body m ≠ .free → m ≠ n := fun m hm h => hm (h ▸ hn)
  have hgen := fun m => (hrec.recalled.gen m).trans (s.tab.gen_setBody n m (.pending l d))
  refine ⟨hrec.pending ((hbody n).trans (if_pos rfl)), Tables.madeSlot_of (hgen n) (by rw [hrest]; rfl) (by rw [hrest]; rfl),
    fun m k ten hb => ?_, hgen, fun m k x hb => ?_, fun m hm hb => hrec.free ((other m hm).trans hb),
    Tables.entryAdded_of he (by rw [hrest]; rfl) (by rw [hrest]; rfl) (by rw [hrest]; rfl), by rw [hrest]; rfl, by rw [hrest]; rfl⟩
  · exact hrec.held hs (Run.newMark_pended s n e l d) hb ((other m (notn m (by rw [hb]; nofun))).trans hb)
  · exact hrec.pending ((other m (notn m (by rw [hb]; nofun))).trans hb)

/-- Settles O17: the step parks the ACQUIRE (`acquireIn_parked`), which leaves the tables of `State.parkAcquire_leaves`. -/
theorem acquireParked : Obligations.AcquireParked := by
  intro s p i rq rest a v n e ht hb hs hm hf hnw he
  obtain ⟨-, hn, -⟩ := hm.slot
  have hw : acquireWork i rq (s.takeInbox p rest) = ((Run.start s).parkAcquire n e (leaseOf i v rq.tag a)
      (waitDeadlineOf s.clock a.waitLimit), .parked) := by
    unfold acquireWork
    rw [hb]
    refine (State.mayAcquire_checked hs hm (Run.start s) rfl rq.tag).trans ?_
    rw [hnw]
    exact acquireIn_parked _ hs hf he
  have hrec := Run.parkAcquire_recalledFor (r := Run.start s) e (leaseOf i v rq.tag a)
    (waitDeadlineOf s.clock a.waitLimit) hs hn
  obtain ⟨hcache, halerts, hdue⟩ := hrec.results
  obtain ⟨hparks, htab⟩ := State.parks_step (s := s) (p := p) (i := i) (rq := rq) (rest := rest) (k := .acquire) hw
    (hdue.trans (Run.due_makeSlot ..)) (hcache.trans (Run.cache_makeSlot ..))
  have hnotes : ((Run.start s).parkAcquire n e (leaseOf i v rq.tag a) (waitDeadlineOf s.clock a.waitLimit)).notices =
      s.tab.recallNotices (s.tab.conflictSearch (leaseOf i v rq.tag a)) := by
    rw [hrec.notices]
    exact (congrArg (· ++ _) (Run.notices_makeSlot ..)).trans (List.nil_append _)
  rw [hnotes, halerts.trans (Run.alerts_makeSlot ..)] at hparks
  exact ⟨_, exec_request ht .acquire acquireWork rfl (by rw [hb]; rfl), hparks,
    State.parkAcquire_leaves (leaseOf i v rq.tag a) (waitDeadlineOf s.clock a.waitLimit) hs hn he htab⟩

/-! ### An upgrade that is parked -/

/-- An upgrade that is not grantable and may wait is parked (R38). -/
theorem upgrade_parked {r : Run} {n e : Nat} {l : Lease} {ten : Tenure} {tag : Tag} {c : ConvertReq} (h : r.tab.Sound)
    (hup : ten.upgrade = none) (hcon : r.tab.upgradeConflict l = false)
    (hf : (r.tab.volume l.volume).state ≠ .online ∨ ¬ r.tab.unblocked l.upgraded) (hnw : c.noWait = false)
    (he : r.tab.lowestFreeEntry = some e) : upgrade r n l ten tag c =
      (r.parkUpgrade n e l ten { tag := tag, waitDeadline := waitDeadlineOf r.now c.waitLimit }, .parked) := by
  have hnot : ¬ ((r.tab.volume l.volume).state = .online ∧ (r.tab.conflictSearch l.upgraded).isEmpty = true) := by
    rintro ⟨hon, hemp⟩
    rcases hf with hoff | hblk
    · exact hoff hon
    · exact hblk ((h.conflicts_nil _).mp (List.isEmpty_iff.mp hemp))
  unfold upgrade
  simp only [hup, Option.isSome_none, Bool.false_eq_true, if_false, hcon, if_neg hnot, hnw, he]

/-- The run of a step that parks an upgrade, before recall. -/
def Run.upgrading (r : Run) (n e : Nat) (l : Lease) (ten : Tenure) (x : PendingUpgrade) : Run :=
  r.withTab ((r.tab.setBody n (.held l { ten with upgrade := some x })).addEntry e .upgrade n l.volume)

theorem Run.body_upgrading (r : Run) (n e m : Nat) (l : Lease) (ten : Tenure) (x : PendingUpgrade) :
    (r.upgrading n e l ten x).tab.body m = if m = n then .held l { ten with upgrade := some x } else r.tab.body m :=
  r.tab.body_setBody n m _

/-- Recall for an upgrade of the lease in slot `n`: its claim is the lease's extent in mode EXCLUSIVE (R38, R64). -/
theorem Run.parkUpgrade_recalledFor {r : Run} {n : Nat} (e : Nat) {l : Lease} {ten : Tenure} (x : PendingUpgrade)
    (h : r.tab.Sound) (hn : r.tab.body n = .held l ten) :
    Run.RecalledFor r.tab l.upgraded (r.upgrading n e l ten x) (r.parkUpgrade n e l ten x) := by
  refine Run.applyRecall_recalledFor h (.setBody (n := n) (b := .held l { ten with upgrade := some x }) rfl rfl
    (by rw [hn]; rfl)) ?_
  have hb : (r.tab.setBody n (.held l { ten with upgrade := some x })).body n = .held l { ten with upgrade := some x } :=
    (r.tab.body_setBody ..).trans (if_pos rfl)
  refine (Tables.claimOf_addEntry ..).trans ?_
  unfold Tables.entryClaim
  rw [hb]
  rfl

/-- A lease does not block a claim of its own session (R12). -/
theorem Lease.blocks_own {l c : Lease} (h : l.owner = c.owner) : l.blocks c = false := by
  unfold Lease.blocks
  simp [h]

/-- The tables that a parked upgrade of the lease in slot `n` leaves (R38). -/
theorem State.parkUpgrade_leaves {s : State} {n e : Nat} {l : Lease} {ten : Tenure} (x : PendingUpgrade)
    (hs : s.tab.Sound) (hn : s.tab.body n = .held l ten) (he : s.tab.lowestFreeEntry = some e) {u : Tables}
    (hu : u = ((Run.start s).parkUpgrade n e l ten x).tab) :
    u.body n = .held l { ten with upgrade := some x } ∧
      (∀ m, m ≠ n → ∀ b bt, s.tab.body m = .held b bt → u.body m = .held b
        (if b.blocks l.upgraded = true ∧ bt.recallMark = none then { bt with recallMark := some s.markNow } else bt)) ∧
      (∀ m, (u.slots.get m).gen = (s.tab.slots.get m).gen) ∧
      (∀ m b d, s.tab.body m = .pending b d → u.body m = .pending b d) ∧
      (∀ m, s.tab.body m = .free → u.body m = .free) ∧
      s.tab.entryAdded u e { kind := .upgrade, slot := n, volume := l.volume, arrival := s.tab.arrival + 1 } ∧
      u = { s.tab with slots := u.slots, pool := u.pool, waitLists := u.waitLists, arrival := u.arrival } := by
  subst hu
  have hrec := Run.parkUpgrade_recalledFor (r := Run.start s) e x hs hn
  have hrest := hrec.recalled.rest
  have hbody := fun m => (Run.start s).body_upgrading n e m l ten x
  have other : ∀ m, m ≠ n → ((Run.start s).upgrading n e l ten x).tab.body m = s.tab.body m := fun m hm =>
    (hbody m).trans (if_neg hm)
  have notn : ∀ m, (∀ k t, s.tab.body m ≠ .held k t) → m ≠ n := fun m hm h => hm l ten (h ▸ hn)
  refine ⟨?_, fun m hm b bt hb => hrec.held hs rfl hb ((other m hm).trans hb),
    fun m => (hrec.recalled.gen m).trans (s.tab.gen_setBody n m _),
    fun m b d hb => hrec.pending ((other m (notn m fun _ _ => by rw [hb]; nofun)).trans hb),
    fun m hb => hrec.free ((other m (notn m fun _ _ => by rw [hb]; nofun)).trans hb),
    Tables.entryAdded_of he (by rw [hrest]; rfl) (by rw [hrest]; rfl) (by rw [hrest]; rfl), ?_⟩
  · have hself := hrec.held hs rfl hn ((hbody n).trans (if_pos rfl))
    have hblk : l.blocks l.upgraded = false := Lease.blocks_own rfl
    rwa [if_neg fun ⟨hx, _⟩ => Bool.false_ne_true (hblk.symm.trans hx)] at hself
  · conv => lhs; rw [hrest]
    rw [hrest]
    rfl

/-- Settles O21: the step parks the upgrade (`upgrade_parked`), which leaves the tables of `State.parkUpgrade_leaves`. -/
theorem upgradeParked : Obligations.UpgradeParked := by
  intro s p i rq rest c l ten e ht hb hs hlim hh hsh hex hup hcon hf hnw he
  have hok : s.tab.checkHandle i c.handle = .ok (l, ten) := State.checkHandle_holds hh
  obtain ⟨hn, -⟩ := Tables.checkHandle_ok hok
  have hw : convertWork i rq (s.takeInbox p rest) = ((Run.start s).parkUpgrade c.handle.slot e l ten
      { tag := rq.tag, waitDeadline := waitDeadlineOf s.clock c.waitLimit }, .parked) := by
    have htab : (Run.start (s.takeInbox p rest)).tab = s.tab := rfl
    unfold convertWork convertChecked
    simp only [hb, (waitLimitOk_iff _).mpr hlim, Bool.true_eq_false, if_false, htab, hok, hsh, hex, reduceCtorEq]
    exact upgrade_parked hs hup hcon hf hnw he
  have hrec := Run.parkUpgrade_recalledFor (r := Run.start s) e
    { tag := rq.tag, waitDeadline := waitDeadlineOf s.clock c.waitLimit } hs hn
  obtain ⟨hcache, halerts, hdue⟩ := hrec.results
  obtain ⟨hparks, htab⟩ := State.parks_step (s := s) (p := p) (i := i) (rq := rq) (rest := rest) (k := .convert) hw
    hdue hcache
  rw [hrec.notices, halerts] at hparks
  exact ⟨_, exec_request ht .convert convertWork rfl (by rw [hb]; rfl), hparks, State.parkUpgrade_leaves _ hs hn he htab⟩

end Sys2Proof.Machine

/-! SUPPORT. The laws of sessions, notices, caches, alerts and configuration, kept by every command (R27, R79, R80, R82,
R164, R177, R179, R181). -/

namespace Sys2Proof.Machine

/-- Every command keeps the laws: power-on reset has them, start-up and Table Clear leave FREE records, and the others keep
each record's laws (`effect_keeps`). -/
theorem effect_lawful (c : Instr) {s : State} (h : s.Lawful) : (effect c s).Lawful := by
  by_cases hp : c = .powerOnReset
  · subst hp
    exact lawful_reset
  by_cases hu : c = .startupComplete
  · subst hu
    show (if s.device = .starting then s.startUp else s).Lawful
    split
    · exact (startUp_lawful s).1 h
    · exact h
  by_cases hc : c = .tableClear
  · subst hc
    exact takeCode_keeps 0x0A State.tableClearStep h (fun c => (tableClear_keeps c { s with lastServed := 9 }).1 h)
  · exact (effect_keeps c s hp hu hc).2 h

/-- Settles O55: the command's effect keeps the laws (`effect_lawful`); the queue and the release of RESET_N change nothing
that they speak of. -/
theorem sessionLawsKept : Obligations.SessionLawsKept := by
  intro s t hsess hrec halert hcfg h
  have hs : s.Lawful := ⟨hsess, hrec, halert, hcfg⟩
  exact step_leads (P := State.Lawful) h hs (fun _ => hs) (fun _ _ => hs)
    (fun c q => effect_lawful c (s := s.withPending q) hs)

end Sys2Proof.Machine

/-! SUPPORT. The refusals of ACQUIRE, CONVERT and CANCEL, check by check, the grants that an exhausted counter cannot serve,
the upgrades that are made at once, and the requests that find no ACTIVE session (R28, R29, R32, R34, R36, R37, R39, R51,
R57, R79). -/

namespace Sys2Proof.Machine

/-! ### ACQUIRE -/

/-- The work of a well-formed ACQUIRE is its checks. -/
theorem acquireWork_eq {s : State} {i : SessionId} {rq : Request} {a : AcquireReq} (hb : rq.body = .acquire a) :
    acquireWork i rq s = acquireChecked (Run.start s) i (s.session i).quota rq.tag a := by
  unfold acquireWork
  rw [hb]

/-- An ACQUIRE that is not formed is refused (R28). -/
theorem acquireChecked_unformed {a : AcquireReq} (h : ¬ a.formed) (r : Run) (i : SessionId) (quota : Nat) (tag : Tag) :
    acquireChecked r i quota tag a = refusal r .badRequest := by
  unfold acquireChecked
  exact if_pos (Decidable.not_not.mp (mt (AcquireReq.formed_iff a).mpr h))

/-- An ACQUIRE on a volume that is not in service is refused (R29). -/
theorem acquireChecked_noVolume {a : AcquireReq} (h : a.formed) {r : Run}
    (hv : ∀ v : VolumeId, v.val = a.volume → (r.tab.volume v).state = .offline) (i : SessionId) (quota : Nat) (tag : Tag) :
    acquireChecked r i quota tag a = refusal r .badVolume := by
  unfold acquireChecked
  rw [if_neg ((AcquireReq.formed_iff a).mp h), Tables.inService_none hv]

/-- The checks of an ACQUIRE on a volume in service, in their order, as far as they refuse it (R29). -/
theorem acquireChecked_volume {a : AcquireReq} (h : a.formed) {r : Run} {v : VolumeId} (hv : v.val = a.volume)
    (hs : (r.tab.volume v).state ≠ .offline) (i : SessionId) (quota : Nat) (tag : Tag) :
    ((r.tab.volume v).size < a.start + a.count → acquireChecked r i quota tag a = refusal r .badRange) ∧
    (a.start + a.count ≤ (r.tab.volume v).size →
      (r.tab.selfOverlap (leaseOf i v tag a) = true → acquireChecked r i quota tag a = refusal r .selfOverlap) ∧
      (¬ r.tab.selfOverlap (leaseOf i v tag a) = true →
        (quota ≤ r.tab.slotCount i → acquireChecked r i quota tag a = refusal r .quota) ∧
        (r.tab.slotCount i < quota → r.tab.lowestFreeSlot = none →
          acquireChecked r i quota tag a = refusal r .tableFull))) := by
  unfold acquireChecked
  rw [if_neg ((AcquireReq.formed_iff a).mp h), Tables.inService_eq hv hs]
  dsimp only
  refine ⟨fun hsz => if_pos hsz, fun hsz => ?_⟩
  rw [if_neg (Nat.not_lt.mpr hsz)]
  refine ⟨fun hov => if_pos hov, fun hov => ?_⟩
  rw [if_neg hov]
  refine ⟨fun hq => if_pos hq, fun hq hfull => ?_⟩
  rw [if_neg (Nat.not_le.mpr hq), hfull]

/-- An ACQUIRE that is not grantable and may not wait, or finds the pool full, is refused (R32). -/
theorem acquireIn_refused {r : Run} {n : Nat} {l : Lease} (limit : Option Nat) (h : r.tab.Sound) (hf : ¬ r.tab.freeFor l) :
    acquireIn r n l true limit = refusal r .conflict ∧
      ((∀ e, e < 512 → lookupKey e r.tab.pool ≠ none) → acquireIn r n l false limit = refusal r .waitFull) := by
  have hnot : ¬ r.tab.grantableNow l = true := fun hg => hf ((h.grantableNow_iff l).mp hg)
  refine ⟨?_, fun hfull => ?_⟩
  · unfold acquireIn
    rw [if_neg hnot]
    rfl
  · unfold acquireIn
    rw [if_neg hnot, Tables.lowestFreeEntry_none hfull]
    rfl

/-- Settles O16: each check's refusal is one of the `acquireChecked_…` lemmas, and the last two are `acquireIn_refused`. -/
theorem acquireRefused : Obligations.AcquireRefused := by
  intro s p i rq rest ht hs
  refine ⟨fun hb => ?_, fun a hb => ?_⟩
  · exact exec_refused ht .acquire acquireWork rfl (by rw [hb]; rfl) (by unfold acquireWork; rw [hb]; rfl)
  have hw : acquireWork i rq (s.takeInbox p rest) =
      acquireChecked (Run.start s) i (s.session i).quota rq.tag a := acquireWork_eq hb
  have turn : ∀ st, acquireChecked (Run.start s) i (s.session i).quota rq.tag a = refusal (Run.start s) st →
      s.turnedDown _ p i rq rest .acquire st := fun st hx => State.turnedDown_step (hw.trans hx)
  refine ⟨_, exec_request ht .acquire acquireWork rfl (by rw [hb]; rfl), fun hf => turn _ (acquireChecked_unformed hf ..),
    fun hf hv => turn _ (acquireChecked_noVolume hf hv ..), fun v hf hv hon => ?_, fun v n hm hfree => ?_⟩
  · obtain ⟨hrange, hin⟩ := acquireChecked_volume hf (r := Run.start s) hv hon i (s.session i).quota rq.tag
    have hself := hs.selfOverlap_iff i v rq.tag a
    refine ⟨fun hsz => turn _ (hrange hsz), fun hsz => ?_⟩
    obtain ⟨hover, hapart⟩ := hin hsz
    refine ⟨fun hov => turn _ (hover (hself.mpr hov)), fun hov => ?_⟩
    obtain ⟨hquota, hfull⟩ := hapart fun hx => hov (hself.mp hx)
    exact ⟨fun hq => turn _ (hquota hq), fun hq hall => turn _ (hfull hq (Tables.lowestFreeSlot_none hall))⟩
  · have checks := State.mayAcquire_checked hs hm (Run.start s) rfl rq.tag
    obtain ⟨hnow, hfull⟩ := acquireIn_refused (r := Run.start s) (n := n) a.waitLimit hs hfree
    refine ⟨fun hnw => turn _ (checks.trans ?_), fun hnw hp => turn _ (checks.trans ?_)⟩
    · rw [hnw]; exact hnow
    · rw [hnw]; exact hfull hp

/-! ### CONVERT -/

/-- The work of a CONVERT in form whose handle passes its check: it names the lease's own mode, or it is a downgrade or an
upgrade (R34). -/
theorem convertWork_held {s : State} {i : SessionId} {rq : Request} {c : ConvertReq} {l : Lease} {ten : Tenure}
    (hb : rq.body = .convert c) (hl : ∀ w, c.waitLimit = some w → 1 ≤ w ∧ w ≤ 60000) (hh : s.holds i c.handle l ten) :
    (l.mode = c.mode → convertWork i rq s = refusal (Run.start s) .sameMode) ∧
    (l.mode = .exclusive → c.mode = .shared →
      convertWork i rq s = downgrade (Run.start s) c.handle.slot l ten) ∧
    (l.mode = .shared → c.mode = .exclusive →
      convertWork i rq s = upgrade (Run.start s) c.handle.slot l ten rq.tag c) := by
  have hok : (Run.start s).tab.checkHandle i c.handle = .ok (l, ten) := State.checkHandle_holds hh
  have hform : ¬ waitLimitOk c.waitLimit = false := fun hf => Bool.eq_false_iff.mp hf ((waitLimitOk_iff _).mpr hl)
  unfold convertWork convertChecked
  simp only [hb, if_neg hform, hok]
  exact ⟨fun hm => if_pos hm, fun hx hs => by rw [hx, hs]; rfl, fun hs hx => by rw [hx, hs]; rfl⟩

/-- The refusals of an upgrade by the states of the lease and of the other waiters (R36). -/
theorem upgrade_refused {r : Run} {n : Nat} {l : Lease} {ten : Tenure} {tag : Tag} {c : ConvertReq} :
    (ten.upgrade ≠ none → upgrade r n l ten tag c = refusal r .busy) ∧
    (ten.upgrade = none → r.tab.upgradeConflict l = true → upgrade r n l ten tag c = refusal r .upgradeConflict) := by
  refine ⟨fun hu => ?_, fun hu hc => ?_⟩
  · unfold upgrade
    exact if_pos (Option.isSome_iff_ne_none.mpr hu)
  · unfold upgrade
    rw [hu, hc]
    rfl

/-- An upgrade that is not grantable is refused if it may not wait or finds the pool full (R37). -/
theorem upgrade_unwaited {r : Run} {n : Nat} {l : Lease} {ten : Tenure} {tag : Tag} {c : ConvertReq} (h : r.tab.Sound)
    (hup : ten.upgrade = none) (hcon : r.tab.upgradeConflict l = false)
    (hf : (r.tab.volume l.volume).state ≠ .online ∨ ¬ r.tab.unblocked l.upgraded) :
    (c.noWait = true → upgrade r n l ten tag c = refusal r .conflict) ∧
    (c.noWait = false → (∀ e, e < 512 → lookupKey e r.tab.pool ≠ none) →
      upgrade r n l ten tag c = refusal r .waitFull) := by
  have hnot : ¬ ((r.tab.volume l.volume).state = .online ∧ (r.tab.conflictSearch l.upgraded).isEmpty = true) := by
    rintro ⟨hon, hemp⟩
    exact hf.elim (· hon) (· ((h.conflicts_nil _).mp (List.isEmpty_iff.mp hemp)))
  refine ⟨fun hnw => ?_, fun hnw hfull => ?_⟩
  · unfold upgrade
    simp only [hup, Option.isSome_none, Bool.false_eq_true, if_false, hcon, if_neg hnot, hnw, if_true]
  · unfold upgrade
    simp only [hup, Option.isSome_none, Bool.false_eq_true, if_false, hcon, if_neg hnot, hnw,
      Tables.lowestFreeEntry_none hfull]

/-- Settles O22: the checks of a CONVERT after its handle's are those of `convertWork_held`, and those of an upgrade
`upgrade_refused` and `upgrade_unwaited`. -/
theorem convertRefused : Obligations.ConvertRefused := by
  intro s p i rq rest ht hs
  refine ⟨fun hb => ?_, fun c hb => ?_⟩
  · exact exec_refused ht .convert convertWork rfl (by rw [hb]; rfl) (by unfold convertWork; rw [hb]; rfl)
  have turn : ∀ st, convertWork i rq (s.takeInbox p rest) = refusal (Run.start s) st →
      s.turnedDown _ p i rq rest .convert st := fun st hx => State.turnedDown_step hx
  refine ⟨_, exec_request ht .convert convertWork rfl (by rw [hb]; rfl), fun hl => turn _ ?_, fun hl l ten hh =>
    ?_⟩
  · unfold convertWork convertChecked
    rw [hb]
    exact if_pos (Bool.eq_false_iff.mpr (mt (waitLimitOk_iff _).mp hl))
  · obtain ⟨hsame, -, hup⟩ := convertWork_held (s := s.takeInbox p rest) hb hl hh
    refine ⟨fun hm => turn _ (hsame hm), fun hsh hex => ?_⟩
    have hw : convertWork i rq (s.takeInbox p rest) = upgrade (Run.start s) c.handle.slot l ten rq.tag c := hup hsh hex
    obtain ⟨hbusy, hconflict⟩ := upgrade_refused (r := Run.start s) (n := c.handle.slot) (l := l) (ten := ten)
      (tag := rq.tag) (c := c)
    refine ⟨fun hu => turn _ (hw.trans (hbusy hu)), fun hu hc => turn _ (hw.trans (hconflict hu hc)), fun hu hc hf => ?_⟩
    obtain ⟨hnow, hfull⟩ := upgrade_unwaited (r := Run.start s) (n := c.handle.slot) (tag := rq.tag) (c := c) hs hu hc hf
    exact ⟨fun hnw => turn _ (hw.trans (hnow hnw)), fun hnw hp => turn _ (hw.trans (hfull hnw hp))⟩

/-! ### Grants and the fence counter -/

/-- An upgrade that is grantable now: it takes effect, or freezes the volume for want of a token (R37, R39). -/
theorem upgrade_grantable {r : Run} {n : Nat} {l : Lease} {ten : Tenure} {tag : Tag} {c : ConvertReq} (h : r.tab.Sound)
    (hup : ten.upgrade = none) (hcon : r.tab.upgradeConflict l = false) (hon : (r.tab.volume l.volume).state = .online)
    (hf : r.tab.unblocked l.upgraded) :
    upgrade r n l ten tag c = if r.tab.exhaustedFor .exclusive l.volume then refusal (r.exhaust l.volume) .conflict
      else upgradeNow r n l ten := by
  have hyes : (r.tab.volume l.volume).state = .online ∧ (r.tab.conflictSearch l.upgraded).isEmpty = true :=
    ⟨hon, List.isEmpty_iff.mpr ((h.conflicts_nil _).mpr hf)⟩
  unfold upgrade
  rw [hup, hcon]
  exact if_pos hyes

/-- Whether the counter of a volume can give another token (R127, R129). -/
theorem Tables.exhaustedFor_exclusive (t : Tables) (v : VolumeId) :
    t.exhaustedFor .exclusive v = decide (4294967295 ≤ (t.volume v).fence) := rfl

/-- The Volume Table after a volume takes a new state (R117). -/
theorem Tables.setVolumeState_moved (t : Tables) (v : VolumeId) (st : VolumeState) :
    t.volumeMoved (t.setVolumeState v st) v st := by
  intro w
  show (upd t.volumes v _)[w] = _
  rw [upd_get]
  by_cases hw : w = v
  · subst hw; simp
  · rw [if_neg hw, if_neg (Ne.symm hw)]
    rfl

/-- A request whose work finds the volume's counter exhausted (R39, R129). -/
theorem State.exhausted_step {s : State} {p : PortId} {i : SessionId} {rq : Request} {rest : List Request} {k : ReqKind}
    {v : VolumeId} {w : Run × Reply} (hw : w = refusal ((Run.start s).exhaust v) .conflict) :
    let t := (s.takeInbox p rest).answerRequest p rq.tag k (some i) w.2 w.1
    s.finalAnswer t p i rq rest k .conflict .empty [(.fenceExhausted, .volume v)] ∧ s.tab.volumeMoved t.tab v .frozen ∧
      t.tab = { s.tab with volumes := t.tab.volumes } := by
  intro t
  obtain ⟨hfin, htab⟩ := State.finalAnswer_alerts (s := s) (p := p) (i := i) (rq := rq) (rest := rest) (k := k) hw rfl rfl rfl
  have ht : t.tab = s.tab.setVolumeState v .frozen := htab
  rw [ht]
  exact ⟨hfin, s.tab.setVolumeState_moved v .frozen, rfl⟩

/-- A grantable ACQUIRE that needs a token which the counter cannot give (R39). -/
theorem acquireIn_exhausted {r : Run} {n : Nat} {l : Lease} (noWait : Bool) (limit : Option Nat) (h : r.tab.Sound)
    (hf : r.tab.freeFor l) (hm : l.mode = .exclusive) (hx : 4294967295 ≤ (r.tab.volume l.volume).fence) :
    acquireIn r n l noWait limit = refusal (r.exhaust l.volume) .conflict := by
  unfold acquireIn
  rw [if_pos ((h.grantableNow_iff l).mpr hf), hm, Tables.exhaustedFor_exclusive, decide_eq_true hx]
  rfl

/-- Settles O18: an ACQUIRE comes to `acquireIn_exhausted`, an upgrade to `upgrade_grantable`; either is
`State.exhausted_step`. -/
theorem exhaustedGrantFreezesVolume : Obligations.ExhaustedGrantFreezesVolume := by
  intro s p i rq rest v ht hs hfence
  have hlast : 4294967295 ≤ (s.tab.volume v).fence := Nat.le_of_eq hfence.symm
  refine ⟨fun a n hb hm hf hmode => ?_, fun c l ten hb hl hh hv hsh hex hup hcon hon hun => ?_⟩
  · have hw : acquireWork i rq (s.takeInbox p rest) = refusal ((Run.start s).exhaust v) .conflict :=
      (acquireWork_eq hb).trans ((State.mayAcquire_checked hs hm (Run.start s) rfl rq.tag).trans
        (acquireIn_exhausted _ _ hs hf hmode hlast))
    exact ⟨_, exec_request ht .acquire acquireWork rfl (by rw [hb]; rfl), State.exhausted_step hw⟩
  · subst hv
    have hw : convertWork i rq (s.takeInbox p rest) = refusal ((Run.start s).exhaust l.volume) .conflict := by
      refine ((convertWork_held (s := s.takeInbox p rest) hb hl hh).2.2 hsh hex).trans ?_
      refine (upgrade_grantable (r := Run.start s) hs hup hcon hon hun).trans (if_pos ?_)
      exact (Tables.exhaustedFor_exclusive _ _).trans (decide_eq_true hlast)
    exact ⟨_, exec_request ht .convert convertWork rfl (by rw [hb]; rfl), State.exhausted_step hw⟩

/-- Settles O20: `upgrade_grantable`, with a token left. -/
theorem upgradeMade : Obligations.UpgradeMade := by
  intro s p i rq rest c l ten ht hb hs hl hh hsh hex hup hcon hon hun hfence
  have hw : convertWork i rq (s.takeInbox p rest) = upgradeNow (Run.start s) c.handle.slot l ten := by
    refine ((convertWork_held (s := s.takeInbox p rest) hb hl hh).2.2 hsh hex).trans ?_
    refine (upgrade_grantable (r := Run.start s) hs hup hcon hon hun).trans (if_neg ?_)
    rw [Tables.exhaustedFor_exclusive, decide_eq_true_eq]
    exact Nat.not_le.mpr hfence
  obtain ⟨hfin, htab⟩ := State.finalAnswer_step (s := s) (p := p) (i := i) (rq := rq) (rest := rest) (k := .convert) hw
    rfl rfl rfl rfl
  obtain ⟨-, hslot, -⟩ := hh
  have hhandle : s.tab.handle c.handle.slot = c.handle := by
    unfold Tables.handle
    rw [hslot]
  rw [show (Run.start s).tab.handle c.handle.slot = c.handle from hhandle] at hfin
  refine ⟨_, exec_request ht .convert convertWork rfl (by rw [hb]; rfl), hfin, ?_, fun w => ?_, ?_⟩
  · rw [htab]
    exact s.tab.slotOnly_setBody c.handle.slot _
  · rw [htab]
    refine (Tables.volume_drawFor s.tab .exclusive l.volume w).trans ?_
    by_cases hv : w = l.volume
    · rw [if_pos ⟨rfl, hv.symm⟩, if_pos hv, hv]
    · rw [if_neg fun x => hv x.2.symm, if_neg hv]
  · rw [htab]
    rfl

/-! ### CANCEL -/

/-- A CANCEL for a tag that is not parked (R51). -/
theorem cancelChecked_unparked {r : Run} {i : SessionId} {x : Session} {tag : Tag} (h : x.tagMark tag ≠ some .parked) :
    ((∃ e, x.cached tag = some e ∧ e.status = .ok ∧ (e.kind = .acquire ∨ e.kind = .convert)) →
      cancelChecked r i x tag = refusal r .tooLate) ∧
    ((∀ e, x.cached tag = some e → e.status ≠ .ok ∨ (e.kind ≠ .acquire ∧ e.kind ≠ .convert)) →
      cancelChecked r i x tag = refusal r .notParked) := by
  have grant : ∀ e : CacheEntry, e.isGrant = true ↔ e.status = .ok ∧ (e.kind = .acquire ∨ e.kind = .convert) := by
    intro e
    simp [CacheEntry.isGrant]
  unfold cancelChecked
  rw [if_neg h]
  refine ⟨fun ⟨e, he, hg⟩ => ?_, fun hno => ?_⟩
  · simp only [he, (grant e).mpr hg, if_true]
  · cases he : x.cached tag with
    | none => rfl
    | some e =>
      refine if_neg fun hg => ?_
      obtain ⟨hok, hk⟩ := (grant e).mp hg
      obtain hst | ⟨ha, hc⟩ := hno e he
      · exact hst hok
      · exact hk.elim ha hc

/-- Settles O26: `cancelChecked_unparked`. -/
theorem cancelTooLate : Obligations.CancelTooLate := by
  intro s p i rq rest ht
  refine ⟨fun hb => ?_, fun tag hb hmark => ?_⟩
  · exact exec_refused ht .cancel cancelWork rfl (by rw [hb]; rfl) (by unfold cancelWork; rw [hb]; rfl)
  have hw : cancelWork i rq (s.takeInbox p rest) = cancelChecked (Run.start s) i (s.session i) tag := by
    unfold cancelWork
    rw [hb]
    rfl
  obtain ⟨hlate, hnot⟩ := cancelChecked_unparked (r := Run.start s) (i := i) hmark
  exact ⟨_, exec_request ht .cancel cancelWork rfl (by rw [hb]; rfl), fun hx => State.turnedDown_step (hw.trans (hlate hx)),
    fun hx => State.turnedDown_step (hw.trans (hnot hx))⟩

/-! ### Requests without an ACTIVE session -/

/-- The engine takes a session's request: it is answered NO_SESSION on an unbound port, and BUSY when the session is not
ACTIVE (R26, R57, R79). -/
theorem State.sessionRequest_inactive {s : State} {p : PortId} {rq : Request} {rest : List Request} {k : ReqKind}
    (h : s.takesRequest p rq rest) (hk : rq.body.kind? = some k) (work : SessionId → Request → State → Run × Reply) :
    (s.boundSession p = none → s.sessionRequest k work = (s.takeInbox p rest).answerRequest p rq.tag k none
      (.final .noSession .empty) (Run.start (s.takeInbox p rest))) ∧
    ∀ i, s.boundSession p = some i → (s.session i).state ≠ .active → s.sessionRequest k work =
      (s.takeInbox p rest).answerRequest p rq.tag k (some i) (.final .busy .empty) (Run.start (s.takeInbox p rest)) := by
  have bound : (s.takeInbox p rest).boundSession p = s.boundSession p := rfl
  unfold State.sessionRequest
  rw [State.takeRequest_eq h hk]
  dsimp only
  rw [bound]
  refine ⟨fun hb => by rw [hb], fun i hb hi => ?_⟩
  rw [hb]
  exact if_neg hi

/-- The same for a DEPART (R96). -/
theorem State.depart_inactive {s : State} {p : PortId} {rq : Request} {rest : List Request}
    (h : s.takesRequest p rq rest) (hk : rq.body.kind? = some .depart) :
    (s.boundSession p = none → s.takeRequest .depart (fun p rq s => s.departStep p rq) =
      (s.takeInbox p rest).answerRequest p rq.tag .depart none (.final .noSession .empty)
        (Run.start (s.takeInbox p rest))) ∧
    ∀ i, s.boundSession p = some i → (s.session i).state ≠ .active →
      s.takeRequest .depart (fun p rq s => s.departStep p rq) = (s.takeInbox p rest).answerRequest p rq.tag .depart
        (some i) (.final .busy .empty) (Run.start (s.takeInbox p rest)) := by
  have bound : (s.takeInbox p rest).boundSession p = s.boundSession p := rfl
  rw [State.takeRequest_eq h hk]
  unfold State.departStep
  rw [bound]
  refine ⟨fun hb => by rw [hb], fun i hb hi => ?_⟩
  rw [hb]
  exact if_neg hi

/-- A request from an unbound port is answered, and nothing caches the answer (R79). -/
theorem State.unbound_step (s : State) (p : PortId) (rq : Request) (rest : List Request) (k : ReqKind) (st : Status) :
    let t := (s.takeInbox p rest).answerRequest p rq.tag k none (.final st .empty) (Run.start (s.takeInbox p rest))
    t = { s with lastServed := portPos p, ports := t.ports } ∧ t.portsAre (s.answering p rest (stepAnswer rq.tag k st .empty)) := by
  intro t
  obtain ⟨hframe, -, hports⟩ := State.answer_only s s (s.takeInbox p rest) p rest rq.tag k none st .empty rfl rfl
  have hsess : t.sessions = s.sessions := State.sessions_giveReply_none ..
  refine ⟨?_, hports⟩
  rw [hsess] at hframe
  exact hframe

/-- Settles O29: each of the eight kinds is taken by `State.sessionRequest_inactive` or `State.depart_inactive`. -/
theorem requestNeedsActiveSession : Obligations.RequestNeedsActiveSession := by
  intro s p rq rest c k hck ht hk
  obtain ⟨⟨hr, -⟩, -⟩ := id ht
  have answered : (s.boundSession p = none → effect c s = (s.takeInbox p rest).answerRequest p rq.tag k none
        (.final .noSession .empty) (Run.start (s.takeInbox p rest))) ∧
      ∀ i, s.boundSession p = some i → (s.session i).state ≠ .active → effect c s =
        (s.takeInbox p rest).answerRequest p rq.tag k (some i) (.final .busy .empty) (Run.start (s.takeInbox p rest)) := by
    simp only [List.mem_cons, Prod.mk.injEq, List.not_mem_nil, or_false] at hck
    rcases hck with ⟨rfl, rfl⟩ | ⟨rfl, rfl⟩ | ⟨rfl, rfl⟩ | ⟨rfl, rfl⟩ | ⟨rfl, rfl⟩ | ⟨rfl, rfl⟩ | ⟨rfl, rfl⟩ | ⟨rfl, rfl⟩
    case inr.inr.inr.inr.inr.inr.inr => exact State.depart_inactive ht hk
    all_goals exact State.sessionRequest_inactive ht hk _
  refine ⟨_, exec_high hr c, fun hb => ?_, fun i hb hi => ?_⟩
  · rw [answered.1 hb]
    exact State.unbound_step s p rq rest k .noSession
  · rw [answered.2 i hb hi]
    exact State.refusal_step rest k .busy

end Sys2Proof.Machine

/-! SUPPORT. The steps that retire one lease or end one wait, and the wake pass after each: downgrade, RELEASE, REVOKE, THAW
and CANCEL (R35, R39, R45 to R51, R58 to R60, R69, R123). -/

namespace Sys2Proof.Machine

/-! ### The pass that becomes due -/

/-- The first pass of a step that becomes due (R45). -/
theorem Run.passDue_first {r : Run} (h : r.due = []) (v : VolumeId) : r.passDue v = { r with due := [v] } := by
  unfold Run.passDue
  rw [h]
  rfl

/-- One volume is due. -/
theorem mem_singleton_eq (v : VolumeId) : (fun w => w ∈ [v]) = fun w => w = v := by
  funext w
  exact propext List.mem_singleton

/-- A step's work begins with the tables as they are. -/
@[simp] theorem Run.tab_start (s : State) : (Run.start s).tab = s.tab := rfl

/-! ### One lease retired -/

/-- The end of the pending upgrade of a lease changes the slot alone (R55). -/
theorem Run.endUpgrade_slotOnly {r : Run} {n : Nat} {l : Lease} {ten : Tenure} (h : r.tab.Sound)
    (hb : r.tab.body n = .held l ten) :
    (r.endUpgrade n l ten).tab.index = r.tab.index ∧
      r.tab.slotOnly (r.endUpgrade n l ten).tab n (.held l { ten with upgrade := none }) := by
  cases hu : ten.upgrade with
  | none =>
    have hr : r.endUpgrade n l ten = r := by unfold Run.endUpgrade; rw [hu]
    have hten : { ten with upgrade := none } = ten := by rw [← hu]
    rw [hr, hten, ← hb]
    exact ⟨rfl, rfl, fun _ _ => rfl, rfl, rfl⟩
  | some x =>
    obtain ⟨e, he⟩ := h.entryFor_held hb hu
    obtain ⟨we, hl, hk, hn⟩ := Tables.entryFor_some he
    have htab : (r.endUpgrade n l ten).tab =
        (r.tab.removeEntry e we.volume).setBody n (.held l { ten with upgrade := none }) := by
      unfold Run.endUpgrade Run.endWait
      simp only [hu, he, hl, hk, hn, hb, Run.tab_passDue]
      rfl
    rw [htab]
    exact ⟨rfl, (r.tab.removeEntry e we.volume).slotOnly_setBody n _⟩

/-- The retirement of a HELD lease frees its slot, and changes no other (R5, R16, R59). -/
theorem Run.retire_freedOnly {r : Run} {n : Nat} {l : Lease} {ten : Tenure} (c : Cause) (h : r.tab.Sound)
    (hb : r.tab.body n = .held l ten) : r.tab.freedOnly (r.retire c n).tab n l.owner := by
  obtain ⟨-, hslot, hothers, hocc, hcounts⟩ := Run.endUpgrade_slotOnly h hb
  have htab : (r.retire c n).tab = ((r.endUpgrade n l ten).tab.indexRemove l.volume n).freeSlot n l.owner := by
    unfold Run.retire
    rw [hb]
    simp only [Run.tab_passDue, Run.tab_report]
    rfl
  have hgen : ((r.endUpgrade n l ten).tab.slots.get n).gen = (r.tab.slots.get n).gen := by rw [hslot]
  rw [htab]
  exact Tables.freedOnly_freeSlot _ _ _ _ hgen hothers hocc hcounts

/-- What the retirement of one HELD lease does and makes, for any cause (R55, R59, R60). -/
theorem Run.retire_one {s : State} {n : Nat} {l : Lease} {ten : Tenure} (c : Cause) (h : s.tab.Sound)
    (hb : s.tab.body n = .held l ten) :
    s.tab.retired ((Run.start s).retire c n).tab (fun m => m = n) ∧
      ((Run.start s).retire c n).cache = ten.upgrade.toList.map (fun x =>
        (l.owner, { tag := x.tag, kind := .convert, status := .cancelled, result := .waitEnd .leaseGone })) ∧
      ((Run.start s).retire c n).notices = ten.upgrade.toList.map (fun x => (l.owner, .waitEnded x.tag .leaseGone)) ++
        (c.notice (s.tab.handle n)).toList.map (fun x => (l.owner, x)) ∧
      ((Run.start s).retire c n).alerts = c.alert.toList.map (fun k => (k, .session l.owner)) ∧
      (fun v => v ∈ ((Run.start s).retire c n).due) = fun v => v = l.volume := by
  have e := (Run.start s).retire_retired c n h
  have hone : ∀ m, m ∈ [n] ↔ m = n := fun m => List.mem_singleton
  refine ⟨e.tab.congr (fun m _ _ _ => hone m) h, e.cache.trans ?_, e.notices.trans ?_, e.alerts.trans ?_, ?_⟩
  · exact (List.nil_append _).trans ((List.flatMap_singleton ..).trans (by rw [Run.tab_start, hb]))
  · exact (List.nil_append _).trans ((List.flatMap_singleton ..).trans (by rw [Run.tab_start, hb]))
  · exact (List.nil_append _).trans ((List.flatMap_singleton ..).trans (by rw [Run.tab_start, hb]))
  · funext v
    refine propext ((e.due v).trans ?_)
    constructor
    · rintro (hd | ⟨m, k, kt, hk, hm, rfl⟩)
      · cases hd
      · rw [(hone m).mp hm, Run.tab_start, hb] at hk
        cases hk
        rfl
    · rintro rfl
      exact .inr ⟨n, l, ten, hb, (hone n).mpr rfl, rfl⟩

/-! ### Downgrade and RELEASE -/

/-- The handle that names a lease which passed the check (R6). -/
theorem State.handle_holds {s : State} {i : SessionId} {h : Handle} {l : Lease} {ten : Tenure} (hh : s.holds i h l ten) :
    s.tab.body h.slot = .held l ten ∧ s.tab.handle h.slot = h := by
  obtain ⟨-, hslot, -⟩ := hh
  unfold Tables.body Tables.handle
  rw [hslot]
  exact ⟨rfl, rfl⟩

/-- A downgrade answers OK, and its wake pass follows (R35). -/
theorem State.downgrade_step {s : State} {p : PortId} {i : SessionId} {rq : Request} {rest : List Request} {c : ConvertReq}
    {l : Lease} {ten : Tenure} (hb : rq.body = .convert c) (hs : s.tab.Sound)
    (hl : ∀ w, c.waitLimit = some w → 1 ≤ w ∧ w ≤ 60000) (hh : s.holds i c.handle l ten) (hex : l.mode = .exclusive)
    (hsh : c.mode = .shared) :
    let w := convertWork i rq (s.takeInbox p rest)
    s.answersFirst ((s.takeInbox p rest).answerRequest p rq.tag .convert (some i) w.2 w.1) p i rq rest .convert .ok
      (.lease c.handle .shared none) [] []
      (s.tab.setBody c.handle.slot (.held { l with mode := .shared } { ten with token := none })) (fun v => v = l.volume) := by
  intro w
  have hdue := Run.passDue_first (r := (Run.start s).withTab (s.tab.setBody c.handle.slot
    (.held { l with mode := .shared } { ten with token := none }))) rfl l.volume
  have hw : w = downgrade (Run.start s) c.handle.slot l ten :=
    (convertWork_held (s := s.takeInbox p rest) hb hl hh).2.1 hex hsh
  have hsound := ((convertWork_to i rq (s.takeInbox p rest) hs).moves.keeps hs)
  unfold downgrade at hw
  rw [Run.tab_start, hdue, (State.handle_holds hh).2] at hw
  rw [show convertWork i rq (s.takeInbox p rest) = w from rfl, hw] at hsound
  rw [← mem_singleton_eq]
  exact State.answersFirst_step hw hsound rfl rfl rfl

/-- A RELEASE that passes its handle's check retires the lease (R58). -/
theorem releaseWork_held {s : State} {i : SessionId} {rq : Request} {h : Handle} {l : Lease} {ten : Tenure}
    (hb : rq.body = .release h) (hh : s.holds i h l ten) :
    releaseWork i rq s = ((Run.start s).retire .release h.slot, .final .ok (.handle h)) := by
  have hok : (Run.start s).tab.checkHandle i h = .ok (l, ten) := State.checkHandle_holds hh
  unfold releaseWork releaseChecked
  simp only [hb, hok]

/-- A HELD slot whose lease is retired leaves no entry that refers to it (R42, R59). -/
theorem Tables.retired.entries {t u : Tables} {n : Nat} {l : Lease} {ten : Tenure} (h : t.retired u (fun m => m = n))
    (hs : t.Sound) (hb : t.body n = .held l ten) (e : Nat) (we : WaitEntry) :
    lookupKey e u.pool = some we ↔ lookupKey e t.pool = some we ∧ we.slot ≠ n := by
  rw [h.pool]
  refine and_congr_right fun he => ⟨fun hk hn => ?_, fun hn _ => hn⟩
  subst hn
  exact hk (hs.entry_held he hb).1 rfl

/-- Settles O19: `State.downgrade_step`, and for a RELEASE `Run.retire_one` and `Run.retire_freedOnly`. -/
theorem downgradeAndReleaseWake : Obligations.DowngradeAndReleaseWake := by
  refine ⟨fun s p i rq rest c l ten ht hb hs hl hh hex hsh => ?_, fun s p i rq rest ht =>
    ⟨fun hb => ?_, fun h l ten hb hs hh => ?_⟩⟩
  · exact ⟨_, _, exec_request ht .convert convertWork rfl (by rw [hb]; rfl), State.downgrade_step hb hs hl hh hex hsh,
      s.tab.slotOnly_setBody _ _, rfl⟩
  · exact exec_refused ht .release releaseWork rfl (by rw [hb]; rfl) (by unfold releaseWork; rw [hb]; rfl)
  · have hw : releaseWork i rq (s.takeInbox p rest) = ((Run.start s).retire .release h.slot, .final .ok (.handle h)) :=
      releaseWork_held (s := s.takeInbox p rest) hb hh
    obtain ⟨hheld, -⟩ := State.handle_holds hh
    obtain ⟨-, -, howner⟩ := hh
    have hto := (Run.start s).retire_to .release h.slot hs
    obtain ⟨hret, hcache, hnotices, halerts, hdue⟩ := Run.retire_one .release hs hheld
    have hstep := State.answersFirst_step (p := p) (i := i) (rq := rq) (rest := rest) (k := .release) hw
      (hto.moves.keeps hs) hto.now hto.limit halerts
    rw [hcache, hnotices, hdue, howner] at hstep
    have hfreed := Run.retire_freedOnly (r := Run.start s) .release hs hheld
    rw [howner] at hfreed
    exact ⟨_, _, exec_request ht .release releaseWork rfl (by rw [hb]; rfl),
      by simpa only [Cause.notice, Option.toList_none, List.map_nil, List.append_nil] using hstep, hret, hfreed,
      hret.index, hret.entries hs hheld, hret.volumes⟩

/-! ### THAW and REVOKE -/

/-- Settles O40: THAW's step is `State.thawStep_cases`, REVOKE's `State.revokeStep_cases` with `Run.retire_one`; either
completes with the wake pass (`Run.complete_completes`). -/
theorem thawAndRevokeWake : Obligations.ThawAndRevokeWake := by
  refine ⟨fun s c v ht hc hv hs hfrozen hfence => ?_, fun s c l ten ht hc hn hs hb => ?_⟩
  · have hstep := ((State.thawStep_cases { s with lastServed := 9 } hv).2 hfrozen).2 hfence
    have hto := Run.setVolumeState_to (Run.start s) v .online hs nofun
    rw [Run.passDue_first rfl, State.finishCommand_eq] at hstep
    refine ⟨_, (exec_command ht hc .thaw State.thawStep rfl).trans (congrArg _ hstep), ?_⟩
    rw [← mem_singleton_eq]
    exact Run.complete_completes _ (s.finished .done) (hto.moves.keeps hs) rfl rfl
  · have hstep := ((State.revokeStep_cases { s with lastServed := 9 } c).2 hn).2 l ten hb
    have hto := (Run.start s).retire_to (.revocation .maintenance) c.arg1.toNat hs
    obtain ⟨hret, hcache, hnotices, halerts, hdue⟩ := Run.retire_one (.revocation .maintenance) hs hb
    have hdone := ((Run.start s).retire (.revocation .maintenance) c.arg1.toNat).complete_completes (s.finished .done)
      (hto.moves.keeps hs) hto.now hto.limit
    rw [hcache, hnotices, halerts, hdue] at hdone
    exact ⟨_, _, (exec_command ht hc .revoke State.revokeStep rfl).trans (congrArg _ hstep), hret, hdone⟩

/-! ### CANCEL -/

/-- The entry that CANCEL finds is the wait of the session's request with that tag (R42, R51). -/
theorem Tables.findWait_spec {t : Tables} (h : t.Sound) {i : SessionId} {tag : Tag} {e : Nat} {we : WaitEntry}
    (hf : t.findWait i tag = some e) (he : lookupKey e t.pool = some we) :
    (we.kind = .acquire ∧ ∃ l d, t.body we.slot = .pending l d ∧ l.owner = i ∧ l.originTag = tag) ∨
    (we.kind = .upgrade ∧ ∃ l ten u, t.body we.slot = .held l ten ∧ ten.upgrade = some u ∧ l.owner = i ∧ u.tag = tag) := by
  obtain ⟨⟨d, wd⟩, hfind, rfl⟩ := Option.map_eq_some_iff.mp hf
  have hwd : lookupKey d t.pool = some wd := lookupKey_of_mem h.waitLaw.1 (List.mem_of_find?_eq_some hfind)
  rw [he] at hwd
  cases hwd
  have htest := List.find?_some hfind
  dsimp only at htest
  split at htest
  · next hk hb =>
    obtain ⟨howner, htag⟩ := Bool.and_eq_true_iff.mp htest
    exact .inl ⟨hk, _, _, hb, of_decide_eq_true howner, of_decide_eq_true htag⟩
  · next hk hb =>
    obtain ⟨howner, htag⟩ := Bool.and_eq_true_iff.mp htest
    obtain ⟨u, hu, htag⟩ := Option.map_eq_some_iff.mp (of_decide_eq_true htag)
    exact .inr ⟨hk, _, _, u, hb, hu, of_decide_eq_true howner, htag⟩
  · cases htest

/-- The waiter of the entry that CANCEL finds. -/
theorem Tables.waiter_findWait {t : Tables} (h : t.Sound) {i : SessionId} {tag : Tag} {e : Nat} {we : WaitEntry}
    (hf : t.findWait i tag = some e) (he : lookupKey e t.pool = some we) :
    t.waiter e = some (i, tag, if we.kind = .acquire then .acquire else .convert) := by
  unfold Tables.waiter
  rw [he]
  obtain ⟨hk, l, d, hb, rfl, rfl⟩ | ⟨hk, l, ten, u, hb, hu, rfl, rfl⟩ := Tables.findWait_spec h hf he
  · simp only [hk, hb, if_true]
  · simp only [hk, hb, hu, reduceCtorEq, if_false, Option.map_some]

/-- The end of an ACQUIRE's wait frees its slot alone; that of an upgrade's takes the pending upgrade off its lease
(R50). -/
theorem Run.endWait_slots {r : Run} {reason : WaitReason} {e : Nat} {we : WaitEntry} (he : lookupKey e r.tab.pool = some we) :
    (∀ l d, we.kind = .acquire → r.tab.body we.slot = .pending l d →
      r.tab.freedOnly (r.endWait reason e).tab we.slot l.owner) ∧
    (∀ l ten u, we.kind = .upgrade → r.tab.body we.slot = .held l ten → ten.upgrade = some u →
      r.tab.slotOnly (r.endWait reason e).tab we.slot (.held l { ten with upgrade := none })) := by
  refine ⟨fun l d hk hb => ?_, fun l ten u hk hb hu => ?_⟩
  · have htab : (r.endWait reason e).tab = (r.tab.removeEntry e we.volume).freeSlot we.slot l.owner := by
      unfold Run.endWait
      simp only [he, hk, hb, Run.tab_passDue]
      rfl
    rw [htab]
    exact r.tab.freedOnly_freeSlot (r.tab.removeEntry e we.volume) we.slot l.owner rfl (fun _ _ => rfl) rfl rfl
  · have htab : (r.endWait reason e).tab =
        (r.tab.removeEntry e we.volume).setBody we.slot (.held l { ten with upgrade := none }) := by
      unfold Run.endWait
      simp only [he, hk, hb, hu, Run.tab_passDue]
      rfl
    rw [htab]
    exact (r.tab.removeEntry e we.volume).slotOnly_setBody we.slot _

/-- The pool after the wait of one entry has ended (R40). -/
theorem Tables.waitsEnded.lookup {t u : Tables} {e : Nat} (h : t.waitsEnded u (fun d => d = e)) (d : Nat) :
    lookupKey d u.pool = if d = e then none else lookupKey d t.pool := by
  refine Option.ext fun wd => (h.pool d wd).trans ?_
  by_cases hd : d = e
  · rw [if_pos hd]
    exact ⟨fun hx => absurd hd hx.2, nofun⟩
  · rw [if_neg hd]
    exact ⟨fun hx => hx.1, fun hx => ⟨hx, hd⟩⟩

/-- Settles O25: the CANCEL ends the wait of the entry that it finds (`Tables.findWait_spec`), as `Run.endWait_spec` and
`Run.endWait_slots` say. -/
theorem cancelEndsWait : Obligations.CancelEndsWait := by
  intro s p i rq rest tag e we ht hb hs hmark hf he
  have hw : cancelWork i rq (s.takeInbox p rest) =
      ((Run.start s).endWait .cancelled e, .final .cancelled (.waitEnd .cancelled)) := by
    have hfind : (if (s.session i).tagMark tag = some .parked then (Run.start s).tab.findWait i tag else none) = some e :=
      (if_pos hmark).trans hf
    unfold cancelWork
    rw [hb]
    show cancelChecked (Run.start s) i (s.session i) tag = _
    unfold cancelChecked
    rw [hfind]
  have hto := (Run.start s).endWait_to .cancelled e hs
  obtain ⟨hend, hcache, hnotices, halerts, hdue⟩ := (Run.start s).endWait_spec .cancelled e we hs he
  have hstep := State.answersFirst_step (p := p) (i := i) (rq := rq) (rest := rest) (k := .cancel) hw
    (hto.moves.keeps hs) hto.now hto.limit halerts
  have hvol : (fun v => v ∈ ((Run.start s).endWait .cancelled e).due) = fun v => v = we.volume := by
    funext v
    exact propext ((hdue v).trans ⟨fun hx => hx.resolve_left (List.not_mem_nil), .inr⟩)
  have hwaiter : (Run.start s).tab.waiter e = _ := Tables.waiter_findWait hs hf he
  unfold Tables.endAnswers at hcache
  unfold Tables.endNotices at hnotices
  rw [List.filterMap_cons, hwaiter] at hcache hnotices
  rw [hcache, hnotices, hvol] at hstep
  obtain ⟨hacquire, hupgrade⟩ := (Run.start s).endWait_slots (reason := .cancelled) he
  refine ⟨_, _, exec_request ht .cancel cancelWork rfl (by rw [hb]; rfl), hstep, hend, hend.lookup,
    fun d w => (hend.lists w).2 d, fun hk => ?_, fun hk => ?_, hend.index, hend.volumes⟩
  · obtain ⟨-, l, d, hbody, rfl, -⟩ | ⟨hk', -⟩ := Tables.findWait_spec hs hf he
    · exact hacquire l d hk hbody
    · rw [hk] at hk'; cases hk'
  · obtain ⟨hk', -⟩ | ⟨-, l, ten, u, hbody, hu, -, -⟩ := Tables.findWait_spec hs hf he
    · rw [hk] at hk'; cases hk'
    · exact ⟨l, ten, hbody, hupgrade l ten u hk hbody hu⟩

end Sys2Proof.Machine

/-! SUPPORT. The steps that end a session's waits: DEPART, CLOSE-SESSION, the loss and link-lost claims, and the purge (R53,
R88 to R90, R93 to R95, R97 to R99). -/

namespace Sys2Proof.Machine

/-! ### A session that becomes CLOSING -/

/-- A step that ends every wait of session `i` and raises no alert itself (R53). -/
theorem Run.endWaitsOf_quiet {r s : State} (i : SessionId) (h : r.tab.Sound) (hk : r.clock = s.clock)
    (hl : r.recallLimit = s.recallLimit) :
    s.completes (((Run.start r).endWaitsOf i .sessionEnded).complete s) ((Run.start r).endWaitsOf i .sessionEnded).tab
        (r.tab.endsOn (fun e => r.tab.entryOwner e = some i))
        (r.tab.endAnswers .sessionEnded (r.tab.waitsOf i)) (r.tab.endNotices .sessionEnded (r.tab.waitsOf i)) [] ∧
      r.tab.waitsEnded ((Run.start r).endWaitsOf i .sessionEnded).tab (fun e => r.tab.entryOwner e = some i) := by
  have hdone := Run.endWaitsOf_completes r s i h hk hl [] _ rfl
  generalize (Run.start r).endWaitsOf i .sessionEnded = u at hdone ⊢
  rwa [List.append_nil] at hdone

/-- The purge queue with session `i` at its tail (R97). -/
theorem State.enqueuePurge_eq (s : State) (i : SessionId) : s.enqueuePurge i = s.queued i := by
  unfold State.enqueuePurge State.queued
  simp only [List.isEmpty_iff]

/-- The state of a DEPART's step before the waits end: the record CLOSING with the tag parked, the request taken (R93,
R95). -/
theorem State.departing_eq (s : State) (p : PortId) (rest : List Request) (i : SessionId) (tag : Tag) :
    ((s.takeInbox p rest).closeAs i .depart).giveReply p tag .depart (some i) .silent =
      { s.queued i with
        lastServed := portPos p
        sessions := upd s.sessions i (((s.session i).parkTag tag).closing .depart)
        ports := upd s.ports p { s.port p with inbox := rest } } := by
  unfold State.closeAs State.giveReply
  rw [State.enqueuePurge_eq]
  simp only [State.setSession, State.queued, State.session, upd_same, upd_upd]
  rfl

/-- The inbox of a port that is bound to session `i` is discarded (R89, R90, R149). -/
theorem State.discardInbox_bound {s : State} {i : SessionId} {p : PortId} (hb : s.boundSession p = some i) :
    s.discardInbox p =
      { s with
        sessions := upd s.sessions i ((s.session i).without (s.port p).inbox)
        ports := upd s.ports p { s.port p with inbox := [] } } := by
  unfold State.discardInbox
  rw [hb]
  rfl

/-- The state of a session bound to port `p` that is unbound (R90, R94). -/
theorem State.unbind_bound {s : State} {i : SessionId} {p : PortId} (hp : (s.session i).port = some p)
    (hb : s.boundSession p = some i) : s.unbind i =
      { s with
        sessions := upd s.sessions i { (s.session i).without (s.port p).inbox with port := none, term := .stopped }
        ports := upd s.ports p { s.port p with inbox := [] } } := by
  unfold State.unbind
  rw [hp]
  dsimp only
  rw [State.discardInbox_bound hb]
  simp only [State.setSession, State.session, upd_same, upd_upd]

/-- The state of CLOSE-SESSION's step before the waits end, for a session bound to port `p` (R93, R94). -/
theorem State.closing_bound {s : State} {i : SessionId} {p : PortId} (hp : (s.session i).port = some p)
    (hb : s.boundSession p = some i) :
    ((State.unbind { s with lastServed := 9 } i).closeAs i .purge).finishStatus none =
      { (s.finished .done).queued i with
        sessions := upd s.sessions i { ((s.session i).without (s.port p).inbox).closing .purge with port := none }
        ports := upd s.ports p { s.port p with inbox := [] } } := by
  rw [State.unbind_bound (s := { s with lastServed := 9 }) hp hb]
  unfold State.closeAs
  rw [State.enqueuePurge_eq]
  simp only [State.setSession, State.queued, State.session, upd_same, upd_upd]
  rfl

/-- The same for a session that is not bound (R93, R94). -/
theorem State.closing_unbound {s : State} {i : SessionId} (hp : (s.session i).port = none) :
    ((State.unbind { s with lastServed := 9 } i).closeAs i .purge).finishStatus none =
      { (s.finished .done).queued i with sessions := upd s.sessions i ((s.session i).closing .purge) } := by
  have hu : State.unbind { s with lastServed := 9 } i =
      State.setSession { s with lastServed := 9 } i { s.session i with term := .stopped } := by
    unfold State.unbind
    rw [show (State.session { s with lastServed := 9 } i).port = none from hp]
    rfl
  rw [hu]
  unfold State.closeAs
  rw [State.enqueuePurge_eq]
  simp only [State.setSession, State.queued, State.session, upd_same, upd_upd]
  rfl

/-- CLOSE-SESSION of a session that is ACTIVE or ORPHANED, from the state `s'` that its own changes make (R94). -/
theorem State.closeSession_step {s s' : State} {c : Command} {i : SessionId} (ht : s.takesCommand c) (hc : c.code = 0x08)
    (hi : c.arg1.toNat = i.val) (hs : s.tab.Sound) (hst : (s.session i).state = .active ∨ (s.session i).state = .orphaned)
    (he : ((State.unbind { s with lastServed := 9 } i).closeAs i .purge).finishStatus none = s')
    (hk : s.clock = s'.clock) (hl : s.recallLimit = s'.recallLimit) :
    ∃ t u, exec .closeSession s = .next t ∧
      State.completes s' t u (s.tab.endsOn (fun e => s.tab.entryOwner e = some i))
        (s.tab.endAnswers .sessionEnded (s.tab.waitsOf i)) (s.tab.endNotices .sessionEnded (s.tab.waitsOf i)) [] ∧
      s.tab.waitsEnded u (fun e => s.tab.entryOwner e = some i) := by
  have hstep := ((State.closeSessionStep_cases { s with lastServed := 9 } c).2 i hi).2 hst
  unfold State.closeSession at hstep
  rw [State.finishCommand_eq, he] at hstep
  exact ⟨_, _, (exec_command ht hc .closeSession State.closeSessionStep rfl).trans (congrArg _ hstep),
    Run.endWaitsOf_quiet i hs hk hl⟩

/-- A DEPART in form of an ACTIVE session (R95). -/
theorem State.departStep_active {s : State} {p : PortId} {i : SessionId} {rq : Request} (hb : s.boundSession p = some i)
    (hi : (s.session i).state = .active) :
    (rq.body = .malformed .depart → s.departStep p rq =
      s.answerRequest p rq.tag .depart (some i) (.final .badRequest .empty) (Run.start s)) ∧
    (rq.body = .depart → s.departStep p rq = (s.closeAs i .depart).answerRequest p rq.tag .depart (some i) .silent
      ((Run.start s).endWaitsOf i .sessionEnded)) := by
  unfold State.departStep
  rw [hb]
  dsimp only
  rw [if_pos hi]
  exact ⟨fun hq => by rw [hq], fun hq => by rw [hq]⟩

/-- Settles O30: the state before the waits end is `State.departing_eq`, `State.closing_bound` or `State.closing_unbound`;
the end of the waits is `Run.endWaitsOf_quiet`. -/
theorem departAndCloseSessionClose : Obligations.DepartAndCloseSessionClose := by
  refine ⟨fun s p i rq rest ht => ?_, fun s c i ht hc hi hs hlaw => ⟨fun p hact hp => ?_, fun horph hp => ?_⟩⟩
  · obtain ⟨htake, hb, hact⟩ := ht
    obtain ⟨⟨hr, -⟩, -⟩ := id htake
    obtain ⟨hbad, hgood⟩ := State.departStep_active (s := s.takeInbox p rest) (p := p) (i := i) (rq := rq) hb hact
    have taken : rq.body.kind? = some .depart → exec .depart s = .next ((s.takeInbox p rest).departStep p rq) := fun hk =>
      (exec_high hr .depart).trans (congrArg _ (State.takeRequest_eq htake hk fun p rq s => s.departStep p rq))
    refine ⟨fun hq => ?_, fun hq hs => ?_⟩
    · exact ⟨_, (taken (by rw [hq]; rfl)).trans (congrArg _ (hbad hq)), State.refusal_step rest .depart .badRequest⟩
    · have hstep := hgood hq
      unfold State.answerRequest at hstep
      rw [State.departing_eq] at hstep
      exact ⟨_, _, (taken (by rw [hq]; rfl)).trans (congrArg _ hstep),
        Run.endWaitsOf_quiet (r := s) i hs rfl rfl⟩
  · exact State.closeSession_step ht hc hi hs (.inl hact) (State.closing_bound hp (boundTo_eq hlaw hp)) rfl rfl
  · exact State.closeSession_step ht hc hi hs (.inr horph) (State.closing_unbound hp) rfl rfl

/-! ### Loss and link-lost claims -/

/-- The engine takes a claim of the Timers queue (R21). -/
theorem exec_timer {s : State} {c : TimerClaim} {rest : List TimerClaim} (h : s.takesTimer c rest) (x : Instr)
    {k : TimerKind} (hk : c.kind = k) (step : TimerClaim → State → State) (hx : effect x s = s.takeTimer k step) :
    exec x s = .next (step c { s with lastServed := 7, timersQueue := rest }) := by
  obtain ⟨⟨hr, -⟩, -⟩ := id h
  rw [exec_high hr, hx, State.takeTimer_eq h hk]

/-- The deadline of a session timer that is not STOPPED has passed (R86, R103). -/
theorem SessionTimer.passed_iff (now : Time) (tm : SessionTimer) : passedOpt now tm.deadline? = true ↔
    ∃ d, (tm = .running d ∨ tm = .expired d) ∧ (now - d).toNat < 2147483648 := by
  cases tm with
  | stopped => simp [SessionTimer.deadline?, passedOpt]
  | running d => simp [SessionTimer.deadline?, passedOpt, Machine.passed_iff]
  | expired d => simp [SessionTimer.deadline?, passedOpt, Machine.passed_iff]

/-- When a loss claim holds (R88). -/
theorem State.lossHolds_iff (s : State) (c : TimerClaim) : s.lossHolds c = true ↔
    (s.session c.session).state = .active ∧ (s.session c.session).number = c.number ∧
      ∃ d, ((s.session c.session).term = .running d ∨ (s.session c.session).term = .expired d) ∧
        (s.clock - d).toNat < 2147483648 := by
  unfold State.lossHolds
  rw [Bool.and_eq_true, Bool.and_eq_true, decide_eq_true_eq, decide_eq_true_eq, SessionTimer.passed_iff, and_assoc]

/-- When a link-lost claim holds (R89). -/
theorem State.linkLostHolds_iff (s : State) (c : TimerClaim) : s.linkLostHolds c = true ↔
    (s.session c.session).number = c.number ∧ ∃ p ∈ c.ports, (s.session c.session).port = some p := by
  unfold State.linkLostHolds
  rw [Bool.and_eq_true, decide_eq_true_eq, Option.any_eq_true]
  refine and_congr_right fun _ => ⟨fun ⟨p, hp, hc⟩ => ⟨p, List.contains_iff_mem.mp hc, hp⟩,
    fun ⟨p, hc, hp⟩ => ⟨p, hp, List.contains_iff_mem.mpr hc⟩⟩

/-- The step of a link-lost claim that holds, by the session's state; a claim that is not held, or whose session is FREE or
ORPHANED, is voided (R89). -/
theorem State.linkLostStep_cases (s : State) (c : TimerClaim) :
    (s.linkLostHolds c = true → (s.session c.session).state = .active → s.linkLostStep c = s.orphan c.session) ∧
    (s.linkLostHolds c = true → (s.session c.session).state = .closing → (s.session c.session).closeKind = some .depart →
      s.linkLostStep c = s.setSession c.session { s.session c.session with port := none }) ∧
    (¬ s.linkLostHolds c = true ∨ (s.session c.session).state = .free ∨ (s.session c.session).state = .orphaned →
      s.linkLostStep c = s) := by
  unfold State.linkLostStep
  dsimp only
  refine ⟨fun hh ha => ?_, fun hh hc hk => ?_, fun hv => ?_⟩
  · rw [if_pos hh, ha]
  · rw [if_pos hh, hc, hk]
  · split
    · next hh =>
      obtain hn | hf | ho := hv
      · exact absurd hh hn
      · rw [hf]
      · rw [ho]
    · rfl

/-- Settles O34: a claim that holds orphans as `State.orphan_orphaned` says; when it holds is `State.lossHolds_iff` and
`State.linkLostHolds_iff`. -/
theorem lossAndLinkLostOrphan : Obligations.LossAndLinkLostOrphan := by
  refine ⟨fun s c rest ht hk => ⟨_, exec_timer ht .lossClaim hk State.lossStep rfl, fun p hact hnum hd hs hlaw hcfg hp => ?_,
      fun hvoid => ?_⟩,
    fun s c rest ht hk => ⟨_, exec_timer ht .linkLostClaim hk State.linkLostStep rfl, fun hnum p hpc hp => ?_,
      fun hvoid => ?_⟩⟩
  · have hh := (State.lossHolds_iff { s with lastServed := 7, timersQueue := rest } c).mpr ⟨hact, hnum, hd⟩
    unfold State.lossStep
    rw [if_pos hh]
    exact State.orphan_orphaned hp hs hlaw hcfg
  · refine if_neg fun hh => ?_
    obtain ⟨hact, hnum, d, hd, hlt⟩ := (State.lossHolds_iff _ c).mp hh
    obtain hv | hv | hv := hvoid
    · exact hv hact
    · exact hv hnum
    · exact Nat.not_le.mpr hlt (hv d hd)
  · have hh := (State.linkLostHolds_iff { s with lastServed := 7, timersQueue := rest } c).mpr ⟨hnum, p, hpc, hp⟩
    obtain ⟨hactive, hclosing, -⟩ := State.linkLostStep_cases { s with lastServed := 7, timersQueue := rest } c
    refine ⟨fun hact hs hlaw hcfg => ?_, fun hst hkind => hclosing hh hst hkind⟩
    rw [hactive hh hact]
    exact State.orphan_orphaned hp hs hlaw hcfg
  · refine (State.linkLostStep_cases _ c).2.2 ?_
    by_cases hh : State.linkLostHolds { s with lastServed := 7, timersQueue := rest } c = true
    · obtain ⟨hnum, p, hpc, hp⟩ := (State.linkLostHolds_iff _ c).mp hh
      obtain hv | hv | hv | hv | hv := hvoid
      · exact absurd hnum hv
      · exact absurd (hp.symm.trans hv) nofun
      · exact absurd hp (hv p hpc)
      · exact .inr (.inl hv)
      · exact .inr (.inr hv)
    · exact .inl hh


/-! ### The purge -/

/-- The slots of a section that a session owns (R1, R98). -/
theorem Tables.Sound.mem_ownedIn {t : Tables} (h : t.Sound) (i : SessionId) (k n : Nat) :
    n ∈ t.ownedIn i k ↔ ∃ l, (t.body n).lease? = some l ∧ l.owner = i ∧ n / 256 = k := by
  unfold Tables.ownedIn
  rw [Tables.mem_slotsWhere h.wf]
  simp only [Bool.and_eq_true, decide_eq_true_eq]
  rfl

/-- A purge raises no alert of its own (R98). -/
theorem Tables.goneAlerts_purge (t : Tables) (ns : List Nat) : t.goneAlerts .purge ns = [] := by
  refine List.flatMap_eq_nil_iff.mpr fun n _ => ?_
  cases t.body n <;> rfl

/-- The alert of a session's end, as what is added to the alerts (R99). -/
theorem Run.closedAlert_eq (r : Run) (i : SessionId) (k : Option CloseKind) : r.closedAlert i k =
    { r with alerts := r.alerts ++ if k = some .purge then [(.sessionClosed, .session i)] else [] } := by
  unfold Run.closedAlert
  split
  · rfl
  · rw [List.append_nil]

/-- A purge step's work on section `k`, completed from the state `s'` with the session's end made (R98, R99). -/
theorem Run.purge_completes {s s' : State} (i : SessionId) (k : Nat) (kind : Option CloseKind) (h : s.tab.Sound)
    (hk : s.clock = s'.clock) (hl : s.recallLimit = s'.recallLimit) :
    s.tab.retired ((Run.start s).purge i k).tab (fun m => m ∈ s.tab.ownedIn i k) ∧
      s'.completes ((((Run.start s).purge i k).closedAlert i kind).complete s') ((Run.start s).purge i k).tab
        (s.tab.retiresOn (fun m => m ∈ s.tab.ownedIn i k)) (s.tab.goneAnswers (s.tab.ownedIn i k))
        (s.tab.goneNotices .purge (s.tab.ownedIn i k))
        (if kind = some .purge then [(.sessionClosed, .session i)] else []) := by
  have e : (Run.start s).Retired ((Run.start s).purge i k) .purge (s.tab.ownedIn i k) :=
    Run.retires_retired .purge _ (Run.start s) h (Tables.slotsWhere_nodup h.wf _)
  have hdone := e.completes h rfl rfl rfl rfl s' hk hl (if kind = some .purge then [(.sessionClosed, .session i)] else [])
  rw [Tables.goneAlerts_purge, List.nil_append] at hdone
  rw [Run.closedAlert_eq]
  exact ⟨e.tab, hdone⟩

/-- A DEPART's answer is handed to the port whose inbox is discarded; any other session's end leaves the ports alone
(R99). -/
theorem State.answerDepart_cases {s : State} {i : SessionId} :
    ((s.session i).closeKind ≠ some .depart ∨ (s.session i).port = none → s.answerDepart i = s) ∧
    ∀ p, (s.session i).closeKind = some .depart → (s.session i).port = some p →
      ((s.session i).departTag = none → s.answerDepart i = s.discardInbox p) ∧
      ∀ tag, (s.session i).departTag = some tag → s.answerDepart i =
        (s.discardInbox p).setPort p (((s.discardInbox p).port p).handAnswer (departAnswer tag)) := by
  unfold State.answerDepart
  refine ⟨fun hno => ?_, fun p hk hp => ⟨fun ht => by rw [hk, hp, ht], fun tag ht => by rw [hk, hp, ht]⟩⟩
  split
  · next hk hp ht => exact (hno.elim (absurd hk) fun x => absurd (hp.symm.trans x) nofun)
  · next hk hp ht => exact (hno.elim (absurd hk) fun x => absurd (hp.symm.trans x) nofun)
  · rfl

/-- The record that the session's end frees is the only one that answering its DEPART has touched (R99). -/
theorem State.answerDepart_frees {s : State} {i : SessionId} (hlaw : SessionLaw s.sessions s.nextNumber) :
    s.answerDepart i = { s with sessions := (s.answerDepart i).sessions, ports := (s.answerDepart i).ports } ∧
      upd (s.answerDepart i).sessions i Session.freed = upd s.sessions i Session.freed := by
  obtain ⟨hnone, hsome⟩ := State.answerDepart_cases (s := s) (i := i)
  by_cases hk : (s.session i).closeKind = some .depart
  · cases hp : (s.session i).port with
    | none =>
      rw [hnone (.inr hp)]
      exact ⟨rfl, rfl⟩
    | some p =>
      have hdiscard := State.discardInbox_bound (s := s) (boundTo_eq hlaw hp)
      obtain ⟨hquiet, hanswer⟩ := hsome p hk hp
      cases ht : (s.session i).departTag with
      | none =>
        rw [hquiet ht, hdiscard]
        exact ⟨rfl, upd_upd ..⟩
      | some tag =>
        rw [hanswer tag ht, hdiscard]
        exact ⟨rfl, upd_upd ..⟩
  · rw [hnone (.inl hk)]
    exact ⟨rfl, rfl⟩

/-- The state of a session's end before its results are handed over (R97, R99). -/
theorem State.freeSession_eq {s : State} {i : SessionId} {more : List SessionId} (hq : s.purgeQueue = i :: more)
    (hlaw : SessionLaw s.sessions s.nextNumber) : (s.answerDepart i).freeSession i =
      { s with purgeQueue := more, purgeSection := 0, sessions := upd s.sessions i Session.freed,
               ports := Vector.ofFn (fun q => (s.answerDepart i).port q) } := by
  obtain ⟨hframe, hfree⟩ := State.answerDepart_frees (i := i) hlaw
  have hports : Vector.ofFn (fun q => (s.answerDepart i).port q) = (s.answerDepart i).ports := by
    ext q hq
    simp [State.port]
  unfold State.freeSession State.setSession
  rw [hfree, hports]
  conv => lhs; rw [hframe]
  rw [hq]
  rfl

/-- The tag that a DEPART still has to be answered for, where it is the only parked one (R95). -/
theorem Session.departTag_only {x : Session} {tag : Tag}
    (h : x.outstanding.filter (fun y => y.2 = .parked) = [(tag, .parked)]) : x.departTag = some tag := by
  unfold Session.departTag
  rw [← List.head?_filter, h]
  rfl

/-- An answer handed to a port joins the queue if the port is UP (R149). -/
theorem Port.handAnswer_eq (x : Port) (a : Answer) :
    x.handAnswer a = { x with answers := x.answers ++ if x.link = .up then [a] else [] } := by
  unfold Port.handAnswer
  split
  · rfl
  · rw [List.append_nil]

/-- The ports when a DEPART has been answered on port `p` (R99). -/
theorem State.port_answerDepart {s : State} {i : SessionId} {p : PortId} {tag : Tag}
    (hlaw : SessionLaw s.sessions s.nextNumber) (hk : (s.session i).closeKind = some .depart)
    (hp : (s.session i).port = some p) (ht : (s.session i).departTag = some tag) (q : PortId) :
    (s.answerDepart i).port q = if q = p
      then { s.port p with
             inbox := []
             answers := (s.port p).answers ++ if (s.port p).link = .up then [departAnswer tag] else [] }
      else s.port q := by
  rw [(State.answerDepart_cases.2 p hk hp).2 tag ht, State.discardInbox_bound (boundTo_eq hlaw hp), State.port_setPort]
  have hother : ∀ x, (upd s.ports p x)[q] = if p = q then x else s.port q := fun x => upd_get ..
  have hself : State.port { s with sessions := upd s.sessions i ((s.session i).without (s.port p).inbox)
                                   ports := upd s.ports p { s.port p with inbox := [] } } p =
      { s.port p with inbox := [] } := upd_same ..
  by_cases hpq : p = q
  · subst hpq
    rw [if_pos rfl, if_pos rfl, hself, Port.handAnswer_eq]
  · rw [if_neg hpq, if_neg (Ne.symm hpq)]
    exact (hother _).trans (if_neg hpq)

/-- The engine takes the next purge claim (R97). -/
theorem exec_purge {s : State} {i : SessionId} {more : List SessionId} (h : s.serves 8) (hq : s.purgeQueue = i :: more) :
    exec .purgeSection s = .next (State.purgeStep i { s with lastServed := 8 }) :=
  (exec_high h.1 .purgeSection).trans (congrArg _ (State.takePurge_eq h hq State.purgeStep))

/-- Settles O36: the step's work is `Run.purge_completes`, the session's end `State.freeSession_eq` with the ports of
`State.port_answerDepart`. -/
theorem purgeRetiresAndEnds : Obligations.PurgeRetiresAndEnds := by
  refine ⟨fun s i more h hq hlt hs => ?_, fun s i more h hq hlast hs hlaw => ?_⟩
  · have hstep : State.purgeStep i { s with lastServed := 8 } = (((Run.start s).purge i s.purgeSection).closedAlert i none).complete
        { s with lastServed := 8, purgeSection := s.purgeSection + 1 } := by
      unfold State.purgeStep
      exact if_pos hlt
    obtain ⟨hret, hdone⟩ := Run.purge_completes (s := s)
      (s' := { s with lastServed := 8, purgeSection := s.purgeSection + 1 }) i s.purgeSection none hs rfl rfl
    exact ⟨_, _, _, (exec_purge h hq).trans (congrArg _ hstep), Tables.slotsWhere_rises hs.wf _, hs.mem_ownedIn i _, hret,
      hdone⟩
  · have hstep : State.purgeStep i { s with lastServed := 8 } =
        (((Run.start s).purge i 15).closedAlert i (s.session i).closeKind).complete
          ((State.answerDepart { s with lastServed := 8 } i).freeSession i) := by
      unfold State.purgeStep
      dsimp only
      rw [hlast]
      rfl
    rw [State.freeSession_eq (s := { s with lastServed := 8 }) hq hlaw] at hstep
    obtain ⟨hret, hdone⟩ := Run.purge_completes (s := s)
      (s' := { s with
               lastServed := 8, purgeQueue := more, purgeSection := 0
               sessions := upd s.sessions i Session.freed
               ports := Vector.ofFn (fun q => (State.answerDepart { s with lastServed := 8 } i).port q) })
      i 15 (s.session i).closeKind hs rfl rfl
    refine ⟨_, _, _, _, (exec_purge h hq).trans (congrArg _ hstep), Tables.slotsWhere_rises hs.wf _, hs.mem_ownedIn i 15,
      hret, hdone, fun p tag hk hp hpark => ?_, fun hno q => ?_⟩
    · exact State.port_answerDepart (s := { s with lastServed := 8 }) hlaw hk hp (Session.departTag_only hpark)
    · rw [(State.answerDepart_cases (s := { s with lastServed := 8 })).1 hno]
      rfl

end Sys2Proof.Machine

/-! SUPPORT. The visit of the sweep, phase by phase, and OFFLINE-FORCE, after which no pass runs (R54, R67, R106 to R111,
R125). -/

namespace Sys2Proof.Machine

/-! ### The visit of the sweep -/

/-- The slots that a visit examines (R107). -/
theorem Tables.Sound.mem_examined {t : Tables} (h : t.Sound) (k n : Nat) :
    n ∈ t.examined k ↔ ∃ l, (t.body n).lease? = some l ∧ n / 256 = k ∧ (t.volume l.volume).state ≠ .frozen := by
  unfold Tables.examined
  rw [Tables.mem_slotsWhere h.wf]
  simp only [Bool.and_eq_true, decide_eq_true_eq]
  rfl

/-- The three phases of a visit over the slots `ns`, one after the other, with the slots `rs` of the leases that the third
revoked (R107 to R110). -/
structure Run.Visited (r r₁ r₂ r₃ : Run) (ns rs : List Nat) : Prop where
  waits : r.Ended r₁ .timedOut (r.tab.lateWaits r.now ns)
  holds : r₁.Retired r₂ .expiry (r₁.tab.lateHolds r.now ns)
  judged : r₂.Judged r₃ ns
  revoked : r₂.Revoked r₃ ns rs
  marks : r₂.tab.judged r₃.tab r.now (fun m => m ∈ ns)
  judges : r₂.tab.judges r.now ns r₃.tab rs

/-- What a visit does over a list of slots. -/
theorem Run.visit_visited (r : Run) {ns : List Nat} (h : r.tab.Sound) (hn : ns.Nodup) :
    ∃ r₁ r₂ rs, r.Visited r₁ r₂ (r.visit ns) ns rs := by
  obtain ⟨hwaits, -⟩ := Run.visitWaits_ended ns r h hn
  have h₁ := hwaits.toRun.moves.keeps h
  have hholds := Run.visitHolds_retired ns (ns.foldl Run.visitWait r) h₁ hn
  have h₂ := hholds.toRun.moves.keeps h₁
  have hnow := hholds.toRun.now.trans hwaits.toRun.now
  have hjudged := Run.visitRecalls_judged _ h₂ ns _ [] (.refl _) hn
  obtain ⟨rs, hrevoked⟩ := Run.visitRecalls_revoked _ h₂ ns _ [] [] (.refl _) (.refl _) hn
  have hjudges := Run.visitRecalls_judges ns _ h₂ hn rs hrevoked.order hrevoked.mem
  have hmarks := hjudged.tab
  rw [hnow] at hjudges hmarks
  rw [hwaits.toRun.now] at hholds
  exact ⟨_, _, rs, hwaits, hholds, hjudged, hrevoked, hmarks, hjudges⟩

/-- A visit's work from the state `s`, completed from the state `s'` (R111). -/
theorem Run.Visited.completes {s s' : State} {r₁ r₂ r₃ : Run} {ns rs : List Nat}
    (e : (Run.start s).Visited r₁ r₂ r₃ ns rs) (h : s.tab.Sound) (hk : s.clock = s'.clock)
    (hl : s.recallLimit = s'.recallLimit) :
    s'.completes (r₃.complete s') r₃.tab
      (fun v => s.tab.endsOn (fun e => e ∈ s.tab.lateWaits s.clock ns) v ∨
        r₁.tab.retiresOn (fun m => m ∈ r₁.tab.lateHolds s.clock ns) v ∨ r₂.tab.retiresOn (fun m => m ∈ rs) v)
      (s.tab.endAnswers .timedOut (s.tab.lateWaits s.clock ns) ++ r₁.tab.goneAnswers (r₁.tab.lateHolds s.clock ns) ++
        r₂.tab.goneAnswers rs)
      (s.tab.endNotices .timedOut (s.tab.lateWaits s.clock ns) ++
        r₁.tab.goneNotices .expiry (r₁.tab.lateHolds s.clock ns) ++ r₂.tab.goneNotices (.revocation .recallLimit) rs)
      (r₁.tab.goneAlerts .expiry (r₁.tab.lateHolds s.clock ns) ++ r₂.tab.goneAlerts (.revocation .recallLimit) rs) := by
  obtain ⟨hwaits, hholds, hjudged, hrevoked, -, -⟩ := e
  have hto := (hwaits.toRun.trans hholds.toRun).trans hjudged.toRun
  have hdone := r₃.complete_completes s' (hto.moves.keeps h) (hto.now.trans hk) (hto.limit.trans hl)
  have hdue : (fun v => v ∈ r₃.due) = fun v => s.tab.endsOn (fun e => e ∈ s.tab.lateWaits s.clock ns) v ∨
      r₁.tab.retiresOn (fun m => m ∈ r₁.tab.lateHolds s.clock ns) v ∨ r₂.tab.retiresOn (fun m => m ∈ rs) v := by
    funext v
    refine propext ?_
    rw [hrevoked.due, hholds.due, hwaits.due, show (Run.start s).due = [] from rfl, or_assoc, or_assoc]
    exact or_iff_right List.not_mem_nil
  rw [hdue, hrevoked.cache, hrevoked.notices, hrevoked.alerts, hholds.cache, hholds.notices, hholds.alerts, hwaits.cache,
    hwaits.notices, hwaits.alerts] at hdone
  exact hdone

/-- Settles O33: the phases are `Run.visit_visited`, their results `Run.Visited.completes`. -/
theorem sweepVisitActs : Obligations.SweepVisitActs := by
  intro s hv hs
  have hrise : (s.tab.examined s.sweepPtr.val).Pairwise (· < ·) := Tables.slotsWhere_rises hs.wf _
  obtain ⟨r₁, r₂, rs, e⟩ := (Run.start s).visit_visited hs (Tables.slotsWhere_nodup hs.wf _)
  have hstep := State.visitStep_eq { s with lastServed := 6, visitPending := false }
  have hexec : exec .sweepVisit s = .next (State.visitStep { s with lastServed := 6, visitPending := false }) :=
    (exec_high hv.1 .sweepVisit).trans (congrArg _ (State.takeVisit_eq hv State.visitStep))
  exact ⟨_, s.tab.examined s.sweepPtr.val, rs, r₁.tab, r₂.tab, _, hexec.trans (congrArg _ hstep), hrise,
    hs.mem_examined _, e.waits.tab, e.holds.tab, e.judges, e.marks, hrise.sublist e.revoked.order, e.revoked.mem,
    e.revoked.pool, e.completes hs rfl rfl⟩

/-! ### OFFLINE-FORCE -/

/-- No pass runs where no due volume is ONLINE (R45). -/
theorem Run.runPasses_offline {r : Run} (h : ∀ v ∈ r.due, (r.tab.volume v).state ≠ .online) : r.runPasses = r := by
  have skip : ∀ v, ¬ (r.due.contains v && decide ((r.tab.volume v).state = .online)) = true := by
    intro v hv
    obtain ⟨hd, hon⟩ := Bool.and_eq_true_iff.mp hv
    exact h v (List.contains_iff_mem.mp hd) (of_decide_eq_true hon)
  have stay : ∀ l : List VolumeId, l.foldl (fun acc v =>
      if r.due.contains v && decide ((acc.tab.volume v).state = .online) then acc.wakePass v else acc) r = r := by
    intro l
    induction l with
    | nil => rfl
    | cons v l ih => rwa [List.foldl_cons, if_neg (skip v)]
  exact stay _

/-- When the waits of a whole list have ended, no slot of its volume has a wait (R42, R50). -/
theorem Tables.waitsEnded.idle {t u : Tables} {v : VolumeId} (h : t.waitsEnded u (fun e => e ∈ t.waitList v))
    (hu : u.Sound) {n : Nat} {l : Lease} (hb : (u.body n).lease? = some l) (hv : l.volume = v) :
    ∃ ten, u.body n = .held l ten ∧ ten.upgrade = none := by
  have none : ∀ e we, lookupKey e u.pool = some we → we.volume ≠ v := by
    intro e we he hw
    obtain ⟨hin, hnot⟩ := ((h.lists v).2 e).mp (((hu.waitLaw.2.2.2.2 v).2 e).mpr ⟨we, he, hw⟩)
    exact hnot hin
  have still : (u.body n).waits = false := by
    refine Bool.eq_false_iff.mpr fun hw => ?_
    obtain ⟨e, we, he, rfl⟩ := hu.waitLaw.2.2.2.1 n hw
    cases hbody : u.body we.slot with
    | free => rw [hbody] at hw; cases hw
    | pending k d =>
      rw [hbody] at hb
      cases hb
      exact none e we he ((hu.entry_pending he hbody).2.trans hv)
    | held k ten =>
      rw [hbody] at hb
      cases hb
      exact none e we he ((hu.entry_held he hbody).2.1.trans hv)
  cases hbody : u.body n with
  | free => rw [hbody] at hb; cases hb
  | pending k d => rw [hbody] at still; cases still
  | held k ten =>
    rw [hbody] at hb still
    cases hb
    exact ⟨ten, rfl, Option.not_isSome_iff_eq_none.mp (Bool.eq_false_iff.mp still)⟩

/-- The slot that a wait entry refers to is not FREE (R41). -/
theorem Tables.Sound.entry_notFree {t : Tables} (h : t.Sound) {e : Nat} {we : WaitEntry}
    (he : lookupKey e t.pool = some we) : t.body we.slot ≠ .free := by
  have hfits := (h.waitLaw.2.1 e we he).2
  unfold Tables.entryFits at hfits
  split at hfits
  · obtain ⟨l, d, hb, -⟩ := hfits
    rw [hb]
    nofun
  · obtain ⟨l, ten, u, hb, -⟩ := hfits
    rw [hb]
    nofun

/-- A lease that is HELD stays HELD through the end of waits, and only what was HELD is (R50). -/
theorem Tables.waitsEnded.held_iff {t u : Tables} {g : Nat → Prop} (h : t.waitsEnded u g) (ht : t.Sound) (n : Nat)
    (l : Lease) : (∃ ten, u.body n = .held l ten) ↔ ∃ ten, t.body n = .held l ten := by
  by_cases hn : ∃ e we, lookupKey e t.pool = some we ∧ g e ∧ we.slot = n
  · obtain ⟨e, we, he, hg, rfl⟩ := hn
    cases hb : t.body we.slot with
    | free => exact absurd hb (ht.entry_notFree he)
    | pending k d =>
      have hu : u.body we.slot = .free := congrArg Slot.body (h.pending e we k d he hg hb)
      rw [hu]
      simp
    | held k ten =>
      have hu : u.body we.slot = .held k { ten with upgrade := none } := congrArg Slot.body (h.held e we k ten he hg hb)
      rw [hu]
      simp
  · have hu : u.body n = t.body n := congrArg Slot.body (h.others n fun e we he hg hs => hn ⟨e, we, he, hg, hs⟩)
    rw [hu]

/-- What OFFLINE-FORCE's work on volume `v` does from the state `s`: the waits end, the leases in the slots `ns` are
revoked, and the volume goes OFFLINE (R125). -/
structure State.Forced (s : State) (v : VolumeId) (r : Run) (ns : List Nat) (u₁ u₂ : Tables) : Prop where
  rises : ns.Pairwise (· < ·)
  slots : ∀ n, n ∈ ns ↔ ∃ l ten, s.tab.body n = .held l ten ∧ l.volume = v
  waits : s.tab.waitsEnded u₁ (fun e => e ∈ s.tab.waitList v)
  leases : u₁.retired u₂ (fun m => m ∈ ns)
  tab : r.tab = { u₂ with volumes := upd s.tab.volumes v { s.tab.volume v with state := .offline } }
  cache : r.cache = s.tab.endAnswers .volumeOffline (s.tab.waitList v)
  notices : r.notices = s.tab.endNotices .volumeOffline (s.tab.waitList v) ++
    u₁.goneNotices (.revocation .volumeOffline) ns
  alerts : r.alerts = u₁.goneAlerts (.revocation .volumeOffline) ns
  due : ∀ w ∈ r.due, w = v

/-- OFFLINE-FORCE's work (R54, R125). -/
theorem State.forceOffline_forced {s : State} (v : VolumeId) (h : s.tab.Sound) :
    ∃ ns u₁ u₂, s.Forced v ((Run.start s).forceOffline v) ns u₁ u₂ := by
  have ends : (Run.start s).Ended _ .volumeOffline (s.tab.waitList v) :=
    Run.endWaits_ended .volumeOffline (s.tab.waitList v) (Run.start s) h (h.waitLaw.2.2.2.2 v).1
      fun e he => (h.entry_of_list he).imp fun _ => And.left
  have h₁ := ends.toRun.moves.keeps h
  unfold Run.forceOffline
  dsimp only
  rw [Run.tab_start]
  generalize (s.tab.waitList v).foldl (fun r e => r.endWait .volumeOffline e) (Run.start s) = r₁ at ends h₁ ⊢
  have hrise : (r₁.tab.slotsWhere (fun _ l => decide (l.volume = v))).Pairwise (· < ·) := Tables.slotsWhere_rises h₁.wf _
  have hslots : ∀ n, n ∈ r₁.tab.slotsWhere (fun _ l => decide (l.volume = v)) ↔
      ∃ l, l.volume = v ∧ ∃ ten, r₁.tab.body n = .held l ten := by
    intro n
    rw [Tables.mem_slotsWhere h₁.wf]
    refine exists_congr fun l => ⟨fun ⟨hl, hv⟩ => ?_, fun ⟨hv, ten, hb⟩ => ⟨by rw [hb]; rfl, decide_eq_true hv⟩⟩
    obtain ⟨ten, hb, -⟩ := ends.tab.idle h₁ hl (of_decide_eq_true hv)
    exact ⟨of_decide_eq_true hv, ten, hb⟩
  have gone := Run.retires_retired (.revocation .volumeOffline) _ r₁ h₁
    (Tables.slotsWhere_nodup h₁.wf (fun _ l => decide (l.volume = v)))
  generalize r₁.tab.slotsWhere (fun _ l => decide (l.volume = v)) = ns at hrise hslots gone ⊢
  generalize ns.foldl (fun r n => r.retire (.revocation .volumeOffline) n) r₁ = r₂ at gone ⊢
  have hanswers : r₁.tab.goneAnswers ns = [] := by
    refine List.flatMap_eq_nil_iff.mpr fun n hn => ?_
    obtain ⟨l, hv, ten, hb⟩ := (hslots n).mp hn
    obtain ⟨ten', hb', hu⟩ := ends.tab.idle h₁ (n := n) (l := l) (by rw [hb]; rfl) hv
    rw [hb']
    simp only [hu, Option.toList_none, List.map_nil]
  have hvols : r₂.tab.volumes = s.tab.volumes := gone.tab.volumes.trans ends.tab.volumes
  refine ⟨ns, r₁.tab, r₂.tab, hrise, fun n => ?_, ends.tab, gone.tab, ?_, ?_, ?_, ?_, fun w hw => ?_⟩
  · rw [hslots]
    refine exists_congr fun l => ?_
    rw [ends.tab.held_iff h, exists_and_right, and_comm]
    rfl
  · show r₂.tab.setVolumeState v .offline = _
    unfold Tables.setVolumeState Tables.volume
    rw [hvols]
  · show r₂.cache = _
    rw [gone.cache, ends.cache, hanswers, List.append_nil]
    rfl
  · show r₂.notices = _
    rw [gone.notices, ends.notices]
    rfl
  · show r₂.alerts = _
    rw [gone.alerts, ends.alerts]
    rfl
  · obtain hd | ⟨m, l, ten, hb, hm, rfl⟩ := (gone.due w).mp hw
    · obtain hd | ⟨e, we, he, hin, rfl⟩ := (ends.due w).mp hd
      · cases hd
      · obtain ⟨we', he', hv⟩ := h.entry_of_list hin
        cases he.symm.trans he'
        exact hv
    · obtain ⟨k, hv, ten', hb'⟩ := (hslots m).mp hm
      cases hb.symm.trans hb'
      exact hv

/-- Settles O38: the work is `State.forceOffline_forced`, and no pass follows it (`Run.runPasses_offline`). -/
theorem offlineForceClears : Obligations.OfflineForceClears := by
  intro s c v ht hc hv hs
  obtain ⟨hoff, hon⟩ := State.offlineForceStep_cases { s with lastServed := 9 } hv
  refine ⟨_, exec_command ht hc .offlineForce State.offlineForceStep rfl, fun hstate => ?_, fun hstate => ?_⟩
  · rw [hoff hstate, State.finishCommand_eq]
    exact (Run.start s).complete_plain (s.finished .done) rfl
  · obtain ⟨ns, u₁, u₂, f⟩ := State.forceOffline_forced v hs
    have hsound := ((Run.start s).forceOffline_to v hs).moves.keeps hs
    rw [hon hstate, State.finishCommand_eq]
    have hvol : ((Run.start s).forceOffline v).tab.volume v = { s.tab.volume v with state := .offline } := by
      rw [f.tab]
      exact upd_same s.tab.volumes v _
    have hquiet : ((Run.start s).forceOffline v).runPasses = (Run.start s).forceOffline v := by
      refine Run.runPasses_offline fun w hw hx => ?_
      rw [f.due w hw, hvol] at hx
      cases hx
    obtain ⟨hdone, htab⟩ := ((Run.start s).forceOffline v).complete_still (s.finished .done) hquiet
    rw [f.cache, f.notices, f.alerts] at hdone
    have hempty : ∀ n l, ((((Run.start s).forceOffline v).complete (s.finished .done)).tab.body n).lease? = some l →
        l.volume ≠ v := by
      intro n l hl hx
      subst hx
      rw [htab] at hl
      obtain ⟨hin, -⟩ := hsound.volumeLaw n l hl
      rw [hvol] at hin
      exact hin rfl
    exact ⟨ns, u₁, u₂, f.rises, f.slots, f.waits, f.leases, htab.trans f.tab, hempty, hdone⟩

end Sys2Proof.Machine

/-! SUPPORT. RENEW and LIST: what each answers case by case, and what a RENEW leaves in the lease's slot (R62, R73). -/

namespace Sys2Proof.Machine

/-! ### RENEW -/

/-- A RENEW that gives a hold length out of range is refused (R62). -/
theorem renewWork_unformed {s : State} {i : SessionId} {rq : Request} {h : Handle} {hold : Option Nat}
    (hb : rq.body = .renew h hold) (hl : ¬ ∀ x, hold = some x → 10 ≤ x ∧ x ≤ 3600000) :
    renewWork i rq s = refusal (Run.start s) .badRequest := by
  have hform : holdOk hold = false := Bool.eq_false_iff.mpr fun hf => hl ((holdOk_iff _).mp hf)
  unfold renewWork renewChecked
  simp only [hb, if_pos hform]

/-- A RENEW in form whose handle passes its check: an untimed lease is refused, and a timed one takes the length given, or
the stored one, and the deadline that it makes (R62). -/
theorem renewWork_held {s : State} {i : SessionId} {rq : Request} {h : Handle} {hold : Option Nat} {l : Lease}
    {ten : Tenure} (hb : rq.body = .renew h hold) (hl : ∀ x, hold = some x → 10 ≤ x ∧ x ≤ 3600000)
    (hh : s.holds i h l ten) :
    (l.holdLength = none → renewWork i rq s = refusal (Run.start s) .notTimed) ∧
    ∀ stored, l.holdLength = some stored →
      let length := hold.getD stored
      let deadline := s.clock + BitVec.ofNat 32 length
      renewWork i rq s =
        ((Run.start s).withTab (s.tab.setBody h.slot
            (.held { l with holdLength := some length } { ten with holdDeadline := some deadline })),
          .final .ok (.renewed h length deadline)) := by
  have hok : (Run.start s).tab.checkHandle i h = .ok (l, ten) := State.checkHandle_holds hh
  have hform : ¬ holdOk hold = false := fun hf => Bool.eq_false_iff.mp hf ((holdOk_iff _).mpr hl)
  unfold renewWork renewChecked
  simp only [hb, if_neg hform, hok]
  refine ⟨fun hnone => ?_, fun stored hsome => ?_⟩
  · rw [hnone]
  · rw [hsome]
    rfl

/-- Settles O24: the refusals are `renewWork_unformed`, `renewWork_fault` and `renewWork_held`, whose second part is also
the renewal; of the tables it changes one slot's body (`Tables.slotOnly_setBody`). -/
theorem renewSetsDeadline : Obligations.RenewSetsDeadline := by
  intro s p i rq rest ht
  refine ⟨fun hb => ?_, fun h hold hb => ?_⟩
  · exact exec_refused ht .renew renewWork rfl (by rw [hb]; rfl) (by unfold renewWork; rw [hb]; rfl)
  refine ⟨_, exec_request ht .renew renewWork rfl (by rw [hb]; rfl), fun hl => ?_, fun hl st hf => ?_,
    fun hl l ten hh => ?_⟩
  · exact State.turnedDown_step (renewWork_unformed hb hl)
  · exact State.turnedDown_step (renewWork_fault hb hl (State.checkHandle_fault hf))
  obtain ⟨huntimed, htimed⟩ := renewWork_held (s := s.takeInbox p rest) hb hl hh
  refine ⟨fun hnone => State.turnedDown_step (huntimed hnone), fun stored hsome => ?_⟩
  obtain ⟨hfin, htab⟩ := State.finalAnswer_step (s := s) (p := p) (i := i) (rq := rq) (rest := rest) (k := .renew)
    (htimed stored hsome) rfl rfl rfl rfl
  refine ⟨hfin, ?_, ?_⟩
  · rw [htab]
    exact s.tab.slotOnly_setBody h.slot _
  · rw [htab]
    rfl

/-! ### LIST -/

/-- The slots that a LIST finds are the session's non-FREE slots from the cursor on (R73). -/
theorem Tables.Sound.mem_ownedFrom {t : Tables} (h : t.Sound) (i : SessionId) (cursor n : Nat) :
    n ∈ t.ownedFrom i cursor ↔ cursor ≤ n ∧ ∃ l, (t.body n).lease? = some l ∧ l.owner = i := by
  unfold Tables.ownedFrom
  rw [Tables.mem_slotsWhere h.wf]
  simp only [Bool.and_eq_true, decide_eq_true_eq]
  constructor
  · rintro ⟨l, hl, howner, hn⟩
    exact ⟨hn, l, hl, howner⟩
  · rintro ⟨hn, l, hl, howner⟩
    exact ⟨l, hl, howner, hn⟩

/-- The reply of a LIST whose cursor is no slot number (R73). -/
theorem State.listChecked_big {s : State} {cursor : Nat} (h : 4095 < cursor) (i : SessionId) :
    s.listChecked i cursor = .final .badRequest .empty := if_pos h

/-- The reply of a LIST whose cursor is a slot number (R73). -/
theorem State.listChecked_slots {s : State} {cursor : Nat} (h : cursor ≤ 4095) (i : SessionId) :
    s.listChecked i cursor = .final .ok (.slots
      (((s.tab.ownedFrom i cursor).take 8).map (fun n => (n, s.tab.slots.get n)))
      (nextCursor (s.tab.ownedFrom i cursor))) := if_neg (Nat.not_le.mpr (Nat.lt_succ_of_le h))

/-- The step of a LIST gives its reply and changes no table (R73). -/
theorem listWork_eq {s : State} {i : SessionId} {rq : Request} {cursor : Nat} (hb : rq.body = .list cursor) :
    listWork i rq s = (Run.start s, s.listChecked i cursor) := by
  unfold listWork
  simp only [hb]

/-- Settles O28: the reply is `State.listChecked_big` or `State.listChecked_slots`, and what it reports of is
`Tables.ownedFrom`, in slot order (`Tables.slotsWhere_rises`, `Tables.Sound.mem_ownedFrom`). -/
theorem listReports : Obligations.ListReports := by
  intro s p i rq rest ht
  refine ⟨fun hb => ?_, fun cursor hb => ?_⟩
  · exact exec_refused ht .list listWork rfl (by rw [hb]; rfl) (by unfold listWork; rw [hb]; rfl)
  have hw : listWork i rq (s.takeInbox p rest) = (Run.start s, s.listChecked i cursor) := listWork_eq hb
  have step : ∀ st res, s.listChecked i cursor = .final st res →
      s.finalAnswer _ p i rq rest .list st res [] ∧ _ = s.tab := fun st res hx =>
    State.finalAnswer_step (hw.trans (by rw [hx])) rfl rfl rfl rfl
  refine ⟨_, exec_request ht .list listWork rfl (by rw [hb]; rfl), ?_, fun hbig => ?_, fun hin hs => ?_⟩
  · obtain hbig | hin := Nat.lt_or_ge 4095 cursor
    · exact (step _ _ (State.listChecked_big hbig i)).2
    · exact (step _ _ (State.listChecked_slots hin i)).2
  · exact step _ _ (State.listChecked_big hbig i)
  · exact ⟨s.tab.ownedFrom i cursor, Tables.slotsWhere_rises hs.wf _, hs.mem_ownedFrom i cursor,
      (step _ _ (State.listChecked_slots hin i)).1⟩

end Sys2Proof.Machine

/-! SUPPORT. The refusals of the maintenance commands: a step that refuses its command changes the status and nothing else
(R174, R175). -/

namespace Sys2Proof.Machine

/-- A step that ends in a refusal, once the arbiter has served the Maintenance Port (R175). -/
theorem State.commandRefused_step {s t : State} {r : Reason}
    (h : t = State.refuseCommand { s with lastServed := 9 } r) : s.commandRefused t r :=
  h.trans (s.refuseCommand_eq r)

/-- A command on a volume whose number is above 31 is refused, whatever its work on a volume (R118). -/
theorem exec_noVolume {s : State} {c : Command} (ht : s.takesCommand c) {code : Byte} (hc : c.code = code) (i : Instr)
    (work : Command → State → VolumeId → State)
    (h : effect i s = s.takeCode code fun c s => s.onVolume c (work c s)) (hbig : 31 < c.arg1.toNat) :
    ∃ t, exec i s = .next t ∧ s.commandRefused t .badArgument :=
  ⟨_, exec_command ht hc i _ h, State.commandRefused_step (State.onVolume_big _ hbig _)⟩

/-- The six commands on a volume refuse a number above 31 (R118). -/
theorem volumeCommands_noVolume {s : State} {c : Command} (ht : s.takesCommand c) {i : Instr} {code : Byte}
    (hi : (i, code) ∈ [(Instr.define, (0x01 : Byte)), (.online, 0x02), (.freeze, 0x03), (.thaw, 0x04), (.offline, 0x05),
      (.offlineForce, 0x06)]) (hc : c.code = code) (hbig : 31 < c.arg1.toNat) :
    ∃ t, exec i s = .next t ∧ s.commandRefused t .badArgument := by
  simp only [List.mem_cons, Prod.mk.injEq, List.not_mem_nil, or_false] at hi
  rcases hi with ⟨rfl, rfl⟩ | ⟨rfl, rfl⟩ | ⟨rfl, rfl⟩ | ⟨rfl, rfl⟩ | ⟨rfl, rfl⟩ | ⟨rfl, rfl⟩ <;>
    exact exec_noVolume ht hc _ _ rfl hbig

/-- A code that names no command is refused (R175). -/
theorem exec_namesNoCommand {s : State} {c : Command} (ht : s.takesCommand c) (hc : c.code = 0 ∨ 0x0B < c.code.toNat) :
    ∃ t, exec .badCommand s = .next t ∧ s.commandRefused t .badCommand := by
  have hno : namesNoCommand c.code = true := by
    unfold namesNoCommand
    rwa [Bool.or_eq_true, decide_eq_true_eq, decide_eq_true_eq]
  obtain ⟨⟨hr, -⟩, -⟩ := id ht
  refine ⟨_, exec_high hr .badCommand, State.commandRefused_step ?_⟩
  exact State.takeCommand_eq ht hno fun _ s => s.refuseCommand .badCommand

/-- Settles O39: each command's step takes its refusals from the step's own `…Step_cases` lemma. -/
theorem commandsRefused : Obligations.CommandsRefused := by
  intro s c ht
  refine ⟨fun i code hi hc hbig => volumeCommands_noVolume ht hi hc hbig, fun v hv =>
    ⟨fun hc => ?define, fun hc => ?online, fun hc => ?freeze, fun hc => ?thaw, fun hc => ?offline⟩,
    fun hc => ?revoke, fun hc => ?closeSession, fun hc hbig => ?portReset, exec_namesNoCommand ht⟩
  case define =>
    obtain ⟨hsize, hstate, -⟩ := State.defineStep_cases { s with lastServed := 9 } hv
    exact ⟨_, exec_command ht hc .define State.defineStep rfl, fun h => State.commandRefused_step (hsize h),
      fun hle hon => State.commandRefused_step (hstate hle hon)⟩
  case online =>
    obtain ⟨hstate, hsize, hfence⟩ := State.onlineStep_cases { s with lastServed := 9 } hv
    exact ⟨_, exec_command ht hc .online State.onlineStep rfl, fun hon => State.commandRefused_step (hstate hon),
      fun hoff h0 => State.commandRefused_step (hsize hoff h0),
      fun hoff hne hlast => State.commandRefused_step ((hfence hoff hne).1 (Nat.le_of_eq hlast.symm))⟩
  case freeze =>
    obtain ⟨hstate, -⟩ := State.freezeStep_cases { s with lastServed := 9 } hv
    exact ⟨_, exec_command ht hc .freeze State.freezeStep rfl, fun hon => State.commandRefused_step (hstate hon)⟩
  case thaw =>
    obtain ⟨hstate, hfence⟩ := State.thawStep_cases { s with lastServed := 9 } hv
    exact ⟨_, exec_command ht hc .thaw State.thawStep rfl, fun hfr => State.commandRefused_step (hstate hfr),
      fun hfr hlast => State.commandRefused_step ((hfence hfr).1 (Nat.le_of_eq hlast.symm))⟩
  case offline =>
    refine ⟨_, exec_command ht hc .offline State.offlineStep rfl, fun hs hslot => ?_⟩
    obtain ⟨hpresent, -⟩ := State.offlineStep_cases { s with lastServed := 9 } hv hs
    exact State.commandRefused_step (hpresent hslot)
  case revoke =>
    obtain ⟨hbig, hin⟩ := State.revokeStep_cases { s with lastServed := 9 } c
    exact ⟨_, exec_command ht hc .revoke State.revokeStep rfl, fun h => State.commandRefused_step (hbig h),
      fun hle hno => State.commandRefused_step ((hin hle).1 hno)⟩
  case closeSession =>
    obtain ⟨hbig, hin⟩ := State.closeSessionStep_cases { s with lastServed := 9 } c
    exact ⟨_, exec_command ht hc .closeSession State.closeSessionStep rfl, fun h => State.commandRefused_step (hbig h),
      fun i hi hst => State.commandRefused_step ((hin i hi).1 hst)⟩
  case portReset =>
    obtain ⟨hrefused, -⟩ := State.portResetStep_cases { s with lastServed := 9 } c
    exact ⟨_, exec_command ht hc .portReset State.portResetStep rfl, State.commandRefused_step (hrefused hbig)⟩

end Sys2Proof.Machine

/-! SUPPORT. JOIN: which record its searches find, and what its step is for each outcome of its checks (R80 to R84, R93).
-/

namespace Sys2Proof.Machine

/-! ### The searches of the Session Table -/

/-- A record that is not FREE holds its own name (R82). -/
theorem holdsName_iff (name : Name) (x : Session) : holdsName name x = true ↔ x.state ≠ .free ∧ x.name = name := by
  unfold holdsName
  rw [Bool.and_eq_true, decide_eq_true_eq, decide_eq_true_eq]

/-- What a reclaim looks for: the name and the session number on one record (R84). -/
theorem holdsReclaim_iff (name : Name) (number : Nat) (x : Session) :
    (holdsName name x && decide (x.number = number)) = true ↔ x.state ≠ .free ∧ x.name = name ∧ x.number = number := by
  rw [Bool.and_eq_true, holdsName_iff, decide_eq_true_eq, and_assoc]

/-- At most one record holds a name, so the search finds it (R82). -/
theorem State.findName_held {s : State} (h : SessionLaw s.sessions s.nextNumber) {j : SessionId}
    (hj : (s.session j).state ≠ .free) : s.findSession (holdsName (s.session j).name) = some j := by
  refine find_unique _ j ((holdsName_iff _ _).mpr ⟨hj, rfl⟩) fun i hi => ?_
  obtain ⟨hst, hn⟩ := (holdsName_iff _ _).mp hi
  exact h.names i j hst hj hn

/-- No record holds the name. -/
theorem State.findName_none {s : State} {name : Name} (h : ∀ j, (s.session j).state ≠ .free → (s.session j).name ≠ name) :
    s.findSession (holdsName name) = none := by
  refine find_none _ fun j => Bool.eq_false_iff.mpr fun hj => ?_
  obtain ⟨hst, hn⟩ := (holdsName_iff _ _).mp hj
  exact h j hst hn

/-- At most one record holds a session number, so a reclaim finds it (R80, R84). -/
theorem State.findReclaim_held {s : State} (h : SessionLaw s.sessions s.nextNumber) {j : SessionId}
    (hj : (s.session j).state ≠ .free) : s.findSession (fun x => holdsName (s.session j).name x &&
      decide (x.number = (s.session j).number)) = some j := by
  refine find_unique _ j ((holdsReclaim_iff _ _ _).mpr ⟨hj, rfl, rfl⟩) fun i hi => ?_
  obtain ⟨hst, -, hn⟩ := (holdsReclaim_iff _ _ _).mp hi
  exact h.numbers i j hst hj hn

/-- The lowest-numbered FREE record (R83). -/
theorem State.findFree_lowest {s : State} {k : SessionId} (hk : (s.session k).state = .free)
    (hl : ∀ j, j < k → (s.session j).state ≠ .free) : s.findSession (fun x => decide (x.state = .free)) = some k :=
  find_lowest _ k (decide_eq_true hk) fun j hj => decide_eq_false (hl j hj)

/-- No record is FREE. -/
theorem State.findFree_none {s : State} (h : ∀ j, (s.session j).state ≠ .free) :
    s.findSession (fun x => decide (x.state = .free)) = none :=
  find_none _ fun j => decide_eq_false (h j)

/-! ### The checks of a JOIN -/

/-- A step answers a JOIN with a refusal, for the session `i` if there is one (R81). -/
def State.refuseJoin (s : State) (p : PortId) (tag : Tag) (i : Option SessionId) (st : Status) : State :=
  s.answerRequest p tag .join i (.final st .empty) (Run.start s)

/-- A step answers a JOIN that has made `x` the record of session `k` (R83, R84). -/
def State.acceptJoin (s : State) (p : PortId) (tag : Tag) (k : SessionId) (x : Session) : State :=
  s.answerRequest p tag .join (some k) (.final .ok (joinedResult x)) (Run.start s)

/-- The engine takes a JOIN (R21, R81). -/
theorem exec_join {s : State} {p : PortId} {rq : Request} {rest : List Request} (h : s.takesRequest p rq rest)
    (hk : rq.body.kind? = some .join) : exec .join s = .next ((s.takeInbox p rest).joinStep p rq) := by
  obtain ⟨⟨hr, -⟩, -⟩ := id h
  exact (exec_high hr .join).trans (congrArg _ (State.takeRequest_eq h hk fun p rq s => s.joinStep p rq))

/-- The checks of a JOIN's body and of its port's binding, in their order (R81). -/
theorem State.joinStep_cases (s : State) (p : PortId) {rq : Request} {name : Name} {window : Nat} {reclaim : Option Nat}
    (hb : rq.body = .join name window reclaim) :
    (name = 0 ∨ window = 0 ∨ 32 < window → s.joinStep p rq = s.refuseJoin p rq.tag (s.boundSession p) .badRequest) ∧
    (name ≠ 0 → 1 ≤ window → window ≤ 32 →
      (∀ i, s.boundSession p = some i → s.joinStep p rq = s.refuseJoin p rq.tag (s.boundSession p)
        (if (s.session i).state = .active then .alreadyJoined else .busy)) ∧
      (s.boundSession p = none → reclaim = none → s.joinStep p rq = s.joinNew p rq.tag name window) ∧
      ∀ number, s.boundSession p = none → reclaim = some number →
        s.joinStep p rq = s.joinReclaim p rq.tag name window number) := by
  unfold State.joinStep
  rw [hb]
  dsimp only
  refine ⟨fun hbad => if_pos hbad, fun hname hlow hhigh => ?_⟩
  have hgood : ¬ (name = 0 ∨ window = 0 ∨ 32 < window) := by
    rintro (h | h | h)
    · exact hname h
    · omega
    · omega
  rw [if_neg hgood]
  refine ⟨fun i hi => ?_, fun hi hr => ?_, fun number hi hr => ?_⟩
  · rw [hi]
    dsimp only
    split <;> rfl
  · rw [hi, hr]
  · rw [hi, hr]

/-- A JOIN whose body is malformed (R81). -/
theorem State.joinStep_malformed (s : State) (p : PortId) {rq : Request} (hb : rq.body = .malformed .join) :
    s.joinStep p rq = s.refuseJoin p rq.tag (s.boundSession p) .badRequest := by
  unfold State.joinStep
  rw [hb]
  rfl

/-- A fresh JOIN under a name that record `j` holds (R82, R93). -/
theorem State.joinNew_held {s : State} (p : PortId) (tag : Tag) {name : Name} (window : Nat) {j : SessionId}
    (h : s.findSession (holdsName name) = some j) :
    ((s.session j).state = .active → s.joinNew p tag name window = s.refuseJoin p tag none .nameInUse) ∧
    ((s.session j).state = .closing → s.joinNew p tag name window = s.refuseJoin p tag none .busy) ∧
    ((s.session j).state = .orphaned →
      s.joinNew p tag name window = (s.closeAs j .purge).refuseJoin p tag none .busy) := by
  unfold State.joinNew
  rw [h]
  dsimp only
  refine ⟨fun hst => ?_, fun hst => ?_, fun hst => ?_⟩ <;> rw [hst] <;> rfl

/-- A fresh JOIN under a name that no record holds (R80, R82, R83). -/
theorem State.joinNew_fresh {s : State} (p : PortId) (tag : Tag) {name : Name} (window : Nat)
    (h : s.findSession (holdsName name) = none) :
    (s.findSession (fun x => decide (x.state = .free)) = none ∨ 4294967295 < s.nextNumber →
      s.joinNew p tag name window = s.refuseJoin p tag none .noSessionSlot) ∧
    ∀ k, s.findSession (fun x => decide (x.state = .free)) = some k → s.nextNumber ≤ 4294967295 →
      s.joinNew p tag name window =
        let x := Session.created p (s.cfg p) name window s.nextNumber s.clock
        State.acceptJoin { s.setSession k x with nextNumber := s.nextNumber + 1 } p tag k x := by
  unfold State.joinNew
  rw [h]
  dsimp only
  refine ⟨fun hno => ?_, fun k hk hle => ?_⟩
  · split
    · rfl
    · next k hk =>
      rw [hk] at hno
      exact if_pos (hno.resolve_left nofun)
  · rw [hk]
    exact if_neg (Nat.not_lt.mpr hle)

/-- A reclaiming JOIN, by the record that holds the name and the number (R84). -/
theorem State.joinReclaim_cases (s : State) (p : PortId) (tag : Tag) (name : Name) (window number : Nat) :
    (∀ j, s.findSession (fun x => holdsName name x && decide (x.number = number)) = some j →
      ((s.session j).state = .orphaned → s.joinReclaim p tag name window number =
        let x := (s.session j).reclaimed p (s.cfg p) window s.clock
        (s.setSession j x).acceptJoin p tag j x) ∧
      ((s.session j).state = .closing → s.joinReclaim p tag name window number = s.refuseJoin p tag none .busy)) ∧
    ((∀ j, (s.session j).state = .orphaned ∨ (s.session j).state = .closing → (s.session j).name = name →
      (s.session j).number ≠ number) → s.joinReclaim p tag name window number = s.refuseJoin p tag none .reclaimFailed) := by
  unfold State.joinReclaim
  dsimp only
  refine ⟨fun j hj => ?_, fun hno => ?_⟩
  · rw [hj]
    dsimp only
    refine ⟨fun hst => ?_, fun hst => ?_⟩ <;> rw [hst] <;> rfl
  · split
    · rfl
    · next j hj =>
      obtain ⟨-, hname, hnumber⟩ := (holdsReclaim_iff _ _ _).mp (findSession_some hj)
      split
      · next hst => exact absurd hnumber (hno j (.inl hst) hname)
      · next hst => exact absurd hnumber (hno j (.inr hst) hname)
      · rfl
      · rfl

/-! ### What the step of a JOIN leaves -/

/-- A session that becomes CLOSING: its record, and its place in the purge queue (R93, R97). -/
theorem State.closeAs_eq (s : State) (i : SessionId) (k : CloseKind) :
    s.closeAs i k = { s.queued i with sessions := upd s.sessions i ((s.session i).closing k) } :=
  State.enqueuePurge_eq _ i

/-- A refusal changes nothing but what an answer changes (R81). -/
theorem State.joinRefused_step {s t : State} {p : PortId} {rq : Request} {rest : List Request} {st : Status}
    (h : t = (s.takeInbox p rest).refuseJoin p rq.tag (s.boundSession p) st) : s.joinRefused t p rq rest st := by
  rw [h]
  exact State.answer_only s s (s.takeInbox p rest) p rest rq.tag .join (s.boundSession p) st .empty rfl rfl

/-- The same, where the port is bound to no session. -/
theorem State.joinRefused_unbound {s t : State} {p : PortId} {rq : Request} {rest : List Request} {st : Status}
    (hb : s.boundSession p = none) (h : t = (s.takeInbox p rest).refuseJoin p rq.tag none st) :
    s.joinRefused t p rq rest st := State.joinRefused_step (h.trans (by rw [hb]))

/-- An accepted JOIN sets the record of its session, with the answer concluded in it, and the counter (R80, R83, R84). -/
theorem State.joined_step (s : State) (p : PortId) (rest : List Request) (tag : Tag) (k : SessionId) (x : Session)
    (n : Nat) :
    let t := (State.takeInbox { s.setSession k x with nextNumber := n } p rest).acceptJoin p tag k x
    t = { s with lastServed := portPos p, sessions := t.sessions, nextNumber := n, ports := t.ports } ∧
    (∀ j, t.session j = if j = k
      then x.conclude { tag := tag, kind := .join, status := .ok, result := joinedResult x } else s.session j) ∧
    t.portsAre (s.answering p rest (stepAnswer tag .join .ok (joinedResult x))) := by
  intro t
  obtain ⟨hframe, hsess, hports⟩ := State.answer_only s { s.setSession k x with nextNumber := n } _ p rest tag .join
    (some k) .ok (joinedResult x) rfl rfl
  refine ⟨hframe, fun j => (hsess j).trans ?_, hports⟩
  by_cases hj : j = k
  · subst hj
    rw [if_pos rfl, if_pos rfl]
    exact congrArg (Session.conclude · _) (s.session_setSession_self j x)
  · rw [if_neg fun h => hj (Option.some.inj h).symm, if_neg hj]
    exact s.session_setSession_other k j x (Ne.symm hj)

/-- A fresh JOIN under an orphan's name makes the orphan CLOSING and is answered BUSY (R82, R93, R97). -/
theorem State.abandoned_step (s : State) (p : PortId) (rest : List Request) (tag : Tag) (j : SessionId) :
    let t := ((s.takeInbox p rest).closeAs j .purge).refuseJoin p tag none .busy
    t = { s with lastServed := portPos p, sessions := t.sessions, ports := t.ports,
                 purgeQueue := s.purgeQueue ++ [j],
                 purgeSection := if s.purgeQueue = [] then 0 else s.purgeSection } ∧
    (∀ m, t.session m = if m = j then (s.session j).closing .purge else s.session m) ∧
    t.portsAre (s.answering p rest (stepAnswer tag .join .busy .empty)) := by
  intro t
  have ht : t = (State.takeInbox { s.queued j with sessions := upd s.sessions j ((s.session j).closing .purge) } p
      rest).refuseJoin p tag none .busy :=
    congrArg (State.refuseJoin · p tag none .busy) (State.closeAs_eq (s.takeInbox p rest) j .purge)
  obtain ⟨hframe, hsess, hports⟩ := State.answer_only s
    { s.queued j with sessions := upd s.sessions j ((s.session j).closing .purge) } _ p rest tag .join none .busy .empty
    rfl rfl
  rw [ht]
  refine ⟨hframe, fun m => (hsess m).trans ?_, hports⟩
  rw [if_neg nofun]
  refine (s.session_setSession j m _).trans ?_
  by_cases hm : j = m
  · rw [if_pos hm, if_pos hm.symm]
  · rw [if_neg hm, if_neg (Ne.symm hm)]

/-! ### JOIN settled -/

/-- Settles O12: no record holds the name, so the JOIN is `State.joinNew_fresh`. -/
theorem joinCreatesSession : Obligations.JoinCreatesSession := by
  intro s p tag name window rest k ht hb hname hlow hhigh hnew hfree hfirst hnum
  obtain ⟨-, hgood⟩ :=
    (s.takeInbox p rest).joinStep_cases p (rq := { tag := tag, body := .join name window none }) rfl
  obtain ⟨-, hjoin, -⟩ := hgood hname hlow hhigh
  obtain ⟨-, hcreate⟩ := State.joinNew_fresh (s := s.takeInbox p rest) p tag window (State.findName_none hnew)
  have hstep := (hjoin hb rfl).trans (hcreate k (State.findFree_lowest hfree hfirst) hnum)
  exact ⟨_, (exec_join ht rfl).trans (congrArg _ hstep), s.joined_step p rest tag k _ (s.nextNumber + 1)⟩

/-- Settles O13: the orphan is the one record with the number, so the JOIN is the reclaim of `State.joinReclaim_cases`. -/
theorem joinReclaimsOrphan : Obligations.JoinReclaimsOrphan := by
  intro s p tag name window number rest k ht hb hname hlow hhigh hlaw horph hn hm
  obtain ⟨-, hgood⟩ :=
    (s.takeInbox p rest).joinStep_cases p (rq := { tag := tag, body := .join name window (some number) }) rfl
  obtain ⟨-, -, hjoin⟩ := hgood hname hlow hhigh
  obtain ⟨hfound, -⟩ := (s.takeInbox p rest).joinReclaim_cases p tag name window number
  subst hn hm
  obtain ⟨hreclaim, -⟩ := hfound k (State.findReclaim_held hlaw (by rw [horph]; nofun))
  have hstep := (hjoin _ hb rfl).trans (hreclaim horph)
  exact ⟨_, (exec_join ht rfl).trans (congrArg _ hstep), s.joined_step p rest tag k _ s.nextNumber⟩

/-- Settles O14: the checks are `State.joinStep_cases`, `State.joinNew_held`, `State.joinNew_fresh` and
`State.joinReclaim_cases`; each refusal is `State.joinRefused_step`, the abandonment `State.abandoned_step`. -/
theorem joinRefused : Obligations.JoinRefused := by
  intro s p rq rest ht
  refine ⟨fun hb => ⟨_, exec_join ht (by rw [hb]; rfl), State.joinRefused_step (State.joinStep_malformed _ p hb)⟩,
    fun name window reclaim hb => ⟨_, exec_join ht (by rw [hb]; rfl), ?_⟩⟩
  obtain ⟨hbad, hgood⟩ := (s.takeInbox p rest).joinStep_cases p hb
  refine ⟨fun hform => State.joinRefused_step (hbad hform), fun hname hlow hhigh => ?_⟩
  obtain ⟨hbound, hnew, hreclaim⟩ := hgood hname hlow hhigh
  refine ⟨fun i hi => State.joinRefused_step (hbound i hi), fun hi hr hlaw => ⟨fun j hj => ?held, fun hno hfull => ?fresh⟩,
    fun number hi hr hlaw => ?reclaim⟩
  case held =>
    have held (hst : (s.session j).state ≠ .free) := State.joinNew_held (s := s.takeInbox p rest) p rq.tag window
      (hj ▸ State.findName_held hlaw hst)
    refine ⟨fun hst => ?_, fun hst => ?_, fun hst => ?_⟩ <;>
      obtain ⟨hactive, hclosing, horphaned⟩ := held (by rw [hst]; nofun)
    · exact State.joinRefused_unbound hi ((hnew hi hr).trans (hactive hst))
    · exact State.joinRefused_unbound hi ((hnew hi hr).trans (hclosing hst))
    · rw [hnew hi hr, horphaned hst]
      exact s.abandoned_step p rest rq.tag j
  case fresh =>
    obtain ⟨hnone, -⟩ := State.joinNew_fresh (s := s.takeInbox p rest) p rq.tag window (State.findName_none hno)
    exact State.joinRefused_unbound hi ((hnew hi hr).trans (hnone (hfull.imp_left State.findFree_none)))
  case reclaim =>
    obtain ⟨hfound, hfailed⟩ := (s.takeInbox p rest).joinReclaim_cases p rq.tag name window number
    refine ⟨?_, fun hno => State.joinRefused_unbound hi ((hreclaim number hi hr).trans (hfailed hno))⟩
    rintro j hst rfl rfl
    obtain ⟨-, hbusy⟩ := hfound j (State.findReclaim_held hlaw (by rw [hst]; nofun))
    exact State.joinRefused_unbound hi ((hreclaim _ hi hr).trans (hbusy hst))

end Sys2Proof.Machine

/-! SUPPORT. The session timers judged one by one, and the grace claim (R86, R87, R92, R93, R97, R114). -/

namespace Sys2Proof.Machine

/-! ### One timer judged -/

/-- The judgment of a RUNNING term timer, by its deadline (R86, R103). -/
theorem State.judgeTerm_running {s : State} {i : SessionId} {d : Time} (h : (s.session i).term = .running d) :
    ((s.clock - d).toNat < 2147483648 → s.judgeTerm i = (s.setSession i { s.session i with term := .expired d }).claim
      { kind := .loss, session := i, number := (s.session i).number, ports := [] }) ∧
    (2147483648 ≤ (s.clock - d).toNat → s.judgeTerm i = s) := by
  unfold State.judgeTerm
  rw [h]
  exact ⟨fun hp => if_pos ((passed_iff _ _).mpr hp), fun hn => if_neg fun hp => Nat.not_le.mpr ((passed_iff _ _).mp hp) hn⟩

/-- The judgment of a RUNNING grace timer, by its deadline (R92, R103). -/
theorem State.judgeGrace_running {s : State} {i : SessionId} {d : Time} (h : (s.session i).grace = .running d) :
    ((s.clock - d).toNat < 2147483648 → s.judgeGrace i = (s.setSession i { s.session i with grace := .expired d }).claim
      { kind := .grace, session := i, number := (s.session i).number, ports := [] }) ∧
    (2147483648 ≤ (s.clock - d).toNat → s.judgeGrace i = s) := by
  unfold State.judgeGrace
  rw [h]
  exact ⟨fun hp => if_pos ((passed_iff _ _).mpr hp), fun hn => if_neg fun hp => Nat.not_le.mpr ((passed_iff _ _).mp hp) hn⟩

/-- A record set and a claim raised change the Session Table and the Timers queue alone (R21, R87). -/
theorem State.claim_step {s t : State} {i : SessionId} {x : Session} {c : TimerClaim} (h : t = (s.setSession i x).claim c) :
    t = { s with sessions := upd s.sessions i x, timersQueue := t.timersQueue } ∧
      claimRaised s.timersQueue t.timersQueue c := by
  subst h
  exact ⟨rfl, raiseClaim_raised s.timersQueue c⟩

/-- Settles O32: `State.judgeTerm_running` and `State.judgeGrace_running`. -/
theorem sessionTimersExpire : Obligations.SessionTimersExpire := by
  intro s i d hr
  refine ⟨fun h => ⟨_, exec_high hr (.termTimerExpiry i), ?_⟩, fun h => ⟨_, exec_high hr (.graceTimerExpiry i), ?_⟩⟩
  · obtain ⟨hexpired, hahead⟩ := State.judgeTerm_running h
    exact ⟨fun hp => State.claim_step (hexpired hp), hahead⟩
  · obtain ⟨hexpired, hahead⟩ := State.judgeGrace_running h
    exact ⟨fun hp => State.claim_step (hexpired hp), hahead⟩

/-! ### The grace claim -/

/-- When a grace claim holds (R92). -/
theorem State.graceHolds_iff (s : State) (c : TimerClaim) : s.graceHolds c = true ↔
    (s.session c.session).state = .orphaned ∧ (s.session c.session).number = c.number ∧
      ∃ d, ((s.session c.session).grace = .running d ∨ (s.session c.session).grace = .expired d) ∧
        (s.clock - d).toNat < 2147483648 := by
  unfold State.graceHolds
  rw [Bool.and_eq_true, Bool.and_eq_true, decide_eq_true_eq, decide_eq_true_eq, SessionTimer.passed_iff, and_assoc]

/-- Settles O35: when the claim holds is `State.graceHolds_iff`; then the session closes as `State.closeAs_eq` says. -/
theorem graceClaimCloses : Obligations.GraceClaimCloses := by
  intro s c rest ht hk
  have hiff := State.graceHolds_iff { s with lastServed := 7, timersQueue := rest } c
  refine ⟨_, exec_timer ht .graceClaim hk State.graceStep rfl, fun horph hnum hd => ?_, fun hvoid => ?_⟩
  · exact (if_pos (hiff.mpr ⟨horph, hnum, hd⟩)).trans (State.closeAs_eq _ c.session .purge)
  · refine if_neg fun hh => ?_
    obtain ⟨horph, hnum, d, hd, hlt⟩ := hiff.mp hh
    obtain hv | hv | hv := hvoid
    · exact hv horph
    · exact hv hnum
    · exact Nat.not_le.mpr hlt (hv d hd)

end Sys2Proof.Machine

/-! SUPPORT. The advance of the lease clock with the sweep timer and the judgment of every session timer (R102, R105,
R114, R131, R147). -/

namespace Sys2Proof.Machine

/-! ### A millisecond at the links -/

/-- A millisecond counts once and no more: the second one is the silence timeout itself (R131, R147). -/
theorem silenceGrown_eq (n : Nat) : silenceGrown n = if n = 0 then 1 else n := by
  cases n with
  | zero => rfl
  | succ n => exact (if_neg (Nat.not_lt.mpr (Nat.le_add_left 2 n))).trans (if_neg n.succ_ne_zero).symm

theorem Port.millisecond_eq (x : Port) : x.millisecond = { x with
    sentThisMs := false
    silence := if x.link = .up ∧ x.silence = 0 then 1 else x.silence } := by
  unfold Port.millisecond
  rw [silenceGrown_eq]
  by_cases hup : x.link = .up
  · simp only [hup, if_true, true_and]
  · simp only [hup, if_false, false_and]

theorem Gate.millisecond_eq (g : Gate) : g.millisecond = { g with
    sentThisMs := false
    silence := if g.link ≠ .down ∧ g.silence = 0 then 1 else g.silence } := by
  unfold Gate.millisecond
  rw [silenceGrown_eq]
  by_cases hdown : g.link = .down
  · simp only [hdown, if_true, ne_eq, not_true_eq_false, false_and, if_false]
  · simp only [hdown, if_false, ne_eq, not_false_eq_true, true_and]

theorem State.port_advanceClock (s : State) (p : PortId) : s.advanceClock.port p = (s.port p).millisecond :=
  mapPorts_get (fun _ x => x.millisecond) s.ports p

/-! ### The sweep timer -/

/-- After the sweep timer expires a visit claim is pending; one that was pending already makes a slip (R105). -/
theorem State.sweepTimer_eq (s : State) : s.sweepTimer = { s with
    visitPending := true
    slips := if s.visitPending then satCount s.slips else s.slips } := by
  unfold State.sweepTimer
  split
  · next h => exact congrArg (fun b => { s with visitPending := b, slips := satCount s.slips }) h
  · rfl

/-! ### The advance -/

/-- Settles O31: the links' millisecond is `State.port_advanceClock` with `Port.millisecond_eq` and `Gate.millisecond_eq`,
the visit claim or slip is `State.sweepTimer_eq`, and the judgment at the advanced clock is `State.judgeTimers_judged`;
no timer is left RUNNING past its deadline by `SessionTimer.judged_ahead`. -/
theorem clockAndSweepTimer : Obligations.ClockAndSweepTimer := by
  intro s hr
  have hexec : exec .sweepTimerExpiry s = .next s.advanceClock.sweepTimer.judgeTimers := exec_high hr .sweepTimerExpiry
  obtain ⟨hrest, hsessions, hclaims⟩ := s.advanceClock.sweepTimer.judgeTimers_judged
  generalize s.advanceClock.sweepTimer.judgeTimers = t at hexec hrest hsessions hclaims
  rw [State.sweepTimer_eq] at hrest hsessions hclaims
  have hclock : t.clock = s.clock + 1 := by rw [hrest]; rfl
  refine ⟨t, hexec, ?frame, hsessions, hclaims, fun i d hd => ?ahead, ?slips, fun p => ?port, ?gate⟩
  case frame => rw [hrest]; rfl
  case ahead =>
    rw [hsessions i] at hd
    rw [hclock]
    exact hd.elim SessionTimer.judged_ahead SessionTimer.judged_ahead
  case slips => rw [hrest]; rfl
  case port =>
    rw [hrest]
    exact (s.port_advanceClock p).trans (Port.millisecond_eq _)
  case gate =>
    rw [hrest]
    exact Gate.millisecond_eq s.gate

end Sys2Proof.Machine

/-! SUPPORT. The volume commands that only change their volume's record (R118 to R121, R124), and the fence counters, which
nothing but a restart of the part lowers (R127, R130). -/

namespace Sys2Proof.Machine

/-! ### Volume commands -/

/-- A command whose step gives the lease structures the tables `u` and produces nothing is carried out so (R174). -/
theorem exec_tablesOnly {s : State} {c : Command} (ht : s.takesCommand c) {code : Byte} (hc : c.code = code) {i : Instr}
    {f : Command → State → State} (hi : effect i s = s.takeCode code f) {u : Tables}
    (hf : f c { s with lastServed := 9 } =
      State.finishCommand { s with lastServed := 9 } none ((Run.start { s with lastServed := 9 }).withTab u)) :
    ∃ t, exec i s = .next t ∧ (s.finished .done).completesWith t [] [] [] ∧ t.tab = u :=
  ⟨_, (exec_command ht hc i f hi).trans (congrArg _ hf), s.finishCommand_plain u⟩

/-- Settles O37: what each command's step does when no check refuses it is the step's own `…Step_cases` lemma, and a step
of that form is `exec_tablesOnly`. -/
theorem volumeCommandsDone : Obligations.VolumeCommandsDone := by
  intro s c v ht hv
  refine ⟨fun hc hoff hsize => ?define, fun hc hoff hsize hfence => ?online, fun hc hon => ?freeze,
    fun hc hs hempty => ?offline⟩
  case define =>
    obtain ⟨-, -, hdone⟩ := State.defineStep_cases { s with lastServed := 9 } hv
    exact exec_tablesOnly ht hc rfl (hdone hsize hoff)
  case online =>
    obtain ⟨-, -, hsized⟩ := State.onlineStep_cases { s with lastServed := 9 } hv
    obtain ⟨-, hdone⟩ := hsized hoff hsize
    exact exec_tablesOnly ht hc rfl (hdone hfence)
  case freeze =>
    obtain ⟨-, hdone⟩ := State.freezeStep_cases { s with lastServed := 9 } hv
    exact exec_tablesOnly ht hc rfl (hdone hon)
  case offline =>
    obtain ⟨-, hdone⟩ := State.offlineStep_cases { s with lastServed := 9 } hv hs
    exact exec_tablesOnly ht hc rfl (hdone hempty)

/-! ### Fence counters -/

/-- No command's effect but a restart's lowers a fence counter: Table Clear keeps the counters, and every other command
moves the lease structures, of which no move lowers one (R127, R130). -/
theorem effect_fence {c : Instr} {s : State} (hs : s.tab.Sound) (hp : c ≠ .powerOnReset) (hu : c ≠ .startupComplete)
    (v : VolumeId) : (s.tab.volume v).fence ≤ ((effect c s).tab.volume v).fence := by
  by_cases hc : c = .tableClear
  · subst hc
    refine takeCode_keeps (P := fun t => (s.tab.volume v).fence ≤ (t.tab.volume v).fence) 0x0A State.tableClearStep
      (Nat.le_refl _) fun cmd => ?_
    obtain ⟨-, htab⟩ := tableClear_keeps cmd { s with lastServed := 9 }
    obtain ⟨-, hfence⟩ := htab hs
    exact hfence v
  · obtain ⟨hmoves, -⟩ := effect_keeps c s hp hu hc
    exact (hmoves hs).fence v

/-- Settles O56: a command has its effect (`effect_fence`), does nothing, or releases RESET_N, which does not touch the
lease structures. -/
theorem fenceCountersNeverFall : Obligations.FenceCountersNeverFall := by
  intro c s t v hs hp hu h
  obtain rfl | rfl | ⟨straps, -, rfl⟩ := exec_cases h
  · exact effect_fence hs hp hu v
  · exact Nat.le_refl _
  · exact Nat.le_refl _

end Sys2Proof.Machine

/-! SUPPORT. The Write Gate: its transmitter, the Gate Port's link, the query queue with its refusal store, and the lookup
of Table 7-1 (R131 to R142). -/

namespace Sys2Proof.Machine

/-! ### The gate's transmitter (R133, R135) -/

/-- A gate that is not UP, is sending, or has no answer waiting begins none. -/
theorem Gate.pump_idle {g : Gate} (h : g.tx ≠ none ∨ g.link ≠ .up ∨ g.replies = []) : g.pump = g := by
  unfold Gate.pump
  split
  · next hfree =>
    obtain ⟨hup, htx⟩ := hfree
    have hempty : g.replies = [] := (h.resolve_left (absurd htx)).resolve_left (absurd hup)
    rw [hempty]
  · rfl

/-- A gate that is UP with none in progress hands on the oldest answer (R133, R134). -/
theorem Gate.pump_hands {g : Gate} (htx : g.tx = none) (hup : g.link = .up) {r : GateReply} {more : List GateReply}
    (hr : g.replies = r :: more) : g.pump = { g with
      tx := some r, replies := more, queue := if r.fromQueue then g.queue.tail else g.queue, sentThisMs := true } := by
  unfold Gate.pump
  rw [if_pos ⟨hup, htx⟩, hr]

/-- The transmitter's take neither loses nor reorders an answer. -/
theorem Gate.answers_pump (g : Gate) : g.pump.tx.toList ++ g.pump.replies = g.tx.toList ++ g.replies := by
  by_cases hfree : g.tx = none ∧ g.link = .up
  · obtain ⟨htx, hup⟩ := hfree
    cases hr : g.replies with
    | nil => rw [Gate.pump_idle (.inr (.inr hr)), hr]
    | cons r more =>
      rw [Gate.pump_hands htx hup hr, htx]
      rfl
  · rw [Gate.pump_idle ((Classical.not_and_iff_not_or_not.mp hfree).imp_right .inl)]

theorem Gate.answerSent_of_sending {g : Gate} {r : GateReply} (h : g.tx = some r) :
    g.answerSent = Gate.pump { g with tx := none } := by
  unfold Gate.answerSent
  rw [h]

/-! ### The Gate Port's link (R131, R132, R135) -/

theorem Gate.helloFrame_down {g : Gate} (h : g.link = .down) : g.helloFrame = g := by
  unfold Gate.helloFrame
  rw [h]

theorem Gate.helloFrame_first {g : Gate} (h : g.link = .training) (hc : g.helloCount = 0) :
    g.helloFrame = { g.goodFrame with helloCount := 1 } := by
  unfold Gate.helloFrame
  rw [h, hc]
  rfl

theorem Gate.helloFrame_second {g : Gate} (h : g.link = .training) (hc : 1 ≤ g.helloCount) :
    g.helloFrame = Gate.pump { g.goodFrame with link := .up, helloCount := 2 } := by
  unfold Gate.helloFrame
  rw [h]
  exact if_pos (Nat.succ_le_succ hc)

theorem Gate.helloFrame_up {g : Gate} (h : g.link = .up) : g.helloFrame = g.goodFrame := by
  unfold Gate.helloFrame
  rw [h]

theorem Gate.discardFrame_down {g : Gate} (h : g.link = .down) (kind : GateDiscard) : g.discardFrame kind = g := by
  unfold Gate.discardFrame
  rw [h]

theorem Gate.discardFrame_good {g : Gate} {kind : GateDiscard} (h : g.link = .training ∨ g.link = .up ∧ kind = .answer) :
    g.discardFrame kind = g.goodFrame := by
  unfold Gate.discardFrame
  obtain htrain | ⟨hup, rfl⟩ := h
  · rw [htrain]
  · rw [hup]

/-- The gate after its link went DOWN: all it held is dropped, and it trains again while the device is READY. -/
def Gate.retrained (g : Gate) (d : DeviceState) : Gate :=
  { g with
    link := if d = .ready then .training else .down
    helloCount := if d = .ready then 0 else g.helloCount
    silence := if d = .ready then 0 else g.silence
    sentThisMs := if d = .ready then false else g.sentThisMs
    queue := [], replies := [], tx := none }

/-- The link that goes DOWN raises LINK_DOWN, and of the rest of the state changes nothing (R131, R132). -/
theorem State.gateDown_eq (s : State) : s.gateDown = { s with
    gate := s.gate.retrained s.device, alerts := mergeAlert s.alerts (.linkDown, .device), alertN := false } := by
  have hraise : (s.setGate s.gate.drop).raise [(.linkDown, .device)] = { s with
      gate := s.gate.drop, alerts := mergeAlert s.alerts (.linkDown, .device), alertN := false } := by
    rw [State.raise, State.alertN_setGate, List.isEmpty_cons, Bool.and_false]
    rfl
  unfold State.gateDown State.gateRetrain Gate.retrained
  rw [hraise]
  by_cases hd : s.device = .ready
  · rw [if_pos ⟨rfl, hd⟩]
    simp only [if_pos hd]
    rfl
  · rw [if_neg fun hx => hd hx.2]
    simp only [if_neg hd]
    rfl

theorem State.gateBad_counted {s : State} (h : s.gate.link ≠ .down) (hrun : s.gate.errorRun < 7) :
    s.gateBad = s.setGate s.gate.countBad := by
  unfold State.gateBad
  rw [if_neg h]
  exact if_neg (Nat.not_le.mpr (Nat.succ_lt_succ hrun))

theorem State.gateBad_eighth {s : State} (h : s.gate.link ≠ .down) (hrun : 7 ≤ s.gate.errorRun) :
    s.gateBad = (s.setGate { s.gate.countBad with errorRun := 0 }).gateDown := by
  unfold State.gateBad
  rw [if_neg h]
  exact if_pos (Nat.succ_le_succ hrun)

theorem State.gateSilence_down {s : State} (h : s.gate.link = .down) : s.gateSilence = s := if_pos h

theorem State.gateSilence_lost {s : State} (h : s.gate.link ≠ .down) :
    s.gateSilence = (s.setGate { s.gate with silence := Config.silenceMax }).gateDown := if_neg h

theorem queryLengthOk_iff (body : List Byte) : queryLengthOk body = true ↔ body.length = 13 := beq_iff_eq

theorem State.queryFrame_badLength (s : State) (tag : BitVec 16) {body : List Byte} (h : body.length ≠ 13) :
    s.queryFrame tag body = s.gateBad := by
  unfold State.queryFrame
  rw [if_neg (mt (queryLengthOk_iff body).mp h)]

/-- Settles O50: a HELLO is one of the `Gate.helloFrame_…` lemmas, a bad frame one of the `State.gateBad_…`, and a link
that is lost `State.gateDown_eq`. -/
theorem gateLinkFrames : Obligations.GateLinkFrames := by
  intro s hr
  refine ⟨⟨_, exec_high hr _, fun hd => ?_, fun ht hc => ?_, fun ht hc => ?_, fun hu => ?_⟩,
    fun kind => ⟨_, exec_high hr _, fun hd => ?_, fun hg => ?_⟩,
    ⟨_, exec_high hr _, State.gateBad_down, State.gateBad_counted, fun hl hrun => ?_⟩,
    ⟨_, exec_high hr _, State.gateSilence_down, fun hl => ?_⟩, fun tag body hlen => ?_⟩
  · exact congrArg s.setGate (Gate.helloFrame_down hd)
  · exact congrArg s.setGate (Gate.helloFrame_first ht hc)
  · exact congrArg s.setGate (Gate.helloFrame_second ht hc)
  · exact congrArg s.setGate (Gate.helloFrame_up hu)
  · exact congrArg s.setGate (Gate.discardFrame_down hd kind)
  · exact congrArg s.setGate (Gate.discardFrame_good hg)
  · exact (State.gateBad_eighth hl hrun).trans (State.gateDown_eq _)
  · exact (State.gateSilence_lost hl).trans (State.gateDown_eq _)
  · rw [exec_high hr, exec_high hr]
    exact congrArg _ (s.queryFrame_badLength tag hlen)

/-! ### Queries (R133, R134) -/

theorem State.queryFrame_training {s : State} (h : s.gate.link = .training) (tag : BitVec 16) {body : List Byte}
    (hlen : body.length = 13) : s.queryFrame tag body = s.setGate s.gate.goodFrame := by
  unfold State.queryFrame
  rw [if_pos ((queryLengthOk_iff body).mpr hlen), h]

theorem State.queryFrame_up {s : State} (h : s.gate.link = .up) (tag : BitVec 16) {body : List Byte}
    (hlen : body.length = 13) :
    s.queryFrame tag body = s.setGate (s.gate.goodFrame.enter (parseGateQuery tag body)).pump := by
  unfold State.queryFrame
  rw [if_pos ((queryLengthOk_iff body).mpr hlen), h]

theorem Gate.enter_queued {g : Gate} (h : g.queue.length < 8) (q : GateQuery) :
    g.enter q = { g with queue := g.queue ++ [q] } := if_pos h

theorem Gate.enter_refused {g : Gate} (hq : 8 ≤ g.queue.length) (hr : g.refusals < 8) (q : GateQuery) : g.enter q =
    { g with replies := g.replies ++ [{ number := q.number, code := .refusedFull, fromQueue := false }] } :=
  (if_neg (Nat.not_lt.mpr hq)).trans (if_pos hr)

theorem Gate.enter_discarded {g : Gate} (hq : 8 ≤ g.queue.length) (hr : 8 ≤ g.refusals) (q : GateQuery) : g.enter q = g :=
  (if_neg (Nat.not_lt.mpr hq)).trans (if_neg (Nat.not_lt.mpr hr))

/-- Settles O51: a query of an UP link is one of the `Gate.enter_…` lemmas, and what the transmitter takes is
`Gate.pump_hands` and `Gate.pump_idle`. -/
theorem gateQueryQueued : Obligations.GateQueryQueued := by
  intro s hr
  refine ⟨fun tag body hlen => ⟨_, exec_high hr _, fun hd => State.queryFrame_down hd tag body,
      fun ht => State.queryFrame_training ht tag hlen, fun hu => ?_⟩, fun r htx => ?_,
    fun g htx hup r more => Gate.pump_hands htx hup, fun g => Gate.pump_idle⟩
  · have entered : ∀ {g : Gate}, s.gate.goodFrame.enter (parseGateQuery tag body) = g →
        s.queryFrame tag body = s.setGate g.pump := fun hg => by rw [State.queryFrame_up hu tag hlen, hg]
    exact ⟨fun hq => entered (Gate.enter_queued (g := s.gate.goodFrame) hq _),
      fun hq hstore => entered (Gate.enter_refused (g := s.gate.goodFrame) hq hstore _),
      fun hq hstore => entered (Gate.enter_discarded (g := s.gate.goodFrame) hq hstore _)⟩
  · rw [exec_high hr, effect, Gate.answerSent_of_sending htx]
    rfl

/-! ### Checks 1 to 3 of Table 7-1 (R137 to R139) -/

/-- Check 1: the query is in form (R137). -/
def GateQuery.formed (q : GateQuery) : Prop :=
  q.path < 6 ∧ q.access ≠ .other ∧ q.count ≠ 0 ∧ ¬ (q.access = .write ∧ q.token = 0)

theorem GateQuery.formOk_iff (q : GateQuery) : q.formOk = true ↔ q.formed := by
  unfold GateQuery.formOk GateQuery.formed
  simp only [Bool.and_eq_true, decide_eq_true_eq, Bool.not_eq_true', Bool.eq_false_iff, ne_eq, and_assoc]

/-- Check 2: session `i` is ACTIVE on the query's path (R138). -/
def State.holdsPath (s : State) (q : GateQuery) (i : SessionId) : Prop :=
  (s.session i).state = .active ∧ ∃ p : PortId, p.val = q.path ∧ s.boundSession p = some i

theorem State.gateSession_iff (s : State) (q : GateQuery) (i : SessionId) : s.gateSession q = some i ↔ s.holdsPath q i := by
  unfold State.gateSession State.holdsPath
  constructor
  · intro h
    split at h
    · next p hp =>
      split at h
      · next j hb =>
        split at h
        · next hact =>
          cases h
          exact ⟨hact, p, finOf_some hp, hb⟩
        · cases h
      · cases h
    · cases h
  · rintro ⟨hact, p, hp, hb⟩
    rw [← hp, finOf_val]
    simp only [hb, hact, if_true]

/-- Check 3: volume `v` is the query's, ONLINE, or FROZEN for a READ (R139). -/
def Tables.opens (t : Tables) (q : GateQuery) (v : VolumeId) : Prop :=
  v.val = q.volume ∧ ((t.volume v).state = .online ∨ (t.volume v).state = .frozen ∧ q.access = .read)

theorem Tables.gateVolume_iff (t : Tables) (q : GateQuery) (v : VolumeId) : t.gateVolume q = some v ↔ t.opens q v := by
  unfold Tables.gateVolume Tables.opens
  constructor
  · intro h
    split at h
    · next w hw =>
      split at h
      · next hon =>
        cases h
        exact ⟨finOf_some hw, .inl hon⟩
      · next hfrozen =>
        split at h
        · next hread =>
          cases h
          exact ⟨finOf_some hw, .inr ⟨hfrozen, hread⟩⟩
        · cases h
      · cases h
    · cases h
  · rintro ⟨hv, hon | ⟨hfrozen, hread⟩⟩
    · rw [← hv, finOf_val]
      simp only [hon]
    · rw [← hv, finOf_val]
      simp only [hfrozen, hread, if_true]

/-! ### Check 4: the covering lease (R15, R140) -/

theorem Tables.mem_searchHeld (t : Tables) (v : VolumeId) (p : Lease → Tenure → Bool) (n : Nat) :
    n ∈ t.searchHeld v p ↔ n ∈ t.indexOf v ∧ ∃ l ten, t.body n = .held l ten ∧ p l ten = true := by
  unfold Tables.searchHeld
  rw [List.mem_filter]
  refine and_congr_right fun _ => ?_
  cases hb : t.body n with
  | free => exact ⟨fun hp => absurd hp Bool.false_ne_true, fun ⟨_, _, hx, _⟩ => nomatch hx⟩
  | pending l d => exact ⟨fun hp => absurd hp Bool.false_ne_true, fun ⟨_, _, hx, _⟩ => nomatch hx⟩
  | held l ten =>
    refine ⟨fun hp => ⟨l, ten, rfl, hp⟩, fun ⟨k, tk, hx, hp⟩ => ?_⟩
    cases hx
    exact hp

/-- The leases that the covering search runs over are those that cover the query's blocks (R14, R15). -/
theorem Tables.Sound.mem_covering {t : Tables} (h : t.Sound) (i : SessionId) (v : VolumeId) (q : GateQuery) (n : Nat) :
    n ∈ t.searchHeld v (fun l _ =>
      decide (l.owner = i) && decide (l.start ≤ q.start) && decide (q.start + q.count ≤ l.start + l.count)) ↔
    ∃ l ten, t.covers i v q n l ten := by
  rw [Tables.mem_searchHeld, (h.indexLaw v).2]
  simp only [Bool.and_eq_true, decide_eq_true_eq, Tables.covers]
  constructor
  · rintro ⟨⟨l, ten, hb, hv⟩, k, tk, hk, ⟨howner, hstart⟩, hend⟩
    cases hb.symm.trans hk
    exact ⟨l, ten, hb, howner, hv, hstart, hend⟩
  · rintro ⟨l, ten, hb, howner, hv, hstart, hend⟩
    exact ⟨⟨l, ten, hb, hv⟩, l, ten, hb, ⟨howner, hstart⟩, hend⟩

/-- At most one lease covers a run of blocks, for the second law keeps a session's extents apart (R13). -/
theorem Tables.Sound.covers_unique {t : Tables} (h : t.Sound) {i : SessionId} {v : VolumeId} {q : GateQuery}
    (hcount : q.count ≠ 0) {m n : Nat} {a b : Lease} {ta tb : Tenure} (ha : t.covers i v q m a ta)
    (hb : t.covers i v q n b tb) : m = n := by
  obtain ⟨hm, hai, hav, has, hae⟩ := ha
  obtain ⟨hn, hbi, hbv, hbs, hbe⟩ := hb
  refine Classical.byContradiction fun hne => ?_
  have hapart : a.overlaps b = false :=
    h.lawTwo m n a b hne (by rw [hm]; rfl) (by rw [hn]; rfl) (hai.trans hbi.symm)
  have hshare : a.overlaps b = true := by
    simp only [Lease.overlaps, Machine.overlaps, Bool.and_eq_true, decide_eq_true_eq]
    exact ⟨hav.trans hbv.symm, by omega, by omega⟩
  exact Bool.false_ne_true (hapart.symm.trans hshare)

theorem Tables.Sound.coveringSearch_none {t : Tables} (h : t.Sound) {i : SessionId} {v : VolumeId} {q : GateQuery}
    (hno : ∀ n l ten, ¬ t.covers i v q n l ten) : t.coveringSearch i v q.start q.count = none := by
  refine List.head?_eq_none_iff.mpr (List.eq_nil_iff_forall_not_mem.mpr fun n hn => ?_)
  obtain ⟨l, ten, hcov⟩ := (h.mem_covering i v q n).mp hn
  exact hno n l ten hcov

theorem Tables.Sound.coveringSearch_some {t : Tables} (h : t.Sound) {i : SessionId} {v : VolumeId} {q : GateQuery}
    (hcount : q.count ≠ 0) {n : Nat} {l : Lease} {ten : Tenure} (hcov : t.covers i v q n l ten) :
    t.coveringSearch i v q.start q.count = some n := by
  have hmem := (h.mem_covering i v q n).mpr ⟨l, ten, hcov⟩
  cases hs : t.coveringSearch i v q.start q.count with
  | none =>
    rw [List.head?_eq_none_iff.mp hs] at hmem
    cases hmem
  | some m =>
    obtain ⟨k, tk, hk⟩ := (h.mem_covering i v q m).mp (List.mem_of_head? hs)
    rw [h.covers_unique hcount hk hcov]

/-! ### The lookup (R136, R140 to R142) -/

theorem Tables.Sound.gateLease_uncovered {t : Tables} (h : t.Sound) {i : SessionId} {v : VolumeId} {q : GateQuery}
    (hno : ∀ n l ten, ¬ t.covers i v q n l ten) : t.gateLease i v q = (.denyUncovered, none) := by
  unfold Tables.gateLease
  rw [h.coveringSearch_none hno]

theorem Tables.Sound.gateLease_covered {t : Tables} (h : t.Sound) {i : SessionId} {v : VolumeId} {q : GateQuery}
    (hcount : q.count ≠ 0) {n : Nat} {l : Lease} {ten : Tenure} (hcov : t.covers i v q n l ten) :
    t.gateLease i v q = (leaseVerdict q l ten, some n) := by
  obtain ⟨hbody, -⟩ := id hcov
  unfold Tables.gateLease
  rw [h.coveringSearch_some hcount hcov]
  simp only [hbody]

theorem leaseVerdict_mode {q : GateQuery} {l : Lease} (ten : Tenure) (hw : q.access = .write) (hm : l.mode = .shared) :
    leaseVerdict q l ten = .denyMode := by
  unfold leaseVerdict
  rw [if_pos hw, if_pos hm]

theorem leaseVerdict_token {q : GateQuery} {l : Lease} {ten : Tenure} (hw : q.access = .write) (hm : l.mode = .exclusive)
    (ht : ten.token ≠ some q.token) : leaseVerdict q l ten = .denyToken := by
  unfold leaseVerdict
  rw [if_pos hw, if_neg (by rw [hm]; decide), if_neg ht]

theorem leaseVerdict_allow {q : GateQuery} {l : Lease} {ten : Tenure}
    (h : q.access = .read ∨ l.mode = .exclusive ∧ ten.token = some q.token) : leaseVerdict q l ten = .allow := by
  unfold leaseVerdict
  obtain hread | ⟨hm, ht⟩ := h
  · rw [if_neg (by rw [hread]; decide)]
  · rw [if_neg (c := l.mode = .shared) (by rw [hm]; decide), if_pos ht, ite_self]

theorem State.lookup_unformed {s : State} {q : GateQuery} (h : ¬ q.formed) : s.lookup q = (.denyFormat, none) :=
  if_neg (mt q.formOk_iff.mp h)

theorem State.lookup_noSession {s : State} {q : GateQuery} (hf : q.formed) (h : ∀ i, ¬ s.holdsPath q i) :
    s.lookup q = (.denySession, none) := by
  have hnone : s.gateSession q = none := Option.eq_none_iff_forall_ne_some.mpr fun i => mt (s.gateSession_iff q i).mp (h i)
  unfold State.lookup
  rw [if_pos (q.formOk_iff.mpr hf), hnone]

theorem State.lookup_noVolume {s : State} {q : GateQuery} (hf : q.formed) {i : SessionId} (hi : s.holdsPath q i)
    (h : ∀ v, ¬ s.tab.opens q v) : s.lookup q = (.denyVolume, none) := by
  have hnone : s.tab.gateVolume q = none :=
    Option.eq_none_iff_forall_ne_some.mpr fun v => mt (s.tab.gateVolume_iff q v).mp (h v)
  unfold State.lookup
  rw [if_pos (q.formOk_iff.mpr hf), (s.gateSession_iff q i).mpr hi]
  simp only [hnone]

/-- A query that passes checks 1 to 3 is judged by the session's leases. -/
theorem State.lookup_lease {s : State} {q : GateQuery} (hf : q.formed) {i : SessionId} (hi : s.holdsPath q i)
    {v : VolumeId} (hv : s.tab.opens q v) : s.lookup q = s.tab.gateLease i v q := by
  unfold State.lookup
  rw [if_pos (q.formOk_iff.mpr hf), (s.gateSession_iff q i).mpr hi]
  simp only [(s.tab.gateVolume_iff q v).mpr hv]

theorem Tables.countUse_denied (t : Tables) {found : GateCode × Option Nat} (h : found.1 ≠ .allow) : t.countUse found = t := by
  unfold Tables.countUse
  split
  · exact absurd rfl h
  · rfl

theorem Tables.countUse_allow {t : Tables} {n : Nat} {l : Lease} {ten : Tenure} (h : t.body n = .held l ten) :
    t.countUse (.allow, some n) = t.setBody n (.held l { ten with gateUse := satCount ten.gateUse }) := by
  unfold Tables.countUse
  simp only [h]

/-! ### The answer of a lookup (R133, R135) -/

theorem State.lookupOldest_eq {s : State} {q : GateQuery} {rest : List GateQuery} (h : s.looksUp q rest) :
    s.lookupOldest = s.answerQuery q := by
  obtain ⟨-, hq, hnone⟩ := h
  unfold State.lookupOldest
  rw [hq]
  refine if_neg fun hx => ?_
  obtain ⟨r, hr, hfrom⟩ := List.any_eq_true.mp hx
  exact Bool.false_ne_true ((hnone r hr).symm.trans hfrom)

/-- The oldest query gives up its place when the transmitter takes the lookup's answer at once; any answer that it takes
instead is a refusal, which has no place (R133, R134). -/
theorem Gate.queue_answered {g : Gate} {q : GateQuery} {rest : List GateQuery} (hq : g.queue = q :: rest)
    (hnone : ∀ r ∈ g.replies, r.fromQueue = false) {r : GateReply} (hr : r.fromQueue = true) :
    (Gate.pump { g with replies := g.replies ++ [r] }).queue =
      if g.link = .up ∧ g.tx = none ∧ g.replies = [] then rest else q :: rest := by
  by_cases hfree : g.tx = none ∧ g.link = .up
  · obtain ⟨htx, hup⟩ := hfree
    cases hreplies : g.replies with
    | nil =>
      rw [List.nil_append, Gate.pump_hands (g := { g with replies := [r] }) htx hup rfl, if_pos hr,
        if_pos ⟨hup, htx, rfl⟩, hq]
      rfl
    | cons old more =>
      have hold : old.fromQueue = false := hnone old (by rw [hreplies]; exact List.mem_cons_self)
      rw [Gate.pump_hands (g := { g with replies := old :: more ++ [r] }) htx hup rfl,
        if_neg (by rw [hold]; exact Bool.false_ne_true), if_neg fun ⟨_, _, hx⟩ => nomatch hx]
      exact hq
  · have hidle : g.tx ≠ none ∨ g.link ≠ .up := Classical.not_and_iff_not_or_not.mp hfree
    rw [Gate.pump_idle (g := { g with replies := g.replies ++ [r] }) (hidle.imp_right .inl),
      if_neg fun ⟨hup, htx, _⟩ => hfree ⟨htx, hup⟩]
    exact hq

/-- Settles O52: the answer is the `State.lookup_…` lemma of the first check that fails, or `Tables.Sound.gateLease_covered`
with the verdict of the one covering lease; the queue is `Gate.queue_answered`. -/
theorem gateLookupAnswers : Obligations.GateLookupAnswers := by
  intro s q rest hlook hs
  obtain ⟨hr, hq, hnone⟩ := id hlook
  have hexec : exec .gateLookup s = .next (s.answerQuery q) :=
    (exec_high hr _).trans (congrArg _ (State.lookupOldest_eq hlook))
  have htab : (s.answerQuery q).tab = s.tab.countUse (s.lookup q) := rfl
  refine ⟨_, (s.lookup q).1, hexec, rfl, Gate.queue_answered hq hnone rfl, ?order,
    fun hdeny => htab.trans (s.tab.countUse_denied hdeny), fun hf => congrArg Prod.fst (State.lookup_unformed hf),
    fun hf => ⟨fun hi => congrArg Prod.fst (State.lookup_noSession hf hi), fun i hi =>
      ⟨fun hv => congrArg Prod.fst (State.lookup_noVolume hf hi hv), fun v hv => ?lease⟩⟩⟩
  case order => exact (Gate.answers_pump _).trans (List.append_assoc _ _ _).symm
  case lease =>
    have hlookup := State.lookup_lease hf hi hv
    obtain ⟨-, -, hcount, -⟩ := id hf
    refine ⟨fun hno => ?uncovered, fun n l ten hcov => ?covered⟩
    case uncovered => rw [hlookup, hs.gateLease_uncovered hno]
    case covered =>
      rw [hs.gateLease_covered hcount hcov] at hlookup
      rw [htab, hlookup]
      refine ⟨leaseVerdict_mode ten, leaseVerdict_token, fun hallow => ?_⟩
      obtain ⟨hbody, -⟩ := hcov
      rw [leaseVerdict_allow hallow, Tables.countUse_allow hbody]
      exact ⟨rfl, s.tab.slotOnly_setBody n _, rfl⟩

end Sys2Proof.Machine

/-! SUPPORT. Intake (chapter 8.5): what each check of Table 8-2 leaves of a REQUEST frame, and what KEEPALIVE and NOTICE_ACK
do at the port (R152 to R159). -/

namespace Sys2Proof.Machine

/-- A choice by one of two equivalent tests. -/
theorem ite_of_iff {α : Type} {a b : Prop} [Decidable a] [Decidable b] (h : a ↔ b) (x y : α) :
    (if a then x else y) = if b then x else y := ite_congr (propext h) (fun _ => rfl) fun _ => rfl

/-! ### A good REQUEST frame on an UP port -/

/-- The state in which intake judges the request: its frame counted as every good frame does (R147). -/
def State.heard (s : State) (p : PortId) : State := s.setPort p (s.port p).goodFrame

theorem requestLengthOk_iff (body : List Byte) : requestLengthOk body = true ↔ 1 ≤ body.length ∧ body.length ≤ 19 := by
  unfold requestLengthOk
  rw [Bool.and_eq_true, decide_eq_true_eq, decide_eq_true_eq]

/-- A frame that is heard is judged, and the transmitters go on (R156, R160). -/
theorem exec_requestIntake {s : State} {p : PortId} {body : List Byte} (h : s.hears p body) (tag : Tag) :
    exec (.requestIntake p tag body) s =
      .next ((s.heard p).intake p { tag := tag, body := parseRequest body }).settle := by
  obtain ⟨hr, hup, hmin, hmax⟩ := h
  rw [exec_high hr, effect, State.requestFrame, if_pos ((requestLengthOk_iff body).mpr ⟨hmin, hmax⟩), hup]
  rfl

theorem State.port_heard (s : State) (p : PortId) : (s.heard p).port p = (s.port p).goodFrame :=
  State.port_setPort_self _ _ _

theorem State.port_heard_other (s : State) {p q : PortId} (h : q ≠ p) : (s.heard p).port q = s.port q :=
  State.port_setPort_other _ _ _ _ h.symm

/-- A good frame neither takes nor frees a place of the answer queue (R159). -/
theorem State.hasRoom_heard (s : State) (p : PortId) : (s.heard p).hasRoom p = s.hasRoom p := by
  unfold State.hasRoom State.reserved
  rw [State.port_heard]
  rfl

/-- One port written, the others as they were, and then the transmitters: what the ports are (R160). -/
theorem State.setPort_portsAre {s u : State} {p : PortId} (hu : ∀ q, q ≠ p → u.port q = s.port q) (y : Port) :
    (u.setPort p y).settle.portsAre (fun q => if q = p then y else s.port q) := by
  intro q
  refine (State.port_settle _ q).trans (congrArg (pumpPort _ q) ?_)
  change (u.setPort p y).port q = if q = p then y else s.port q
  rw [State.port_setPort]
  by_cases hq : q = p
  · rw [if_pos hq, if_pos hq.symm]
  · rw [if_neg hq, if_neg (Ne.symm hq), hu q hq]

/-! ### Answers of intake (R159, R161) -/

/-- A port that was written is all that intake changed. -/
theorem State.intakeGives_setPort {s : State} {p : PortId} {a : Option Answer} {y : Port}
    (hy : y = { (s.port p).goodFrame with answers := (s.port p).answers ++ if s.hasRoom p then a.toList else [] }) :
    s.intakeGives (s.setPort p y).settle p a :=
  ⟨rfl, hy ▸ State.setPort_portsAre (fun _ _ => rfl) y⟩

/-- A frame that gets no answer. -/
theorem State.intakeGives_none (s : State) (p : PortId) : s.intakeGives (s.heard p).settle p none :=
  State.intakeGives_setPort (by rw [Option.toList_none, ite_self, List.append_nil]; rfl)

/-- A frame with no place for its answer has no effect, whatever the answer would be (R159). -/
theorem State.intakeGives_full {s : State} {p : PortId} (h : s.hasRoom p = false) (a : Option Answer) :
    s.intakeGives (s.heard p).settle p a :=
  State.intakeGives_setPort (by rw [h, if_neg Bool.false_ne_true, List.append_nil]; rfl)

theorem handAnswer_up {x : Port} (h : x.link = .up) (a : Answer) :
    x.handAnswer a = { x with answers := x.answers ++ [a] } := if_pos h

/-- An answer that intake makes with no other effect (R159). -/
theorem State.intakeReply_gives {s : State} {p : PortId} (hup : (s.port p).link = .up) (a : Answer) :
    s.intakeGives ((s.heard p).intakeReply (s.heard p) p a).settle p (some a) := by
  unfold State.intakeReply
  rw [State.hasRoom_heard]
  cases hroom : s.hasRoom p with
  | false => exact State.intakeGives_full hroom _
  | true =>
    rw [if_pos rfl, State.port_heard, handAnswer_up (x := (s.port p).goodFrame) hup, State.heard, State.setPort_setPort]
    exact State.intakeGives_setPort (by rw [if_pos hroom]; rfl)

/-! ### Checks 2 to 6 on a bound port (R153 to R155) -/

theorem State.intake_bound {s : State} {p : PortId} {i : SessionId} (h : s.boundSession p = some i) (rq : Request) :
    s.intake p rq = s.judgeBound p i rq := by
  unfold State.intake
  rw [h]

theorem State.judgeBound_busy {s : State} {i : SessionId} {rq : Request} (h : ¬ s.passesState i rq.body) (p : PortId) :
    s.judgeBound p i rq = s.intakeReply s p (intakeAnswer rq.tag rq.body .busy) :=
  if_pos (not_or.mp h)

theorem State.passesState.not_stopped {s : State} {i : SessionId} {b : ReqBody} (h : s.passesState i b) :
    ¬ ((s.session i).state ≠ .active ∧ b.kind? ≠ some .depart) := fun ⟨hstate, hkind⟩ => h.elim hstate hkind

theorem State.judgeBound_unknown {s : State} {i : SessionId} {rq : Request} (hpass : s.passesState i rq.body)
    (hkind : rq.body.kind? = none) (p : PortId) :
    s.judgeBound p i rq = s.intakeReply s p (intakeAnswer rq.tag rq.body .badRequest) :=
  (if_neg hpass.not_stopped).trans (if_pos hkind)

theorem State.judgeBound_cached {s : State} {i : SessionId} {rq : Request} (hpass : s.passesState i rq.body)
    (hkind : rq.body.kind? ≠ none) {e : CacheEntry} (he : (s.session i).cached rq.tag = some e) (p : PortId) :
    s.judgeBound p i rq = s.intakeReply s p (replayed e) := by
  unfold State.judgeBound
  rw [if_neg hpass.not_stopped, if_neg hkind, he]

theorem State.judgeBound_parked {s : State} {i : SessionId} {rq : Request} (hpass : s.passesState i rq.body)
    (hkind : rq.body.kind? ≠ none) (hnone : (s.session i).cached rq.tag = none)
    (hmark : (s.session i).tagMark rq.tag = some .parked) (p : PortId) :
    s.judgeBound p i rq = s.intakeReply s p { intakeAnswer rq.tag rq.body .parked with replay := true } := by
  unfold State.judgeBound
  rw [if_neg hpass.not_stopped, if_neg hkind, hnone, hmark]

theorem State.judgeBound_queued {s : State} {i : SessionId} {rq : Request} (hpass : s.passesState i rq.body)
    (hkind : rq.body.kind? ≠ none) (hnone : (s.session i).cached rq.tag = none)
    (hmark : (s.session i).tagMark rq.tag = some .queued) (p : PortId) : s.judgeBound p i rq = s := by
  unfold State.judgeBound
  rw [if_neg hpass.not_stopped, if_neg hkind, hnone, hmark]

/-- A request of a known kind under a new tag comes to checks 7 to 9. -/
theorem State.judgeBound_new {s : State} {i : SessionId} {rq : Request} (hpass : s.passesState i rq.body)
    (hkind : rq.body.kind? ≠ none) (hnew : s.newTag i rq.tag) (p : PortId) :
    s.judgeBound p i rq = s.judgeNew p i rq := by
  obtain ⟨hnone, hmark⟩ := hnew
  unfold State.judgeBound
  rw [if_neg hpass.not_stopped, if_neg hkind, hnone, hmark]

/-! ### Checks 7 to 9 on a bound port (R156, R157) -/

/-- A request that the port does not handle itself is judged by the window (R156). -/
theorem State.judgeNew_window {rq : Request} (hk : rq.body.kind? ≠ some .keepalive) (hn : rq.body.kind? ≠ some .noticeAck)
    (s : State) (p : PortId) (i : SessionId) : s.judgeNew p i rq =
      if (s.session i).window ≤ (s.session i).outstanding.length then
        s.intakeReply s p (intakeAnswer rq.tag rq.body .noCredit)
      else if s.hasRoom p then s.accept p i rq else s := by
  obtain ⟨tag, body⟩ := rq
  cases body
  case keepalive => exact absurd rfl hk
  case noticeAck => exact absurd rfl hn
  case malformed k =>
    cases k
    case keepalive => exact absurd rfl hk
    case noticeAck => exact absurd rfl hn
    all_goals rfl
  all_goals rfl

theorem State.judgeNew_malformed {rq : Request} (h : rq.body = .malformed .keepalive ∨ rq.body = .malformed .noticeAck)
    (s : State) (p : PortId) (i : SessionId) :
    s.judgeNew p i rq = s.intakeReply s p (intakeAnswer rq.tag rq.body .badRequest) := by
  unfold State.judgeNew
  obtain h | h := h <;> rw [h]

/-- A NOTICE_ACK restarts the term timer and is applied (R157, R168). -/
theorem State.judgeNew_noticeAck (s : State) (p : PortId) (i : SessionId) (tag : Tag) (n : BitVec 16) :
    s.judgeNew p i { tag := tag, body := .noticeAck n } = s.intakeReply (s.setSession i
      (((s.session i).restartTerm (deadlineAt s.clock (s.cfg p).sessionTerm)).acknowledge n)) p
      (portAnswer tag 0x0A .ok) := by
  unfold State.judgeNew State.restartTermOf
  dsimp only
  rw [State.session_setSession_self, State.setSession_setSession]
  rfl

/-- What happens on an UP port to a request of its bound session that comes to checks 7 to 9. -/
theorem exec_requestIntake_new {s : State} {p : PortId} {i : SessionId} {tag : Tag} {body : List Byte}
    (hears : s.hears p body) (hb : s.boundSession p = some i) (hpass : s.passesState i (parseRequest body))
    (hkind : (parseRequest body).kind? ≠ none) (hnew : s.newTag i tag) :
    exec (.requestIntake p tag body) s =
      .next ((s.heard p).judgeNew p i { tag := tag, body := parseRequest body }).settle := by
  rw [exec_requestIntake hears, State.intake_bound (s := s.heard p) hb,
    State.judgeBound_new (s := s.heard p) (rq := { tag := tag, body := parseRequest body }) hpass hkind hnew]

/-- A record of session `i` written, and one port: what intake leaves when it does more than answer (R156, R157). -/
theorem State.setBoth_settle (s : State) (p : PortId) (i : SessionId) (x : Session) (y : Port) :
    let t := (((s.heard p).setSession i x).setPort p y).settle
    t = { s with sessions := t.sessions, ports := t.ports } ∧
      (∀ j, t.session j = if j = i then x else s.session j) ∧
      t.portsAre (fun q => if q = p then y else s.port q) := by
  refine ⟨rfl, fun j => ?_,
    State.setPort_portsAre (u := (s.heard p).setSession i x) (fun q hq => s.port_heard_other hq) y⟩
  rw [State.session_settle, State.session_setPort, State.session_setSession]
  exact ite_of_iff eq_comm _ _

theorem Session.outstanding_restartTerm (x : Session) (d : Time) : (x.restartTerm d).outstanding = x.outstanding := by
  unfold Session.restartTerm
  split <;> rfl

/-- An accepted request in the words of R156. -/
theorem State.accept_heard (s : State) (p : PortId) (i : SessionId) (rq : Request) :
    (s.heard p).accept p i rq = ((s.heard p).setSession i
      { (s.session i).restartTerm (deadlineAt s.clock (s.cfg p).sessionTerm) with
        outstanding := (s.session i).outstanding ++ [(rq.tag, .queued)] }).setPort p
      { (s.port p).goodFrame with inbox := (s.port p).inbox ++ [rq] } := by
  unfold State.accept State.toInbox
  dsimp only
  rw [State.port_setSession, State.port_heard, Session.outstanding_restartTerm]
  rfl

/-- Settles O7: beyond checks 2 to 6 (`exec_requestIntake_new`) and within the window, the request is accepted if a place
can be reserved for its answer. -/
theorem requestAccepted : Obligations.RequestAccepted := by
  intro s p i tag body hears hb hpass hnew ⟨k, hk, hnk, hna⟩ hwin
  let rq : Request := { tag := tag, body := parseRequest body }
  have hjudged : (s.heard p).judgeNew p i rq = if s.hasRoom p then (s.heard p).accept p i rq else s.heard p := by
    rw [← State.hasRoom_heard]
    exact (State.judgeNew_window (fun h => hnk (Option.some.inj (hk.symm.trans h)))
      (fun h => hna (Option.some.inj (hk.symm.trans h))) _ p i).trans (if_neg (Nat.not_le.mpr hwin))
  refine ⟨_, exec_requestIntake_new hears hb hpass (hk ▸ Option.some_ne_none k) hnew, ?_⟩
  rw [hjudged]
  refine ⟨fun hroom => ?full, fun hroom => ?accepted⟩
  case full =>
    rw [hroom]
    exact s.intakeGives_none p
  case accepted =>
    rw [if_pos hroom, State.accept_heard]
    exact s.setBoth_settle p i _ _

/-- Settles O8: the first check that stops the request is one of the `State.judgeBound_…` lemmas, or beyond them
`State.judgeNew_window` and `State.judgeNew_malformed`. -/
theorem requestAnsweredAtIntake : Obligations.RequestAnsweredAtIntake := by
  intro s p i tag body hears hb
  obtain ⟨-, hup, -, -⟩ := id hears
  let rq : Request := { tag := tag, body := parseRequest body }
  have hexec : exec (.requestIntake p tag body) s = .next ((s.heard p).judgeBound p i rq).settle := by
    rw [exec_requestIntake hears, State.intake_bound (s := s.heard p) hb]
  refine ⟨_, hexec, fun hstop => ?busy, fun hpass hkind => ?unknown, fun hpass hkind =>
    ⟨fun e he => ?replay, fun hnone hmark => ?parked, fun hnone hmark => ?queued, fun hnew hnk hna hwin => ?window,
      fun hnew hbad => ?malformed⟩⟩
  case busy =>
    rw [State.judgeBound_busy (s := s.heard p) (rq := rq) hstop]
    exact State.intakeReply_gives hup _
  case unknown =>
    rw [State.judgeBound_unknown (s := s.heard p) (rq := rq) hpass hkind]
    exact State.intakeReply_gives hup _
  case replay =>
    rw [State.judgeBound_cached (s := s.heard p) (rq := rq) hpass hkind he]
    exact State.intakeReply_gives hup _
  case parked =>
    rw [State.judgeBound_parked (s := s.heard p) (rq := rq) hpass hkind hnone hmark]
    exact State.intakeReply_gives hup _
  case queued =>
    rw [State.judgeBound_queued (s := s.heard p) (rq := rq) hpass hkind hnone hmark]
    exact State.intakeGives_none s p
  case window =>
    rw [State.judgeBound_new (s := s.heard p) (rq := rq) hpass hkind hnew, State.judgeNew_window hnk hna,
      if_pos (c := ((s.heard p).session i).window ≤ ((s.heard p).session i).outstanding.length) hwin]
    exact State.intakeReply_gives hup _
  case malformed =>
    rw [State.judgeBound_new (s := s.heard p) (rq := rq) hpass hkind hnew, State.judgeNew_malformed hbad]
    exact State.intakeReply_gives hup _

/-! ### An unbound port (R152) -/

theorem State.intake_unbound {s : State} {p : PortId} (h : s.boundSession p = none) (rq : Request) :
    s.intake p rq = s.judgeUnbound p rq := by
  unfold State.intake
  rw [h]

theorem State.judgeUnbound_other {rq : Request} (h : rq.body.kind? ≠ some .join) (s : State) (p : PortId) :
    s.judgeUnbound p rq = s.intakeReply s p (intakeAnswer rq.tag rq.body .noSession) := if_neg h

/-- The JOIN stands in the inbox already. -/
def Port.joining (x : Port) (tag : Tag) : Prop := ∃ rq ∈ x.inbox, rq.tag = tag ∧ rq.body.kind? = some .join

theorem Port.joining_iff (x : Port) (tag : Tag) :
    x.inbox.any (fun r => r.tag = tag && r.body.kind? = some .join) = true ↔ x.joining tag := by
  simp only [List.any_eq_true, Bool.and_eq_true, decide_eq_true_eq, Port.joining]

/-- A JOIN on an unbound port, against a window of 1 (R152). -/
theorem State.judgeUnbound_join {s : State} {p : PortId} {rq : Request} (h : rq.body.kind? = some .join) :
    ((s.port p).joining rq.tag → s.judgeUnbound p rq = s) ∧
    ((s.port p).inbox = [] → s.judgeUnbound p rq = if s.hasRoom p then s.toInbox p rq else s) ∧
    (¬ (s.port p).joining rq.tag → (s.port p).inbox ≠ [] →
      s.judgeUnbound p rq = s.intakeReply s p (intakeAnswer rq.tag rq.body .noCredit)) := by
  unfold State.judgeUnbound
  rw [if_pos h]
  refine ⟨fun hj => if_pos ((Port.joining_iff _ _).mpr hj), fun he => ?_, fun hj hne => ?_⟩
  · rw [he]; rfl
  · rw [if_neg (mt (Port.joining_iff _ _).mp hj), if_neg (mt List.isEmpty_iff.mp hne)]

/-- Settles O9: `State.judgeUnbound_other` and the three cases of `State.judgeUnbound_join`. -/
theorem unboundPortTakesOneJoin : Obligations.UnboundPortTakesOneJoin := by
  intro s p tag body hears hb
  obtain ⟨-, hup, -, -⟩ := id hears
  let rq : Request := { tag := tag, body := parseRequest body }
  have hexec : exec (.requestIntake p tag body) s = .next ((s.heard p).judgeUnbound p rq).settle := by
    rw [exec_requestIntake hears, State.intake_unbound (s := s.heard p) hb]
  have hinbox : ((s.heard p).port p).inbox = (s.port p).inbox := by rw [State.port_heard]; rfl
  refine ⟨_, hexec, fun hother => ?other, fun hjoin hempty hroom => ?taken, fun hjoin hempty hroom => ?full,
    fun hjoin hdouble => ?double, fun hjoin hne hsingle => ?noCredit⟩
  case other =>
    rw [State.judgeUnbound_other (rq := rq) hother]
    exact State.intakeReply_gives hup _
  all_goals obtain ⟨hdoubled, hfirst, hlater⟩ := State.judgeUnbound_join (s := s.heard p) (p := p) (rq := rq) hjoin
  all_goals unfold Port.joining at hdoubled hlater
  all_goals rw [hinbox] at hdoubled hfirst hlater
  case taken =>
    rw [hfirst hempty, State.hasRoom_heard, if_pos hroom, State.toInbox, hinbox, hempty, State.port_heard, State.heard,
      State.setPort_setPort]
    exact ⟨rfl, State.setPort_portsAre (fun _ _ => rfl) _⟩
  case full =>
    rw [hfirst hempty, State.hasRoom_heard, hroom]
    exact State.intakeGives_none s p
  case double =>
    rw [hdoubled hdouble]
    exact State.intakeGives_none s p
  case noCredit =>
    rw [hlater (fun ⟨r, hr, htag, hkind⟩ => hsingle r hr htag hkind) hne]
    exact State.intakeReply_gives hup _

/-! ### KEEPALIVE and NOTICE_ACK (R157, R168) -/

/-- The sequence number of a NOTICE_ACK is read back from its two bytes (R185, R186). -/
theorem parseRequest_noticeAck (seq : BitVec 16) : parseRequest (layout [(1, 0x0A), (2, seq.toNat)]) = .noticeAck seq := by
  have hread : fieldNat (beBytes 2 seq.toNat) 0 2 = seq.toNat := by
    have hlt := seq.isLt
    change (0 * 256 + (BitVec.ofNat 8 (seq.toNat / 256 ^ 1)).toNat) * 256 +
      (BitVec.ofNat 8 (seq.toNat / 256 ^ 0)).toNat = seq.toNat
    rw [BitVec.toNat_ofNat, BitVec.toNat_ofNat]
    omega
  have hparse : parseRequest (layout [(1, 0x0A), (2, seq.toNat)]) =
      .noticeAck (BitVec.ofNat 16 (fieldNat (beBytes 2 seq.toNat) 0 2)) := rfl
  rw [hparse, hread, BitVec.ofNat_toNat, BitVec.setWidth_eq]

/-- What the port does itself under a new tag: the record `x` for session `i`, and the answer OK, if there is a place for it
(R157, R159). -/
theorem State.handledAtPort {s : State} {p : PortId} (hup : (s.port p).link = .up) (i : SessionId) (x : Session) (a : Answer) :
    let t := ((s.heard p).intakeReply ((s.heard p).setSession i x) p a).settle
    (s.hasRoom p = false → s.intakeGives t p none) ∧
      (s.hasRoom p = true →
        t = { s with sessions := t.sessions, ports := t.ports } ∧
        (∀ j, t.session j = if j = i then x else s.session j) ∧
        t.portsAre (fun q => if q = p
          then { (s.port p).goodFrame with answers := (s.port p).answers ++ [a] } else s.port q)) := by
  unfold State.intakeReply
  rw [State.hasRoom_heard, State.port_setSession, State.port_heard, handAnswer_up (x := (s.port p).goodFrame) hup]
  refine ⟨fun hroom => ?_, fun hroom => ?_⟩
  · rw [hroom]
    exact s.intakeGives_none p
  · rw [if_pos hroom]
    exact s.setBoth_settle p i x _

/-- Settles O10: the body of either command is read back as its kind, so that it comes to checks 7 to 9
(`exec_requestIntake_new`), and what the port does there is `State.handledAtPort`. -/
theorem portHandlesKeepaliveAndNoticeAck : Obligations.PortHandlesKeepaliveAndNoticeAck := by
  refine ⟨fun s p tag seq => ⟨rfl, rfl⟩, fun s p i tag seq hr hup hb hact hnew => ?_⟩
  let x : Session := (s.session i).restartTerm (deadlineAt s.clock (s.cfg p).sessionTerm)
  have hkeepalive : exec (.keepalive p tag) s = .next ((s.heard p).intakeReply ((s.heard p).setSession i x) p
      (portAnswer tag 0x02 .ok)).settle :=
    exec_requestIntake_new (body := layout [(1, 0x02)]) ⟨hr, hup, by decide, by decide⟩ hb (.inl hact) (by decide) hnew
  have hnoticeAck : exec (.noticeAck p tag seq) s = .next ((s.heard p).intakeReply
      ((s.heard p).setSession i (x.acknowledge seq)) p (portAnswer tag 0x0A .ok)).settle := by
    have hkind : (parseRequest (layout [(1, 0x0A), (2, seq.toNat)])).kind? ≠ none := by
      rw [parseRequest_noticeAck]
      exact Option.some_ne_none _
    have hexec := exec_requestIntake_new (body := layout [(1, 0x0A), (2, seq.toNat)])
      ⟨hr, hup, Nat.le_add_left 1 2, Nat.le_add_left 3 16⟩ hb (.inl hact) hkind hnew
    rw [parseRequest_noticeAck, State.judgeNew_noticeAck] at hexec
    exact hexec
  exact ⟨⟨_, hkeepalive, State.handledAtPort hup i x _⟩, ⟨_, hnoticeAck, State.handledAtPort hup i _ _⟩⟩

end Sys2Proof.Machine

/-! SUPPORT. The link of a Requester Port: HELLO frames, bad frames, silence, PORT-RESET and the enable item (R145 to R151),
and the values that SET-CONFIG stores (R177). -/

namespace Sys2Proof.Machine

/-! ### A link that goes DOWN or trains (R146, R149) -/

/-- A port that is written as DOWN and may train (R146). -/
theorem State.setPort_retrain (s : State) (p : PortId) {x : Port} (hx : x.link = .down) :
    (s.setPort p x).retrain p = s.setPort p (s.trains p x) := by
  unfold State.retrain State.trains
  rw [State.port_setPort_self, State.setPort_setPort]
  by_cases hmay : (s.cfg p).enable = true ∧ s.device = .ready
  · rw [if_pos hmay]
    exact if_pos ⟨hx, hmay⟩
  · rw [if_neg hmay]
    exact if_neg fun h => hmay h.2

/-- What was written in a port before it went DOWN, its inbox kept, does not matter to the loss of the link (R149). -/
theorem State.drops.of_setPort {s t : State} {p : PortId} {x y : Port} (hx : x.inbox = (s.port p).inbox)
    (h : (s.setPort p x).drops t p y) : s.drops t p y := by
  obtain ⟨honly, hsessions, hports, hclaim, halert⟩ := h
  rw [State.port_setPort_self, hx] at hsessions
  refine ⟨honly, hsessions, fun q => ?_, hclaim, halert⟩
  rw [hports q]
  by_cases hq : q = p
  · rw [if_pos hq, if_pos hq]
  · rw [if_neg hq, if_neg hq, State.port_setPort_other _ _ _ _ (Ne.symm hq)]

/-- A link that is lost after its port was written, and trains again if it may (R146, R149). -/
theorem State.drops_written {s : State} {p : PortId} {x : Port} (hl : x.link ≠ .down) (hx : x.inbox = (s.port p).inbox) :
    s.drops (((s.setPort p x).portDown p).retrain p) p (s.trains p x.dropped) := by
  have hlost : (s.setPort p x).drops ((s.setPort p x).portDown p) p ((s.setPort p x).port p).dropped :=
    State.portDown_drops _ p (by rw [State.port_setPort_self]; exact hl)
  rw [State.port_setPort_self] at hlost
  exact (hlost.retrain rfl).of_setPort hx

/-! ### Frames that arrive, and silence (R145 to R148) -/

theorem State.helloFrame_first {s : State} {p : PortId} (h : (s.port p).link = .training) (hc : (s.port p).helloCount = 0) :
    s.helloFrame p = s.setPort p { s.port p with helloCount := 1 } := by
  unfold State.helloFrame
  simp only [h, hc]
  rfl

theorem State.helloFrame_second {s : State} {p : PortId} (h : (s.port p).link = .training)
    (hc : 1 ≤ (s.port p).helloCount) : s.helloFrame p = ((s.setPort p (s.port p).enterUp).resetSendOf p).settle := by
  unfold State.helloFrame
  simp only [h]
  exact if_pos (Nat.succ_le_succ hc)

theorem State.helloFrame_up {s : State} {p : PortId} (h : (s.port p).link = .up) :
    s.helloFrame p = s.setPort p (s.port p).goodFrame := by
  unfold State.helloFrame
  simp only [h]

theorem State.helloFrame_down {s : State} {p : PortId} (h : (s.port p).link = .down) : s.helloFrame p = s := by
  unfold State.helloFrame
  simp only [h]

/-- The send position of the bound session, and no other, goes back (R167). -/
theorem State.session_resetSendOf (s : State) (p : PortId) (j : SessionId) : (s.resetSendOf p).session j =
    if s.boundSession p = some j then (s.session j).resetSend else s.session j := by
  unfold State.resetSendOf
  cases s.boundSession p with
  | none => rfl
  | some i =>
    dsimp only
    rw [State.session_setSession]
    by_cases hj : i = j
    · subst hj
      rw [if_pos rfl, if_pos rfl]
    · rw [if_neg hj, if_neg fun h => hj (Option.some.inj h)]

theorem State.resetSendOf_frame (s : State) (p : PortId) :
    s.resetSendOf p = { s with sessions := (s.resetSendOf p).sessions } := by
  unfold State.resetSendOf
  split <;> rfl

/-- The port that entered UP: the transmitters go on with the send position back (R146, R160, R167). -/
theorem State.enterUp_settles (s : State) (p : PortId) (x : Port) :
    let t := ((s.setPort p x).resetSendOf p).settle
    t = { s with sessions := t.sessions, ports := t.ports } ∧
      (∀ j, t.session j = if s.boundSession p = some j then (s.session j).resetSend else s.session j) ∧
      t.portsAre (fun q => if q = p then x else s.port q) := by
  have hsessions := State.session_resetSendOf (s.setPort p x) p
  obtain ⟨ss, hss⟩ : ∃ ss, (s.setPort p x).resetSendOf p = { s.setPort p x with sessions := ss } :=
    ⟨_, State.resetSendOf_frame _ p⟩
  rw [hss] at hsessions ⊢
  exact ⟨rfl, hsessions, State.setPort_portsAre (u := { s with sessions := ss }) (fun _ _ => rfl) x⟩

theorem State.rpBadFrame_training {s : State} {p : PortId} (h : (s.port p).link = .training) :
    s.rpBadFrame p = s.setPort p { s.port p with helloCount := 0, badFrames := satCount (s.port p).badFrames } := by
  unfold State.rpBadFrame
  simp only [h]

/-- A bad frame in UP, before its count is judged (R145, R148). -/
def Port.countBad (x : Port) : Port :=
  { x with badFrames := satCount x.badFrames, errorRun := x.errorRun + 1, silence := 0 }

theorem State.rpBadFrame_counted {s : State} {p : PortId} (h : (s.port p).link = .up) (hrun : (s.port p).errorRun < 7) :
    s.rpBadFrame p = s.setPort p (s.port p).countBad := by
  unfold State.rpBadFrame
  dsimp only
  split
  · next hdown => exact nomatch hdown.symm.trans h
  · next htrain => exact nomatch htrain.symm.trans h
  · exact if_neg (Nat.not_le.mpr (Nat.succ_lt_succ hrun))

theorem State.rpBadFrame_eighth {s : State} {p : PortId} (h : (s.port p).link = .up) (hrun : 7 ≤ (s.port p).errorRun) :
    s.rpBadFrame p = ((s.setPort p (s.port p).countBad).portDown p).retrain p := by
  unfold State.rpBadFrame
  dsimp only
  split
  · next hdown => exact nomatch hdown.symm.trans h
  · next htrain => exact nomatch htrain.symm.trans h
  · exact if_pos (Nat.succ_le_succ hrun)

theorem State.silenceTimeout_up {s : State} {p : PortId} (h : (s.port p).link = .up) : s.silenceTimeout p =
    ((s.setPort p { s.port p with silence := Config.silenceMax }).portDown p).retrain p := if_pos h

theorem State.discardFrame_up {s : State} {p : PortId} {kind : RpDiscard} (h : (s.port p).link = .up)
    (hk : kind = .answer ∨ kind = .notice) : s.discardFrame p kind = s.setPort p (s.port p).goodFrame := by
  unfold State.discardFrame
  obtain rfl | rfl := hk <;> simp only [h]

theorem State.discardFrame_void {s : State} {p : PortId} (h : (s.port p).link ≠ .up) (kind : RpDiscard) :
    s.discardFrame p kind = s := by
  unfold State.discardFrame
  dsimp only
  split
  · next hup => exact absurd hup h
  · next hup => exact absurd hup h
  · rfl

theorem State.requestFrame_badLength (s : State) (p : PortId) (tag : Tag) {body : List Byte}
    (h : body.length = 0 ∨ 19 < body.length) : s.requestFrame p tag body = s.rpBadFrame p := by
  unfold State.requestFrame
  rw [if_neg]
  rw [requestLengthOk_iff]
  omega

/-- Settles O47: a HELLO is one of the `State.helloFrame_…` lemmas, a bad frame one of the `State.rpBadFrame_…`, and a link
that is lost `State.drops_written`. -/
theorem requesterLinkFrames : Obligations.RequesterLinkFrames := by
  refine ⟨fun s p hr => ⟨_, exec_high hr _, State.helloFrame_first, fun htrain hc => ?second, State.helloFrame_up,
      State.helloFrame_down⟩,
    fun s p hr => ⟨⟨_, exec_high hr _, State.rpBadFrame_down, State.rpBadFrame_training, State.rpBadFrame_counted,
        fun hup hrun => ?eighth⟩,
      ⟨_, exec_high hr _, fun hup => ?silent, fun hl => if_neg hl⟩,
      fun kind => ⟨_, exec_high hr _, State.discardFrame_up, fun hl => State.discardFrame_void hl kind⟩,
      fun tag body => ⟨fun hlen => ?badLength, fun hmin hmax hl => ?untaken⟩⟩⟩
  case second =>
    rw [effect, State.helloFrame_second htrain hc]
    exact s.enterUp_settles p (s.port p).enterUp
  case eighth =>
    rw [effect, State.rpBadFrame_eighth hup hrun]
    exact State.drops_written (x := (s.port p).countBad) (fun h => nomatch hup.symm.trans h) rfl
  case silent =>
    rw [effect, State.silenceTimeout_up hup]
    exact State.drops_written (x := { s.port p with silence := Config.silenceMax }) (fun h => nomatch hup.symm.trans h) rfl
  case badLength =>
    rw [exec_high hr, exec_high hr]
    exact congrArg _ (s.requestFrame_badLength p tag hlen)
  case untaken =>
    rw [exec_high hr]
    exact congrArg _ (State.requestFrame_void hl (fun _ => ⟨hmin, hmax⟩) tag)

/-! ### PORT-RESET (R151) -/

/-- A command's step that is over but for its completion, which hands nothing over (R19, R174). -/
theorem State.finishCommand_completes (s u : State) :
    (u.finishStatus none).completesWith (u.finishCommand none (Run.start s)) [] [] [] ∧
      (u.finishCommand none (Run.start s)).tab = s.tab :=
  Run.complete_plain (Run.start s) (u.finishStatus none) rfl

/-- The status that the completion sets does not touch what the loss of a link changes. -/
theorem State.drops.finish {s t : State} {p : PortId} {x : Port} (h : s.drops t p x) :
    (s.finishStatus none).drops (t.finishStatus none) p x :=
  ⟨(congrArg (State.finishStatus · none) h.only).trans rfl, h.sessions, h.ports, h.claim, h.alert⟩

theorem State.resetPort_down {s : State} {p : PortId} (h : (s.port p).link = .down) :
    s.resetPort p = s.setPort p (s.trains p (s.port p).clearCounters) := by
  unfold State.resetPort
  rw [State.portDown_down s p h]
  exact s.setPort_retrain p (x := (s.port p).clearCounters) h

theorem State.resetPort_drops {s : State} {p : PortId} (h : (s.port p).link ≠ .down) :
    s.drops (s.resetPort p) p (s.trains p (s.port p).dropped.clearCounters) := by
  have hlost := s.portDown_drops p h
  have hport : (s.portDown p).port p = (s.port p).dropped := (hlost.ports p).trans (if_pos rfl)
  unfold State.resetPort
  dsimp only
  rw [hport]
  exact (hlost.setPort (s.port p).dropped.clearCounters).retrain rfl

/-- Settles O41: the link by its state is `State.resetPort_down` or `State.resetPort_drops`, and the step's completion
`State.finishCommand_completes`. -/
theorem portResetDropsLink : Obligations.PortResetDropsLink := by
  intro s c p ht hc hp
  let s9 : State := { s with lastServed := 9 }
  obtain ⟨-, hstep⟩ := s9.portResetStep_cases c
  obtain ⟨hdone, htab⟩ := State.finishCommand_completes s9 (s9.resetPort p)
  refine ⟨_, (exec_command ht hc .portReset State.portResetStep rfl).trans (congrArg _ (hstep p hp)), htab,
    fun hdown => ?down, fun hl => ?lost⟩
  case down =>
    have heq : s9.resetPort p = _ := State.resetPort_down (s := s9) hdown
    rw [heq] at hdone ⊢
    exact hdone
  case lost =>
    exact ⟨(s9.resetPort p).finishStatus none, (State.resetPort_drops (s := s9) hl).finish, hdone⟩

end Sys2Proof.Machine

/-! SUPPORT. The values that SET-CONFIG stores, and the link that follows the enable item (R146, R149, R150, R177, R188). -/

namespace Sys2Proof.Machine

theorem inRange_iff {lo hi n : Nat} : inRange lo hi n = true ↔ lo ≤ n ∧ n ≤ hi := by
  unfold inRange
  rw [Bool.and_eq_true, decide_eq_true_eq, decide_eq_true_eq]

/-! ### The link follows the enable item (R150) -/

theorem State.retrain_down {s : State} {p : PortId} (h : (s.port p).link = .down) :
    s.retrain p = s.setPort p (s.trains p (s.port p)) := by
  rw [← s.setPort_retrain p h, State.setPort_port]

/-- The link stays where the item does not change, and where it is as the item's new value wants it. -/
theorem State.followEnable_still {s : State} {p : PortId} {before after : Bool}
    (h : before = after ∨ (after = false ∧ (s.port p).link = .down) ∨ (after = true ∧ (s.port p).link ≠ .down)) :
    s.followEnable p before after = s := by
  unfold State.followEnable
  obtain heq | ⟨rfl, hdown⟩ | ⟨rfl, hl⟩ := h
  · exact if_pos heq
  · split
    · rfl
    · exact s.portDown_down p hdown
  · split
    · rfl
    · exact s.retrain_up p hl

/-! ### A port's items (R177) -/

theorem State.setPortItem_stored {s : State} {p : PortId} {i v : Nat} {c : PortConfig}
    (h : (s.cfg p).setItem i v = some c) : s.setPortItem p i v =
      ((s.setCfg p c).followEnable p (s.cfg p).enable c.enable).finishCommand none (Run.start s) := by
  unfold State.setPortItem
  rw [h]

theorem State.setPortItem_refused {s : State} {p : PortId} {i v : Nat} (h : (s.cfg p).setItem i v = none) :
    s.setPortItem p i v = s.refuseCommand .badArgument := by
  unfold State.setPortItem
  rw [h]

/-- An item other than the enable item is stored in its range and refused out of it. -/
theorem State.setPortItem_ranged {s : State} {p : PortId} {i v lo hi : Nat} {c : PortConfig}
    (h : (s.cfg p).setItem i v = if inRange lo hi v then some c else none) (he : (s.cfg p).enable = c.enable) :
    (lo ≤ v ∧ v ≤ hi → ((s.setCfg p c).finishStatus none).completesWith (s.setPortItem p i v) [] [] [] ∧
      (s.setPortItem p i v).tab = s.tab) ∧
    (¬ (lo ≤ v ∧ v ≤ hi) → s.setPortItem p i v = s.refuseCommand .badArgument) := by
  refine ⟨fun hin => ?_, fun hout => State.setPortItem_refused (h.trans (if_neg (mt inRange_iff.mp hout)))⟩
  rw [State.setPortItem_stored (h.trans (if_pos (inRange_iff.mpr hin))), State.followEnable_still (.inl he)]
  exact State.finishCommand_completes s (s.setCfg p c)

theorem PortConfig.setItem_none (c : PortConfig) {i : Nat} (h : 4 < i) (v : Nat) : c.setItem i v = none := by
  obtain ⟨k, rfl⟩ := Nat.exists_eq_add_of_le' (Nat.succ_le_of_lt h)
  rfl

/-! ### The device's items (R177) -/

theorem State.setDeviceItem_recallLimit {s : State} {v : Nat} :
    (v = 0 ∨ 10 ≤ v ∧ v ≤ 60000 → s.setDeviceItem 0 v = State.finishCommand { s with recallLimit := v } none (Run.start s)) ∧
    (¬ (v = 0 ∨ 10 ≤ v ∧ v ≤ 60000) → s.setDeviceItem 0 v = s.refuseCommand .badArgument) := by
  rw [← inRange_iff]
  exact ⟨fun h => if_pos h, fun h => if_neg h⟩

theorem State.setDeviceItem_occThreshold {s : State} {v : Nat} :
    (1 ≤ v ∧ v ≤ 4096 → s.setDeviceItem 1 v = State.finishCommand { s with occThreshold := v } none (Run.start s)) ∧
    (¬ (1 ≤ v ∧ v ≤ 4096) → s.setDeviceItem 1 v = s.refuseCommand .badArgument) := by
  rw [← inRange_iff]
  exact ⟨fun h => if_pos h, fun h => if_neg h⟩

theorem State.setDeviceItem_none (s : State) {i : Nat} (h : 1 < i) (v : Nat) :
    s.setDeviceItem i v = s.refuseCommand .badArgument := by
  obtain ⟨k, rfl⟩ := Nat.exists_eq_add_of_le' (Nat.succ_le_of_lt h)
  rfl

/-! ### SET-CONFIG -/

theorem State.setConfigStep_port (s : State) {c : Command} {p : PortId} (hp : c.arg1.toNat = p.val) {i : Byte}
    (hi : c.arg2 = i) : s.setConfigStep c = s.setPortItem p i.toNat (c.value (portItemSize i.toNat)) := by
  unfold State.setConfigStep
  rw [hp, finOf_val, hi]

theorem State.setConfigStep_device (s : State) {c : Command} (h : c.arg1.toNat = 6) {i : Byte} (hi : c.arg2 = i) :
    s.setConfigStep c = s.setDeviceItem i.toNat (c.value 2) := by
  have harg : c.arg1 = 6 := BitVec.eq_of_toNat_eq h
  unfold State.setConfigStep
  rw [harg, hi]
  rfl

theorem State.setConfigStep_noTarget (s : State) {c : Command} (h : 6 < c.arg1.toNat) :
    s.setConfigStep c = s.refuseCommand .badArgument := by
  have harg : c.arg1 ≠ 6 := fun h6 => Nat.lt_irrefl 6 (by rw [h6] at h; exact h)
  unfold State.setConfigStep finOf
  rw [dif_neg (by omega)]
  exact if_neg harg

/-- The enable item of a port (R150, R177). -/
theorem State.setConfigStep_enable (s : State) {c : Command} {p : PortId} (hp : c.arg1.toNat = p.val) (h0 : c.arg2 = 0) :
    let one := c.arg3.toNat % 256
    let on := decide (one = 1)
    (1 < one → s.setConfigStep c = s.refuseCommand .badArgument) ∧
    (one ≤ 1 → s.setConfigStep c = ((s.setCfg p { s.cfg p with enable := on }).followEnable p (s.cfg p).enable on).finishCommand
      none (Run.start s)) := by
  intro one on
  have hitem : (s.cfg p).setItem 0 one = if inRange 0 1 one then some { s.cfg p with enable := on } else none := rfl
  rw [s.setConfigStep_port hp h0]
  refine ⟨fun hbig => ?_, fun hsmall => ?_⟩
  · exact State.setPortItem_refused (hitem.trans (if_neg (mt inRange_iff.mp fun h => Nat.not_le.mpr hbig h.2)))
  · exact State.setPortItem_stored (hitem.trans (if_pos (inRange_iff.mpr ⟨Nat.zero_le _, hsmall⟩)))

/-- Settles O42: an item with a range is `State.setPortItem_ranged` or one of the `State.setDeviceItem_…` lemmas; the enable
item is `State.setConfigStep_enable`, and the link then stays (`State.followEnable_still`), goes DOWN or trains. -/
theorem setConfigStores : Obligations.SetConfigStores := by
  intro s c ht hc one two
  let s9 : State := { s with lastServed := 9 }
  refine ⟨_, exec_command ht hc .setConfig State.setConfigStep rfl, fun p hp => ?port, fun hdevice => ?device,
    fun hbig => s9.setConfigStep_noTarget hbig⟩
  case port =>
    refine ⟨fun h1 => ?windowMax, fun h2 => ?quota, fun h3 => ?sessionTerm, fun h4 => ?orphanGrace, fun hbig => ?noItem,
      fun h0 => ?enable⟩
    case windowMax =>
      obtain ⟨hstored, hrefused⟩ := State.setPortItem_ranged (s := s9) (p := p) (i := 1) (v := one)
        (c := { s.cfg p with windowMax := one }) rfl rfl
      rw [s9.setConfigStep_port hp h1]
      exact ⟨hstored, fun h => hrefused (by omega)⟩
    case quota =>
      obtain ⟨hstored, hrefused⟩ := State.setPortItem_ranged (s := s9) (p := p) (i := 2) (v := two)
        (c := { s.cfg p with quota := two }) rfl rfl
      rw [s9.setConfigStep_port hp h2]
      exact ⟨hstored, fun h => hrefused (by omega)⟩
    case sessionTerm =>
      obtain ⟨hstored, hrefused⟩ := State.setPortItem_ranged (s := s9) (p := p) (i := 3) (v := two)
        (c := { s.cfg p with sessionTerm := two }) rfl rfl
      rw [s9.setConfigStep_port hp h3]
      exact ⟨hstored, fun h => hrefused (by omega)⟩
    case orphanGrace =>
      obtain ⟨hstored, hrefused⟩ := State.setPortItem_ranged (s := s9) (p := p) (i := 4) (v := two)
        (c := { s.cfg p with orphanGrace := two }) rfl rfl
      rw [s9.setConfigStep_port hp h4]
      exact ⟨fun h => hstored ⟨Nat.zero_le _, h⟩, fun h => hrefused (by omega)⟩
    case noItem =>
      exact (s9.setConfigStep_port hp rfl).trans (State.setPortItem_refused (PortConfig.setItem_none _ hbig _))
    case enable =>
      obtain ⟨hrefused, hstored⟩ := s9.setConfigStep_enable hp h0
      refine ⟨hrefused, fun hsmall => ?_⟩
      rw [hstored hsmall]
      generalize decide (one = 1) = on
      let s' : State := s9.setCfg p { s.cfg p with enable := on }
      obtain ⟨hdone, htab⟩ := State.finishCommand_completes s9 (s'.followEnable p (s.cfg p).enable on)
      refine ⟨htab, fun hstill => ?still, fun hwas hon hl => ?lost, fun hwas hon hdown => ?trains⟩
      case still =>
        have hlink : s'.followEnable p (s.cfg p).enable on = s' := State.followEnable_still hstill
        exact hlink ▸ hdone
      case lost =>
        have hlink : s'.followEnable p (s.cfg p).enable on = s'.portDown p := by rw [hwas, hon]; rfl
        exact ⟨_, (hlink ▸ s'.portDown_drops p hl).finish, hdone⟩
      case trains =>
        have hlink : s'.followEnable p (s.cfg p).enable on = s'.setPort p (s'.trains p (s.port p)) := by
          rw [hwas, hon]
          exact State.retrain_down hdown
        exact hlink ▸ hdone
  case device =>
    refine ⟨fun h0 => ?recallLimit, fun h1 => ?occThreshold, fun hbig => ?noItem⟩
    case recallLimit =>
      obtain ⟨hstored, hrefused⟩ := State.setDeviceItem_recallLimit (s := s9) (v := two)
      rw [s9.setConfigStep_device hdevice h0]
      refine ⟨fun h => ?_, fun h => hrefused (by omega)⟩
      exact (hstored h).symm ▸ State.finishCommand_completes s9 { s9 with recallLimit := two }
    case occThreshold =>
      obtain ⟨hstored, hrefused⟩ := State.setDeviceItem_occThreshold (s := s9) (v := two)
      rw [s9.setConfigStep_device hdevice h1]
      refine ⟨fun h => ?_, fun h => hrefused (by omega)⟩
      exact (hstored h).symm ▸ State.finishCommand_completes s9 { s9 with occThreshold := two }
    case noItem => exact (s9.setConfigStep_device hdevice rfl).trans (s9.setDeviceItem_none hbig _)

end Sys2Proof.Machine

/-! SUPPORT. The transmitters (chapter 8.7): the frame that a transmitter begins next, the end of a frame, and the HELLO of a
link that sends nothing (R131, R146, R147, R159, R160, R166, R167). -/

namespace Sys2Proof.Machine

/-! ### The next frame (R160, R166) -/

theorem nextFrame_answer (ss : Vector Session 12) (p : PortId) {x : Port} {a : Answer} {more : List Answer}
    (h : x.answers = a :: more) : nextFrame ss p x = some (.answer a) := by
  unfold nextFrame
  rw [h]

theorem nextFrame_notice {ss : Vector Session 12} {p : PortId} {x : Port} (h : x.answers = []) {i : SessionId}
    (hb : boundTo ss p = some i) :
    nextFrame ss p x = ss[i].dueNotice.map (fun q => .notice i ss[i].number ss[i].round q.seq q.notice) := by
  unfold nextFrame
  rw [h, hb]

theorem nextFrame_unbound {ss : Vector Session 12} {p : PortId} {x : Port} (h : x.answers = [])
    (hb : boundTo ss p = none) : nextFrame ss p x = none := by
  unfold nextFrame
  rw [h, hb]

theorem pumpPort_begins {ss : Vector Session 12} {p : PortId} {x : Port} (hup : x.link = .up) (htx : x.tx = none)
    {f : TxFrame} (hf : nextFrame ss p x = some f) : pumpPort ss p x = { x with tx := some f, sentThisMs := true } := by
  unfold pumpPort
  rw [if_pos ⟨hup, htx⟩, hf]

theorem pumpPort_nothing {ss : Vector Session 12} {p : PortId} {x : Port} (hf : nextFrame ss p x = none) :
    pumpPort ss p x = x := by
  unfold pumpPort
  rw [hf]
  exact ite_self x

/-- What a transmitter that comes free begins: on an UP port the next frame, else a HELLO if it has sent nothing in the
millisecond (R146, R160). -/
def chosenFrame (ss : Vector Session 12) (p : PortId) (x : Port) : Option TxFrame :=
  if x.link = .up then (nextFrame ss p x).or (if x.sentThisMs then none else some .hello) else none

theorem chosenFrame_next {ss : Vector Session 12} {p : PortId} {x : Port} (hup : x.link = .up) {f : TxFrame}
    (hf : nextFrame ss p x = some f) : chosenFrame ss p x = some f := by
  unfold chosenFrame
  rw [if_pos hup, hf]
  rfl

theorem chosenFrame_hello {ss : Vector Session 12} {p : PortId} {x : Port} (hup : x.link = .up)
    (hf : nextFrame ss p x = none) : chosenFrame ss p x = if x.sentThisMs then none else some .hello := by
  unfold chosenFrame
  rw [if_pos hup, hf]
  rfl

theorem Port.beginHello_due {x : Port} (hl : x.link ≠ .down) (htx : x.tx = none) (hms : x.sentThisMs = false) :
    x.beginHello = { x with tx := some .hello, sentThisMs := true } := if_pos ⟨hl, htx, hms⟩

/-- A link that is DOWN, is sending, or has sent in the millisecond has no HELLO due (R131, R146). -/
theorem not_helloDue {α : Type} {link : LinkState} {tx : Option α} {ms : Bool} (h : link = .down ∨ tx ≠ none ∨ ms = true) :
    ¬ (link ≠ .down ∧ tx = none ∧ ms = false) := by
  rintro ⟨hl, htx, rfl⟩
  exact h.elim hl fun h => h.elim (absurd htx) Bool.false_ne_true

theorem Port.beginHello_idle {x : Port} (h : x.link = .down ∨ x.tx ≠ none ∨ x.sentThisMs = true) : x.beginHello = x :=
  if_neg (not_helloDue h)

theorem Gate.beginHello_due {g : Gate} (hl : g.link ≠ .down) (htx : g.tx = none) (hms : g.sentThisMs = false) :
    g.beginHello = { g with sentThisMs := true } := if_pos ⟨hl, htx, hms⟩

theorem Gate.beginHello_idle {g : Gate} (h : g.link = .down ∨ g.tx ≠ none ∨ g.sentThisMs = true) : g.beginHello = g :=
  if_neg (not_helloDue h)

/-- A transmitter that comes free on an UP port begins what `chosenFrame` names. -/
theorem Port.beginHello_pumpPort (ss : Vector Session 12) (p : PortId) {x : Port} (hup : x.link = .up) (htx : x.tx = none) :
    (pumpPort ss p x).beginHello =
      { x with tx := chosenFrame ss p x, sentThisMs := x.sentThisMs || (chosenFrame ss p x).isSome } := by
  have hl : x.link ≠ .down := fun h => nomatch hup.symm.trans h
  cases hf : nextFrame ss p x with
  | some f =>
    rw [pumpPort_begins hup htx hf, chosenFrame_next hup hf, Port.beginHello_idle (.inr (.inl (Option.some_ne_none f))),
      Option.isSome_some, Bool.or_true]
  | none =>
    rw [pumpPort_nothing hf, chosenFrame_hello hup hf]
    cases hms : x.sentThisMs with
    | true =>
      rw [Port.beginHello_idle (.inr (.inr hms)), if_pos rfl, ← htx, Bool.true_or, ← hms]
    | false =>
      rw [Port.beginHello_due hl htx hms]
      rfl

/-! ### The end of a frame (R159, R160, R166, R167) -/

theorem State.chooseNext_frame (s : State) (p : PortId) : s.chooseNext p = { s with ports := (s.chooseNext p).ports } := by
  unfold State.chooseNext
  dsimp only
  split <;> rfl

/-- Each port after the transmitter of port `p` came free. -/
theorem State.port_chooseNext {s : State} {p : PortId} (htx : (s.port p).tx = none) (q : PortId) : (s.chooseNext p).port q =
    if q = p then { s.port p with
      tx := chosenFrame s.sessions p (s.port p)
      sentThisMs := (s.port p).sentThisMs || (chosenFrame s.sessions p (s.port p)).isSome }
    else pumpPort s.sessions q (s.port q) := by
  unfold State.chooseNext
  dsimp only
  rw [State.port_settle, pumpPort_link]
  by_cases hup : (s.port p).link = .up
  · rw [if_pos hup, State.port_setPort]
    by_cases hq : q = p
    · rw [if_pos hq.symm, if_pos hq, Port.beginHello_pumpPort _ _ hup htx]
    · rw [if_neg (Ne.symm hq), if_neg hq, State.port_settle]
  · rw [if_neg hup, State.port_settle]
    by_cases hq : q = p
    · subst hq
      have hnone : chosenFrame s.sessions q (s.port q) = none := if_neg hup
      rw [if_pos rfl, pumpPort_idle _ _ _ (.inl hup), hnone, Option.isSome_none, Bool.or_false, ← htx]
    · rw [if_neg hq]

/-- The answers that wait once the sending of a frame has ended (R159). -/
def TxFrame.leaves (answers : List Answer) : TxFrame → List Answer
  | .answer _ => answers.tail
  | .hello => answers
  | .notice _ _ _ _ _ => answers

theorem State.frameSent_frame (s : State) (p : PortId) (f : TxFrame) : s.frameSent p f = { s with
    sessions := (s.frameSent p f).sessions
    ports := upd s.ports p { s.port p with tx := none, answers := f.leaves (s.port p).answers } } := by
  cases f with
  | hello => rfl
  | answer a => rfl
  | notice i number round seq n =>
    unfold State.frameSent
    dsimp only
    split <;> rfl

theorem State.port_frameSent (s : State) (p : PortId) (f : TxFrame) (q : PortId) : (s.frameSent p f).port q =
    if q = p then { s.port p with tx := none, answers := f.leaves (s.port p).answers } else s.port q := by
  rw [State.frameSent_frame]
  exact (State.port_setPort s p q _).trans (ite_of_iff eq_comm _ _)

/-- The end of a notice's frame marks the notice, unless its session or round is another by now (R166, R167). -/
theorem State.session_noticeSent (s : State) (p : PortId) (i : SessionId) (number round : Nat) (seq : BitVec 16) (n : Notice)
    (j : SessionId) : (s.frameSent p (.notice i number round seq n)).session j =
      if j = i ∧ (s.session i).number = number ∧ (s.session i).round = round then (s.session i).markSent seq
      else s.session j := by
  unfold State.frameSent
  dsimp only
  by_cases hsame : (s.session i).number = number ∧ (s.session i).round = round
  · rw [if_pos hsame, State.session_setSession]
    exact ite_of_iff (eq_comm.trans (and_iff_left hsame).symm) _ _
  · rw [if_neg hsame, if_neg fun h => hsame h.2]
    rfl

/-- What comes next after a frame whose end left the port with the answers `left` (R146, R160, R166). -/
theorem State.chooseNext_chooses {s u : State} {p : PortId} {left : List Answer}
    (hports : ∀ q, u.port q = if q = p then { s.port p with tx := none, answers := left } else s.port q) :
    let t := u.chooseNext p
    (∀ q, q ≠ p → t.port q = pumpPort t.sessions q (s.port q)) ∧
    ∃ next, t.port p = { s.port p with
        tx := next, answers := left, sentThisMs := (s.port p).sentThisMs || next.isSome } ∧
      ((s.port p).link ≠ .up → next = none) ∧
      ((s.port p).link = .up →
        (∀ a more, left = a :: more → next = some (.answer a)) ∧
        (left = [] → ∀ i, boundTo t.sessions p = some i →
          (∀ q, (t.session i).queue.find? (fun q => !q.sent) = some q →
            next = some (.notice i (t.session i).number (t.session i).round q.seq q.notice)) ∧
          ((t.session i).queue.find? (fun q => !q.sent) = none →
            next = if (s.port p).sentThisMs then none else some .hello)) ∧
        (left = [] → boundTo t.sessions p = none → next = if (s.port p).sentThisMs then none else some .hello)) := by
  have hself : u.port p = { s.port p with tx := none, answers := left } := (hports p).trans (if_pos rfl)
  have hchosen := State.port_chooseNext (s := u) (p := p) (by rw [hself])
  rw [hself] at hchosen
  have hsessions : (u.chooseNext p).sessions = u.sessions := by rw [State.chooseNext_frame]
  let x : Port := { s.port p with tx := none, answers := left }
  intro t
  refine ⟨fun q hq => ?others, _, (hchosen p).trans (if_pos rfl), fun hl => if_neg hl, fun (hup : x.link = .up) =>
    ⟨fun a more hleft => chosenFrame_next hup (nextFrame_answer (x := x) _ p hleft), fun hleft i hb => ?bound,
      fun hleft hb => chosenFrame_hello hup (nextFrame_unbound (x := x) hleft (hsessions ▸ hb))⟩⟩
  case others => rw [hsessions, hchosen q, if_neg hq, hports q, if_neg hq]
  case bound =>
    unfold State.session
    rw [hsessions] at hb ⊢
    have hnext := nextFrame_notice (x := x) hleft hb
    refine ⟨fun q hq => chosenFrame_next hup (hnext.trans ?_), fun hnone => chosenFrame_hello hup (hnext.trans ?_)⟩
    · exact congrArg (Option.map _) hq
    · exact congrArg (Option.map _) hnone

theorem State.chooseNext_frameSent_frame (s : State) (p : PortId) (f : TxFrame) : (s.frameSent p f).chooseNext p = { s with
    sessions := ((s.frameSent p f).chooseNext p).sessions, ports := ((s.frameSent p f).chooseNext p).ports } := by
  obtain ⟨ss, ps, hsent⟩ : ∃ ss ps, s.frameSent p f = { s with sessions := ss, ports := ps } :=
    ⟨_, _, s.frameSent_frame p f⟩
  rw [hsent, State.chooseNext_frame]

theorem State.transmitted_of_sending {s : State} {p : PortId} {f : TxFrame} (h : (s.port p).tx = some f) :
    s.transmitted p = (s.frameSent p f).chooseNext p := by
  unfold State.transmitted
  rw [h]

/-- Settles O49: when a HELLO is due is one of the `beginHello_…` lemmas; the end of a frame is `State.port_frameSent` with
`State.session_noticeSent`, and what follows it `State.chooseNext_chooses`; what `pumpPort` begins is the frame that the
`nextFrame_…` lemmas name. -/
theorem transmitterGoesOn : Obligations.TransmitterGoesOn := by
  refine fun s p hr => ⟨⟨_, exec_high hr _, fun hl htx hms => ?hello, fun hidle => ?noHello⟩,
    fun hl htx hms => ?gateHello, fun hidle => ?noGateHello, fun f hf => ?sent,
    fun ss x => ⟨pumpPort_idle ss p x, fun hup htx => ?pump⟩⟩
  case hello => exact congrArg (s.setPort p) (Port.beginHello_due hl htx hms)
  case noHello => exact (congrArg (s.setPort p) (Port.beginHello_idle hidle)).trans (s.setPort_port p)
  case gateHello =>
    have hdue : s.helloDue .gate = _ := congrArg s.setGate (Gate.beginHello_due hl htx hms)
    exact (exec_high hr _).trans (congrArg _ hdue)
  case noGateHello =>
    have hdue : s.helloDue .gate = s := congrArg s.setGate (Gate.beginHello_idle hidle)
    exact (exec_high hr _).trans (congrArg _ hdue)
  case sent =>
    have hexec : exec (.frameTransmitComplete p) s = .next ((s.frameSent p f).chooseNext p) :=
      (exec_high hr _).trans (congrArg _ (State.transmitted_of_sending hf))
    have hsession : ∀ j, ((s.frameSent p f).chooseNext p).session j = (s.frameSent p f).session j := fun j => by
      rw [State.chooseNext_frame]
      rfl
    have hchosen := State.chooseNext_chooses (s.port_frameSent p f)
    refine ⟨_, hexec, s.chooseNext_frameSent_frame p f, fun j => (hsession j).trans ?_, ?_⟩
    · cases f with
      | hello => rfl
      | answer a => rfl
      | notice i number round seq n => exact s.session_noticeSent p i number round seq n j
    · cases f <;> exact hchosen
  case pump =>
    refine ⟨fun a more h => pumpPort_begins hup htx (nextFrame_answer ss p h), fun h i hb => ?_,
      fun h hb => pumpPort_nothing (nextFrame_unbound h hb)⟩
    have hnext := nextFrame_notice h hb
    exact ⟨fun q hq => pumpPort_begins hup htx (hnext.trans (congrArg (Option.map _) hq)),
      fun hnone => pumpPort_nothing (hnext.trans (congrArg (Option.map _) hnone))⟩

end Sys2Proof.Machine

/-! SUPPORT. NOTICE_ACK at a session's notice queue (chapter 8.7): what an acknowledgement leaves of the queue, the next
sequence number and the overflow flag (R168, R170). -/

namespace Sys2Proof.Machine

/-- Intake's restart of the term timer touches no other field (R86, R156). -/
theorem Session.restartTerm_frame (x : Session) (d : Time) : x.restartTerm d = { x with term := (x.restartTerm d).term } := by
  unfold Session.restartTerm
  split <;> rfl

/-- The test by which an acknowledgement brings RESYNC: it drains a queue that had notices and had overflowed (R170). -/
theorem resync_iff (left queue : List QueuedNotice) (overflow : Bool) :
    (left.isEmpty && !queue.isEmpty && overflow) = true ↔ left = [] ∧ queue ≠ [] ∧ overflow = true := by
  rw [Bool.and_eq_true, Bool.and_eq_true, Bool.not_eq_true', List.isEmpty_iff, List.isEmpty_eq_false_iff, and_assoc]

/-- Without a RESYNC an acknowledgement only shortens the queue (R168). -/
theorem Session.acknowledge_shortens {x : Session} {n : BitVec 16}
    (h : ackQueue x.queue n ≠ [] ∨ x.queue = [] ∨ x.overflow = false) :
    x.acknowledge n = { x with queue := ackQueue x.queue n } := by
  refine if_neg (mt (resync_iff _ _ _).mp ?_)
  rintro ⟨hleft, hne, hover⟩
  obtain hleft' | hempty | hover' := h
  · exact hleft' hleft
  · exact hne hempty
  · exact Bool.false_ne_true (hover'.symm.trans hover)

/-- An acknowledgement that drains an overflowed queue clears the flag and brings RESYNC with the next number (R170). -/
theorem Session.acknowledge_drains {x : Session} {n : BitVec 16} (hleft : ackQueue x.queue n = []) (hne : x.queue ≠ [])
    (hover : x.overflow = true) : x.acknowledge n = { x with
      queue := [{ seq := x.nextSeq, notice := .resync, sent := false }], nextSeq := x.nextSeq + 1, overflow := false } :=
  if_pos ((resync_iff _ _ _).mpr ⟨hleft, hne, hover⟩)

/-- Settles O11: the command's effect on the session and the port is `portHandlesKeepaliveAndNoticeAck`, and of the notice
queue the acknowledgement leaves what `Session.acknowledge_shortens` and `Session.acknowledge_drains` say. -/
theorem noticeAckRemovesOldest : Obligations.NoticeAckRemovesOldest := by
  intro s p i tag n hr hup hb hact hnew hroom x left
  obtain ⟨-, t, hexec, -, heffect⟩ := portHandlesKeepaliveAndNoticeAck.2 s p i tag n hr hup hb hact hnew
  obtain ⟨-, hsessions, hports⟩ := heffect hroom
  let d : Time := deadlineAt s.clock (s.cfg p).sessionTerm
  let y : Session := { x with term := (x.restartTerm d).term }
  have hleft : left = ackQueue y.queue n := rfl
  have hacked : t.session i = y.acknowledge n :=
    ((hsessions i).trans (if_pos rfl)).trans (congrArg (·.acknowledge n) (x.restartTerm_frame d))
  refine ⟨t, hexec, fun j hj => (hsessions j).trans (if_neg hj), ?answer, fun hstays => ?shortens,
    fun hempty hne hover => ?drains⟩
  case answer =>
    rw [hports p, pumpPort_answers]
    exact congrArg Port.answers (if_pos rfl)
  case shortens =>
    rw [hleft] at hstays ⊢
    rw [hacked, Session.acknowledge_shortens (x := y) hstays]
    exact ⟨rfl, rfl, rfl⟩
  case drains =>
    rw [hacked, Session.acknowledge_drains (x := y) (hleft.symm.trans hempty) hne hover]
    exact ⟨rfl, rfl, rfl⟩

end Sys2Proof.Machine

/-! SUPPORT. RESET_N (R172, R173, R189). -/

namespace Sys2Proof.Machine

/-- The release of RESET_N samples the straps and starts the clock (R172, R173). -/
theorem exec_resetRelease_low {s : State} (h : s.resetN = false) (straps : BitVec 3) :
    exec (.resetRelease straps) s = .next (s.releaseReset straps) := by
  show Host.Outcome.next (if s.resetN then s else s.releaseReset straps) = _
  rw [if_neg (h ▸ Bool.false_ne_true)]

/-- Settles O4. -/
theorem resetHoldsTheDevice : Obligations.ResetHoldsTheDevice :=
  ⟨fun _ => rfl, fun _ _ hlow hpower hrelease => exec_low hlow hpower hrelease,
    fun straps _ hlow => exec_resetRelease_low hlow straps⟩

end Sys2Proof.Machine

/-! SUPPORT. The items of the Maintenance Port (R182, R188): their one-byte fields, the ranges that the item numbers fall
in, and the numbers that name no item. -/

namespace Sys2Proof.Machine

/-! ### Fields of one byte (R185, R188) -/

@[simp] theorem layout_nil : layout [] = [] := rfl

theorem layout_cons (width value : Nat) (fields : List (Nat × Nat)) :
    layout ((width, value) :: fields) = beBytes width value ++ layout fields := rfl

@[simp] theorem layout_cons_byte (value : Nat) (fields : List (Nat × Nat)) :
    layout ((1, value) :: fields) = byteOf value :: layout fields := by
  simp [layout_cons, beBytes, byteOf]

@[simp] theorem byteOf_toNat (b : Byte) : byteOf b.toNat = b := by
  simp [byteOf]

/-- A flag's byte is 1 when the flag is set (R188). -/
@[simp] theorem byteOf_flag (b : Bool) : byteOf (if b then 1 else 0) = byteOf b.toNat := by
  cases b <;> rfl

/-! ### Tables of codes (R186 to R188) -/

theorem codedFrom_nil {α : Type} (first : Nat) (code : α → Byte) : codedFrom first code [] ↔ True :=
  iff_true_intro fun _ _ h => nomatch h

/-- A table of codes is its first code, and the rest counted from the next. -/
theorem codedFrom_cons {α : Type} (first : Nat) (code : α → Byte) (v : α) (values : List α) :
    codedFrom first code (v :: values) ↔ (code v).toNat = first ∧ codedFrom (first + 1) code values := by
  refine ⟨fun h => ⟨h 0 v rfl, fun k w hw => (h (k + 1) w hw).trans (by omega)⟩, fun ⟨hfirst, hrest⟩ k w hw => ?_⟩
  cases k with
  | zero =>
    cases hw
    exact hfirst
  | succ k => exact (hrest k w hw).trans (by omega)

/-! ### The ranges of item numbers (Table 11-7) -/

theorem State.itemBytes_status (s : State) {n : Nat} (h : n < 0x20) : s.itemBytes n = s.statusItem n := if_pos h

theorem State.itemBytes_config (s : State) {n : Nat} (hlo : 0x20 ≤ n) (hhi : n < 0x50) :
    s.itemBytes n = s.configItem (n - 0x20) := by
  unfold State.itemBytes
  rw [if_neg (Nat.not_lt.mpr hlo), if_pos hhi]

theorem State.itemBytes_upper (s : State) {n : Nat} (h : 0x50 ≤ n) : s.itemBytes n = s.upperItem n := by
  unfold State.itemBytes
  rw [if_neg (by omega), if_neg (Nat.not_lt.mpr h)]

theorem State.portItem_val (s : State) (p : PortId) (f : Port → List Byte) : s.portItem p.val f = f (s.port p) := by
  unfold State.portItem
  rw [finOf_val]

/-- The link state items of the ports stand at 08h to 0Dh (R188). -/
theorem State.itemBytes_link (s : State) (p : PortId) : s.itemBytes (0x08 + p.val) = [(s.port p).link.byte] := by
  rw [s.itemBytes_status (by omega), ← s.portItem_val p (fun x => [x.link.byte])]
  match p with
  | 0 | 1 | 2 | 3 | 4 | 5 => rfl

/-- The bad-frame counters of the ports stand at 0Eh to 13h (R188). -/
theorem State.itemBytes_badFrames (s : State) (p : PortId) :
    s.itemBytes (0x0E + p.val) = beBytes 2 (s.port p).badFrames := by
  rw [s.itemBytes_status (by omega), ← s.portItem_val p (fun x => beBytes 2 x.badFrames)]
  match p with
  | 0 | 1 | 2 | 3 | 4 | 5 => rfl

/-- The configuration items of port `p` stand from 20h + 8 `p` (R188). -/
theorem State.itemBytes_portConfig (s : State) (p : PortId) {i : Nat} (hi : i < 8) :
    s.itemBytes (0x20 + i + 8 * p.val) = (s.cfg p).itemBytes i := by
  rw [s.itemBytes_config (by omega) (by omega)]
  unfold State.configItem
  rw [show (0x20 + i + 8 * p.val - 0x20) / 8 = p.val by omega, show (0x20 + i + 8 * p.val - 0x20) % 8 = i by omega,
    finOf_val]

/-! ### Numbers that name no item (R172, R188) -/

theorem State.statusItem_unnamed (s : State) {n : Nat} (h : 0x16 < n) : s.statusItem n = [] := by
  unfold State.statusItem
  split
  case h_12 => rw [if_neg (by omega), if_neg (by omega)]
  all_goals omega

theorem PortConfig.itemBytes_unnamed (c : PortConfig) {i : Nat} (h : 4 < i) : c.itemBytes i = [] := by
  unfold PortConfig.itemBytes
  split
  case h_6 => rfl
  all_goals omega

theorem State.configItem_unnamed (s : State) {k : Nat} (h : 4 < k % 8) : s.configItem k = [] := by
  unfold State.configItem
  split
  · exact PortConfig.itemBytes_unnamed _ h
  · rfl

theorem State.upperItem_unnamed (s : State) {n : Nat} (h : (0x51 < n ∧ n < 0x58) ∨ (0x5C < n ∧ n < 0x60) ∨
    (0x60 < n ∧ n < 0x68) ∨ 0x6A < n) : s.upperItem n = [] := by
  unfold State.upperItem
  split
  case h_12 => rfl
  all_goals omega

theorem State.itemBytes_unnamed (s : State) {n : Nat} (h : (0x16 < n ∧ n < 0x20) ∨ (0x20 ≤ n ∧ n < 0x50 ∧ 4 < n % 8) ∨
    (0x51 < n ∧ n < 0x58) ∨ (0x5C < n ∧ n < 0x60) ∨ (0x60 < n ∧ n < 0x68) ∨ 0x6A < n) : s.itemBytes n = [] := by
  obtain ⟨hlo, hhi⟩ | ⟨hlo, hhi, hmod⟩ | hupper := h
  · rw [s.itemBytes_status hhi, s.statusItem_unnamed hlo]
  · rw [s.itemBytes_config hlo hhi, s.configItem_unnamed (by omega)]
  · rw [s.itemBytes_upper (by omega), s.upperItem_unnamed hupper]

/-! ### The record window (R183) -/

theorem State.itemBytes_record (s : State) {c : RecordCopy} (h : s.window = some c) : s.itemBytes 0x6A = c.bytes := by
  rw [s.itemBytes_upper (by decide), State.upperItem, h]

theorem State.itemBytes_noRecord (s : State) (h : s.window = none) : s.itemBytes 0x6A = [] := by
  rw [s.itemBytes_upper (by decide), State.upperItem, h]

/-! ### The items that a read changes -/

/-- The alert item has three bytes, with records or without (R181, R188). -/
theorem alertItem_length (alerts : List AlertRecord) : (alertItem alerts).length = 3 := by
  cases alerts <;> rfl

theorem State.itemBytes_alert {s : State} (h : s.itemPtr = 0x60) : s.itemBytes s.itemPtr.toNat = alertItem s.alerts := by
  rw [h]
  rfl

/-- A pointer with no bytes under it stands neither at the alert item nor at the command code. -/
theorem State.itemPtr_of_unnamed {s : State} (h : s.itemBytes s.itemPtr.toNat = []) :
    s.itemPtr ≠ 0x60 ∧ s.itemPtr ≠ 0x5B := by
  refine ⟨fun hptr => ?_, fun hptr => ?_⟩
  · have hlen := alertItem_length s.alerts
    rw [← State.itemBytes_alert hptr, h] at hlen
    exact absurd hlen (by decide)
  · rw [hptr] at h
    exact List.cons_ne_nil _ _ h

end Sys2Proof.Machine

/-! SUPPORT. The read transfer as a command: at the item under the pointer, in the middle of an item, and where no item
stands (R172, R181, R182). -/

namespace Sys2Proof.Machine

/-- The bytes of a transfer that begins: those of the item under the pointer, from the first (R172). -/
theorem exec_alertRead_item {s : State} (hr : s.resetN = true) {k : Nat} (hpos : 0 < k)
    (hk : k ≤ (s.itemBytes s.itemPtr.toNat).length) : exec (.alertRead ⟨false, k⟩) s = .next { s with
      readOut := (s.itemBytes s.itemPtr.toNat).take k
      readLatch := (s.itemBytes s.itemPtr.toNat).drop k
      itemPtr := if k = (s.itemBytes s.itemPtr.toNat).length then s.itemPtr + 1 else s.itemPtr
      alerts := if s.itemPtr = 0x60 then s.alerts.tail else s.alerts
      alertN := if s.itemPtr = 0x60 then s.alerts.tail.isEmpty else s.alertN
      openReads := if s.itemPtr = 0x5B then s.openReads + 1 else s.openReads } := by
  obtain ⟨j, rfl⟩ := Nat.exists_eq_add_of_lt hpos
  rw [Nat.zero_add] at hk ⊢
  have hne : s.itemBytes s.itemPtr.toNat ≠ [] := List.ne_nil_of_length_pos (by omega)
  exact (exec_high hr _).trans (congrArg _ (State.readBytes_item j (s.openRead false) rfl hne hk))

/-- The bytes of a transfer that goes on: those that the latched item has left, whatever it reads as by now (R172). -/
theorem exec_alertRead_latched {s : State} (hr : s.resetN = true) {k : Nat} (hne : s.readLatch ≠ [])
    (hk : k ≤ s.readLatch.length) : exec (.alertRead ⟨true, k⟩) s = .next { s with
      readOut := s.readLatch.take k, readLatch := s.readLatch.drop k
      itemPtr := if k = s.readLatch.length then s.itemPtr + 1 else s.itemPtr } :=
  (exec_high hr _).trans (congrArg _ (State.readBytes_latched k (s.openRead true) hne hk))

theorem exec_alertRead_unnamed {s : State} (hr : s.resetN = true) (k : Nat) (h : s.itemBytes s.itemPtr.toNat = []) :
    exec (.alertRead ⟨false, k⟩) s = .next { s with readOut := List.replicate k 0, readLatch := [] } := by
  obtain ⟨halert, hcode⟩ := State.itemPtr_of_unnamed h
  exact (exec_high hr _).trans (congrArg _ (State.readBytes_none k (s.openRead false) rfl h halert hcode))

/-- A read transfer leaves RESET_N high. -/
theorem State.resetN_readBytes (k : Nat) (s : State) : (State.readBytes k s).resetN = s.resetN := by
  obtain ⟨_, _, _, _, _, _, h⟩ := State.readBytes_frame k s
  rw [h]

/-- Settles O46: a transfer at the item under the pointer, on a latched item and at no item are the `exec_alertRead_…`
lemmas, its parts `State.readBytes_goesOn`; what the items read as are the `State.itemBytes_…` lemmas, and by computation
the items that stand alone. -/
theorem readTransferGivesItems : Obligations.ReadTransferGivesItems := by
  refine ⟨fun s hr => ⟨fun k => exec_alertRead_item hr, fun k => exec_alertRead_latched hr,
    fun k => exec_alertRead_unnamed hr k, fun g m n => ?parts⟩,
    fun s => ⟨?device, rfl, rfl, (layout_cons_byte _ []).symm, rfl, rfl, (layout_cons_byte _ []).symm, rfl,
      fun p => ⟨?link, s.itemBytes_badFrames p, ?enable, ?window, s.itemBytes_portConfig p (i := 2) (by decide),
        s.itemBytes_portConfig p (i := 3) (by decide), s.itemBytes_portConfig p (i := 4) (by decide)⟩,
      ?gateLink, rfl, (layout_cons_byte _ []).symm, rfl, rfl, rfl, ?arg2, rfl, rfl, ?status, ?noAlert, ?alert, ?selector,
      ?valid, fun c => s.itemBytes_record, s.itemBytes_noRecord, fun n => s.itemBytes_unnamed, ?reasons, ?kinds⟩⟩
  case parts =>
    have hu : (State.readBytes m (s.openRead g)).resetN = true := (State.resetN_readBytes m _).trans hr
    exact ⟨_, _, exec_high hr _, exec_high hu _, (exec_high hr _).trans (congrArg _ (s.readBytes_goesOn g m n))⟩
  case device =>
    change [s.device.byte] = _
    cases s.device <;> rfl
  case link =>
    rw [s.itemBytes_link p]
    cases (s.port p).link <;> rfl
  case enable =>
    rw [layout_cons_byte, byteOf_flag]
    exact s.itemBytes_portConfig p (i := 0) (by decide)
  case window =>
    rw [layout_cons_byte]
    exact s.itemBytes_portConfig p (i := 1) (by decide)
  case gateLink =>
    change [s.gate.link.byte] = _
    cases s.gate.link <;> rfl
  case arg2 =>
    rw [layout_cons_byte, byteOf_toNat]
    rfl
  case status =>
    simp only [layout_cons_byte, layout_nil, byteOf_toNat, byteOf_flag]
    change s.cmdStatus.bytes ++ [s.lastCode, byteOf s.overrun.toNat] = _
    cases s.cmdStatus with
    | idle => rfl
    | busy => rfl
    | done => rfl
    | refused x =>
      rw [byteOf_toNat]
      rfl
  case noAlert =>
    intro h
    change alertItem s.alerts = _
    rw [h]
    rfl
  case alert =>
    intro a more h
    change alertItem s.alerts = _
    rw [h]
    change [a.kind.byte, a.source.byte, byteOf a.repeats] = _
    rw [layout_cons_byte, layout_cons_byte, layout_cons_byte, byteOf_toNat, layout_nil]
    cases a.source <;> rfl
  case selector =>
    rw [layout_cons_byte, byteOf_toNat]
    rfl
  case valid =>
    rw [layout_cons_byte, byteOf_flag]
    rfl
  case reasons =>
    simp only [codedFrom_cons, codedFrom_nil]
    decide
  case kinds =>
    simp only [codedFrom_cons, codedFrom_nil]
    decide

end Sys2Proof.Machine

/-! SUPPORT. The write transfer (R172, R174, R183, R188): what a write of each item does, the command code by device state
and status, and the record that a selector captures. -/

namespace Sys2Proof.Machine

/-! ### The command code (R174) -/

theorem State.writeCode_starting {s : State} (h : s.device = .starting) (code : Byte) :
    s.writeCode code = { s with cmdStatus := .refused .notReady, lastCode := code } := if_pos h

theorem State.writeCode_busy {s : State} (hd : s.device ≠ .starting) (hbusy : s.cmdStatus = .busy) (code : Byte) :
    s.writeCode code = { s with overrun := true, overrunClears := false } := (if_neg hd).trans (if_pos hbusy)

theorem State.writeCode_ready {s : State} (hd : s.device = .ready) (hidle : s.cmdStatus ≠ .busy) (code : Byte) :
    s.writeCode code = { s with
      cmdStatus := .busy, lastCode := code, overrunClears := s.overrun
      waiting := some { code := code, arg1 := s.arg1, arg2 := s.arg2, arg3 := s.arg3 } } := by
  have hstarted : s.device ≠ .starting := fun h => nomatch hd.symm.trans h
  exact (if_neg hstarted).trans ((if_neg hidle).trans (if_pos hd))

/-! ### Whole values (R172, R188) -/

theorem beNat_two (a b : Byte) : beNat [a, b] = a.toNat * 256 + b.toNat := by
  simp [beNat]

theorem ofNat_beNat_one (a : Byte) : BitVec.ofNat 8 (beNat [a]) = a := by
  simp [beNat]

theorem State.writeItem_arg1 (s : State) (a b : Byte) (more : List Byte) :
    s.writeItem 0x58 (a :: b :: more) = { s with arg1 := BitVec.ofNat 16 (a.toNat * 256 + b.toNat) } := by
  rw [← beNat_two]
  exact if_pos ⟨rfl, by simp⟩

theorem State.writeItem_arg2 (s : State) (a : Byte) (more : List Byte) :
    s.writeItem 0x59 (a :: more) = { s with arg2 := a } := by
  have hwrite : s.writeItem 0x59 (a :: more) = { s with arg2 := BitVec.ofNat 8 (beNat [a]) } := by
    simp [State.writeItem, fieldNat, field]
  rw [hwrite, ofNat_beNat_one]

theorem State.writeItem_arg3 (s : State) (a b d e f g : Byte) (more : List Byte) :
    s.writeItem 0x5A (a :: b :: d :: e :: f :: g :: more) =
      { s with arg3 := BitVec.ofNat 48 (beNat [a, b, d, e, f, g]) } := by
  simp [State.writeItem, fieldNat, field]

theorem State.writeItem_code (s : State) (code : Byte) (more : List Byte) :
    s.writeItem 0x5B (code :: more) = s.writeCode code := by
  have hwrite : s.writeItem 0x5B (code :: more) = s.writeCode (BitVec.ofNat 8 (beNat [code])) := by
    simp [State.writeItem, fieldNat, field]
  rw [hwrite, ofNat_beNat_one]

theorem State.writeItem_selector (s : State) (k a b : Byte) (more : List Byte) :
    s.writeItem 0x68 (k :: a :: b :: more) = s.select k (BitVec.ofNat 16 (a.toNat * 256 + b.toNat)) := by
  have hwrite : s.writeItem 0x68 (k :: a :: b :: more) =
      s.select (BitVec.ofNat 8 (beNat [k])) (BitVec.ofNat 16 (beNat [a, b])) := by
    simp [State.writeItem, fieldNat, field]
  rw [hwrite, ofNat_beNat_one, beNat_two]

/-- An item that takes no write, and a value that is not whole, leave everything as it is (R172). -/
theorem State.writeItem_void (s : State) {item : Byte} {data : List Byte}
    (h : item ∉ [(0x58 : Byte), 0x59, 0x5A, 0x5B, 0x68] ∨ data = [] ∨ (item = 0x58 ∧ data.length < 2) ∨
      (item = 0x5A ∧ data.length < 6) ∨ (item = 0x68 ∧ data.length < 3)) : s.writeItem item data = s := by
  unfold State.writeItem
  obtain hitem | rfl | ⟨rfl, hlen⟩ | ⟨rfl, hlen⟩ | ⟨rfl, hlen⟩ := h
  · simp only [List.mem_cons, List.not_mem_nil, or_false, not_or] at hitem
    obtain ⟨harg1, harg2, harg3, hcode, hselector⟩ := hitem
    rw [if_neg (mt And.left harg1), if_neg (mt And.left harg2), if_neg (mt And.left harg3), if_neg (mt And.left hcode),
      if_neg (mt And.left hselector)]
  · simp
  · simp [Nat.not_le.mpr hlen]
  · simp [Nat.not_le.mpr hlen]
  · simp [Nat.not_le.mpr hlen]

/-- What a write does to an item's value leaves the pointer alone. -/
theorem State.itemPtr_writeItem (s : State) (item : Byte) (data : List Byte) :
    (s.writeItem item data).itemPtr = s.itemPtr := by
  unfold State.writeItem State.writeCode
  repeat' split
  all_goals rfl

/-- Settles O44: the write of each whole value is one of the `State.writeItem_…` lemmas, the command code by device state and
status one of the `State.writeCode_…` lemmas. -/
theorem registerWriteTakes : Obligations.RegisterWriteTakes := by
  refine fun s item data hr => ⟨_, exec_high hr _, State.itemPtr_writeItem _ item data, ?arg1, ?arg2, ?arg3, ?code,
    ?selector, fun h => State.writeItem_void _ h⟩
  case arg1 =>
    rintro a b more rfl rfl
    exact State.writeItem_arg1 _ a b more
  case arg2 =>
    rintro a more rfl rfl
    exact State.writeItem_arg2 _ a more
  case arg3 =>
    rintro a b d e f g more rfl rfl
    exact State.writeItem_arg3 _ a b d e f g more
  case code =>
    rintro code more rfl rfl
    have hwrite : effect (.registerWrite 0x5B (code :: more)) s = (s.point 0x5B).writeCode code :=
      State.writeItem_code _ code more
    rw [hwrite]
    exact ⟨fun hd => State.writeCode_starting (s := s.point 0x5B) hd code,
      fun hd hbusy => State.writeCode_busy (s := s.point 0x5B) hd hbusy code,
      fun hd hidle => State.writeCode_ready (s := s.point 0x5B) hd hidle code⟩
  case selector =>
    rintro k a b more rfl rfl
    exact (exec_high hr _).trans (congrArg _ (State.writeItem_selector _ k a b more).symm)

/-! ### The record window (R183) -/

theorem finOf_none {k n : Nat} (h : k ≤ n) : finOf k n = none := dif_neg (Nat.not_lt.mpr h)

theorem State.capture_slot (s : State) {index : Nat} (h : index ≤ 4095) :
    s.capture 0 index = some (.slot index (s.tab.slots.get index)) := if_pos (Nat.lt_succ_of_le h)

theorem State.capture_waitEntry (s : State) {index : Nat} (h : index ≤ 511) :
    s.capture 1 index = some (.waitEntry (lookupKey index s.tab.pool)) := if_pos (Nat.lt_succ_of_le h)

theorem State.capture_session (s : State) (i : SessionId) : s.capture 2 i.val =
    some (.session (s.session i) (s.tab.slotCount i) (s.purgePlace i) (s.subjectSection i)) := by
  have hkind : s.capture 2 i.val = (finOf 12 i.val).map (fun j =>
      .session (s.session j) (s.tab.slotCount j) (s.purgePlace j) (s.subjectSection j)) := rfl
  rw [hkind, finOf_val, Option.map_some]

theorem State.capture_volume (s : State) (v : VolumeId) : s.capture 3 v.val = some (.volume (s.tab.volume v)) := by
  have hkind : s.capture 3 v.val = (finOf 32 v.val).map (fun w => .volume (s.tab.volume w)) := rfl
  rw [hkind, finOf_val, Option.map_some]

/-- A kind that names no record, or an index out of the kind's range, captures nothing (R183, R188). -/
theorem State.capture_none (s : State) {kind : Byte} {index : Nat} (h : 3 < kind.toNat ∨ (kind = 0 ∧ 4095 < index) ∨
    (kind = 1 ∧ 511 < index) ∨ (kind = 2 ∧ 11 < index) ∨ (kind = 3 ∧ 31 < index)) : s.capture kind index = none := by
  unfold State.capture
  obtain hkind | ⟨rfl, hidx⟩ | ⟨rfl, hidx⟩ | ⟨rfl, hidx⟩ | ⟨rfl, hidx⟩ := h
  · have hne : ∀ n : Byte, n.toNat ≤ 3 → kind ≠ n := fun n hn heq => by rw [heq] at hkind; omega
    rw [if_neg (hne 0 (by decide)), if_neg (hne 1 (by decide)), if_neg (hne 2 (by decide)), if_neg (hne 3 (by decide))]
  · exact if_neg (Nat.not_lt.mpr hidx)
  · exact if_neg (Nat.not_lt.mpr hidx)
  · exact congrArg (Option.map _) (finOf_none hidx)
  · exact congrArg (Option.map _) (finOf_none hidx)

/-! ### The alert item (R181) -/

/-- A read of the alert item takes the oldest record out of the set, and ALERT_N is released with the last (R181). -/
theorem exec_alertRead_alert {s : State} (hr : s.resetN = true) (hptr : s.itemPtr = 0x60) {k : Nat} (hpos : 1 ≤ k)
    (hk : k ≤ 3) : exec (.alertRead ⟨false, k⟩) s = .next { s with
      readOut := (alertItem s.alerts).take k, readLatch := (alertItem s.alerts).drop k, alerts := s.alerts.tail,
      alertN := s.alerts.tail.isEmpty, itemPtr := if k = 3 then 0x61 else 0x60 } := by
  have hitem := State.itemBytes_alert hptr
  have hcode : s.itemPtr ≠ 0x5B := by
    rw [hptr]
    decide
  rw [exec_alertRead_item hr hpos (by rw [hitem, alertItem_length]; exact hk), hitem, alertItem_length, if_pos hptr,
    if_pos hptr, if_neg hcode, hptr]
  rfl

/-- Settles O45: the read of the alert item is `exec_alertRead_alert`; what a selector captures is said by the
`State.capture_…` lemmas. -/
theorem alertReadAndWindow : Obligations.AlertReadAndWindow := by
  refine fun s hr => ⟨fun hptr k => exec_alertRead_alert hr hptr, fun kind index =>
    ⟨_, exec_high hr _, rfl, ?slot, ?waitEntry, ?session, ?volume, fun h => (s.point 0x68).capture_none h⟩⟩
  case slot =>
    rintro rfl h
    exact (s.point 0x68).capture_slot h
  case waitEntry =>
    rintro rfl h
    exact (s.point 0x68).capture_waitEntry h
  case session =>
    rintro i rfl h
    exact (congrArg ((s.point 0x68).capture 2) h).trans ((s.point 0x68).capture_session i)
  case volume =>
    rintro v rfl h
    exact (congrArg ((s.point 0x68).capture 3) h).trans ((s.point 0x68).capture_volume v)

end Sys2Proof.Machine

/-! SUPPORT. What the part sends and shows, byte by byte: numbers in bytes, the frame and its CRC, and the layouts of the
slot entries, records, answers and notices (chapter 11). -/

namespace Sys2Proof.Machine

/-! ### Numbers in bytes (R185) -/

@[simp] theorem length_beBytes (k n : Nat) : (beBytes k n).length = k := by
  induction k with
  | zero => rfl
  | succ k ih => exact congrArg (· + 1) ih

theorem getElem?_beBytes {k j : Nat} (n : Nat) (h : j < k) :
    (beBytes k n)[j]? = some (BitVec.ofNat 8 (n / 256 ^ (k - 1 - j))) := by
  induction k generalizing j with
  | zero => exact absurd h (Nat.not_lt_zero j)
  | succ k ih =>
    cases j with
    | zero => rfl
    | succ j =>
      rw [beBytes, List.getElem?_cons_succ, ih (Nat.lt_of_succ_lt_succ h)]
      congr 4
      omega

@[simp] theorem beBytes_one (n : Nat) : beBytes 1 n = [byteOf n] := by
  simp [beBytes, byteOf]

/-! ### The CRC and the link frame (R185) -/

/-- The register takes the bits of all the bytes one after the other, each byte's least significant bit first. -/
theorem foldl_crcByte (bytes : List Byte) (reg : BitVec 32) :
    bytes.foldl crcByte reg = (bytes.flatMap (fun b => (List.range 8).map b.getLsbD)).foldl crcBit reg := by
  simp only [List.foldl_flatMap, List.foldl_map]
  rfl

theorem frameBytes_layout (k : FrameKind) (tag : Tag) (body : List Byte) :
    let covered := layout [(1, k.code.toNat), (2, body.length), (2, tag.toNat)] ++ body
    frameBytes k tag body = covered ++ layout [(4, (crc32 covered).toNat)] := by
  have hcovered : layout [(1, k.code.toNat), (2, body.length), (2, tag.toNat)] =
      [k.code] ++ beBytes 2 body.length ++ beBytes 2 tag.toNat := by
    simp [layout_cons]
  intro covered
  rw [layout_cons, layout_nil, List.append_nil]
  unfold covered frameBytes
  rw [hcovered]

/-! ### Slot entries (Table 11-6) -/

theorem slotEntry_free (own : Bool) (n : Nat) (g : Gen) :
    slotEntry own n { gen := g, body := .free } = layout [(2, n), (1, g.toNat), (1, 0), (43, 0)] := by
  simp [slotEntry, layout_cons]

/-- The last 12 bytes of a PENDING slot's entry are those of the fields that only a HELD slot has. -/
theorem beBytes_heldOnly : beBytes 12 0 = beBytes 2 0 ++ (beBytes 4 0 ++ (beBytes 4 0 ++ beBytes 2 0)) := rfl

theorem slotEntry_pending (own : Bool) (n : Nat) (g : Gen) (l : Lease) (d : Option Time) :
    slotEntry own n { gen := g, body := .pending l d } =
      layout [(2, n), (1, g.toNat), (1, 1), (1, l.volume.val), (5, l.start), (4, l.count), (1, l.mode.byte.toNat),
        (2, l.originTag.toNat),
        (2, bitsNat [false, l.holdLength.isSome, false, d.isSome, false, false, false, false, false, own]),
        (4, 0), (4, l.holdLength.getD 0), (4, 0), (4, (d.getD 0).toNat), (2, 0), (4, 0), (4, 0), (2, 0)] := by
  simp [slotEntry, pendingBytes, Lease.bytes, optBytes, timeBytes, beBytes_heldOnly, layout_cons]

theorem slotEntry_held (own : Bool) (n : Nat) (g : Gen) (l : Lease) (ten : Tenure) :
    let wait := ten.upgrade.bind (fun u => u.waitDeadline)
    let recalled := ten.recallMark.bind (fun m => m.deadline)
    slotEntry own n { gen := g, body := .held l ten } =
      layout [(2, n), (1, g.toNat), (1, 2), (1, l.volume.val), (5, l.start), (4, l.count), (1, l.mode.byte.toNat),
        (2, l.originTag.toNat),
        (2, bitsNat [ten.token.isSome, l.holdLength.isSome, ten.holdDeadline.isSome, false, ten.upgrade.isSome, wait.isSome,
          ten.recallMark.isSome, recalled.isSome, true, own]),
        (4, ten.token.getD 0), (4, l.holdLength.getD 0), (4, (ten.holdDeadline.getD 0).toNat), (4, 0),
        (2, (ten.upgrade.map (fun u => u.tag.toNat)).getD 0), (4, (wait.getD 0).toNat), (4, (recalled.getD 0).toNat),
        (2, ten.gateUse)] := by
  simp [slotEntry, heldBytes, Lease.bytes, optBytes, timeBytes, layout_cons]

/-! ### Records (R188) -/

theorem SlotBody.ownerByte_eq (b : SlotBody) : b.ownerByte = byteOf ((b.lease?.map (fun l => l.owner.val)).getD 0) := by
  cases b <;> rfl

theorem slotRecord_layout (n : Nat) (x : Slot) : (RecordCopy.slot n x).bytes =
    slotEntry true n x ++ layout [(1, (x.body.lease?.map (fun l => l.owner.val)).getD 0)] := by
  rw [layout_cons_byte, ← SlotBody.ownerByte_eq]
  rfl

theorem waitEntryRecord_layout (e : WaitEntry) : (RecordCopy.waitEntry (some e)).bytes =
    layout [(1, 1), (1, if e.kind = .upgrade then 1 else 0), (2, e.slot), (1, e.volume.val), (4, e.arrival.toNat)] := by
  obtain ⟨kind, _, _, _⟩ := e
  cases kind <;> simp [RecordCopy.bytes, waitEntryBytes, layout_cons, byteOf]

theorem sessionRecord_layout (x : Session) (slots : Nat) (place next : Option Nat) :
    (RecordCopy.session x slots place next).bytes =
      layout [(1, x.state.byte.toNat), (8, x.name.toNat), (4, x.number), (1, (x.port.map (fun p => p.val)).getD 255),
        (1, x.window), (2, x.quota), (2, slots), (1, x.countTags .queued), (1, x.countTags .parked), (1, x.cache.length),
        (1, x.term.byte.toNat), (4, (x.term.shown.getD 0).toNat), (4, (x.grace.shown.getD 0).toNat),
        (1, (closeByte x.closeKind).toNat), (1, x.queue.length), (2, x.nextSeq.toNat), (1, if x.overflow then 1 else 0),
        (1, place.getD 255), (1, next.getD 255), (1, bitsNat [x.term.shown.isSome, x.grace.shown.isSome])] := by
  simp [RecordCopy.bytes, sessionBytes, orFF, timeBytes, layout_cons]

/-! ### Answers and notices (R186) -/

theorem Answer.body_layout (a : Answer) :
    a.body = layout [(1, a.status.byte.toNat), (1, if a.replay then 1 else 0), (1, a.code.toNat)] ++ a.result.bytes := by
  simp [Answer.body]

@[simp] theorem Handle.bytes_layout (h : Handle) : h.bytes = layout [(2, h.slot), (1, h.gen.toNat)] := by
  simp [Handle.bytes, layout_cons]

theorem QueryEntry.bytes_layout (e : QueryEntry) :
    e.bytes = layout [(8, e.holder.toNat), (1, e.mode.byte.toNat), (5, e.start), (4, e.count)] := by
  simp [QueryEntry.bytes, layout_cons]

theorem GateReply.bytes_layout (r : GateReply) :
    r.bytes = frameBytes .answer (r.number.setWidth 16) (layout [(1, r.code.byte.toNat)]) := by
  rw [layout_cons_byte, byteOf_toNat]
  rfl

/-- Settles O59: each layout is the `…_layout` lemma of its frame, entry or record, and the fields of a result or a notice
stand side by side as its arm says; the tables of codes are read code by code (`codedFrom_cons`). -/
theorem framesAreLaidOut : Obligations.FramesAreLaidOut := by
  unfold Obligations.FramesAreLaidOut
  intro modeOf timeOf
  have hmode : ∀ m : Mode, modeOf m = m.byte.toNat := fun m => by cases m <;> rfl
  refine ⟨fun k n j => getElem?_beBytes n, length_beBytes, ?frame, ?crc, rfl, fun a => rfl, fun _ _ _ _ _ => rfl,
    GateReply.bytes_layout, Answer.body_layout, rfl, ?joined, ?lease, ?renewed, Handle.bytes_layout, ?waitEnd, ?leases, ?slots, ?granted,
    ?waitEnded, ?recalled, ?revoked, ?expired, rfl, slotEntry_free, ?pending, ?held, slotRecord_layout, rfl,
    waitEntryRecord_layout, ?session, ?volume, ?status, ?waitReason, ?revokeReason, ?gateCode, ?sessionState, ?volumeState⟩
  case frame =>
    intro k tag body
    cases k <;> exact frameBytes_layout _ tag body
  case crc => exact fun bytes => congrArg (fun reg => ~~~reg.reverse) (foldl_crcByte bytes _)
  case joined | lease | renewed | waitEnd | slots =>
    intros
    simp [Result.bytes, layout_cons, optBytes, hmode]
  case leases =>
    intros
    simp [Result.bytes, hmode, ← QueryEntry.bytes_layout]
  case granted | waitEnded | recalled | revoked | expired =>
    intros
    simp [Notice.body, layout_cons, optBytes, hmode, byteOf]
  case pending =>
    intro own n g l d
    rw [hmode]
    exact slotEntry_pending own n g l d
  case held =>
    intro own n g l ten
    rw [hmode]
    exact slotEntry_held own n g l ten
  case session =>
    intro x slots place next
    rw [sessionRecord_layout]
    cases x.term <;> cases x.grace <;> obtain _ | _ | _ := x.closeKind <;> rfl
  case volume =>
    intro v
    simp [RecordCopy.bytes, Volume.bytes, layout_cons]
  all_goals
    simp only [codedFrom_cons, codedFrom_nil]
    decide

end Sys2Proof.Machine

/-! SUPPORT. What the part reads: the number in a field of a body, the fields of a layout one after the other, and the bodies
of requests and gate queries, well formed and malformed (R185 to R187). -/

namespace Sys2Proof.Machine

/-! ### Numbers in bytes (R185) -/

/-- A number's first byte counts as many 256ths as bytes follow it. -/
theorem beNat_cons (b : Byte) (bytes : List Byte) : beNat (b :: bytes) = b.toNat * 256 ^ bytes.length + beNat bytes := by
  have hfold : ∀ acc : Nat, bytes.foldl (fun acc b => acc * 256 + b.toNat) acc = acc * 256 ^ bytes.length + beNat bytes := by
    unfold beNat
    induction bytes with
    | nil =>
      intro acc
      exact (Nat.mul_one acc).symm
    | cons c bytes ih =>
      intro acc
      rw [List.foldl_cons, List.foldl_cons, ih, ih (0 * 256 + c.toNat), List.length_cons, Nat.pow_succ', Nat.zero_mul,
        Nat.zero_add, Nat.add_mul, Nat.mul_assoc, Nat.add_assoc]
  have hfirst : beNat (b :: bytes) = bytes.foldl (fun acc b => acc * 256 + b.toNat) (0 * 256 + b.toNat) := rfl
  rw [hfirst, hfold, Nat.zero_mul, Nat.zero_add]

theorem beNat_lt (bytes : List Byte) : beNat bytes < 256 ^ bytes.length := by
  induction bytes with
  | nil => decide
  | cons b bytes ih =>
    have hb : b.toNat * 256 ^ bytes.length ≤ 255 * 256 ^ bytes.length := Nat.mul_le_mul_right _ (by have := b.isLt; omega)
    rw [beNat_cons, List.length_cons, Nat.pow_succ]
    omega

theorem beNat_beBytes (k n : Nat) : beNat (beBytes k n) = n % 256 ^ k := by
  induction k with
  | zero => exact (Nat.mod_one n).symm
  | succ k ih =>
    have hfirst : (BitVec.ofNat 8 (n / 256 ^ k)).toNat = n / 256 ^ k % 256 := BitVec.toNat_ofNat _ _
    rw [beBytes, beNat_cons, ih, length_beBytes, hfirst, Nat.pow_succ, Nat.mod_mul, Nat.mul_comm, Nat.add_comm]

/-- Two fields of the same length hold the same number only if they are the same bytes. -/
theorem beNat_inj : ∀ {xs ys : List Byte}, xs.length = ys.length → beNat xs = beNat ys → xs = ys
  | [], [], _, _ => rfl
  | x :: xs, y :: ys, hlen, hnum => by
    have hlen' : xs.length = ys.length := Nat.succ.inj hlen
    have hys := beNat_lt ys
    have hxs := hlen' ▸ beNat_lt xs
    rw [beNat_cons, beNat_cons, hlen', Nat.mul_comm, Nat.mul_comm y.toNat] at hnum
    have hpos : 0 < 256 ^ ys.length := Nat.pow_pos (by decide)
    have hrest : beNat xs = beNat ys := by
      have hmod := congrArg (· % 256 ^ ys.length) hnum
      simpa only [Nat.mul_add_mod, Nat.mod_eq_of_lt hxs, Nat.mod_eq_of_lt hys] using hmod
    have hfirst : x.toNat = y.toNat := Nat.eq_of_mul_eq_mul_left hpos (by omega)
    rw [BitVec.eq_of_toNat_eq hfirst, beNat_inj hlen' hrest]

/-- Bytes are laid out again by the number that they hold. -/
theorem beBytes_beNat (bytes : List Byte) : beBytes bytes.length (beNat bytes) = bytes :=
  beNat_inj (length_beBytes _ _) (by rw [beNat_beBytes, Nat.mod_eq_of_lt (beNat_lt bytes)])

/-! ### Fields of a body -/

theorem field_here (bytes rest : List Byte) : field (bytes ++ rest) 0 bytes.length = bytes := List.take_left

theorem field_skip {before : List Byte} {off : Nat} (h : before.length ≤ off) (rest : List Byte) (len : Nat) :
    field (before ++ rest) off len = field rest (off - before.length) len := by
  unfold field
  rw [List.drop_append, List.drop_eq_nil_of_le h, List.nil_append]

theorem fieldNat_beBytes {width value : Nat} (h : value < 256 ^ width) (rest : List Byte) :
    fieldNat (beBytes width value ++ rest) 0 width = value := by
  have hfield := field_here (beBytes width value) rest
  rw [length_beBytes] at hfield
  rw [fieldNat, hfield, beNat_beBytes, Nat.mod_eq_of_lt h]

theorem fieldNat_skip {before : List Byte} {off : Nat} (h : before.length ≤ off) (rest : List Byte) (len : Nat) :
    fieldNat (before ++ rest) off len = fieldNat rest (off - before.length) len := congrArg beNat (field_skip h rest len)

theorem fieldNat_beBytes_skip {width off : Nat} (h : width ≤ off) (value len : Nat) (rest : List Byte) :
    fieldNat (beBytes width value ++ rest) off len = fieldNat rest (off - width) len := by
  rw [fieldNat_skip (by rwa [length_beBytes]), length_beBytes]

theorem fieldNat_byte {before : List Byte} {off : Nat} (h : before.length = off) (b : Byte) (after : List Byte) :
    fieldNat (before ++ b :: after) off 1 = b.toNat := by
  rw [fieldNat_skip (Nat.le_of_eq h), h, Nat.sub_self]
  exact (Nat.zero_add _ : 0 * 256 + b.toNat = b.toNat)

/-! ### Fields of a layout -/

theorem fieldNat_layout_here {width value : Nat} (h : value < 256 ^ width) (fields : List (Nat × Nat)) :
    fieldNat (layout ((width, value) :: fields)) 0 width = value := fieldNat_beBytes h _

theorem fieldNat_layout_skip {width off : Nat} (h : width ≤ off) (value len : Nat) (fields : List (Nat × Nat)) :
    fieldNat (layout ((width, value) :: fields)) off len = fieldNat (layout fields) (off - width) len :=
  fieldNat_beBytes_skip h value len _

theorem layout_append (before after : List (Nat × Nat)) : layout (before ++ after) = layout before ++ layout after :=
  List.flatMap_append

theorem length_layout_cons (width value : Nat) (fields : List (Nat × Nat)) :
    (layout ((width, value) :: fields)).length = width + (layout fields).length := by
  rw [layout_cons, List.length_append, length_beBytes]

/-! ### Optional fields and flags -/

/-- The field of `width` bytes that a body has when its value is given (Table 11-3). -/
def optFields (width : Nat) (value : Option Nat) : List (Nat × Nat) := value.toList.map (fun v => (width, v))

theorem length_layout_optFields (width : Nat) (value : Option Nat) :
    (layout (optFields width value)).length = optLen value.isSome width := by
  cases value with
  | none => rfl
  | some v => exact length_layout_cons width v []

/-- An optional field is read back behind the fields before it. -/
theorem optField_layout (before : List (Nat × Nat)) {width : Nat} {value : Option Nat} (after : List (Nat × Nat))
    (h : ∀ v, value = some v → v < 256 ^ width) :
    optField value.isSome (layout (before ++ optFields width value ++ after)) (layout before).length width = value := by
  cases value with
  | none => rfl
  | some v =>
    have hread : fieldNat (layout (before ++ optFields width (some v) ++ after)) (layout before).length width = v := by
      rw [List.append_assoc, layout_append, fieldNat_skip (Nat.le_refl _), Nat.sub_self]
      exact fieldNat_layout_here (h v rfl) after
    exact congrArg some hread

theorem bitsNat_lt (bits : List Bool) : bitsNat bits < 2 ^ bits.length := by
  induction bits with
  | nil => decide
  | cons b bits ih =>
    have hb := b.toNat_lt
    rw [bitsNat, List.length_cons, Nat.pow_succ]
    omega

theorem testBit_bitsNat (bits : List Bool) (i : Nat) : (bitsNat bits).testBit i = bits.getD i false := by
  induction bits generalizing i with
  | nil => simp [bitsNat]
  | cons b bits ih =>
    cases i with
    | zero => cases b <;> simp [bitsNat, Nat.testBit_zero]
    | succ i =>
      have hhalf : (bitsNat (b :: bits)) / 2 = bitsNat bits := by
        have hb := b.toNat_lt
        rw [bitsNat]
        omega
      rw [Nat.testBit_succ, hhalf, ih, List.getD_cons_succ]

/-- Bit `i` of a flags byte is the flag that stands at `i`. -/
theorem getLsbD_flags (bits : List Bool) {i : Nat} (h : i < 8) :
    (BitVec.ofNat 8 (bitsNat bits)).getLsbD i = bits.getD i false := by
  rw [BitVec.getLsbD_ofNat, testBit_bitsNat, decide_eq_true h, Bool.true_and]

end Sys2Proof.Machine

/-! SUPPORT. The bodies of requests and gate queries, read from their fields, and the malformed ones told apart (R153, R186,
R187). -/

namespace Sys2Proof.Machine

/-! ### Kind codes (R153, R186) -/

theorem parseRequest_code (k : ReqKind) (rest : List Byte) : parseRequest (k.code :: rest) = parseFields k rest := by
  cases k <;> rfl

theorem parseRequest_layout (k : ReqKind) (fields : List (Nat × Nat)) :
    parseRequest (layout ((1, k.code.toNat) :: fields)) = parseFields k (layout fields) := by
  rw [layout_cons_byte, byteOf_toNat, parseRequest_code]

theorem parseRequest_unknown {c : Byte} (h : c = 0 ∨ 0x0B < c.toNat) (rest : List Byte) :
    parseRequest (c :: rest) = .unknown c := by
  have hcode : ∀ k : ReqKind, k.code ≠ c := by
    rintro k rfl
    cases k <;> revert h <;> decide
  have hnone : ReqKind.ofCode c = none := List.find?_eq_none.mpr fun k _ => by simpa using hcode k
  simp only [parseRequest, hnone]

/-! ### Modes and handles (R186) -/

theorem modeOfByte_byte (m : Mode) : modeOfByte m.byte.toNat = some m := by
  cases m <;> rfl

theorem modeOfByte_none {n : Nat} (h : 1 < n) : modeOfByte n = none := by
  unfold modeOfByte
  rw [if_neg (by omega), if_neg (by omega)]

theorem fieldHandle_layout {h : Handle} (hslot : h.slot < 2 ^ 16) (fields : List (Nat × Nat)) :
    fieldHandle (layout ((2, h.slot) :: (1, h.gen.toNat) :: fields)) 0 = h := by
  have hgen := h.gen.isLt
  simp (disch := omega) only [fieldHandle, fieldNat_layout_here, fieldNat_layout_skip, Nat.zero_add, Nat.sub_self,
    BitVec.ofNat_toNat, BitVec.setWidth_eq]

/-! ### Bodies with optional fields (Table 11-3) -/

/-- The fields of a JOIN up to its flags byte. -/
def joinFields (name : Name) (window : Nat) (reclaim : Option Nat) : List (Nat × Nat) :=
  [(8, name.toNat), (1, window), (1, bitsNat [reclaim.isSome])]

theorem parseJoin_layout (name : Name) {window : Nat} {reclaim : Option Nat} (hwindow : window < 256)
    (hreclaim : ∀ x, reclaim = some x → x < 2 ^ 32) :
    parseJoin (layout (joinFields name window reclaim ++ optFields 4 reclaim)) = .join name window reclaim := by
  have hname := name.isLt
  have hbits : bitsNat [reclaim.isSome] < 2 := bitsNat_lt [reclaim.isSome]
  have hflag : decide (bitsNat [reclaim.isSome] = 1) = reclaim.isSome := by cases reclaim <;> rfl
  have hopt := optField_layout (width := 4) (joinFields name window reclaim) [] hreclaim
  rw [List.append_nil, show (layout (joinFields name window reclaim)).length = 10 from rfl] at hopt
  simp only [joinFields, List.cons_append, List.nil_append] at hopt ⊢
  simp (disch := omega) only [parseJoin, fieldNat_layout_here, fieldNat_layout_skip, length_layout_cons,
    length_layout_optFields, Nat.reduceSub, Nat.sub_self, hflag, hopt, BitVec.ofNat_toNat, BitVec.setWidth_eq]
  exact if_pos ⟨by omega, by omega⟩

/-- The fields of an ACQUIRE up to its flags byte. -/
def AcquireReq.fields (a : AcquireReq) : List (Nat × Nat) :=
  [(1, a.volume), (5, a.start), (4, a.count), (1, a.mode.byte.toNat),
    (1, bitsNat [a.noWait, a.hold.isSome, a.waitLimit.isSome])]

theorem parseAcquire_layout {a : AcquireReq} (hvolume : a.volume < 2 ^ 8) (hstart : a.start < 2 ^ 40)
    (hcount : a.count < 2 ^ 32) (hhold : ∀ x, a.hold = some x → x < 2 ^ 32)
    (hwait : ∀ x, a.waitLimit = some x → x < 2 ^ 16) :
    parseAcquire (layout (a.fields ++ optFields 4 a.hold ++ optFields 2 a.waitLimit)) = .acquire a := by
  have hmode := a.mode.byte.isLt
  have hbits : bitsNat [a.noWait, a.hold.isSome, a.waitLimit.isSome] < 8 :=
    bitsNat_lt [a.noWait, a.hold.isSome, a.waitLimit.isSome]
  have hreadHold := optField_layout (width := 4) a.fields (optFields 2 a.waitLimit) hhold
  have hreadWait := optField_layout (width := 2) (a.fields ++ optFields 4 a.hold) [] hwait
  rw [show (layout a.fields).length = 12 from rfl] at hreadHold
  rw [List.append_nil, layout_append a.fields, List.length_append, length_layout_optFields,
    show (layout a.fields).length = 12 from rfl] at hreadWait
  simp only [AcquireReq.fields, List.cons_append, List.nil_append] at hreadHold hreadWait ⊢
  simp (disch := omega) only [parseAcquire, fieldNat_layout_here, fieldNat_layout_skip, length_layout_cons,
    layout_append, List.length_append, length_layout_optFields, Nat.reduceSub, Nat.sub_self, modeOfByte_byte,
    getLsbD_flags, List.getD_cons_zero, List.getD_cons_succ, BitVec.toNat_ofNat, Nat.mod_eq_of_lt] at hreadHold hreadWait ⊢
  rw [hreadHold, hreadWait]
  exact if_pos ⟨by omega, hbits⟩

/-- The fields of a CONVERT up to its flags byte. -/
def ConvertReq.fields (c : ConvertReq) : List (Nat × Nat) :=
  [(2, c.handle.slot), (1, c.handle.gen.toNat), (1, c.mode.byte.toNat), (1, bitsNat [c.noWait, false, c.waitLimit.isSome])]

theorem parseConvert_layout {c : ConvertReq} (hslot : c.handle.slot < 2 ^ 16)
    (hwait : ∀ x, c.waitLimit = some x → x < 2 ^ 16) :
    parseConvert (layout (c.fields ++ optFields 2 c.waitLimit)) = .convert c := by
  have hmode := c.mode.byte.isLt
  have hbits : bitsNat [c.noWait, false, c.waitLimit.isSome] < 8 := bitsNat_lt [c.noWait, false, c.waitLimit.isSome]
  have hread := optField_layout (width := 2) c.fields [] hwait
  rw [List.append_nil, show (layout c.fields).length = 5 from rfl] at hread
  simp only [ConvertReq.fields, List.cons_append, List.nil_append] at hread ⊢
  simp (disch := omega) only [parseConvert, fieldNat_layout_here, fieldNat_layout_skip, fieldHandle_layout,
    length_layout_cons, length_layout_optFields, Nat.reduceSub, Nat.sub_self, modeOfByte_byte, getLsbD_flags,
    List.getD_cons_zero, List.getD_cons_succ, BitVec.toNat_ofNat, Nat.mod_eq_of_lt, hread]
  exact if_pos ⟨by omega, hbits, trivial⟩

/-- The fields of a RENEW up to its flags byte. -/
def renewFields (h : Handle) (hold : Option Nat) : List (Nat × Nat) :=
  [(2, h.slot), (1, h.gen.toNat), (1, bitsNat [false, hold.isSome])]

theorem parseRenew_layout {h : Handle} {hold : Option Nat} (hslot : h.slot < 2 ^ 16)
    (hhold : ∀ x, hold = some x → x < 2 ^ 32) :
    parseRenew (layout (renewFields h hold ++ optFields 4 hold)) = .renew h hold := by
  have hbits : bitsNat [false, hold.isSome] < 4 := bitsNat_lt [false, hold.isSome]
  have hflag : decide (bitsNat [false, hold.isSome] = 2) = hold.isSome := by cases hold <;> rfl
  have hdefined : bitsNat [false, hold.isSome] = 0 ∨ bitsNat [false, hold.isSome] = 2 := by cases hold <;> simp [bitsNat]
  have hread := optField_layout (width := 4) (renewFields h hold) [] hhold
  rw [List.append_nil, show (layout (renewFields h hold)).length = 4 from rfl] at hread
  simp only [renewFields, List.cons_append, List.nil_append] at hread ⊢
  simp (disch := omega) only [parseRenew, fieldNat_layout_here, fieldNat_layout_skip, fieldHandle_layout,
    length_layout_cons, length_layout_optFields, Nat.reduceSub, Nat.sub_self, hflag, hread]
  exact if_pos ⟨by omega, hdefined⟩

/-! ### Bodies of one length (Table 11-3) -/

theorem parseFields_release {h : Handle} (hslot : h.slot < 2 ^ 16) :
    parseFields .release (layout [(2, h.slot), (1, h.gen.toNat)]) = .release h :=
  congrArg ReqBody.release (fieldHandle_layout hslot [])

theorem parseFields_cancel (tag : Tag) : parseFields .cancel (layout [(2, tag.toNat)]) = .cancel tag := by
  have hread := fieldNat_layout_here (width := 2) tag.isLt []
  have hparse : parseFields .cancel (layout [(2, tag.toNat)]) =
    .cancel (BitVec.ofNat 16 (fieldNat (layout [(2, tag.toNat)]) 0 2)) := rfl
  rw [hparse, hread, BitVec.ofNat_toNat, BitVec.setWidth_eq]

theorem parseQuery_layout {volume start count : Nat} (hvolume : volume < 2 ^ 8) (hstart : start < 2 ^ 40)
    (hcount : count < 2 ^ 32) : parseQuery (layout [(1, volume), (5, start), (4, count)]) = .query volume start count := by
  simp (disch := omega) only [parseQuery, fieldNat_layout_here, fieldNat_layout_skip, length_layout_cons, Nat.reduceSub,
    Nat.sub_self]
  rfl

theorem parseFields_list {cursor : Nat} (h : cursor < 2 ^ 16) :
    parseFields .list (layout [(2, cursor)]) = .list cursor :=
  congrArg ReqBody.list (fieldNat_layout_here (width := 2) h [])

/-! ### Malformed bodies (R186) -/

theorem parseJoin_malformed {fields : List Byte} {flags : Byte} {tail : List Byte} (hfields : fields.length = 9)
    (h : 1 < flags.toNat ∨ tail.length ≠ (if flags = 1 then 4 else 0)) :
    parseJoin (fields ++ flags :: tail) = .malformed .join := by
  have hone : flags = 1 ↔ flags.toNat = 1 := BitVec.toNat_inj.symm
  unfold parseJoin
  rw [fieldNat_byte hfields]
  refine if_neg fun ⟨hlen, hflags⟩ => ?_
  simp only [List.length_append, List.length_cons, hfields, optLen, decide_eq_true_eq] at hlen
  simp only [hone] at h
  omega

theorem parseAcquire_malformed {fields : List Byte} {mode flags : Byte} {tail : List Byte} (hfields : fields.length = 10)
    (h : 1 < mode.toNat ∨ 7 < flags.toNat ∨
      tail.length ≠ (if flags.getLsbD 1 then 4 else 0) + (if flags.getLsbD 2 then 2 else 0)) :
    parseAcquire (fields ++ mode :: flags :: tail) = .malformed .acquire := by
  have hflags : fieldNat (fields ++ mode :: flags :: tail) 11 1 = flags.toNat := by
    rw [List.append_cons]
    exact fieldNat_byte (by simp [hfields]) flags tail
  unfold parseAcquire
  rw [fieldNat_byte hfields, hflags, BitVec.ofNat_toNat, BitVec.setWidth_eq]
  obtain hmode | h := h
  · rw [modeOfByte_none hmode]
  · cases modeOfByte mode.toNat with
    | none => rfl
    | some m =>
      refine if_neg fun ⟨hlen, hsmall⟩ => ?_
      simp only [List.length_append, List.length_cons, hfields, optLen] at hlen
      omega

theorem parseConvert_malformed {fields : List Byte} {mode flags : Byte} {tail : List Byte} (hfields : fields.length = 3)
    (h : 1 < mode.toNat ∨ 7 < flags.toNat ∨ flags.getLsbD 1 = true ∨ tail.length ≠ (if flags.getLsbD 2 then 2 else 0)) :
    parseConvert (fields ++ mode :: flags :: tail) = .malformed .convert := by
  have hflags : fieldNat (fields ++ mode :: flags :: tail) 4 1 = flags.toNat := by
    rw [List.append_cons]
    exact fieldNat_byte (by simp [hfields]) flags tail
  unfold parseConvert
  rw [fieldNat_byte hfields, hflags, BitVec.ofNat_toNat, BitVec.setWidth_eq]
  obtain hmode | h := h
  · rw [modeOfByte_none hmode]
  · cases modeOfByte mode.toNat with
    | none => rfl
    | some m =>
      refine if_neg fun ⟨hlen, hsmall, hhold⟩ => ?_
      simp only [List.length_append, List.length_cons, hfields, optLen] at hlen
      simp only [hhold, Bool.false_eq_true, false_or] at h
      omega

theorem parseRenew_malformed {fields : List Byte} {flags : Byte} {tail : List Byte} (hfields : fields.length = 3)
    (h : (flags ≠ 0 ∧ flags ≠ 2) ∨ tail.length ≠ (if flags = 2 then 4 else 0)) :
    parseRenew (fields ++ flags :: tail) = .malformed .renew := by
  have hzero : flags = 0 ↔ flags.toNat = 0 := BitVec.toNat_inj.symm
  have htwo : flags = 2 ↔ flags.toNat = 2 := BitVec.toNat_inj.symm
  unfold parseRenew
  rw [fieldNat_byte hfields]
  refine if_neg fun ⟨hlen, hdefined⟩ => ?_
  simp only [List.length_append, List.length_cons, hfields, optLen, decide_eq_true_eq] at hlen
  simp only [Ne, hzero, htwo] at h
  omega

/-- The lengths that Table 11-3 gives the fields of each kind of request, after the kind code. -/
def ReqKind.lengths : ReqKind → List Nat
  | .join => [10, 14]
  | .keepalive => [0]
  | .acquire => [12, 14, 16, 18]
  | .convert => [5, 7]
  | .renew => [4, 8]
  | .release => [3]
  | .cancel => [2]
  | .query => [10]
  | .list => [2]
  | .noticeAck => [2]
  | .depart => [0]

theorem optLen_cases (flag : Bool) (len : Nat) : optLen flag len = 0 ∨ optLen flag len = len := by
  cases flag
  · exact .inl rfl
  · exact .inr rfl

/-- Fields of no length of their kind are malformed (R186). -/
theorem parseFields_wrongLength (k : ReqKind) {b : List Byte} (h : b.length ∉ k.lengths) :
    parseFields k b = .malformed k := by
  cases k with
  | join =>
    have hopt := optLen_cases (fieldNat b 9 1 = 1) 4
    refine if_neg fun ⟨hlen, _⟩ => h ?_
    simp only [ReqKind.lengths, List.mem_cons, hlen]
    omega
  | acquire =>
    have hhold := optLen_cases ((BitVec.ofNat 8 (fieldNat b 11 1)).getLsbD 1) 4
    have hwait := optLen_cases ((BitVec.ofNat 8 (fieldNat b 11 1)).getLsbD 2) 2
    unfold parseFields parseAcquire
    cases modeOfByte (fieldNat b 10 1) with
    | none => rfl
    | some m =>
      refine if_neg fun ⟨hlen, _⟩ => h ?_
      simp only [ReqKind.lengths, List.mem_cons, hlen]
      omega
  | convert =>
    have hwait := optLen_cases ((BitVec.ofNat 8 (fieldNat b 4 1)).getLsbD 2) 2
    unfold parseFields parseConvert
    cases modeOfByte (fieldNat b 3 1) with
    | none => rfl
    | some m =>
      refine if_neg fun ⟨hlen, _⟩ => h ?_
      simp only [ReqKind.lengths, List.mem_cons, hlen]
      omega
  | renew =>
    have hopt := optLen_cases (fieldNat b 3 1 = 2) 4
    refine if_neg fun ⟨hlen, _⟩ => h ?_
    simp only [ReqKind.lengths, List.mem_cons, hlen]
    omega
  | _ => exact if_neg fun hlen => h (by rw [hlen]; decide)

/-- Fields of kind `k`, well formed or not, are a request of kind `k`. -/
theorem kind?_parseFields (k : ReqKind) (b : List Byte) : (parseFields k b).kind? = some k := by
  cases k with
  | acquire =>
    unfold parseFields parseAcquire
    cases modeOfByte (fieldNat b 10 1) with
    | none => rfl
    | some m => exact (apply_ite ReqBody.kind? _ _ _).trans (ite_self _)
  | convert =>
    unfold parseFields parseConvert
    cases modeOfByte (fieldNat b 3 1) with
    | none => rfl
    | some m => exact (apply_ite ReqBody.kind? _ _ _).trans (ite_self _)
  | _ => exact (apply_ite ReqBody.kind? _ _ _).trans (ite_self _)

/-! ### Gate queries (R187) -/

/-- The control byte gives the path and the access, the bytes after it the other fields. -/
theorem parseGateQuery_layout (tag : BitVec 16) {control volume start count token : Nat} (hcontrol : control < 2 ^ 8)
    (hvolume : volume < 2 ^ 8) (hstart : start < 2 ^ 40) (hcount : count < 2 ^ 16) (htoken : token < 2 ^ 32) :
    parseGateQuery tag (layout [(1, control), (1, volume), (5, start), (2, count), (4, token)]) =
      { number := tag.extractLsb' 0 8, path := ((BitVec.ofNat 8 control).extractLsb' 0 3).toNat, volume := volume,
        start := start, count := count, access := accessOfBits ((BitVec.ofNat 8 control).extractLsb' 4 2).toNat,
        token := token } := by
  simp (disch := omega) only [parseGateQuery, fieldNat_layout_here, fieldNat_layout_skip, Nat.reduceSub, Nat.sub_self]

/-- Bits 2..0 of a control byte, as a number. -/
theorem toNat_extract_path (control : Nat) : ((BitVec.ofNat 8 control).extractLsb' 0 3).toNat = control % 8 := by
  simp

/-- Bits 5..4 of a control byte, as a number. -/
theorem toNat_extract_access (control : Nat) :
    ((BitVec.ofNat 8 control).extractLsb' 4 2).toNat = control / 16 % 4 := by
  simp only [BitVec.extractLsb'_toNat, BitVec.toNat_ofNat, Nat.shiftRight_eq_div_pow]
  omega

/-- Of the control byte a query has the path and the access alone. -/
theorem parseGateQuery_cons (tag : BitVec 16) (c : Byte) (fields : List Byte) : parseGateQuery tag (c :: fields) =
    { number := tag.extractLsb' 0 8, path := (c.extractLsb' 0 3).toNat, volume := fieldNat fields 0 1,
      start := fieldNat fields 1 5, count := fieldNat fields 6 2, access := accessOfBits (c.extractLsb' 4 2).toNat,
      token := fieldNat fields 8 4 } := by
  have hcontrol : fieldNat (c :: fields) 0 1 = c.toNat := fieldNat_byte (before := []) rfl c fields
  unfold parseGateQuery
  rw [hcontrol, BitVec.ofNat_toNat, BitVec.setWidth_eq]
  rfl

/-- A query with an access code that is neither READ nor WRITE is refused with DENY_FORMAT (R137). -/
theorem State.lookup_otherAccess (s : State) {q : GateQuery} (h : q.access = .other) : s.lookup q = (.denyFormat, none) :=
  s.lookup_unformed fun ⟨_, haccess, _⟩ => haccess h

/-- Settles O48: the fields are `parseGateQuery_layout`, the bits that are not read `parseGateQuery_cons`. -/
theorem gateBodiesAreCoded : Obligations.GateBodiesAreCoded := by
  refine ⟨fun tag control volume start count token hvolume hstart hcount htoken => ?fields, ?unread,
    GateReply.bytes_layout, ?codes⟩
  case fields =>
    intro body q
    have hq : q = _ := parseGateQuery_layout tag control.isLt hvolume hstart hcount htoken
    rw [BitVec.ofNat_toNat, BitVec.setWidth_eq] at hq
    have haccess : q.access = accessOfBits (control.extractLsb' 4 2).toNat := congrArg GateQuery.access hq
    refine ⟨by simp [body, layout_cons], congrArg GateQuery.path hq, congrArg GateQuery.volume hq,
      congrArg GateQuery.start hq, congrArg GateQuery.count hq, congrArg GateQuery.token hq, fun hread => ?_,
      fun hwrite => ?_, fun hother s => s.lookup_otherAccess ?_⟩
    · rw [haccess, hread]
      rfl
    · rw [haccess, hwrite]
      rfl
    · rw [haccess]
      obtain hcode | hcode := hother <;> rw [hcode] <;> rfl
  case unread =>
    intro tag c d fields hpath haccess
    rw [parseGateQuery_cons, parseGateQuery_cons, hpath, haccess]
  case codes =>
    simp only [codedFrom_cons, codedFrom_nil]
    decide

end Sys2Proof.Machine

/-! SUPPORT. The frame check on arrival: what the bytes of a frame are taken for on each kind of port, and that bytes which
pass the check are a frame (R132, R148, R185). -/

namespace Sys2Proof.Machine

/-! ### Fields and the bytes around them -/

theorem field_append_left {a : List Byte} {off len : Nat} (h : off + len ≤ a.length) (b : List Byte) :
    field (a ++ b) off len = field a off len := by
  unfold field
  rw [List.drop_append_of_le_length (by omega), List.take_append_of_le_length (by rw [List.length_drop]; omega)]

theorem fieldNat_append_left {a : List Byte} {off len : Nat} (h : off + len ≤ a.length) (b : List Byte) :
    fieldNat (a ++ b) off len = fieldNat a off len := congrArg beNat (field_append_left h b)

theorem fieldNat_lt (b : List Byte) (off len : Nat) : fieldNat b off len < 256 ^ len :=
  Nat.lt_of_lt_of_le (beNat_lt _) (Nat.pow_le_pow_right (by decide) (List.length_take_le _ _))

/-- The bytes from an offset on are the number in the field there, laid out again, and the bytes after the field. -/
theorem drop_eq_field {b : List Byte} {off len : Nat} (h : off + len ≤ b.length) :
    b.drop off = beBytes len (fieldNat b off len) ++ b.drop (off + len) := by
  have hlen : (field b off len).length = len := by
    unfold field
    rw [List.length_take, List.length_drop]
    omega
  have hfield := beBytes_beNat (field b off len)
  rw [hlen] at hfield
  rw [fieldNat, hfield, field, ← List.drop_drop, List.take_append_drop]

/-! ### Frames taken apart (R185) -/

/-- The bytes of a frame that its CRC covers. -/
def FrameKind.covered (k : FrameKind) (tag : Tag) (body : List Byte) : List Byte :=
  beBytes 1 k.code.toNat ++ (beBytes 2 body.length ++ (beBytes 2 tag.toNat ++ body))

theorem FrameKind.length_covered (k : FrameKind) (tag : Tag) (body : List Byte) :
    (k.covered tag body).length = body.length + 5 := by
  simp only [FrameKind.covered, List.length_append, length_beBytes]
  omega

theorem frameBytes_covered (k : FrameKind) (tag : Tag) (body : List Byte) :
    frameBytes k tag body = k.covered tag body ++ beBytes 4 (crc32 (k.covered tag body)).toNat := by
  have hcovered : k.covered tag body = [k.code] ++ beBytes 2 body.length ++ beBytes 2 tag.toNat ++ body := by
    simp [FrameKind.covered]
  rw [hcovered]
  rfl

/-- The last four bytes are the CRC, and the fields stand in the bytes before them. -/
theorem rawFrame_append {covered crc : List Byte} (hcovered : 5 ≤ covered.length) (hcrc : crc.length = 4) :
    rawFrame (covered ++ crc) =
      { kind := BitVec.ofNat 8 (fieldNat covered 0 1), length := fieldNat covered 1 2,
        tag := BitVec.ofNat 16 (fieldNat covered 3 2), body := covered.drop 5, covered := covered, crc := beNat crc } := by
  have hcut : (covered ++ crc).length - 4 = covered.length := by
    rw [List.length_append, hcrc, Nat.add_sub_cancel]
  simp (disch := omega) only [rawFrame, hcut, List.take_left, List.drop_left, fieldNat_append_left]

theorem rawFrame_frameBytes (k : FrameKind) (tag : Tag) {body : List Byte} (h : body.length < 65536) :
    rawFrame (frameBytes k tag body) =
      { kind := k.code, length := body.length, tag := tag, body := body, covered := k.covered tag body,
        crc := (crc32 (k.covered tag body)).toNat } := by
  have hkind := k.code.isLt
  have htag := tag.isLt
  have hcrc : beNat (beBytes 4 (crc32 (k.covered tag body)).toNat) = (crc32 (k.covered tag body)).toNat := by
    rw [beNat_beBytes]
    exact Nat.mod_eq_of_lt (crc32 _).isLt
  have hbody : (k.covered tag body).drop 5 = body := rfl
  rw [frameBytes_covered, rawFrame_append (by rw [k.length_covered]; omega) (length_beBytes _ _), hcrc, hbody]
  simp (disch := omega) only [FrameKind.covered, fieldNat_beBytes, fieldNat_beBytes_skip, Nat.reduceSub, Nat.sub_self,
    BitVec.ofNat_toNat, BitVec.setWidth_eq]

/-! ### The check (R148, R185) -/

theorem frameIntact_iff (bytes : List Byte) : frameIntact bytes = true ↔
    bytes.length = (rawFrame bytes).length + 9 ∧ (crc32 (rawFrame bytes).covered).toNat = (rawFrame bytes).crc := by
  simp only [frameIntact, Bool.and_eq_true, decide_eq_true_eq]

theorem FrameKind.ofCode_iff {c : Byte} {k : FrameKind} : FrameKind.ofCode c = some k ↔ k.code = c := by
  constructor
  · intro h
    simpa using List.find?_some h
  · rintro rfl
    cases k <;> rfl

/-- A frame passes the check if the length of its body lies in the bounds of its kind. -/
theorem goodKind_frameBytes (bounds : FrameKind → Nat → Bool) (k : FrameKind) (tag : Tag) {body : List Byte}
    (h : body.length < 65536) :
    goodKind bounds (frameBytes k tag body) = if bounds k body.length then some k else none := by
  have hintact : frameIntact (frameBytes k tag body) = true := by
    rw [frameIntact_iff, rawFrame_frameBytes k tag h, frameBytes_covered, List.length_append, k.length_covered,
      length_beBytes]
    exact ⟨rfl, rfl⟩
  unfold goodKind
  rw [if_pos hintact, rawFrame_frameBytes k tag h]
  simp only [FrameKind.ofCode_iff.mpr rfl]

/-- Bytes of the length that their own length field gives are those that the CRC of a frame covers. -/
theorem FrameKind.eq_covered {k : FrameKind} {bytes : List Byte} (hkind : k.code = BitVec.ofNat 8 (fieldNat bytes 0 1))
    (hlen : bytes.length = fieldNat bytes 1 2 + 5) :
    bytes = k.covered (BitVec.ofNat 16 (fieldNat bytes 3 2)) (bytes.drop 5) := by
  have htag : (BitVec.ofNat 16 (fieldNat bytes 3 2)).toNat = fieldNat bytes 3 2 :=
    (BitVec.toNat_ofNat _ _).trans (Nat.mod_eq_of_lt (fieldNat_lt bytes 3 2))
  have hcode : k.code.toNat = fieldNat bytes 0 1 := by
    rw [hkind, BitVec.toNat_ofNat]
    exact Nat.mod_eq_of_lt (fieldNat_lt bytes 0 1)
  rw [FrameKind.covered, htag, hcode, List.length_drop, hlen, Nat.add_sub_cancel, ← drop_eq_field (off := 3) (by omega),
    ← drop_eq_field (off := 1) (by omega)]
  exact drop_eq_field (off := 0) (by omega)

/-- Bytes whose length and CRC are right are a frame of their kind. -/
theorem exists_frame_of_intact {bytes : List Byte} {k : FrameKind} (hintact : frameIntact bytes = true)
    (hkind : FrameKind.ofCode (rawFrame bytes).kind = some k) :
    ∃ tag body, body.length < 65536 ∧ bytes = frameBytes k tag body := by
  obtain ⟨hlen, hcrc⟩ := (frameIntact_iff bytes).mp hintact
  obtain ⟨covered, crc, rfl, hfour⟩ : ∃ covered crc, bytes = covered ++ crc ∧ crc.length = 4 :=
    ⟨bytes.take (bytes.length - 4), bytes.drop (bytes.length - 4), (List.take_append_drop _ _).symm, by
      rw [List.length_drop]
      omega⟩
  rw [List.length_append, hfour] at hlen
  rw [rawFrame_append (by omega) hfour] at hlen hcrc hkind
  dsimp only at hlen hcrc hkind
  have hbody := fieldNat_lt covered 1 2
  have hcovered := FrameKind.eq_covered (FrameKind.ofCode_iff.mp hkind) (Nat.add_right_cancel (m := 4) hlen)
  refine ⟨BitVec.ofNat 16 (fieldNat covered 3 2), covered.drop 5, by rw [List.length_drop]; omega, ?_⟩
  rw [frameBytes_covered, ← hcovered, hcrc, ← hfour, beBytes_beNat]

theorem exists_frame_of_goodKind {bounds : FrameKind → Nat → Bool} {bytes : List Byte} {k : FrameKind}
    (h : goodKind bounds bytes = some k) : ∃ tag body, body.length < 65536 ∧ bytes = frameBytes k tag body := by
  unfold goodKind at h
  split at h
  next hintact =>
    split at h
    next k' hkind =>
      split at h
      · cases h
        exact exists_frame_of_intact hintact hkind
      · cases h
    next => cases h
  next => cases h

theorem goodKind_none {bytes : List Byte} (h : ∀ k tag body, body.length < 65536 → bytes ≠ frameBytes k tag body)
    (bounds : FrameKind → Nat → Bool) : goodKind bounds bytes = none :=
  Option.eq_none_iff_forall_ne_some.mpr fun k hk =>
    have ⟨tag, body, hbody, heq⟩ := exists_frame_of_goodKind hk
    h k tag body hbody heq

/-! ### What arrives (R131, R132, R146, R148) -/

/-- What a frame of kind `k` that passes its check is on Requester Port `p`. -/
def rpFrame (p : PortId) (tag : Tag) (body : List Byte) : FrameKind → Instr
  | .hello => .helloReceive p
  | .request => .requestIntake p tag body
  | .answer => .discardedFrame p .answer
  | .notice => .discardedFrame p .notice
  | .query => .badFrame p

/-- What a frame of kind `k` that passes its check is on the Gate Port. -/
def gateFrame (tag : Tag) (body : List Byte) : FrameKind → Instr
  | .hello => .gateHelloReceive
  | .query => .gateQuery tag body
  | .answer => .gateDiscardedFrame .answer
  | .request => .gateBadFrame
  | .notice => .gateBadFrame

theorem rpArrival_frameBytes (p : PortId) (k : FrameKind) (tag : Tag) {body : List Byte} (h : body.length < 65536) :
    rpArrival p (frameBytes k tag body) = if k.rpBounds body.length then rpFrame p tag body k else .badFrame p := by
  unfold rpArrival
  rw [goodKind_frameBytes _ k tag h, rawFrame_frameBytes k tag h]
  cases k.rpBounds body.length with
  | false => rfl
  | true => cases k <;> rfl

theorem gateArrival_frameBytes (k : FrameKind) (tag : Tag) {body : List Byte} (h : body.length < 65536) :
    gateArrival (frameBytes k tag body) = if k.gateBounds body.length then gateFrame tag body k else .gateBadFrame := by
  unfold gateArrival
  rw [goodKind_frameBytes _ k tag h, rawFrame_frameBytes k tag h]
  cases k.gateBounds body.length with
  | false => rfl
  | true => cases k <;> rfl

/-- Settles O60: a body is read back by the lemma of its kind (`parseJoin_layout` and its like), told apart when it is not
well formed by the `…_malformed` lemmas and `parseFields_wrongLength`; the frame check is `rpArrival_frameBytes`,
`gateArrival_frameBytes` and, for bytes that are no frame, `goodKind_none`. -/
theorem requestsAreRead : Obligations.RequestsAreRead := by
  unfold Obligations.RequestsAreRead
  intro modeOf opt
  have hmode : ∀ m : Mode, modeOf m = m.byte.toNat := fun m => by cases m <;> rfl
  refine ⟨?join, parseRequest_layout .keepalive [], ?acquire, ?convert, ?renew, ?release, ?cancel, ?query, ?list,
    parseRequest_noticeAck, parseRequest_layout .depart [], ?codes, ?kinds, fun c rest h => parseRequest_unknown h rest,
    ?lengths, ?joinMalformed, ?acquireMalformed, ?convertMalformed, ?renewMalformed, ?frames, ?badFrames, ?gateQuery⟩
  case join =>
    intro name window reclaim hwindow hreclaim
    exact (parseRequest_layout .join _).trans (parseJoin_layout name hwindow hreclaim)
  case acquire =>
    intro a hvolume hstart hcount hhold hwait
    rw [hmode]
    exact (parseRequest_layout .acquire _).trans (parseAcquire_layout hvolume hstart hcount hhold hwait)
  case convert =>
    intro c hslot hwait
    rw [hmode]
    exact (parseRequest_layout .convert _).trans (parseConvert_layout hslot hwait)
  case renew =>
    intro h hold hslot hhold
    exact (parseRequest_layout .renew _).trans (parseRenew_layout hslot hhold)
  case release => exact fun h hslot => (parseRequest_layout .release _).trans (parseFields_release hslot)
  case cancel => exact fun tag => (parseRequest_layout .cancel _).trans (parseFields_cancel tag)
  case query =>
    intro volume start count hvolume hstart hcount
    exact (parseRequest_layout .query _).trans (parseQuery_layout hvolume hstart hcount)
  case list => exact fun cursor h => (parseRequest_layout .list _).trans (parseFields_list h)
  case codes =>
    simp only [codedFrom_cons, codedFrom_nil]
    decide
  case kinds =>
    intro k rest
    rw [parseRequest_code]
    exact kind?_parseFields k rest
  case lengths =>
    intro k lengths rest hmem hlen
    have hlengths : lengths = k.lengths := by
      revert hmem
      cases k <;> simp [ReqKind.lengths]
    rw [parseRequest_code]
    exact parseFields_wrongLength k (hlengths ▸ hlen)
  case joinMalformed =>
    intro fields flags tail hfields h
    exact (parseRequest_code .join _).trans (parseJoin_malformed hfields h)
  case acquireMalformed =>
    intro fields mode flags tail hfields h
    exact (parseRequest_code .acquire _).trans (parseAcquire_malformed hfields h)
  case convertMalformed =>
    intro fields mode flags tail hfields h
    exact (parseRequest_code .convert _).trans (parseConvert_malformed hfields h)
  case renewMalformed =>
    intro fields flags tail hfields h
    exact (parseRequest_code .renew _).trans (parseRenew_malformed hfields h)
  case frames =>
    intro p tag body h
    simp only [rpArrival_frameBytes p _ tag h, gateArrival_frameBytes _ tag h, FrameKind.rpBounds, FrameKind.gateBounds,
      rpFrame, gateFrame, beq_iff_eq, List.length_eq_zero_iff, Bool.and_eq_true, decide_eq_true_eq, Bool.false_eq_true,
      if_false, and_self]
  case badFrames =>
    intro p bytes h
    unfold rpArrival gateArrival
    rw [goodKind_none h, goodKind_none h]
    exact ⟨rfl, rfl⟩
  case gateQuery =>
    intro tag control volume start count token hcontrol hvolume hstart hcount htoken
    rw [parseGateQuery_layout tag hcontrol hvolume hstart hcount htoken, toNat_extract_path, toNat_extract_access]
    rfl

end Sys2Proof.Machine
